-- ==== Sys2Proof/Word.lean ====
section
/-!
DEFINITION. The word types of the block. 10_state.md section 3: registers are 32 bits wide; 20_memory.md
rule R101: AU and RBSP hold bytes; 30_encoding.md rule R160: a µop is one 64-bit word.
-/

namespace Sys2Proof

/-- A 32-bit register or data word (00_scope.md R12, 10_state.md section 3). -/
abbrev Word := BitVec 32

/-- One byte of the AU or RBSP buffer. -/
abbrev Byte := BitVec 8

/-- One 64-bit word of the micro-program store (30_encoding.md R160). -/
abbrev UopWord := BitVec 64

/-- `trunc_32` of an unsigned number (00_scope.md R13). -/
abbrev word (n : Nat) : Word := BitVec.ofNat 32 n

end Sys2Proof
end

