-- ==== Sys2Proof/Config.lean ====
section
/-!
DEFINITION. What an instance of the block fixes (the parameters of 00_scope.md R12) and the values the spec
leaves open (93_implementation_defined.md Part 1, treatment "any value"), as constants without a body.
-/

namespace Sys2Proof.Config

/-- The parameters of 00_scope.md R12 that an instance chooses. RBSP_CAP equals AU_CAP. -/
structure Params where
  auCap     : Nat
  naltCap   : Nat
  ustoreCap : Nat
  recCap    : Nat
  maxSteps  : Nat
deriving DecidableEq, Repr

/-- RBSP_CAP is fixed: equal to AU_CAP (00_scope.md R12). -/
abbrev Params.rbspCap (p : Params) : Nat := p.auCap

/-- The limits 00_scope.md R12 sets on each parameter. -/
abbrev Params.valid (p : Params) : Prop :=
  (1 ≤ p.auCap ∧ p.auCap ≤ 2 ^ 24) ∧
  (1 ≤ p.naltCap ∧ p.naltCap ≤ 3840) ∧
  (1 ≤ p.ustoreCap ∧ p.ustoreCap ≤ 8192) ∧
  (32 ≤ p.recCap ∧ p.recCap ≤ 16384 ∧ p.recCap % 32 = 0) ∧
  (1 ≤ p.maxSteps ∧ p.maxSteps ≤ 2 ^ 32 - 1)

/-- The default of each parameter (00_scope.md R12). -/
def defaults : Params where
  auCap := 1048576
  naltCap := 256
  ustoreCap := 1024
  recCap := 1024
  maxSteps := 1048576

/-- The unspecified element at index `addr` of a memory whose contents are unspecified
(70_reset_and_hazards.md R703; 93 I1, I7, I8, I18). `tag` names the memory and the event that made it
unspecified, so that no two of them share a value. A free value: log entry 4. -/
opaque unspecified (w tag addr : Nat) : BitVec w

/-- The value of the `n`-th host read that the spec lets return any value (10_state.md R53,
20_memory.md R117). A free value: log entry 7. -/
opaque busyRead (n : Nat) : Word

/-- The `n`-th choice the refill path makes (10_state.md R58, 41_bit_reader.md R210).
A free value: log entry 6. -/
opaque refillChoice (n : Nat) : Nat

end Sys2Proof.Config
end

