-- ==== Sys2Proof/Machine/State.lean ====
section
/-!
DEFINITION. The state of the block as plain data (10_state.md R30), the reasons a step can stop, and the state
after reset (70_reset_and_hazards.md R700-R704). Field docstrings name the rule that gives the field; the last
six fields of State are the model's own (INVENTORY.md, State).
-/

namespace Sys2Proof.Machine

/-- STATE, the block state machine (10_state.md R31). -/
inductive BlockState where
  | idle | busy | paused | halted
deriving DecidableEq, Repr

/-- The outcome codes (60_exceptions.md R601). `eTrailCount` and `fNalTypeDesync` are never produced (93 I14). -/
inductive Code where
  | ok
  | eCmdIllegal | eAuTooLong | eNalIndex | eNaltFull | eRangeArgs
  | eBrUnderflow | eEgOverflow | eRange | eEpbSmall | eEpbLarge | eTrailingZero | eNalTooShort
  | eTidPlus1Zero | eTidIrap | eTidStsa | eTrailStop | eTrailAlign | eTrailCount | eSpsCheck
  | eSpsBudget | eNalTypeReserved
  | sLayerId
  | fBrWidth | fUopIllegal | fUopPc | fUopDiv0 | fRecRange | fNalTypeDesync
  | oSpsOk | oStub | oPending | oAborted
deriving DecidableEq, Repr

/-- An outcome with the information it carries (60_exceptions.md R611, R612): what `raise` is given. -/
structure Raise where
  code  : Code
  value : Word := 0#32
  min   : Word := 0#32
  max   : Word := 0#32
  tag   : Word := 0#32
deriving DecidableEq, Repr

/-- The error record ERR_CODE, ERR_PC, ERR_VALUE, ERR_MIN, ERR_MAX, ERR_TAG (10_state.md R38-R42). -/
structure ErrRecord where
  code  : Code
  pc    : Word
  value : Word
  min   : Word
  max   : Word
  tag   : Word
deriving DecidableEq, Repr

/-- The fields of NUH (10_state.md R48). -/
structure Nuh where
  fzb      : BitVec 1
  rzb      : BitVec 1
  layerId  : BitVec 6
  typ      : BitVec 5
  tidPlus1 : BitVec 3
  tid      : BitVec 3
  vcl      : BitVec 1
deriving DecidableEq, Repr

/-- The host operand registers ARG0, ARG1, AU_LEN, SPS_ENTRY (10_state.md R36, R47, R63). -/
structure Operands where
  arg0     : Word
  arg1     : Word
  auLen    : Word
  spsEntry : Word
deriving DecidableEq, Repr

/-- The timing metadata registers (10_state.md R50). -/
structure Timing where
  ctsLo : Word
  ctsHi : Word
  dtsLo : Word
  dtsHi : Word
  rap   : BitVec 1
deriving DecidableEq, Repr

/-- The bit reader: RBSP_LEN, BR_BITPOS and the implementation registers BR_POS, BR_NHB, BR_HELD
(10_state.md R56-R58). -/
structure Reader where
  rbspLen : Word
  bitPos  : Word
  pos     : Word
  nhb     : Word
  held    : BitVec 64
deriving DecidableEq, Repr

/-- What an element reads as that a memory does not list: 0 (a memory the block has cleared), or an unspecified
value of its own (log entry 4). -/
inductive Fill where
  | zero
  | unspecified (tag : Nat)
deriving DecidableEq, Repr

/-- One memory of `w`-bit elements: the listed elements by rising index, over what an unlisted one reads as. -/
structure Bank (w : Nat) where
  fill  : Fill
  cells : List (Nat × BitVec w)
deriving DecidableEq, Repr

/-- The memories (10_state.md R70-R76, element sizes 20_memory.md R101). AU and RBSP hold `Host.Cell`s. USTORE word j
is held as its halves 2·j (bits 31:0) and 2·j + 1 (bits 63:32), as the host writes them (20_memory.md R107). NALT word
w of entry k is element 4·k + w (20_memory.md R105). -/
structure Memory where
  au       : Bank 8
  rbsp     : Bank 8
  nalt     : Bank 32
  ustore   : Bank 32
  record   : Bank 32
  recordWr : Bank 1
deriving DecidableEq, Repr

/-- Which block step is in progress between two µops (log entry 1). -/
inductive Engine where
  /-- No SPS parse is running. -/
  | off
  /-- The parse of a PARSE_SPS command (46_sps_engine.md R401). -/
  | parseSps
  /-- The parse of the SPS unit CUR_NAL of a DECODE_AU or CONTINUE command (43_scanner_framer.md R296). -/
  | decodeUnit
deriving DecidableEq, Repr

/-- The width of a host access (20_memory.md R110). -/
inductive Width where
  | byte | word
deriving DecidableEq, Repr

/-- What the outside world does next (log entry 3). Addresses are offsets from BSFE_BASE (20_memory.md R100). -/
inductive HostEvent where
  /-- A host read (20_memory.md R110). -/
  | read (addr : Word) (width : Width)
  /-- A host write; an 8-bit write carries its byte in bits 7:0. -/
  | write (addr : Word) (width : Width) (data : Word)
  /-- The host lets the block take the step of the command it has issued (20_memory.md R135). -/
  | blockTurn
  /-- The platform asserts the reset input between two block steps (70_reset_and_hazards.md R700). -/
  | powerOn
deriving DecidableEq, Repr

/-- The state of one instance of the block. -/
structure State where
  /-- STATE (R31). -/
  block     : BlockState
  /-- STATUS.DONE (R35). -/
  done      : Bool
  /-- STATUS.ERR (R35). -/
  errFlag   : Bool
  /-- STATUS.SPS_VALID (R35). -/
  spsValid  : Bool
  /-- CMD (R34). -/
  cmd       : Word
  /-- ARG0, ARG1, AU_LEN, SPS_ENTRY (R36, R47, R63). -/
  ops       : Operands
  /-- RESULT (R37). -/
  result    : Word
  /-- The error record (R38-R42). -/
  error     : ErrRecord
  /-- WARN[5:0] (R44). -/
  warn      : BitVec 6
  /-- WARN_TAG (R45). -/
  warnTag   : Word
  /-- IRQ_EN[2:0] (R46). -/
  irqEn     : BitVec 3
  /-- IRQ_PEND[2:0] (R46). -/
  irqPend   : BitVec 3
  /-- NUH (R48). -/
  nuh       : Nuh
  /-- NAL_COUNT (R49). -/
  nalCount  : Word
  /-- CUR_NAL (R49). -/
  curNal    : Word
  /-- AU_CTS, AU_DTS, AU_RAP (R50). -/
  timing    : Timing
  /-- RBSP_LEN, BR_BITPOS, BR_POS, BR_NHB, BR_HELD (R56-R58). -/
  reader    : Reader
  /-- The variable file V[0..255] (R60). -/
  v         : Vector Word 256
  /-- SEQ_PC (R62). -/
  seqPc     : Word
  /-- STEP_COUNT (R64). -/
  stepCount : Word
  /-- DEC_NEXT, hidden (R65). -/
  decNext   : Word
  /-- AU, RBSP, NALT, USTORE, REC, REC_WR (R70-R76). -/
  mem       : Memory
  /-- The instance's parameters, hardwired (R51; 00_scope.md R12; log entry 2). -/
  params    : Config.Params
  /-- The block step in progress (log entry 1). -/
  engine    : Engine
  /-- The operands as the accepted command latched them (70_reset_and_hazards.md R713; log entry 9). -/
  latch     : Operands
  /-- The host's and the platform's events still to come (log entry 3). -/
  inputs    : List HostEvent
  /-- The data the last host read returned (log entry 3). -/
  readData  : Word
  /-- The number of free values used so far (log entry 8). -/
  free      : Nat
deriving DecidableEq, Repr

/-- The machine never stops with a fault: the spec gives every failure an outcome, a warning or an ignored access,
each of them a next state (60_exceptions.md R600, R607; 20_memory.md R113-R116). There is no constructor. -/
inductive Fault where
deriving DecidableEq, Repr

/-- Why an instruction has no meaning in the model. -/
inductive Refusal where
  /-- The instruction is not modelled yet. Raised by an arm of exec only; no arm raises it. Safe: it stops. -/
  | notModelled (mnemonic : String)
deriving DecidableEq, Repr

/-- The error record after acceptance and reset (47_control.md R500, 70_reset_and_hazards.md R702). -/
def ErrRecord.cleared : ErrRecord := ⟨.ok, 0xFFFFFFFF#32, 0#32, 0#32, 0#32, 0#32⟩

/-- Every field of NUH is 0. -/
def Nuh.zero : Nuh := ⟨0#1, 0#1, 0#6, 0#5, 0#3, 0#3, 0#1⟩

/-- ARG0, ARG1, AU_LEN and SPS_ENTRY are 0. -/
def Operands.zero : Operands := ⟨0#32, 0#32, 0#32, 0#32⟩

/-- A memory with unspecified contents (70_reset_and_hazards.md R703). -/
def Bank.unspecified {w : Nat} (tag : Nat) : Bank w := ⟨.unspecified tag, []⟩

/-- Every memory unspecified, each with a tag of its own from `tag` on (70_reset_and_hazards.md R703). -/
def Memory.unspecified (tag : Nat) : Memory where
  au := Bank.unspecified tag
  rbsp := Bank.unspecified (tag + 1)
  nalt := Bank.unspecified (tag + 2)
  ustore := Bank.unspecified (tag + 3)
  record := Bank.unspecified (tag + 4)
  recordWr := Bank.unspecified (tag + 5)

/-- The state after power-on reset of an instance with the given parameters (70_reset_and_hazards.md R702, R703).
V is 0 by the model's choice (log entry 5). -/
def State.resetWith (p : Config.Params) : State where
  block := .idle
  done := false
  errFlag := false
  spsValid := false
  cmd := 0#32
  ops := .zero
  result := 0#32
  error := .cleared
  warn := 0#6
  warnTag := 0#32
  irqEn := 0#3
  irqPend := 0#3
  nuh := .zero
  nalCount := 0#32
  curNal := 0#32
  timing := ⟨0#32, 0#32, 0#32, 0#32, 0#1⟩
  reader := ⟨0#32, 0#32, 0#32, 0#32, 0#64⟩
  v := Vector.replicate 256 0#32
  seqPc := 0#32
  stepCount := 0#32
  decNext := 0#32
  mem := .unspecified 0
  params := p
  engine := .off
  latch := .zero
  inputs := []
  readData := 0#32
  free := 6

/-- The machine right after power-on reset, with the default parameters (00_scope.md R12, 70 R702). -/
def State.reset : State := .resetWith Config.defaults

end Sys2Proof.Machine
end

