-- ==== Sys2Proof/Machine/Memory.lean ====
section
/-!
DEFINITION. Reading and writing the memories (10_state.md R70-R76), and the canonical form every memory is kept in:
indices strictly rising, and no listed element equal to what an unlisted one reads as.
-/

namespace Sys2Proof.Machine

/-! ### One memory -/

/-- What an unlisted element reads as (70_reset_and_hazards.md R703; log entry 4). -/
def Fill.value (f : Fill) (w addr : Nat) : BitVec w :=
  match f with
  | .zero => 0#w
  | .unspecified tag => Config.unspecified w tag addr

/-- The listed element at an index. -/
def lookup {α : Type} (a : Nat) : List (Nat × α) → Option α
  | [] => none
  | (k, x) :: rest => if k = a then some x else lookup a rest

/-- The list with the element at `a` set, indices rising. -/
def insertCell {α : Type} (a : Nat) (x : α) : List (Nat × α) → List (Nat × α)
  | [] => [(a, x)]
  | (k, y) :: rest =>
    if a < k then (a, x) :: (k, y) :: rest
    else if a = k then (a, x) :: rest
    else (k, y) :: insertCell a x rest

/-- The list without the element at `a`. -/
def eraseCell {α : Type} (a : Nat) : List (Nat × α) → List (Nat × α)
  | [] => []
  | (k, y) :: rest => if k = a then rest else (k, y) :: eraseCell a rest

/-- One element of a memory (00_scope.md R15: `AU[a]`, `RBSP[a]`, `REC[a]`, `USTORE[a]`). -/
def Bank.read {w : Nat} (b : Bank w) (a : Nat) : BitVec w :=
  match lookup a b.cells with
  | some x => x
  | none => b.fill.value w a

/-- One element written. Over a cleared memory a 0 is kept by listing nothing. -/
def Bank.write {w : Nat} (b : Bank w) (a : Nat) (x : BitVec w) : Bank w :=
  match b.fill with
  | .zero => { b with cells := if x = 0#w then eraseCell a b.cells else insertCell a x b.cells }
  | .unspecified _ => { b with cells := insertCell a x b.cells }

/-- Every element 0 (46_sps_engine.md R401). -/
def Bank.cleared {w : Nat} : Bank w := ⟨.zero, []⟩

/-- The elements of a list at indices `a`, `a + 1`, …. -/
def enumFrom {α : Type} (a : Nat) : List α → List (Nat × α)
  | [] => []
  | x :: rest => (a, x) :: enumFrom (a + 1) rest

/-- A memory that holds a list from index 0 on and is unspecified above it (10_state.md R71, R72). -/
def Bank.ofList {w : Nat} (tag : Nat) (l : List (BitVec w)) : Bank w := ⟨.unspecified tag, enumFrom 0 l⟩

/-- `n` elements from index `a` on. -/
def Bank.slice {w : Nat} (b : Bank w) (a : Nat) : Nat → List (BitVec w)
  | 0 => []
  | n + 1 => b.read a :: b.slice (a + 1) n

/-! ### The canonical form -/

/-- Every index of the list is at least `lo`, and the indices rise strictly. -/
def risingFrom {α : Type} (lo : Nat) : List (Nat × α) → Bool
  | [] => true
  | (k, _) :: rest => decide (lo ≤ k) && risingFrom (k + 1) rest

/-- The canonical form of one memory. -/
def Bank.wf {w : Nat} (b : Bank w) : Bool :=
  risingFrom 0 b.cells &&
    match b.fill with
    | .zero => b.cells.all fun c => c.2 != 0#w
    | .unspecified _ => true

/-- Every memory is in its canonical form. -/
def Memory.wf (m : Memory) : Bool :=
  m.au.wf && m.rbsp.wf && m.nalt.wf && m.ustore.wf && m.record.wf && m.recordWr.wf

/-! ### The elements the rules name -/

/-- USTORE[j], 64 bits from two halves (20_memory.md R107). -/
def Memory.uop (m : Memory) (j : Nat) : UopWord := m.ustore.read (2 * j + 1) ++ m.ustore.read (2 * j)

/-- USTORE[j] written, both halves. -/
def Memory.setUop (m : Memory) (j : Nat) (w : UopWord) : Memory :=
  { m with ustore := (m.ustore.write (2 * j) (w.extractLsb' 0 32)).write (2 * j + 1) (w.extractLsb' 32 32) }

/-- Word `i` of NALT entry `k` (10_state.md R73). -/
def Memory.naltWord (m : Memory) (k i : Nat) : Word := m.nalt.read (4 * k + i)

/-- Word `i` of NALT entry `k` written. -/
def Memory.setNaltWord (m : Memory) (k i : Nat) (w : Word) : Memory :=
  { m with nalt := m.nalt.write (4 * k + i) w }

/-- REC[i] written, and its REC_WR bit set (10_state.md R75, R76). -/
def Memory.setRecord (m : Memory) (i : Nat) (w : Word) : Memory :=
  { m with record := m.record.write i w, recordWr := m.recordWr.write i 1#1 }

/-- REC and REC_WR cleared (46_sps_engine.md R401). -/
def Memory.clearRecord (m : Memory) : Memory := { m with record := .cleared, recordWr := .cleared }

/-- Bits `32·m + 31` down to `32·m` of REC_WR, bit `32·m + b` in data bit b (20_memory.md R108). -/
def Memory.recordWrWord (mem : Memory) (m : Nat) : Word :=
  (List.range 32).foldl
    (fun acc b => acc ||| ((mem.recordWr.read (32 * m + b)).setWidth 32 <<< b)) 0#32

end Sys2Proof.Machine
end

