-- ==== Sys2Proof/Machine/Flags.lean ====
section
/-!
DEFINITION. Codes, classes and packed words: the outcome codes and their classes (60_exceptions.md R601, R602),
STATUS (10_state.md R35), WARN (10_state.md R44), the interrupt output (60_exceptions.md R631), NUH (10_state.md R48)
and word 2 of a NALT entry (10_state.md R73).
-/

namespace Sys2Proof.Machine

/-! ### Outcome codes -/

/-- The 8-bit value of an outcome code (60_exceptions.md R601). -/
def Code.val : Code → BitVec 8
  | .ok => 0x00#8
  | .eCmdIllegal => 0x01#8
  | .eAuTooLong => 0x02#8
  | .eNalIndex => 0x03#8
  | .eNaltFull => 0x04#8
  | .eRangeArgs => 0x05#8
  | .eBrUnderflow => 0x10#8
  | .eEgOverflow => 0x11#8
  | .eRange => 0x12#8
  | .eEpbSmall => 0x13#8
  | .eEpbLarge => 0x14#8
  | .eTrailingZero => 0x15#8
  | .eNalTooShort => 0x16#8
  | .eTidPlus1Zero => 0x17#8
  | .eTidIrap => 0x18#8
  | .eTidStsa => 0x19#8
  | .eTrailStop => 0x1A#8
  | .eTrailAlign => 0x1B#8
  | .eTrailCount => 0x1C#8
  | .eSpsCheck => 0x1D#8
  | .eSpsBudget => 0x1E#8
  | .eNalTypeReserved => 0x1F#8
  | .sLayerId => 0x20#8
  | .fBrWidth => 0x30#8
  | .fUopIllegal => 0x31#8
  | .fUopPc => 0x32#8
  | .fUopDiv0 => 0x33#8
  | .fRecRange => 0x34#8
  | .fNalTypeDesync => 0x35#8
  | .oSpsOk => 0x40#8
  | .oStub => 0x41#8
  | .oPending => 0x42#8
  | .oAborted => 0x43#8

/-- The classes of outcome codes (60_exceptions.md R602); `ok` is no outcome. -/
inductive Cls where
  | ok | rejected | recoverable | status | fatal | disposition
deriving DecidableEq, Repr

/-- The class of a code: OK, or by the high nibble (60_exceptions.md R602). -/
def Code.cls (c : Code) : Cls :=
  if c.val = 0#8 then .ok
  else match (c.val.extractLsb' 4 4).toNat with
    | 0 => .rejected
    | 1 => .recoverable
    | 2 => .status
    | 3 => .fatal
    | _ => .disposition

/-! ### STATUS, WARN, the interrupt -/

/-- The 2-bit value of STATE (10_state.md R31). -/
def BlockState.val : BlockState → BitVec 2
  | .idle => 0#2
  | .busy => 1#2
  | .paused => 2#2
  | .halted => 3#2

/-- STATUS (10_state.md R35); FATAL and WARN_ANY are derived bits. -/
def statusWord (s : State) : Word :=
  0#25 ++ BitVec.ofBool (s.warn ≠ 0#6) ++ BitVec.ofBool s.spsValid ++
    BitVec.ofBool (s.block = .halted) ++ BitVec.ofBool s.errFlag ++ BitVec.ofBool s.done ++ s.block.val

/-- The bits of WARN (10_state.md R44). -/
inductive WarnBit where
  | forbiddenZero | reservedZero | spsCheck | noStartCode | cmdIgnored | bus
deriving DecidableEq, Repr

/-- The mask of a WARN bit (10_state.md R44). -/
def WarnBit.mask : WarnBit → BitVec 6
  | .forbiddenZero => 0b000001#6
  | .reservedZero => 0b000010#6
  | .spsCheck => 0b000100#6
  | .noStartCode => 0b001000#6
  | .cmdIgnored => 0b010000#6
  | .bus => 0b100000#6

/-- `warn <Bit>` (00_scope.md R15, 60_exceptions.md R607). -/
def State.warnBit (s : State) (b : WarnBit) : State := { s with warn := s.warn ||| b.mask }

/-- The interrupt sources, bits of IRQ_EN and IRQ_PEND (60_exceptions.md R630). -/
inductive IrqBit where
  | done | pause | fatal
deriving DecidableEq, Repr

/-- The mask of an interrupt source (60_exceptions.md R630). -/
def IrqBit.mask : IrqBit → BitVec 3
  | .done => 0b001#3
  | .pause => 0b010#3
  | .fatal => 0b100#3

/-- The interrupt output, level-sensitive (10_state.md R46, 60_exceptions.md R631). -/
def State.irq (s : State) : Bool := s.irqPend &&& s.irqEn != 0#3

/-! ### NUH and NALT word 2 -/

/-- NUH as the host reads it (10_state.md R48). -/
def Nuh.pack (h : Nuh) : Word :=
  0#12 ++ h.vcl ++ h.tid ++ h.tidPlus1 ++ h.typ ++ h.layerId ++ h.rzb ++ h.fzb

/-- NUH after a conversion: VCL, every other field 0 (42_rbsp_converter.md R257). -/
def Nuh.converted (vcl : Bool) : Nuh := { Nuh.zero with vcl := BitVec.ofBool vcl }

/-- Word 2 of a NALT entry as `write_entry` leaves it: DISP = O_PENDING, SC_LEN, every other field 0
(43_scanner_framer.md R284, 10_state.md R73). -/
def entryWord2 (scLen : Nat) : Word := Code.oPending.val ++ 0#20 ++ BitVec.ofNat 4 scLen

/-- DISP, bits 31:24 of word 2, written (10_state.md R73). -/
def setDisp (w : Word) (c : Code) : Word := c.val ++ w.extractLsb' 0 24

/-- VCL, bit 4 of word 2, written (10_state.md R73). -/
def setVclBit (w : Word) (vcl : Bool) : Word :=
  w.extractLsb' 5 27 ++ BitVec.ofBool vcl ++ w.extractLsb' 0 4

/-- FZB, RZB, LAYER_ID, TYPE and TID_PLUS1, bits 20:5 of word 2, copied from NUH (10_state.md R73). -/
def setHeaderBits (w : Word) (h : Nuh) : Word :=
  w.extractLsb' 21 11 ++ h.tidPlus1 ++ h.typ ++ h.layerId ++ h.rzb ++ h.fzb ++ w.extractLsb' 0 5

end Sys2Proof.Machine
end

