-- ==== Sys2Proof/Machine/Operands.lean ====
section
/-!
DEFINITION. The operand forms: variables of the SPS engine (10_state.md R60, 30_encoding.md R161, R164), the
operands a command latches when it is accepted (10_state.md R36, R54; 70_reset_and_hazards.md R713) and the
signed reading of a word (00_scope.md R13).
-/

namespace Sys2Proof.Machine

/-- `V[i]`: V[0] reads 0 (10_state.md R60). -/
def State.getV (s : State) (i : BitVec 8) : Word :=
  if i = 0#8 then 0#32 else s.v[i.toNat]'i.isLt

/-- The variable file with `V[i] <- x`: a write to V[0] is discarded (10_state.md R60). -/
def State.vWith (s : State) (i : BitVec 8) (x : Word) : Vector Word 256 :=
  if i = 0#8 then s.v else s.v.set i.toNat x i.isLt

/-- `V[i] <- x` (00_scope.md R15). -/
def State.setV (s : State) (i : BitVec 8) (x : Word) : State := { s with v := s.vWith i x }

/-- Every variable 0 (46_sps_engine.md R401). -/
def vCleared : Vector Word 256 := Vector.replicate 256 0#32

/-- The operands are read when a command starts (70_reset_and_hazards.md R713). -/
def State.latchOps (s : State) : State := { s with latch := s.ops }

/-- `s32(v)` (00_scope.md R13). -/
def s32 (v : Word) : Int := v.toInt

/-- A truth value as a variable holds it (46_sps_engine.md R437-R443). -/
def flagWord (p : Bool) : Word := if p then 1#32 else 0#32

/-- The record address of STR and LDR, `IMM + V[B]`, unbounded (46_sps_engine.md R450, R451). -/
def State.recordAddr (s : State) (b : BitVec 8) (imm : Word) : Nat := imm.toNat + (s.getV b).toNat

/-- The forward target `SEQ_PC + 1 + IMM`, unbounded (46_sps_engine.md R445-R447). -/
def State.forwardTarget (s : State) (imm : Word) : Int := s.seqPc.toNat + 1 + imm.toNat

/-- The backward target `SEQ_PC − IMM`, unbounded (46_sps_engine.md R448). -/
def State.backwardTarget (s : State) (imm : Word) : Int := s.seqPc.toNat - imm.toNat

/-- The next sequential µop, `SEQ_PC + 1` (30_encoding.md R165, 46_sps_engine.md R403). -/
def State.nextTarget (s : State) : Int := s.seqPc.toNat + 1

end Sys2Proof.Machine
end

