-- ==== Sys2Proof/Machine/Ops.lean ====
section
/-!
DEFINITION. The operations every meaning shares: functions that may raise an outcome, recording an outcome
(60_exceptions.md R611), ending a command with or without one (47_control.md R501, 60_exceptions.md R620, R625) and
accepting a command (47_control.md R500). The block has no trap vector: taking an outcome is `State.endWith`, and
there is no return from it (60_exceptions.md R625, R626).
-/

namespace Sys2Proof.Machine

/-! ### Functions that may raise -/

/-- What a function of the block does: it returns a value, or raises an outcome that ends the operation
(00_scope.md R15); either way with the state it leaves (60_exceptions.md R604, R606). -/
inductive Eff (α : Type) where
  | ok (a : α) (s : State)
  | raise (r : Raise) (s : State)
deriving DecidableEq, Repr

/-- The next function runs on the value and the state of the one before; a raise ends both. -/
def Eff.bind {α β : Type} (e : Eff α) (f : α → State → Eff β) : Eff β :=
  match e with
  | .ok a s => f a s
  | .raise r s => .raise r s

/-! ### Recording an outcome -/

/-- The class C and class R outcomes set STATUS.ERR (60_exceptions.md R611). -/
def Code.setsErr (c : Code) : Bool := c.cls == .rejected || c.cls == .recoverable

/-- `record(d, info)`: the whole error record, and STATUS.ERR for classes C and R (60_exceptions.md R611). -/
def State.recordOutcome (s : State) (r : Raise) (pc : Word) : State :=
  { s with
    error := ⟨r.code, pc, r.value, r.min, r.max, r.tag⟩
    errFlag := s.errFlag || r.code.setsErr }

/-- ERR_PC of an outcome that no µop raised (60_exceptions.md R611). -/
def noPc : Word := 0xFFFFFFFF#32

/-! ### Ending a command -/

/-- Completion to IDLE: DONE, and the DONE interrupt event (47_control.md R501, 60_exceptions.md R630). -/
def State.complete (s : State) : State :=
  { s with block := .idle, done := true, irqPend := s.irqPend ||| IrqBit.done.mask, engine := .off }

/-- A class F outcome enters HALTED: DONE, and the FATAL interrupt event (60_exceptions.md R620, R630). -/
def State.halt (s : State) : State :=
  { s with block := .halted, done := true, irqPend := s.irqPend ||| IrqBit.fatal.mask, engine := .off }

/-- DECODE_AU or CONTINUE pauses after an SPS: DONE, and the PAUSE interrupt event (43_scanner_framer.md R300). -/
def State.pause (s : State) : State :=
  { s with block := .paused, done := true, irqPend := s.irqPend ||| IrqBit.pause.mask, engine := .off }

/-- A recorded outcome's end of the command: HALTED for class F, IDLE for the others (47_control.md R501). -/
def State.endByClass (s : State) (c : Code) : State := if c.cls = .fatal then s.halt else s.complete

/-- Taking an outcome: the error record is written, then the command ends by the outcome's class
(60_exceptions.md R625, 47_control.md R501). `pc` is SEQ_PC for an outcome of the SPS engine, `noPc` otherwise. -/
def State.endWith (s : State) (r : Raise) (pc : Word) : State := (s.recordOutcome r pc).endByClass r.code

/-- A command that is one function: its value goes to RESULT, its outcome ends the command with RESULT unchanged
(10_state.md R37). -/
def State.finishResult (e : Eff Word) : State :=
  match e with
  | .ok x s => { s with result := x }.complete
  | .raise r s => s.endWith r noPc

/-! ### Accepting a command -/

/-- The error record and STATUS.ERR cleared (47_control.md R500). -/
def State.clearError (s : State) : State := { s with error := .cleared, errFlag := false }

/-- `accept(w)` up to the block's step (47_control.md R500): CMD, DONE, the error record unless the word's OPC is
CONTINUE's (`keepError`), STATE BUSY, and the operands latched (70_reset_and_hazards.md R713). -/
def State.accept (s : State) (w : Word) (keepError : Bool) : State :=
  let t := if keepError then s else s.clearError
  { t with cmd := w, done := false, block := .busy, latch := s.ops }

end Sys2Proof.Machine
end

