-- ==== Sys2Proof/Machine/Reader.lean ====
section
/-!
DEFINITION. The bit reader (41_bit_reader.md R200-R225): the stream of RBSP, read, peek, the two queries, and the
reference implementation of read on BR_POS, BR_NHB and BR_HELD (R210).
-/

namespace Sys2Proof.Machine

/-! ### The stream -/

/-- Stream bit `k` of a byte buffer: `B[k div 8][7 − (k mod 8)]` (00_scope.md R14). -/
def streamBit (b : Bank 8) (k : Nat) : Bool := (b.read (k / 8)).getLsbD (7 - k % 8)

/-- `stream(B, k, n)`: stream bit `k` is the most significant of `n` bits (00_scope.md R14). -/
def stream (b : Bank 8) (k : Nat) : Nat → Nat
  | 0 => 0
  | n + 1 => 2 * stream b k n + (streamBit b (k + n)).toNat

/-- BR_BITPOS as a number (10_state.md R57). -/
def State.bitPos (s : State) : Nat := s.reader.bitPos.toNat

/-- The number of stream bits of the RBSP, `8·RBSP_LEN`. -/
def State.streamLen (s : State) : Nat := 8 * s.reader.rbspLen.toNat

/-- `bits_left()` (41_bit_reader.md R201). -/
def State.bitsLeft (s : State) : Nat := s.streamLen - s.bitPos

/-- `bits_until_byte_aligned()` (41_bit_reader.md R204). -/
def State.bitsToAlign (s : State) : Nat := (8 - s.bitPos % 8) % 8

/-! ### Moving the reader -/

/-- BR_POS at a bit position: one of the values that the invariants of 10_state.md R58 allow, `ceil(pos / 8)` up to
`min(RBSP_LEN, (pos + 64) / 8)`; which one, the refill path decides (log entry 6). -/
def State.refillPos (s : State) (pos : Nat) : Nat :=
  let lo := (pos + 7) / 8
  let hi := min s.reader.rbspLen.toNat ((pos + 64) / 8)
  lo + Config.refillChoice s.free % (hi - lo + 1)

/-- BR_HELD for `n` held bits from a position on: left-justified, zeros below (10_state.md R58). -/
def heldBits (b : Bank 8) (pos n : Nat) : BitVec 64 := BitVec.ofNat 64 (stream b pos n * 2 ^ (64 - n))

/-- The reader moved to a bit position, with BR_POS, BR_NHB and BR_HELD some values of 10_state.md R58. -/
def State.moveReader (s : State) (pos : Nat) : State :=
  let p := s.refillPos pos
  let n := 8 * p - pos
  { s with
    reader := { s.reader with
      bitPos := word pos
      pos := word p
      nhb := word n
      held := heldBits s.mem.rbsp pos n }
    free := s.free + 1 }

/-- `br_reset()` (41_bit_reader.md R205). -/
def State.brReset (s : State) : State :=
  { s with reader := { s.reader with bitPos := 0#32, pos := 0#32, nhb := 0#32, held := 0#64 } }

/-! ### read and peek -/

/-- `read(n)` (41_bit_reader.md R202): the width test, then the underflow test, then `n` bits consumed.
read(0) consumes nothing and leaves every reader register alone (log entry 21). -/
def State.read (s : State) (n : Nat) : Eff Word :=
  if 32 < n then .raise { code := .fBrWidth, value := word n } s
  else if s.bitsLeft < n then
    .raise { code := .eBrUnderflow, value := word n, max := word s.bitsLeft } s
  else if n = 0 then .ok 0#32 s
  else .ok (word (stream s.mem.rbsp s.bitPos n)) (s.moveReader (s.bitPos + n))

/-- `peek(n)` (41_bit_reader.md R203): zero-padded in the low bits past the end; no state changes (R212). -/
def State.peek (s : State) (n : Nat) : Eff Word :=
  if 32 < n then .raise { code := .fBrWidth, value := word n } s
  else
    let k := min n s.bitsLeft
    .ok (word (stream s.mem.rbsp s.bitPos k * 2 ^ (n - k))) s

/-! ### The reference implementation of read (R210) -/

/-- The top `n` bits of BR_HELD, 0 when `n = 0` (41_bit_reader.md R210). -/
def topBits (held : BitVec 64) (n : Nat) : Nat := held.toNat / 2 ^ (64 - n)

/-- `refill()` with `k` bytes (41_bit_reader.md R210). -/
def Reader.refill (r : Reader) (b : Bank 8) (k : Nat) : Reader :=
  { r with
    held := BitVec.ofNat 64 (stream b (8 * r.pos.toNat) (8 * k) * 2 ^ (64 - 8 * k))
    nhb := word (8 * k)
    pos := word (r.pos.toNat + k) }

/-- `n` held bits shifted out (41_bit_reader.md R210). -/
def Reader.shiftOut (r : Reader) (n : Nat) : Reader :=
  { r with held := r.held <<< n, nhb := word (r.nhb.toNat - n) }

/-- BR_BITPOS from the implementation registers (41_bit_reader.md R210). -/
def Reader.syncPos (r : Reader) : Reader := { r with bitPos := word (8 * r.pos.toNat - r.nhb.toNat) }

/-- `read_impl(n)` with a refill of `k` bytes when one is needed (41_bit_reader.md R210): the value and the registers.
The step does not call it; R211 states that it returns what `State.read` returns. -/
def Reader.readImpl (r : Reader) (b : Bank 8) (k n : Nat) : Nat × Reader :=
  if n ≤ r.nhb.toNat then (topBits r.held n, (r.shiftOut n).syncPos)
  else
    let h := r.nhb.toNat
    let rest := n - h
    let t := r.refill b k
    (topBits r.held h * 2 ^ rest + topBits t.held rest, (t.shiftOut rest).syncPos)

end Sys2Proof.Machine
end

