-- ==== Sys2Proof/Machine/Vlc.lean ====
section
/-!
DEFINITION. The VLC decoder and the RBSP tail functions (45_vlc.md R360-R383).
-/

namespace Sys2Proof.Machine

/-- `flag()` (45_vlc.md R360). -/
def State.flag (s : State) : Eff Word := s.read 1

/-- `code(n)` (45_vlc.md R361). -/
def State.code (s : State) (n : Nat) : Eff Word := s.read n

/-- The number of 0 bits from position `k` on, at most `n` (45_vlc.md R362). -/
def leadingZeros (b : Bank 8) (k : Nat) : Nat → Nat
  | 0 => 0
  | n + 1 => if streamBit b k then 0 else 1 + leadingZeros b (k + 1) n

/-- The leading zeros `ue()` counts: at most 32, at most the bits left (45_vlc.md R362). -/
def State.egZeros (s : State) : Nat := leadingZeros s.mem.rbsp s.bitPos (min 32 s.bitsLeft)

/-- `ue()` (45_vlc.md R362): all checks before any bit is consumed. -/
def State.ue (s : State) : Eff Word :=
  let l := s.egZeros
  if l = 32 then .raise { code := .eEgOverflow, value := 32#32 } s
  else if l = s.bitsLeft then
    .raise { code := .eBrUnderflow, value := word (l + 1), max := word s.bitsLeft } s
  else if s.bitsLeft < 2 * l + 1 then
    .raise { code := .eBrUnderflow, value := word (2 * l + 1), max := word s.bitsLeft } s
  else
    .ok (word (2 ^ l - 1 + stream s.mem.rbsp (s.bitPos + l + 1) l)) (s.moveReader (s.bitPos + (2 * l + 1)))

/-- The se(v) mapping on a ue(v) value, as a two's-complement word (45_vlc.md R365). -/
def seMap (k : Word) : Word :=
  if k.toNat % 2 = 1 then word ((k.toNat + 1) / 2) else -word (k.toNat / 2)

/-- `u32(se())` (45_vlc.md R365). -/
def State.se (s : State) : Eff Word := s.ue.bind fun k t => .ok (seMap k) t

/-- The outcome of a failed range check (45_vlc.md R366). -/
def rangeRaise (v lo hi : Word) : Raise := { code := .eRange, value := v, min := lo, max := hi }

/-- `check_u(v, lo, hi)` (45_vlc.md R366), after the read that gave `v` (R367). -/
def checkU (lo hi v : Word) (s : State) : Eff Word :=
  if lo.toNat ≤ v.toNat ∧ v.toNat ≤ hi.toNat then .ok v s else .raise (rangeRaise v lo hi) s

/-- `check_s(v, lo, hi)` (45_vlc.md R366), after the read that gave `v` (R367). -/
def checkS (lo hi v : Word) (s : State) : Eff Word :=
  if s32 lo ≤ s32 v ∧ s32 v ≤ s32 hi then .ok v s else .raise (rangeRaise v lo hi) s

/-- The last 1 bit in the `n` stream bits from `base` on (45_vlc.md R378). -/
def lastOne (b : Bank 8) (base : Nat) : Nat → Option Nat
  | 0 => none
  | n + 1 => if streamBit b (base + n) then some (base + n) else lastOne b base n

/-- `more_rbsp_data()` (45_vlc.md R378). -/
def State.moreRbspData (s : State) : Bool :=
  match lastOne s.mem.rbsp s.bitPos s.bitsLeft with
  | some t => decide (s.bitPos < t)
  | none => false

/-- The padding loop of `rbsp_trailing_bits()` after `c` bits, at most `fuel` more to the byte boundary
(45_vlc.md R381). -/
def trailPadding : Nat → Nat → State → Eff Nat
  | 0, c, s => .ok c s
  | fuel + 1, c, s =>
    (s.read 1).bind fun b t =>
      if b ≠ 0#32 then .raise { code := .eTrailAlign, value := b, min := word (t.bitPos - 1) } t
      else trailPadding fuel (c + 1) t

/-- `rbsp_trailing_bits()` (45_vlc.md R381). -/
def State.trailingBits (s : State) : Eff Nat :=
  (s.read 1).bind fun b t =>
    if b ≠ 1#32 then .raise { code := .eTrailStop, value := b, min := word (t.bitPos - 1) } t
    else (trailPadding t.bitsToAlign 1 t).bind fun c u =>
      if 8 < c then .raise { code := .eTrailCount, value := word c } u else .ok c u

end Sys2Proof.Machine
end

