-- ==== Sys2Proof/Machine/Converter.lean ====
section
/-!
DEFINITION. The RBSP converter (42_rbsp_converter.md R250-R261).
-/

namespace Sys2Proof.Machine

/-- The loop of `convert` (42_rbsp_converter.md R251) from input byte `i` on: `z` is the run of zero bytes copied,
`dropped` says that the byte before was a dropped 0x03 (R252, R253). -/
def unescape (z i : Nat) (dropped : Bool) : List Byte → Except Raise (List Byte)
  | [] => .ok []
  | b :: rest =>
    if dropped then
      if 3 < b.toNat then .error { code := .eEpbLarge, value := b.setWidth 32, min := word i }
      else (unescape (if b = 0#8 then 1 else 0) (i + 1) false rest).map (b :: ·)
    else if 2 ≤ z ∧ b.toNat < 3 then .error { code := .eEpbSmall, value := b.setWidth 32, min := word i }
    else if z = 2 ∧ b.toNat = 3 then unescape 0 (i + 1) true rest
    else (unescape (if b = 0#8 then z + 1 else 0) (i + 1) false rest).map (b :: ·)

/-- A byte list without its trailing zero bytes. -/
def dropTrailingZeros (l : List Byte) : List Byte := (l.reverse.dropWhile (· = 0#8)).reverse

/-- The post-pass (42_rbsp_converter.md R256). -/
def postPass (vcl : Bool) (out : List Byte) : Except Raise (List Byte) :=
  if vcl then .ok (dropTrailingZeros out)
  else if out.getLast? = some 0#8 then .error { code := .eTrailingZero, value := word out.length }
  else .ok out

/-- `convert(src, len, vcl)` (42_rbsp_converter.md R251). -/
def convert (src : List Byte) (vcl : Bool) : Except Raise (List Byte) :=
  (unescape 0 0 false src).bind (postPass vcl)

/-- RBSP emptied: RBSP_LEN 0 and the reader reset, the bytes unspecified (42_rbsp_converter.md R257,
43_scanner_framer.md R294; log entry 13), and NUH written. -/
def State.emptyRbsp (s : State) (h : Nuh) : State :=
  { s with
    reader := ⟨0#32, 0#32, 0#32, 0#32, 0#64⟩
    nuh := h
    mem := { s.mem with rbsp := .unspecified s.free }
    free := s.free + 1 }

/-- RBSP written: `RBSP[0..length−1] <- out`, RBSP_LEN, the reader reset, and NUH (42_rbsp_converter.md R257). Bytes
from RBSP_LEN on are unspecified (10_state.md R71; log entry 13). -/
def State.storeRbsp (s : State) (out : List Byte) (vcl : Bool) : State :=
  { s with
    reader := ⟨word out.length, 0#32, 0#32, 0#32, 0#64⟩
    nuh := .converted vcl
    mem := { s.mem with rbsp := .ofList s.free out }
    free := s.free + 1 }

/-- A conversion and its output (42_rbsp_converter.md R251, R257); the value is RBSP_LEN. -/
def State.convertBytes (s : State) (src : List Byte) (vcl : Bool) : Eff Word :=
  match convert src vcl with
  | .ok out => .ok (word out.length) (s.storeRbsp out vcl)
  | .error r => .raise r (s.emptyRbsp (.converted vcl))

end Sys2Proof.Machine
end

