-- ==== Sys2Proof/Machine/Scanner.lean ====
section
/-!
DEFINITION. The start-code scanner (43_scanner_framer.md R280-R288): where the start codes are, which units they
frame, and how the units are written to the NAL table.
-/

namespace Sys2Proof.Machine

/-- The bytes begin with a 4-byte start code, `00 00 00 01` (00_scope.md R17). -/
def isCode4 : List Byte → Bool
  | a :: b :: c :: d :: _ => a = 0#8 && b = 0#8 && c = 0#8 && d = 1#8
  | _ => false

/-- The bytes begin with a 3-byte start code, `00 00 01` (00_scope.md R17). -/
def isCode3 : List Byte → Bool
  | a :: b :: c :: _ => a = 0#8 && b = 0#8 && c = 1#8
  | _ => false

/-- The start codes of the bytes from offset `p` on, as (offset, length), the 4-byte pattern tried first; `skip` bytes
still belong to the last match (43_scanner_framer.md R283, R287). -/
def startCodes (p skip : Nat) : List Byte → List (Nat × Nat)
  | [] => []
  | b :: rest =>
    match skip with
    | k + 1 => startCodes (p + 1) k rest
    | 0 =>
      if isCode4 (b :: rest) then (p, 4) :: startCodes (p + 1) 3 rest
      else if isCode3 (b :: rest) then (p, 3) :: startCodes (p + 1) 2 rest
      else startCodes (p + 1) 0 rest

/-- A NAL unit's byte range and its start code's length (43_scanner_framer.md R280). -/
structure NalUnit where
  start : Nat
  stop  : Nat
  scLen : Nat
deriving DecidableEq, Repr

/-- The end of a final unit that starts at `start`: the trailing zero bytes dropped, never below `start`
(43_scanner_framer.md R283, R288). -/
def trimmedEnd (bytes : List Byte) (start : Nat) : Nat :=
  start + (dropTrailingZeros (bytes.drop start)).length

/-- The units the start codes frame: each code closes the unit before it, the last unit is trimmed
(43_scanner_framer.md R283). -/
def frameUnits (bytes : List Byte) : List (Nat × Nat) → List NalUnit
  | [] => []
  | [(p, l)] => [⟨p + l, trimmedEnd bytes (p + l), l⟩]
  | (p, l) :: (q, m) :: rest => ⟨p + l, q, l⟩ :: frameUnits bytes ((q, m) :: rest)

/-- The NAL units of an access unit's bytes (43_scanner_framer.md R283). -/
def nalUnits (bytes : List Byte) : List NalUnit := frameUnits bytes (startCodes 0 0 bytes)

/-- The four words of an entry as scan() leaves it (43_scanner_framer.md R284). -/
def NalUnit.words (u : NalUnit) : List Word := [word u.start, word u.stop, entryWord2 u.scLen, 0#32]

/-- The words of the NAL table from entry 0 on. -/
def tableWords (us : List NalUnit) : List Word := us.flatMap NalUnit.words

/-- The used bytes of the AU buffer, AU[0..AU_LEN−1], as the running command latched AU_LEN (43_scanner_framer.md
R280). -/
def State.auBytes (s : State) : List Byte := s.mem.au.slice 0 s.latch.auLen.toNat

/-- The length check of 43_scanner_framer.md R281. -/
def State.auTooLong (s : State) : Bool := decide (s.params.auCap < s.latch.auLen.toNat)

/-- E_AU_TOO_LONG (43_scanner_framer.md R281). -/
def State.auTooLongRaise (s : State) : Raise := { code := .eAuTooLong, value := s.latch.auLen }

/-- The NAL table written with units and NAL_COUNT set; entries from NAL_COUNT on are unspecified (43_scanner_framer.md
R284, 10_state.md R72; log entry 14). -/
def State.writeTable (s : State) (us : List NalUnit) : State :=
  { s with
    mem := { s.mem with nalt := .ofList s.free (tableWords us) }
    nalCount := word us.length
    free := s.free + 1 }

/-- `scan()` (43_scanner_framer.md R283): E_NALT_FULL when there are more start codes than entries (R286), the warning
when there is none (R285). The value is NAL_COUNT. -/
def State.scan (s : State) : Eff Word :=
  let us := nalUnits s.auBytes
  if s.params.naltCap < us.length then
    .raise { code := .eNaltFull, value := word s.params.naltCap } (s.writeTable (us.take s.params.naltCap))
  else
    let t := s.writeTable us
    .ok t.nalCount (if us.isEmpty then t.warnBit .noStartCode else t)

/-- The result of PEEK_AU_TYPE: the type field of the first unit's second byte, or 0xFFFFFFFF (43_scanner_framer.md
R290). -/
def peekType (bytes : List Byte) : Word :=
  match nalUnits bytes with
  | [] => 0xFFFFFFFF#32
  | u :: _ =>
    if u.stop - u.start < 2 then 0xFFFFFFFF#32
    else word ((bytes.getD (u.start + 1) 0#8).toNat / 8)

/-- `vcl_of(h1)` (43_scanner_framer.md R293). -/
def vclOf (h1 : Byte) : Bool := decide (h1.toNat / 8 ≤ 11)

end Sys2Proof.Machine
end

