-- ==== Sys2Proof/Machine/Header.lean ====
section
/-!
DEFINITION. The NAL unit header parser and the type dispatch (44_nal_header.md R330-R342).
-/

namespace Sys2Proof.Machine

/-- The header fields of `w = read(16)`, the VCL flag kept (44_nal_header.md R330, R332, R339). -/
def headerFields (w : Word) (vcl : BitVec 1) : Nuh where
  fzb := w.extractLsb' 15 1
  rzb := w.extractLsb' 14 1
  layerId := w.extractLsb' 8 6
  typ := w.extractLsb' 3 5
  tidPlus1 := w.extractLsb' 0 3
  tid := w.extractLsb' 0 3 - 1#3
  vcl := vcl

/-- The two reserved-bit warnings (44_nal_header.md R333). -/
def State.headerWarnings (s : State) (h : Nuh) : State :=
  let t := if h.fzb = 1#1 then s.warnBit .forbiddenZero else s
  if h.rzb = 1#1 then t.warnBit .reservedZero else t

/-- The first failing check of a header, in the order of 44_nal_header.md R338: the layer id, temporal_id_plus1, the IRAP
range, STSA (R334-R337). -/
def headerCheck (h : Nuh) : Option Raise :=
  if 55 < h.layerId.toNat then some { code := .sLayerId, value := h.layerId.setWidth 32 }
  else if h.tidPlus1 = 0#3 then some { code := .eTidPlus1Zero, value := h.pack }
  else if (7 ≤ h.typ.toNat ∧ h.typ.toNat ≤ 11) ∧ h.tidPlus1.toNat - 1 ≠ 0 then
    some { code := .eTidIrap, value := h.pack }
  else if h.typ.toNat = 1 ∧ h.layerId.toNat = 0 ∧ h.tidPlus1.toNat - 1 = 0 then
    some { code := .eTidStsa, value := h.pack }
  else none

/-- NUH and the warnings of a header word that has been read (44_nal_header.md R332, R333). -/
def State.storeHeader (s : State) (w : Word) : State :=
  let h := headerFields w s.nuh.vcl
  { s with nuh := h }.headerWarnings h

/-- `parse_header()` (44_nal_header.md R332). The underflow comes before any effect. -/
def State.parseHeader (s : State) : Eff Unit :=
  (s.read 16).bind fun w t =>
    let u := t.storeHeader w
    match headerCheck u.nuh with
    | some r => .raise r u
    | none => .ok () u

/-- The dispatch of a NAL unit type (44_nal_header.md R331, R340). -/
inductive TypeClass where
  | sps | stub | reserved
deriving DecidableEq, Repr

/-- `dispatch(t)`: which of its three cases a type falls in (44_nal_header.md R340). -/
def typeClass (t : BitVec 5) : TypeClass :=
  let n := t.toNat
  if n = 15 then .sps
  else if n ≤ 3 ∨ (7 ≤ n ∧ n ≤ 10) ∨ (12 ≤ n ∧ n ≤ 14) ∨ (16 ≤ n ∧ n ≤ 25) then .stub
  else .reserved

end Sys2Proof.Machine
end

