-- ==== Sys2Proof/Machine/Framer.lean ====
section
/-!
DEFINITION. The NAL framer: loading one unit (43_scanner_framer.md R292-R294), and the unit loop of DECODE_AU and
CONTINUE with its dispositions (43_scanner_framer.md R295-R304).
-/

namespace Sys2Proof.Machine

/-! ### One unit -/

/-- START of entry `k` (10_state.md R73). -/
def State.unitStart (s : State) (k : Nat) : Word := s.mem.naltWord k 0

/-- END of entry `k` (10_state.md R73). -/
def State.unitEnd (s : State) (k : Nat) : Word := s.mem.naltWord k 1

/-- END − START < 2: the unit is shorter than its header (43_scanner_framer.md R294). -/
def State.unitTooShort (s : State) (k : Nat) : Bool :=
  decide ((s.unitEnd k).toNat < (s.unitStart k).toNat + 2)

/-- E_NAL_TOO_SHORT with the unit's length (43_scanner_framer.md R294). -/
def State.tooShortRaise (s : State) (k : Nat) : Raise :=
  { code := .eNalTooShort, value := s.unitEnd k - s.unitStart k }

/-- The unit's raw bytes AU[START .. END−1] (43_scanner_framer.md R280). -/
def State.unitBytes (s : State) (k : Nat) : List Byte :=
  s.mem.au.slice (s.unitStart k).toNat ((s.unitEnd k).toNat - (s.unitStart k).toNat)

/-- The VCL flag from the raw second byte, AU[START+1] (43_scanner_framer.md R293). -/
def State.unitVcl (s : State) (k : Nat) : Bool := vclOf (s.mem.au.read ((s.unitStart k).toNat + 1))

/-- Unit `k` converted into the RBSP buffer (43_scanner_framer.md R292). -/
def State.loadUnit (s : State) (k : Nat) : Eff Word :=
  if s.unitTooShort k then .raise (s.tooShortRaise k) (s.emptyRbsp .zero)
  else s.convertBytes (s.unitBytes k) (s.unitVcl k)

/-! ### Dispositions -/

/-- Word 2 of entry `k` changed. -/
def State.mapWord2 (s : State) (k : Nat) (f : Word → Word) : State :=
  { s with mem := s.mem.setNaltWord k 2 (f (s.mem.naltWord k 2)) }

/-- `NALT[k].DISP <- c` and `NALT[k].INFO <- info` (43_scanner_framer.md R296). -/
def State.dispose (s : State) (k : Nat) (c : Code) (info : Word) : State :=
  let t := s.mapWord2 k (setDisp · c)
  { t with mem := t.mem.setNaltWord k 3 info }

/-- The `n` entries from `j` on get DISP O_ABORTED (43_scanner_framer.md R296, R298). -/
def State.abortUnits (s : State) (j : Nat) : Nat → State
  | 0 => s
  | n + 1 => (s.mapWord2 j (setDisp · .oAborted)).abortUnits (j + 1) n

/-- The `n` entries from `j` on get DISP O_ABORTED and INFO 0 (43_scanner_framer.md R302). -/
def State.abortUnitsInfo (s : State) (j : Nat) : Nat → State
  | 0 => s
  | n + 1 => (s.dispose j .oAborted 0#32).abortUnitsInfo (j + 1) n

/-- The number of units not yet processed, `NAL_COUNT − DEC_NEXT`. -/
def State.unitsLeft (s : State) : Nat := s.nalCount.toNat - s.decNext.toNat

/-! ### Processing -/

/-- How `process(k)` leaves a unit: its type is a stub, it ends with an outcome, or its SPS parse begins. -/
inductive UnitStep where
  | stub (s : State)
  | ended (r : Raise) (s : State)
  | sps (s : State)

/-- The header part of `process(k)`: the parse, the copy into NALT[k] word 2, and the dispatch (43_scanner_framer.md
R296, 44_nal_header.md R340). -/
def State.processHeader (s : State) (k : Nat) : UnitStep :=
  match s.parseHeader with
  | .raise r t => .ended r (t.mapWord2 k (setHeaderBits · t.nuh))
  | .ok _ t =>
    let u := t.mapWord2 k (setHeaderBits · t.nuh)
    match typeClass u.nuh.typ with
    | .sps => .sps u
    | .stub => .stub u
    | .reserved => .ended { code := .eNalTypeReserved, value := u.nuh.typ.setWidth 32 } u

/-- `process(k)` up to the start of an SPS parse (43_scanner_framer.md R296). -/
def State.process (s : State) (k : Nat) : UnitStep :=
  if s.unitTooShort k then .ended (s.tooShortRaise k) (s.emptyRbsp .zero)
  else
    let t := s.mapWord2 k (setVclBit · (s.unitVcl k))
    match t.convertBytes (s.unitBytes k) (s.unitVcl k) with
    | .raise r u => .ended r u
    | .ok _ u => u.processHeader k

/-- The start of `sps_run(entry)` (46_sps_engine.md R401). -/
def State.startSps (s : State) (caller : Engine) : State :=
  { s with
    v := vCleared
    mem := s.mem.clearRecord
    spsValid := false
    stepCount := 0#32
    seqPc := s.latch.spsEntry
    engine := caller }

/-- Every later unit O_ABORTED, and HALTED: a class F disposition (43_scanner_framer.md R298). -/
def State.haltUnits (s : State) : State := (s.abortUnits s.decNext.toNat s.unitsLeft).halt

/-- The unit CUR_NAL takes the next place: `k <- DEC_NEXT; DEC_NEXT <- k + 1; CUR_NAL <- k` (43_scanner_framer.md
R296). -/
def State.nextUnit (s : State) : State := { s with curNal := s.decNext, decNext := s.decNext + 1#32 }

/-- A unit ends with an outcome that no µop raised: its disposition with INFO = ERR_VALUE, and the error record
(43_scanner_framer.md R296, R297). -/
def State.endUnit (s : State) (k : Nat) (r : Raise) : State :=
  (s.dispose k r.code r.value).recordOutcome r noPc

/-- The loop of `resume()` over `n` units, up to the start of an SPS parse or the end of the access unit
(43_scanner_framer.md R296, R299). -/
def State.resumeLoop (s : State) : Nat → State
  | 0 => { s with result := s.nalCount }.complete
  | n + 1 =>
    let k := s.decNext.toNat
    match s.nextUnit.process k with
    | .sps t => t.startSps .decodeUnit
    | .stub t => (t.dispose k .oStub 0#32).resumeLoop n
    | .ended r t =>
      let u := t.endUnit k r
      if r.code.cls = .fatal then u.haltUnits else u.resumeLoop n

/-- `resume()` (43_scanner_framer.md R296). -/
def State.resume (s : State) : State := s.resumeLoop s.unitsLeft

end Sys2Proof.Machine
end

