-- ==== Sys2Proof/Machine/Engine.lean ====
section
/-!
DEFINITION. The SPS engine's sequencer (46_sps_engine.md R401-R407): how a µop ends, how a parse ends, in a PARSE_SPS
command or inside DECODE_AU.
-/

namespace Sys2Proof.Machine

/-- A parse inside DECODE_AU ends with an outcome: the unit CUR_NAL gets it as its disposition with INFO = ERR_PC, the
error record is written, and DECODE_AU halts (class F) or goes on (43_scanner_framer.md R296-R298). -/
def State.endUnitParse (s : State) (r : Raise) : State :=
  let t := (s.dispose s.curNal.toNat r.code s.seqPc).recordOutcome r s.seqPc
  let u := { t with engine := .off }
  if r.code.cls = .fatal then u.haltUnits else u.resume

/-- A parse ends with an outcome raised at SEQ_PC (46_sps_engine.md R401, R405; 60_exceptions.md R611). Outside
DECODE_AU it ends the command. -/
def State.endParse (s : State) (r : Raise) : State :=
  match s.engine with
  | .decodeUnit => s.endUnitParse r
  | .parseSps => s.endWith r s.seqPc
  | .off => s.endWith r s.seqPc

/-- A parse reaches END (46_sps_engine.md R470, R401): RESULT is STEP_COUNT for PARSE_SPS; inside DECODE_AU the unit
gets O_SPS_OK, RESULT is its index, and the block pauses (43_scanner_framer.md R296, R300). -/
def State.finishParse (s : State) : State :=
  let t := { s with spsValid := true }
  match s.engine with
  | .decodeUnit => { t.dispose s.curNal.toNat .oSpsOk 0#32 with result := s.curNal }.pause
  | .parseSps => { t with result := s.stepCount }.complete
  | .off => { t with result := s.stepCount }.complete

/-- The outcome of a next_pc outside [0, USTORE_CAP) (46_sps_engine.md R403). -/
def pcRaise (n : Int) : Raise := { code := .fUopPc, value := BitVec.ofInt 32 n }

/-- The end of a µop that gives `next_pc`: F_UOP_PC when it is out of range, else SEQ_PC moves (46_sps_engine.md R401,
R403). The µop's own effects are in the state already. -/
def State.goto (s : State) (n : Int) : State :=
  if n < 0 ∨ (s.params.ustoreCap : Int) ≤ n then s.endParse (pcRaise n)
  else { s with seqPc := BitVec.ofInt 32 n }

/-- The end of a µop that gives `next_pc = SEQ_PC + 1` (46_sps_engine.md R403). -/
def State.advance (s : State) : State := s.goto s.nextTarget

/-- A µop that writes one variable (46_sps_engine.md R404). -/
def State.writeBack (s : State) (d : BitVec 8) (x : Word) : State := (s.setV d x).advance

/-- A µop that writes what a function of the bit reader returns; an outcome ends the parse with no variable written
(46_sps_engine.md R404). -/
def State.readBack (d : BitVec 8) (e : Eff Word) : State :=
  match e with
  | .ok x s => s.writeBack d x
  | .raise r s => s.endParse r

/-- DIVU, REMU and CDIVU: F_UOP_DIV0 with the dividend when the divisor is 0 (46_sps_engine.md R426-R428). -/
def State.divideBack (s : State) (d a b : BitVec 8) (f : Nat → Nat → Nat) : State :=
  if s.getV b = 0#32 then s.endParse { code := .fUopDiv0, value := s.getV a }
  else s.writeBack d (word (f (s.getV a).toNat (s.getV b).toNat))

/-- The outcome of a record address at or above REC_CAP (46_sps_engine.md R450, R451). -/
def recordRaise (addr : Nat) : Raise := { code := .fRecRange, value := word addr }

/-- The least `k` with `2^k ≥ n`, 0 for `n ≤ 1` (46_sps_engine.md R436). -/
def ceilLog2 (n : Nat) : Nat :=
  if n ≤ 1 then 0 else ((List.range 33).find? fun k => decide (n ≤ 2 ^ k)).getD 32

end Sys2Proof.Machine
end

