-- ==== Sys2Proof/Machine/CmdControl.lean ====
section
/-!
DEFINITION. The control commands NOP, RESET, CONTINUE, ABORT (47_control.md R502, R503; 43_scanner_framer.md R301, R302).
A command runs as its block step, after acceptance (47_control.md R500).
-/

namespace Sys2Proof.Machine

open Host (Outcome)

/-- NOP: nothing beyond acceptance and completion (47_control.md R502). -/
def execNop (s : State) : Outcome State Fault Refusal := .next s.complete

/-- Every register and hidden element at its reset value, the memories, V and the model's environment kept
(70_reset_and_hazards.md R701-R703). -/
def State.commandReset (s : State) : State :=
  { State.resetWith s.params with
    mem := s.mem
    v := s.v
    inputs := s.inputs
    readData := s.readData
    free := s.free }

/-- RESET: the command reset; no DONE, no interrupt event (47_control.md R503). -/
def execReset (s : State) : Outcome State Fault Refusal := .next s.commandReset

/-- CONTINUE: `resume()` (43_scanner_framer.md R301). -/
def execContinueAu (s : State) : Outcome State Fault Refusal := .next s.resume

/-- ABORT: every unit left gets O_ABORTED with INFO 0, DEC_NEXT moves to NAL_COUNT (43_scanner_framer.md R302). -/
def execAbortAu (s : State) : Outcome State Fault Refusal :=
  .next { s.abortUnitsInfo s.decNext.toNat s.unitsLeft with decNext := s.nalCount }.complete

end Sys2Proof.Machine
end

