-- ==== Sys2Proof/Machine/CmdFramer.lean ====
section
/-!
DEFINITION. The scanner, framer, converter and header commands (43_scanner_framer.md R282, R290, R292, R295;
42_rbsp_converter.md R260; 44_nal_header.md R332).
-/

namespace Sys2Proof.Machine

open Host (Outcome)

/-- SCAN_AU: the length check, then `scan()`; RESULT is NAL_COUNT (43_scanner_framer.md R282). -/
def execScanAu (s : State) : Outcome State Fault Refusal :=
  .next (if s.auTooLong then s.endWith s.auTooLongRaise noPc else State.finishResult s.scan)

/-- PEEK_AU_TYPE: the first unit's type, nothing else written (43_scanner_framer.md R290). -/
def execPeekAuType (s : State) : Outcome State Fault Refusal :=
  .next (if s.auTooLong then s.endWith s.auTooLongRaise noPc
    else State.finishResult (.ok (peekType s.auBytes) s))

/-- DECODE_AU: the length check, SPS_VALID cleared, `scan()`, then the units from 0 on (43_scanner_framer.md R295). -/
def execDecodeAu (s : State) : Outcome State Fault Refusal :=
  .next (if s.auTooLong then s.endWith s.auTooLongRaise noPc
    else match { s with spsValid := false }.scan with
      | .raise r t => t.endWith r noPc
      | .ok _ t => { t with decNext := 0#32 }.resume)

/-- LOAD_NAL: unit ARG0 of the table converted into RBSP (43_scanner_framer.md R292). -/
def execLoadNal (s : State) : Outcome State Fault Refusal :=
  let k := s.latch.arg0
  .next (if s.nalCount.toNat ≤ k.toNat then s.endWith { code := .eNalIndex, value := k } noPc
    else State.finishResult ({ s with curNal := k }.loadUnit k.toNat))

/-- CONVERT_RANGE: AU[ARG0 .. ARG0+ARG1−1] converted into RBSP with the VCL flag of the word (42_rbsp_converter.md
R260). -/
def execConvertRange (vcl : Bool) (s : State) : Outcome State Fault Refusal :=
  let a := s.latch.arg0
  let n := s.latch.arg1
  .next (if s.auTooLong then s.endWith s.auTooLongRaise noPc
    else if s.latch.auLen.toNat < a.toNat + n.toNat then
      s.endWith { code := .eRangeArgs, value := a, min := n } noPc
    else State.finishResult (s.convertBytes (s.mem.au.slice a.toNat n.toNat) vcl))

/-- PARSE_NAL_HEADER: RESULT is NUH when the header is OK or has a layer id above 55, whose status outcome is recorded
all the same (44_nal_header.md R332, 60_exceptions.md R605). -/
def execParseNalHeader (s : State) : Outcome State Fault Refusal :=
  .next (match s.parseHeader with
    | .ok _ t => { t with result := t.nuh.pack }.complete
    | .raise r t =>
      if r.code = .sLayerId then { t with result := t.nuh.pack }.endWith r noPc else t.endWith r noPc)

end Sys2Proof.Machine
end

