-- ==== Sys2Proof/Machine/CmdReader.lean ====
section
/-!
DEFINITION. The bit reader commands (41_bit_reader.md R215-R222).
-/

namespace Sys2Proof.Machine

open Host (Outcome)

/-- BR_READ n (41_bit_reader.md R215). -/
def execBrRead (n : Nat) (s : State) : Outcome State Fault Refusal := .next (State.finishResult (s.read n))

/-- BR_PEEK n (41_bit_reader.md R218). -/
def execBrPeek (n : Nat) (s : State) : Outcome State Fault Refusal := .next (State.finishResult (s.peek n))

/-- BR_BITS_LEFT (41_bit_reader.md R221). -/
def execBrBitsLeft (s : State) : Outcome State Fault Refusal :=
  .next (State.finishResult (.ok (word s.bitsLeft) s))

/-- BR_BITS_TO_ALIGN (41_bit_reader.md R222). -/
def execBrBitsToAlign (s : State) : Outcome State Fault Refusal :=
  .next (State.finishResult (.ok (word s.bitsToAlign) s))

end Sys2Proof.Machine
end

