-- ==== Sys2Proof/Machine/CmdSps.lean ====
section
/-!
DEFINITION. The SPS command (46_sps_engine.md R401).
-/

namespace Sys2Proof.Machine

open Host (Outcome)

/-- PARSE_SPS: the start of `sps_run(SPS_ENTRY)`; the µops of the parse follow, one at a time, and the parse's end
completes the command (46_sps_engine.md R401; log entry 1). -/
def execParseSps (s : State) : Outcome State Fault Refusal := .next (s.startSps .parseSps)

end Sys2Proof.Machine
end

