-- ==== Sys2Proof/Machine/CmdVlc.lean ====
section
/-!
DEFINITION. The VLC and RBSP tail commands (45_vlc.md R370-R382). The range bounds are the latched ARG0 and ARG1
(10_state.md R36).
-/

namespace Sys2Proof.Machine

open Host (Outcome)

/-- READ_FLAG (45_vlc.md R370). -/
def execReadFlag (s : State) : Outcome State Fault Refusal := .next (State.finishResult s.flag)

/-- READ_CODE n (45_vlc.md R371). -/
def execReadCode (n : Nat) (s : State) : Outcome State Fault Refusal := .next (State.finishResult (s.code n))

/-- READ_UVLC (45_vlc.md R372). -/
def execReadUvlc (s : State) : Outcome State Fault Refusal := .next (State.finishResult s.ue)

/-- READ_SVLC (45_vlc.md R373). -/
def execReadSvlc (s : State) : Outcome State Fault Refusal := .next (State.finishResult s.se)

/-- READ_CODE_R n: the code, then the unsigned range check (45_vlc.md R374). -/
def execReadCodeR (n : Nat) (s : State) : Outcome State Fault Refusal :=
  .next (State.finishResult ((s.code n).bind (checkU s.latch.arg0 s.latch.arg1)))

/-- READ_UVLC_R: ue(v), then the unsigned range check (45_vlc.md R375). -/
def execReadUvlcR (s : State) : Outcome State Fault Refusal :=
  .next (State.finishResult (s.ue.bind (checkU s.latch.arg0 s.latch.arg1)))

/-- READ_SVLC_R: se(v), then the signed range check (45_vlc.md R376). -/
def execReadSvlcR (s : State) : Outcome State Fault Refusal :=
  .next (State.finishResult (s.se.bind (checkS s.latch.arg0 s.latch.arg1)))

/-- MORE_RBSP_DATA (45_vlc.md R380). -/
def execMoreRbspData (s : State) : Outcome State Fault Refusal :=
  .next (State.finishResult (.ok (flagWord s.moreRbspData) s))

/-- RBSP_TRAILING_BITS: RESULT is the bits left (45_vlc.md R382). -/
def execRbspTrailingBits (s : State) : Outcome State Fault Refusal :=
  .next (State.finishResult (s.trailingBits.bind fun _ t => .ok (word t.bitsLeft) t))

end Sys2Proof.Machine
end

