-- ==== Sys2Proof/Machine/UopAlu.lean ====
section
/-!
DEFINITION. The arithmetic and logic µops (46_sps_engine.md R420-R443). Every source is read before D is written (R404);
results are reduced with trunc_32.
-/

namespace Sys2Proof.Machine

open Host (Outcome)

/-- LDI (46_sps_engine.md R420). -/
def execLdi (d : BitVec 8) (imm : Word) (s : State) : Outcome State Fault Refusal :=
  .next (s.writeBack d (imm))

/-- MOV (46_sps_engine.md R421). -/
def execMov (d a : BitVec 8) (s : State) : Outcome State Fault Refusal :=
  .next (s.writeBack d (s.getV a))

/-- ADD (46_sps_engine.md R422). -/
def execAdd (d a b : BitVec 8) (s : State) : Outcome State Fault Refusal :=
  .next (s.writeBack d (s.getV a + s.getV b))

/-- SUB (46_sps_engine.md R423). -/
def execSub (d a b : BitVec 8) (s : State) : Outcome State Fault Refusal :=
  .next (s.writeBack d (s.getV a - s.getV b))

/-- ADDI (46_sps_engine.md R424). -/
def execAddi (d a : BitVec 8) (imm : Word) (s : State) : Outcome State Fault Refusal :=
  .next (s.writeBack d (s.getV a + imm))

/-- MUL (46_sps_engine.md R425). -/
def execMul (d a b : BitVec 8) (s : State) : Outcome State Fault Refusal :=
  .next (s.writeBack d (s.getV a * s.getV b))

/-- DIVU (46_sps_engine.md R426). -/
def execDivu (d a b : BitVec 8) (s : State) : Outcome State Fault Refusal :=
  .next (s.divideBack d a b (· / ·))

/-- REMU (46_sps_engine.md R427). -/
def execRemu (d a b : BitVec 8) (s : State) : Outcome State Fault Refusal :=
  .next (s.divideBack d a b (· % ·))

/-- CDIVU: the quotient, one more when the division leaves a remainder (46_sps_engine.md R428). -/
def execCdivu (d a b : BitVec 8) (s : State) : Outcome State Fault Refusal :=
  .next (s.divideBack d a b (fun x y => x / y + (if x % y = 0 then 0 else 1)))

/-- SHL: 0 when the amount is 32 or more (46_sps_engine.md R429). -/
def execShl (d a b : BitVec 8) (s : State) : Outcome State Fault Refusal :=
  .next (s.writeBack d (if 32 ≤ (s.getV b).toNat then 0#32 else s.getV a <<< (s.getV b).toNat))

/-- SHR: 0 when the amount is 32 or more (46_sps_engine.md R430). -/
def execShr (d a b : BitVec 8) (s : State) : Outcome State Fault Refusal :=
  .next (s.writeBack d (if 32 ≤ (s.getV b).toNat then 0#32 else s.getV a >>> (s.getV b).toNat))

/-- AND (46_sps_engine.md R431). -/
def execAnd (d a b : BitVec 8) (s : State) : Outcome State Fault Refusal :=
  .next (s.writeBack d (s.getV a &&& s.getV b))

/-- OR (46_sps_engine.md R432). -/
def execOr (d a b : BitVec 8) (s : State) : Outcome State Fault Refusal :=
  .next (s.writeBack d (s.getV a ||| s.getV b))

/-- XOR (46_sps_engine.md R433). -/
def execXor (d a b : BitVec 8) (s : State) : Outcome State Fault Refusal :=
  .next (s.writeBack d (s.getV a ^^^ s.getV b))

/-- MAXU (46_sps_engine.md R434). -/
def execMaxu (d a b : BitVec 8) (s : State) : Outcome State Fault Refusal :=
  .next (s.writeBack d (if (s.getV b).toNat ≤ (s.getV a).toNat then s.getV a else s.getV b))

/-- MINU (46_sps_engine.md R435). -/
def execMinu (d a b : BitVec 8) (s : State) : Outcome State Fault Refusal :=
  .next (s.writeBack d (if (s.getV a).toNat ≤ (s.getV b).toNat then s.getV a else s.getV b))

/-- CLOG2 (46_sps_engine.md R436). -/
def execClog2 (d a : BitVec 8) (s : State) : Outcome State Fault Refusal :=
  .next (s.writeBack d (word (ceilLog2 (s.getV a).toNat)))

/-- SETEQ (46_sps_engine.md R437). -/
def execSeteq (d a b : BitVec 8) (s : State) : Outcome State Fault Refusal :=
  .next (s.writeBack d (flagWord (s.getV a = s.getV b)))

/-- SETNE (46_sps_engine.md R438). -/
def execSetne (d a b : BitVec 8) (s : State) : Outcome State Fault Refusal :=
  .next (s.writeBack d (flagWord (s.getV a ≠ s.getV b)))

/-- SETLTU (46_sps_engine.md R439). -/
def execSetltu (d a b : BitVec 8) (s : State) : Outcome State Fault Refusal :=
  .next (s.writeBack d (flagWord ((s.getV a).toNat < (s.getV b).toNat)))

/-- SETLEU (46_sps_engine.md R440). -/
def execSetleu (d a b : BitVec 8) (s : State) : Outcome State Fault Refusal :=
  .next (s.writeBack d (flagWord ((s.getV a).toNat ≤ (s.getV b).toNat)))

/-- SETLT (46_sps_engine.md R441). -/
def execSetlt (d a b : BitVec 8) (s : State) : Outcome State Fault Refusal :=
  .next (s.writeBack d (flagWord (s32 (s.getV a) < s32 (s.getV b))))

/-- SETLE (46_sps_engine.md R442). -/
def execSetle (d a b : BitVec 8) (s : State) : Outcome State Fault Refusal :=
  .next (s.writeBack d (flagWord (s32 (s.getV a) ≤ s32 (s.getV b))))

/-- LNOT (46_sps_engine.md R443). -/
def execLnot (d a : BitVec 8) (s : State) : Outcome State Fault Refusal :=
  .next (s.writeBack d (flagWord (s.getV a = 0#32)))

end Sys2Proof.Machine
end

