-- ==== Sys2Proof/Machine/UopBranch.lean ====
section
/-!
DEFINITION. The branch µops (46_sps_engine.md R445-R448).
-/

namespace Sys2Proof.Machine

open Host (Outcome)

/-- BZ (46_sps_engine.md R445). -/
def execBz (a : BitVec 8) (imm : Word) (s : State) : Outcome State Fault Refusal :=
  .next (s.goto (if s.getV a = 0#32 then s.forwardTarget imm else s.nextTarget))

/-- BNZ (46_sps_engine.md R446). -/
def execBnz (a : BitVec 8) (imm : Word) (s : State) : Outcome State Fault Refusal :=
  .next (s.goto (if s.getV a ≠ 0#32 then s.forwardTarget imm else s.nextTarget))

/-- JMP (46_sps_engine.md R447). -/
def execJmp (imm : Word) (s : State) : Outcome State Fault Refusal := .next (s.goto (s.forwardTarget imm))

/-- LOOP: the counter is incremented, and the bound is read before the write (46_sps_engine.md R448). -/
def execLoop (a b : BitVec 8) (imm : Word) (s : State) : Outcome State Fault Refusal :=
  let c := s.getV a + 1#32
  .next ((s.setV a c).goto (if c.toNat < (s.getV b).toNat then s.backwardTarget imm else s.nextTarget))

end Sys2Proof.Machine
end

