-- ==== Sys2Proof/Machine/UopCheck.lean ====
section
/-!
DEFINITION. The check µops (46_sps_engine.md R460, R461).
-/

namespace Sys2Proof.Machine

open Host (Outcome)

/-- CHK: E_SPS_CHECK with the tag when the variable is 0 (46_sps_engine.md R460). -/
def execChk (a : BitVec 8) (imm : Word) (s : State) : Outcome State Fault Refusal :=
  .next (if s.getV a = 0#32 then s.endParse { code := .eSpsCheck, tag := imm } else s.advance)

/-- CHKW: the warning W_SPS_CHECK and WARN_TAG when the variable is 0 (46_sps_engine.md R461). -/
def execChkw (a : BitVec 8) (imm : Word) (s : State) : Outcome State Fault Refusal :=
  .next (if s.getV a = 0#32 then { s.warnBit .spsCheck with warnTag := imm }.advance else s.advance)

end Sys2Proof.Machine
end

