-- ==== Sys2Proof/Machine/UopQuery.lean ====
section
/-!
DEFINITION. The bit reader query µops and END (46_sps_engine.md R465-R470).
-/

namespace Sys2Proof.Machine

open Host (Outcome)

/-- MRD (46_sps_engine.md R465). -/
def execMrd (d : BitVec 8) (s : State) : Outcome State Fault Refusal := .next (s.writeBack d (flagWord s.moreRbspData))

/-- TRAIL (46_sps_engine.md R466). -/
def execTrail (s : State) : Outcome State Fault Refusal :=
  .next (match s.trailingBits with
    | .ok _ t => t.advance
    | .raise r t => t.endParse r)

/-- BTA (46_sps_engine.md R467). -/
def execBta (d : BitVec 8) (s : State) : Outcome State Fault Refusal := .next (s.writeBack d (word s.bitsToAlign))

/-- BLEFT (46_sps_engine.md R468). -/
def execBleft (d : BitVec 8) (s : State) : Outcome State Fault Refusal := .next (s.writeBack d (word s.bitsLeft))

/-- END: the parse is complete; SEQ_PC stays at its index (46_sps_engine.md R470). -/
def execEndSps (s : State) : Outcome State Fault Refusal := .next s.finishParse

end Sys2Proof.Machine
end

