-- ==== Sys2Proof/Machine/UopRead.lean ====
section
/-!
DEFINITION. The read µops (46_sps_engine.md R410-R418). Bounds and widths are read before anything is written (R404).
-/

namespace Sys2Proof.Machine

open Host (Outcome)

/-- RDF (46_sps_engine.md R410). -/
def execRdf (d : BitVec 8) (s : State) : Outcome State Fault Refusal := .next (State.readBack d s.flag)

/-- RDU (46_sps_engine.md R411). -/
def execRdu (d : BitVec 8) (imm : Word) (s : State) : Outcome State Fault Refusal :=
  .next (State.readBack d (s.code imm.toNat))

/-- RDUV (46_sps_engine.md R412). -/
def execRduv (d a : BitVec 8) (s : State) : Outcome State Fault Refusal :=
  .next (State.readBack d (s.code (s.getV a).toNat))

/-- RDUE (46_sps_engine.md R413). -/
def execRdue (d : BitVec 8) (s : State) : Outcome State Fault Refusal := .next (State.readBack d s.ue)

/-- RDSE (46_sps_engine.md R414). -/
def execRdse (d : BitVec 8) (s : State) : Outcome State Fault Refusal := .next (State.readBack d s.se)

/-- RDUR (46_sps_engine.md R415). -/
def execRdur (d a b : BitVec 8) (imm : Word) (s : State) : Outcome State Fault Refusal :=
  .next (State.readBack d ((s.code imm.toNat).bind (checkU (s.getV a) (s.getV b))))

/-- RDUER (46_sps_engine.md R416). -/
def execRduer (d a b : BitVec 8) (s : State) : Outcome State Fault Refusal :=
  .next (State.readBack d (s.ue.bind (checkU (s.getV a) (s.getV b))))

/-- RDSER (46_sps_engine.md R417). -/
def execRdser (d a b : BitVec 8) (s : State) : Outcome State Fault Refusal :=
  .next (State.readBack d (s.se.bind (checkS (s.getV a) (s.getV b))))

/-- RDUVR: the width is in variable `w` (46_sps_engine.md R418). -/
def execRduvr (d a b w : BitVec 8) (s : State) : Outcome State Fault Refusal :=
  .next (State.readBack d ((s.code (s.getV w).toNat).bind (checkU (s.getV a) (s.getV b))))

end Sys2Proof.Machine
end

