-- ==== Sys2Proof/Machine/UopRecord.lean ====
section
/-!
DEFINITION. The record µops (46_sps_engine.md R450, R451).
-/

namespace Sys2Proof.Machine

open Host (Outcome)

/-- STR: REC[IMM + V[B]] and its REC_WR bit; F_REC_RANGE at REC_CAP and above (46_sps_engine.md R450). -/
def execStr (a b : BitVec 8) (imm : Word) (s : State) : Outcome State Fault Refusal :=
  let addr := s.recordAddr b imm
  .next (if s.params.recCap ≤ addr then s.endParse (recordRaise addr)
    else { s with mem := s.mem.setRecord addr (s.getV a) }.advance)

/-- LDR: V[D] from REC[IMM + V[B]]; F_REC_RANGE at REC_CAP and above (46_sps_engine.md R451). -/
def execLdr (d b : BitVec 8) (imm : Word) (s : State) : Outcome State Fault Refusal :=
  let addr := s.recordAddr b imm
  .next (if s.params.recCap ≤ addr then s.endParse (recordRaise addr)
    else s.writeBack d (s.mem.record.read addr))

end Sys2Proof.Machine
end

