-- ==== Sys2Proof/Syntax.lean ====
section
/-!
DEFINITION. The abstract syntax: one constructor for each row of spec/opcode_table.json, 24 commands
(30_encoding.md R151) and 46 µops (30_encoding.md R162). A field that a format does not use (R161) is no
argument. A bit count is a number; variable numbers and immediates are the bit fields of R160.
-/

namespace Sys2Proof

/-- The commands and the µops of the block. -/
inductive Instr where
  -- control commands
  | nop
  | reset
  | continueAu
  | abortAu
  -- scanner and framer commands
  | scanAu
  | peekAuType
  | decodeAu
  | loadNal
  | convertRange (vcl : Bool)
  | parseNalHeader
  -- bit reader commands
  | brRead (n : Nat)
  | brPeek (n : Nat)
  | brBitsLeft
  | brBitsToAlign
  -- VLC commands
  | readFlag
  | readCode (n : Nat)
  | readUvlc
  | readSvlc
  | readCodeR (n : Nat)
  | readUvlcR
  | readSvlcR
  | moreRbspData
  | rbspTrailingBits
  -- SPS command
  | parseSps
  -- read µops
  | rdf (d : BitVec 8)
  | rdu (d : BitVec 8) (imm : Word)
  | rduv (d a : BitVec 8)
  | rdue (d : BitVec 8)
  | rdse (d : BitVec 8)
  | rdur (d a b : BitVec 8) (imm : Word)
  | rduer (d a b : BitVec 8)
  | rdser (d a b : BitVec 8)
  | rduvr (d a b w : BitVec 8)
  -- arithmetic and logic µops
  | ldi (d : BitVec 8) (imm : Word)
  | mov (d a : BitVec 8)
  | add (d a b : BitVec 8)
  | sub (d a b : BitVec 8)
  | addi (d a : BitVec 8) (imm : Word)
  | mul (d a b : BitVec 8)
  | divu (d a b : BitVec 8)
  | remu (d a b : BitVec 8)
  | cdivu (d a b : BitVec 8)
  | shl (d a b : BitVec 8)
  | shr (d a b : BitVec 8)
  | and (d a b : BitVec 8)
  | or (d a b : BitVec 8)
  | xor (d a b : BitVec 8)
  | maxu (d a b : BitVec 8)
  | minu (d a b : BitVec 8)
  | clog2 (d a : BitVec 8)
  | seteq (d a b : BitVec 8)
  | setne (d a b : BitVec 8)
  | setltu (d a b : BitVec 8)
  | setleu (d a b : BitVec 8)
  | setlt (d a b : BitVec 8)
  | setle (d a b : BitVec 8)
  | lnot (d a : BitVec 8)
  -- branch µops
  | bz (a : BitVec 8) (imm : Word)
  | bnz (a : BitVec 8) (imm : Word)
  | jmp (imm : Word)
  | loop (a b : BitVec 8) (imm : Word)
  -- record µops
  | str (a b : BitVec 8) (imm : Word)
  | ldr (d b : BitVec 8) (imm : Word)
  -- check µops
  | chk (a : BitVec 8) (imm : Word)
  | chkw (a : BitVec 8) (imm : Word)
  -- reader query µops and the end
  | mrd (d : BitVec 8)
  | trail
  | bta (d : BitVec 8)
  | bleft (d : BitVec 8)
  | endSps
deriving DecidableEq, Repr

end Sys2Proof
end

