-- ==== Sys2Proof/Machine/Dispatch.lean ====
section
/-!
DEFINITION. The meaning of every instruction: one arm per constructor, each one call of the instruction's own meaning.
-/

namespace Sys2Proof.Machine

open Host (Outcome)

/- A command's meaning is its block step after acceptance (47_control.md R500); a µop's meaning is its execution by the
SPS engine (46_sps_engine.md R401). -/
def exec (i : Instr) (s : State) : Host.Outcome State Fault Refusal :=
  match i with
  | .nop => Sys2Proof.Machine.execNop s
  | .reset => Sys2Proof.Machine.execReset s
  | .continueAu => Sys2Proof.Machine.execContinueAu s
  | .abortAu => Sys2Proof.Machine.execAbortAu s
  | .scanAu => Sys2Proof.Machine.execScanAu s
  | .peekAuType => Sys2Proof.Machine.execPeekAuType s
  | .decodeAu => Sys2Proof.Machine.execDecodeAu s
  | .loadNal => Sys2Proof.Machine.execLoadNal s
  | .convertRange vcl => Sys2Proof.Machine.execConvertRange vcl s
  | .parseNalHeader => Sys2Proof.Machine.execParseNalHeader s
  | .brRead n => Sys2Proof.Machine.execBrRead n s
  | .brPeek n => Sys2Proof.Machine.execBrPeek n s
  | .brBitsLeft => Sys2Proof.Machine.execBrBitsLeft s
  | .brBitsToAlign => Sys2Proof.Machine.execBrBitsToAlign s
  | .readFlag => Sys2Proof.Machine.execReadFlag s
  | .readCode n => Sys2Proof.Machine.execReadCode n s
  | .readUvlc => Sys2Proof.Machine.execReadUvlc s
  | .readSvlc => Sys2Proof.Machine.execReadSvlc s
  | .readCodeR n => Sys2Proof.Machine.execReadCodeR n s
  | .readUvlcR => Sys2Proof.Machine.execReadUvlcR s
  | .readSvlcR => Sys2Proof.Machine.execReadSvlcR s
  | .moreRbspData => Sys2Proof.Machine.execMoreRbspData s
  | .rbspTrailingBits => Sys2Proof.Machine.execRbspTrailingBits s
  | .parseSps => Sys2Proof.Machine.execParseSps s
  | .rdf d => Sys2Proof.Machine.execRdf d s
  | .rdu d imm => Sys2Proof.Machine.execRdu d imm s
  | .rduv d a => Sys2Proof.Machine.execRduv d a s
  | .rdue d => Sys2Proof.Machine.execRdue d s
  | .rdse d => Sys2Proof.Machine.execRdse d s
  | .rdur d a b imm => Sys2Proof.Machine.execRdur d a b imm s
  | .rduer d a b => Sys2Proof.Machine.execRduer d a b s
  | .rdser d a b => Sys2Proof.Machine.execRdser d a b s
  | .rduvr d a b w => Sys2Proof.Machine.execRduvr d a b w s
  | .ldi d imm => Sys2Proof.Machine.execLdi d imm s
  | .mov d a => Sys2Proof.Machine.execMov d a s
  | .add d a b => Sys2Proof.Machine.execAdd d a b s
  | .sub d a b => Sys2Proof.Machine.execSub d a b s
  | .addi d a imm => Sys2Proof.Machine.execAddi d a imm s
  | .mul d a b => Sys2Proof.Machine.execMul d a b s
  | .divu d a b => Sys2Proof.Machine.execDivu d a b s
  | .remu d a b => Sys2Proof.Machine.execRemu d a b s
  | .cdivu d a b => Sys2Proof.Machine.execCdivu d a b s
  | .shl d a b => Sys2Proof.Machine.execShl d a b s
  | .shr d a b => Sys2Proof.Machine.execShr d a b s
  | .and d a b => Sys2Proof.Machine.execAnd d a b s
  | .or d a b => Sys2Proof.Machine.execOr d a b s
  | .xor d a b => Sys2Proof.Machine.execXor d a b s
  | .maxu d a b => Sys2Proof.Machine.execMaxu d a b s
  | .minu d a b => Sys2Proof.Machine.execMinu d a b s
  | .clog2 d a => Sys2Proof.Machine.execClog2 d a s
  | .seteq d a b => Sys2Proof.Machine.execSeteq d a b s
  | .setne d a b => Sys2Proof.Machine.execSetne d a b s
  | .setltu d a b => Sys2Proof.Machine.execSetltu d a b s
  | .setleu d a b => Sys2Proof.Machine.execSetleu d a b s
  | .setlt d a b => Sys2Proof.Machine.execSetlt d a b s
  | .setle d a b => Sys2Proof.Machine.execSetle d a b s
  | .lnot d a => Sys2Proof.Machine.execLnot d a s
  | .bz a imm => Sys2Proof.Machine.execBz a imm s
  | .bnz a imm => Sys2Proof.Machine.execBnz a imm s
  | .jmp imm => Sys2Proof.Machine.execJmp imm s
  | .loop a b imm => Sys2Proof.Machine.execLoop a b imm s
  | .str a b imm => Sys2Proof.Machine.execStr a b imm s
  | .ldr d b imm => Sys2Proof.Machine.execLdr d b imm s
  | .chk a imm => Sys2Proof.Machine.execChk a imm s
  | .chkw a imm => Sys2Proof.Machine.execChkw a imm s
  | .mrd d => Sys2Proof.Machine.execMrd d s
  | .trail => Sys2Proof.Machine.execTrail s
  | .bta d => Sys2Proof.Machine.execBta d s
  | .bleft d => Sys2Proof.Machine.execBleft d s
  | .endSps => Sys2Proof.Machine.execEndSps s

end Sys2Proof.Machine
end

