-- ==== Sys2Proof/WellFormed.lean ====
section
/-!
DEFINITION. Which terms of the syntax an encoding exists for. 30_encoding.md R152: a form N command carries a bit
count of 6 bits, 0..63. Every other operand is a bit field of its own width, every value of which encodes.
-/

namespace Sys2Proof

/-- A term some word encodes: the bit count of a form N command fits CMD[5:0] (30_encoding.md R152). -/
def Instr.wellFormed : Instr → Bool
  | .brRead n => n < 64
  | .brPeek n => n < 64
  | .readCode n => n < 64
  | .readCodeR n => n < 64
  | .nop | .reset | .continueAu | .abortAu | .scanAu | .peekAuType | .decodeAu | .loadNal
  | .convertRange _ | .parseNalHeader | .brBitsLeft | .brBitsToAlign | .readFlag | .readUvlc
  | .readSvlc | .readUvlcR | .readSvlcR | .moreRbspData | .rbspTrailingBits | .parseSps => true
  | .rdf _ | .rdu _ _ | .rduv _ _ | .rdue _ | .rdse _ | .rdur _ _ _ _ | .rduer _ _ _
  | .rdser _ _ _ | .rduvr _ _ _ _ => true
  | .ldi _ _ | .mov _ _ | .add _ _ _ | .sub _ _ _ | .addi _ _ _ | .mul _ _ _ | .divu _ _ _
  | .remu _ _ _ | .cdivu _ _ _ | .shl _ _ _ | .shr _ _ _ | .and _ _ _ | .or _ _ _ | .xor _ _ _
  | .maxu _ _ _ | .minu _ _ _ | .clog2 _ _ | .seteq _ _ _ | .setne _ _ _ | .setltu _ _ _
  | .setleu _ _ _ | .setlt _ _ _ | .setle _ _ _ | .lnot _ _ => true
  | .bz _ _ | .bnz _ _ | .jmp _ | .loop _ _ _ | .str _ _ _ | .ldr _ _ _ | .chk _ _ | .chkw _ _
  | .mrd _ | .trail | .bta _ | .bleft _ | .endSps => true

end Sys2Proof
end

