-- ==== Sys2Proof/Decode.lean ====
section
/-!
DEFINITION. Decoding and encoding of command words (30_encoding.md R150-R154) and µop words (30_encoding.md
R160-R165). Decoding is total: a word that is no instruction is rejected by name.
-/

namespace Sys2Proof

/-- The bits of one instruction, as the block holds them: a 32-bit CMD word or a 64-bit USTORE word. -/
inductive Encoded where
  | command (w : Word)
  | uop (w : UopWord)
deriving DecidableEq, Repr

/-- Why a word is no instruction. -/
inductive Reject where
  /-- RSV, CMD[23:6], is not 0 (30_encoding.md R153). -/
  | reservedBits
  /-- OPC is not in the table of R151. -/
  | unlistedOpc (opc : BitVec 8)
  /-- A form Z word has CMD[5:0] ≠ 0. -/
  | formZBits (n : BitVec 6)
  /-- A form V word has CMD[5:1] ≠ 0. -/
  | formVBits (n : BitVec 6)
  /-- OP is not in the table of R162 (R163: an illegal µop). -/
  | unlistedOp (op : BitVec 8)
deriving DecidableEq, Repr

/-! ### Command words -/

/-- OPC, CMD[31:24] (R150). -/
def cmdOpc (w : Word) : BitVec 8 := w.extractLsb' 24 8

/-- RSV, CMD[23:6] (R150). -/
def cmdRsv (w : Word) : BitVec 18 := w.extractLsb' 6 18

/-- N, CMD[5:0] (R150). -/
def cmdN (w : Word) : BitVec 6 := w.extractLsb' 0 6

/-- Form Z: CMD[5:0] must be 0 (R152). -/
def formZ (n : BitVec 6) (i : Instr) : Except Reject Instr :=
  if n = 0#6 then .ok i else .error (.formZBits n)

/-- Form V: CMD[0] is the VCL flag and CMD[5:1] must be 0 (R152). -/
def formV (n : BitVec 6) (i : Bool → Instr) : Except Reject Instr :=
  if n = 0#6 then .ok (i false) else if n = 1#6 then .ok (i true) else .error (.formVBits n)

/-- The command opcode map (R151), on the fields OPC and N of a word whose RSV is 0. -/
def decodeOpc (opc : BitVec 8) (n : BitVec 6) : Except Reject Instr :=
  match opc.toNat with
  | 0x00 => formZ n .nop
  | 0x01 => formZ n .reset
  | 0x02 => formZ n .continueAu
  | 0x03 => formZ n .abortAu
  | 0x10 => formZ n .scanAu
  | 0x11 => formZ n .peekAuType
  | 0x12 => formZ n .decodeAu
  | 0x20 => formZ n .loadNal
  | 0x21 => formV n .convertRange
  | 0x28 => formZ n .parseNalHeader
  | 0x30 => .ok (.brRead n.toNat)
  | 0x31 => .ok (.brPeek n.toNat)
  | 0x32 => formZ n .brBitsLeft
  | 0x33 => formZ n .brBitsToAlign
  | 0x38 => formZ n .readFlag
  | 0x39 => .ok (.readCode n.toNat)
  | 0x3A => formZ n .readUvlc
  | 0x3B => formZ n .readSvlc
  | 0x3C => .ok (.readCodeR n.toNat)
  | 0x3D => formZ n .readUvlcR
  | 0x3E => formZ n .readSvlcR
  | 0x40 => formZ n .moreRbspData
  | 0x41 => formZ n .rbspTrailingBits
  | 0x50 => formZ n .parseSps
  | _ => .error (.unlistedOpc opc)

/-- A command word is legal when it decodes; R153 lists what makes it illegal. -/
def decodeCmd (w : Word) : Except Reject Instr :=
  if cmdRsv w = 0#18 then decodeOpc (cmdOpc w) (cmdN w) else .error .reservedBits

/-- A command word from its fields (R150). -/
def cmdWord (opc : BitVec 8) (n : BitVec 6) : Word := opc ++ 0#18 ++ n

/-! ### µop words -/

/-- OP, word[63:56] (R160). -/
def uopOp (w : UopWord) : BitVec 8 := w.extractLsb' 56 8

/-- D, word[55:48] (R160). -/
def uopD (w : UopWord) : BitVec 8 := w.extractLsb' 48 8

/-- A, word[47:40] (R160). -/
def uopA (w : UopWord) : BitVec 8 := w.extractLsb' 40 8

/-- B, word[39:32] (R160). -/
def uopB (w : UopWord) : BitVec 8 := w.extractLsb' 32 8

/-- IMM, word[31:0] (R160). -/
def uopImm (w : UopWord) : Word := w.extractLsb' 0 32

/-- IMM[7:0], the width variable of RDUVR (R161, R164). -/
def immVar (imm : Word) : BitVec 8 := imm.extractLsb' 0 8

/-- The µop opcode map (R162) on the fields of a word. A field the format does not use is ignored (R161). -/
def decodeOp (op d a b : BitVec 8) (imm : Word) : Except Reject Instr :=
  match op.toNat with
  | 0x01 => .ok (.rdf d)
  | 0x02 => .ok (.rdu d imm)
  | 0x03 => .ok (.rduv d a)
  | 0x04 => .ok (.rdue d)
  | 0x05 => .ok (.rdse d)
  | 0x06 => .ok (.rdur d a b imm)
  | 0x07 => .ok (.rduer d a b)
  | 0x08 => .ok (.rdser d a b)
  | 0x09 => .ok (.rduvr d a b (immVar imm))
  | 0x10 => .ok (.ldi d imm)
  | 0x11 => .ok (.mov d a)
  | 0x12 => .ok (.add d a b)
  | 0x13 => .ok (.sub d a b)
  | 0x14 => .ok (.addi d a imm)
  | 0x15 => .ok (.mul d a b)
  | 0x16 => .ok (.divu d a b)
  | 0x17 => .ok (.remu d a b)
  | 0x18 => .ok (.cdivu d a b)
  | 0x19 => .ok (.shl d a b)
  | 0x1A => .ok (.shr d a b)
  | 0x1B => .ok (.and d a b)
  | 0x1C => .ok (.or d a b)
  | 0x1D => .ok (.xor d a b)
  | 0x1E => .ok (.maxu d a b)
  | 0x1F => .ok (.minu d a b)
  | 0x20 => .ok (.clog2 d a)
  | 0x21 => .ok (.seteq d a b)
  | 0x22 => .ok (.setne d a b)
  | 0x23 => .ok (.setltu d a b)
  | 0x24 => .ok (.setleu d a b)
  | 0x25 => .ok (.setlt d a b)
  | 0x26 => .ok (.setle d a b)
  | 0x27 => .ok (.lnot d a)
  | 0x30 => .ok (.bz a imm)
  | 0x31 => .ok (.bnz a imm)
  | 0x32 => .ok (.jmp imm)
  | 0x33 => .ok (.loop a b imm)
  | 0x40 => .ok (.str a b imm)
  | 0x41 => .ok (.ldr d b imm)
  | 0x50 => .ok (.chk a imm)
  | 0x51 => .ok (.chkw a imm)
  | 0x60 => .ok (.mrd d)
  | 0x61 => .ok .trail
  | 0x62 => .ok (.bta d)
  | 0x63 => .ok (.bleft d)
  | 0x7F => .ok .endSps
  | _ => .error (.unlistedOp op)

/-- The µop a USTORE word holds, or why it is illegal (R162, R163). -/
def decodeUop (w : UopWord) : Except Reject Instr :=
  decodeOp (uopOp w) (uopD w) (uopA w) (uopB w) (uopImm w)

/-- A µop word from its fields (R160). -/
def uopWord (op d a b : BitVec 8) (imm : Word) : UopWord := op ++ d ++ a ++ b ++ imm

/-- The decoder: what an encoded word stands for, or why it is no instruction. -/
def decode : Encoded → Except Reject Instr
  | .command w => decodeCmd w
  | .uop w => decodeUop w

/-! ### The encoder -/

/-- The word of each instruction (R151, R152, R161, R162). A field the format does not use is written 0 (R161). -/
def encode : Instr → Encoded
  | .nop => .command (cmdWord 0x00#8 0#6)
  | .reset => .command (cmdWord 0x01#8 0#6)
  | .continueAu => .command (cmdWord 0x02#8 0#6)
  | .abortAu => .command (cmdWord 0x03#8 0#6)
  | .scanAu => .command (cmdWord 0x10#8 0#6)
  | .peekAuType => .command (cmdWord 0x11#8 0#6)
  | .decodeAu => .command (cmdWord 0x12#8 0#6)
  | .loadNal => .command (cmdWord 0x20#8 0#6)
  | .convertRange vcl => .command (cmdWord 0x21#8 (if vcl then 1#6 else 0#6))
  | .parseNalHeader => .command (cmdWord 0x28#8 0#6)
  | .brRead n => .command (cmdWord 0x30#8 (BitVec.ofNat 6 n))
  | .brPeek n => .command (cmdWord 0x31#8 (BitVec.ofNat 6 n))
  | .brBitsLeft => .command (cmdWord 0x32#8 0#6)
  | .brBitsToAlign => .command (cmdWord 0x33#8 0#6)
  | .readFlag => .command (cmdWord 0x38#8 0#6)
  | .readCode n => .command (cmdWord 0x39#8 (BitVec.ofNat 6 n))
  | .readUvlc => .command (cmdWord 0x3A#8 0#6)
  | .readSvlc => .command (cmdWord 0x3B#8 0#6)
  | .readCodeR n => .command (cmdWord 0x3C#8 (BitVec.ofNat 6 n))
  | .readUvlcR => .command (cmdWord 0x3D#8 0#6)
  | .readSvlcR => .command (cmdWord 0x3E#8 0#6)
  | .moreRbspData => .command (cmdWord 0x40#8 0#6)
  | .rbspTrailingBits => .command (cmdWord 0x41#8 0#6)
  | .parseSps => .command (cmdWord 0x50#8 0#6)
  | .rdf d => .uop (uopWord 0x01#8 d 0#8 0#8 0#32)
  | .rdu d imm => .uop (uopWord 0x02#8 d 0#8 0#8 imm)
  | .rduv d a => .uop (uopWord 0x03#8 d a 0#8 0#32)
  | .rdue d => .uop (uopWord 0x04#8 d 0#8 0#8 0#32)
  | .rdse d => .uop (uopWord 0x05#8 d 0#8 0#8 0#32)
  | .rdur d a b imm => .uop (uopWord 0x06#8 d a b imm)
  | .rduer d a b => .uop (uopWord 0x07#8 d a b 0#32)
  | .rdser d a b => .uop (uopWord 0x08#8 d a b 0#32)
  | .rduvr d a b w => .uop (uopWord 0x09#8 d a b (w.setWidth 32))
  | .ldi d imm => .uop (uopWord 0x10#8 d 0#8 0#8 imm)
  | .mov d a => .uop (uopWord 0x11#8 d a 0#8 0#32)
  | .add d a b => .uop (uopWord 0x12#8 d a b 0#32)
  | .sub d a b => .uop (uopWord 0x13#8 d a b 0#32)
  | .addi d a imm => .uop (uopWord 0x14#8 d a 0#8 imm)
  | .mul d a b => .uop (uopWord 0x15#8 d a b 0#32)
  | .divu d a b => .uop (uopWord 0x16#8 d a b 0#32)
  | .remu d a b => .uop (uopWord 0x17#8 d a b 0#32)
  | .cdivu d a b => .uop (uopWord 0x18#8 d a b 0#32)
  | .shl d a b => .uop (uopWord 0x19#8 d a b 0#32)
  | .shr d a b => .uop (uopWord 0x1A#8 d a b 0#32)
  | .and d a b => .uop (uopWord 0x1B#8 d a b 0#32)
  | .or d a b => .uop (uopWord 0x1C#8 d a b 0#32)
  | .xor d a b => .uop (uopWord 0x1D#8 d a b 0#32)
  | .maxu d a b => .uop (uopWord 0x1E#8 d a b 0#32)
  | .minu d a b => .uop (uopWord 0x1F#8 d a b 0#32)
  | .clog2 d a => .uop (uopWord 0x20#8 d a 0#8 0#32)
  | .seteq d a b => .uop (uopWord 0x21#8 d a b 0#32)
  | .setne d a b => .uop (uopWord 0x22#8 d a b 0#32)
  | .setltu d a b => .uop (uopWord 0x23#8 d a b 0#32)
  | .setleu d a b => .uop (uopWord 0x24#8 d a b 0#32)
  | .setlt d a b => .uop (uopWord 0x25#8 d a b 0#32)
  | .setle d a b => .uop (uopWord 0x26#8 d a b 0#32)
  | .lnot d a => .uop (uopWord 0x27#8 d a 0#8 0#32)
  | .bz a imm => .uop (uopWord 0x30#8 0#8 a 0#8 imm)
  | .bnz a imm => .uop (uopWord 0x31#8 0#8 a 0#8 imm)
  | .jmp imm => .uop (uopWord 0x32#8 0#8 0#8 0#8 imm)
  | .loop a b imm => .uop (uopWord 0x33#8 0#8 a b imm)
  | .str a b imm => .uop (uopWord 0x40#8 0#8 a b imm)
  | .ldr d b imm => .uop (uopWord 0x41#8 d 0#8 b imm)
  | .chk a imm => .uop (uopWord 0x50#8 0#8 a 0#8 imm)
  | .chkw a imm => .uop (uopWord 0x51#8 0#8 a 0#8 imm)
  | .mrd d => .uop (uopWord 0x60#8 d 0#8 0#8 0#32)
  | .trail => .uop (uopWord 0x61#8 0#8 0#8 0#8 0#32)
  | .bta d => .uop (uopWord 0x62#8 d 0#8 0#8 0#32)
  | .bleft d => .uop (uopWord 0x63#8 d 0#8 0#8 0#32)
  | .endSps => .uop (uopWord 0x7F#8 0#8 0#8 0#8 0#32)

/-- What the decoder reads from the `nbits` bits `w` of a row of spec/opcode_table.json: a row of at most 32 bits is a
command word, a longer one a µop word. Bit 0 is the least significant bit in both. -/
def decodeTableWord (nbits w : Nat) : Option Instr :=
  (decode (if nbits ≤ 32 then .command (BitVec.ofNat 32 w) else .uop (BitVec.ofNat 64 w))).toOption

end Sys2Proof
end

