-- ==== Sys2Proof/Machine/Bus.lean ====
section
/-!
DEFINITION. The host interface: the registers of the control block (10_state.md R32-R55), the address map and the
windows (20_memory.md R104-R118), a host read, a host write, issuing a command (10_state.md R55, 47_control.md R500) and
the power-on reset (70_reset_and_hazards.md R700).
-/

namespace Sys2Proof.Machine

/-! ### The registers -/

/-- The registers of the control block (10_state.md R32). -/
inductive Reg where
  | id | version | cmd | status | arg0 | arg1 | result
  | errCode | errPc | errValue | errMin | errMax | errTag
  | warn | warnTag | irqEn | irqPend | auLen | nalCount | curNal
  | rbspLen | brBitpos | brPos | brNhb | brHeldLo | brHeldHi
  | nuh | spsEntry | seqPc | stepCount
  | auCtsLo | auCtsHi | auDtsLo | auDtsHi | auRap
  | capAu | capNalt | capUstore | capRec | capSteps
deriving DecidableEq, Repr

/-- The register at a word index of the control block, offset 4 times the index (10_state.md R32); from index 40 on
the offsets are reserved (R52). -/
def Reg.atIndex (i : Nat) : Option Reg :=
  [Reg.id, .version, .cmd, .status, .arg0, .arg1, .result,
    .errCode, .errPc, .errValue, .errMin, .errMax, .errTag,
    .warn, .warnTag, .irqEn, .irqPend, .auLen, .nalCount, .curNal,
    .rbspLen, .brBitpos, .brPos, .brNhb, .brHeldLo, .brHeldHi,
    .nuh, .spsEntry, .seqPc, .stepCount,
    .auCtsLo, .auCtsHi, .auDtsLo, .auDtsHi, .auRap,
    .capAu, .capNalt, .capUstore, .capRec, .capSteps][i]?

/-- What a register holds (10_state.md R33-R64). -/
def Reg.value (s : State) : Reg → Word
  | .id => 0x57323636#32
  | .version => 0x00010001#32
  | .cmd => s.cmd
  | .status => statusWord s
  | .arg0 => s.ops.arg0
  | .arg1 => s.ops.arg1
  | .result => s.result
  | .errCode => s.error.code.val.setWidth 32
  | .errPc => s.error.pc
  | .errValue => s.error.value
  | .errMin => s.error.min
  | .errMax => s.error.max
  | .errTag => s.error.tag
  | .warn => s.warn.setWidth 32
  | .warnTag => s.warnTag
  | .irqEn => s.irqEn.setWidth 32
  | .irqPend => s.irqPend.setWidth 32
  | .auLen => s.ops.auLen
  | .nalCount => s.nalCount
  | .curNal => s.curNal
  | .rbspLen => s.reader.rbspLen
  | .brBitpos => s.reader.bitPos
  | .brPos => s.reader.pos
  | .brNhb => s.reader.nhb
  | .brHeldLo => s.reader.held.extractLsb' 0 32
  | .brHeldHi => s.reader.held.extractLsb' 32 32
  | .nuh => s.nuh.pack
  | .spsEntry => s.ops.spsEntry
  | .seqPc => s.seqPc
  | .stepCount => s.stepCount
  | .auCtsLo => s.timing.ctsLo
  | .auCtsHi => s.timing.ctsHi
  | .auDtsLo => s.timing.dtsLo
  | .auDtsHi => s.timing.dtsHi
  | .auRap => s.timing.rap.setWidth 32
  | .capAu => word s.params.auCap
  | .capNalt => word s.params.naltCap
  | .capUstore => word s.params.ustoreCap
  | .capRec => word s.params.recCap
  | .capSteps => word s.params.maxSteps

/-- The registers whose value is specified while BUSY: those that 10_state.md R53 lists, and ID and VERSION, which R33
hardwires (log entry 25). A read of any other register while BUSY returns any value (log entry 7). -/
def Reg.stable : Reg → Bool
  | .id | .version => true
  | .cmd | .status | .warn | .irqEn | .irqPend | .arg0 | .arg1 | .auLen | .spsEntry => true
  | .auCtsLo | .auCtsHi | .auDtsLo | .auDtsHi | .auRap => true
  | .capAu | .capNalt | .capUstore | .capRec | .capSteps => true
  | .result => false
  | .errCode | .errPc | .errValue | .errMin | .errMax | .errTag => false
  | .warnTag | .nalCount | .curNal => false
  | .rbspLen | .brBitpos | .brPos | .brNhb | .brHeldLo | .brHeldHi => false
  | .nuh | .seqPc | .stepCount => false

/-! ### The address map -/

/-- What a host access reaches (20_memory.md R104-R108, R112-R114). Window indices are in elements of the memory. -/
inductive Target where
  | reg (r : Reg)
  /-- A reserved offset of the control block (10_state.md R52). -/
  | reserved
  | nalt (i : Nat)
  | ustore (h : Nat)
  | record (i : Nat)
  | recordWr (m : Nat)
  | au (a : Nat)
  | rbsp (a : Nat)
  /-- An access that 20_memory.md R113 or R114 ignores. -/
  | refused
deriving DecidableEq, Repr

/-- An access to a window of 32-bit elements: element `i` of `used` (20_memory.md R114). -/
def wordTarget (used i : Nat) (t : Nat → Target) : Target := if i < used then t i else .refused

/-- An access to a byte window of `used` bytes; a 32-bit access needs all its bytes (20_memory.md R112, R114; log
entry 12). -/
def byteTarget (used a : Nat) (width : Width) (t : Nat → Target) : Target :=
  match width with
  | .byte => if a < used then t a else .refused
  | .word => if a % 4 = 0 ∧ a + 4 ≤ used then t a else .refused

/-- The 32-bit-only windows (20_memory.md R104, R105, R107, R108); `a` is a multiple of 4. -/
def wordWindows (p : Config.Params) (a : Nat) : Target :=
  if a < 0x1000 then
    match Reg.atIndex (a / 4) with
    | some r => .reg r
    | none => .reserved
  else if a < 0x10000 then wordTarget (4 * p.naltCap) ((a - 0x1000) / 4) .nalt
  else if a < 0x20000 then wordTarget (2 * p.ustoreCap) ((a - 0x10000) / 4) .ustore
  else if a < 0x30000 then wordTarget p.recCap ((a - 0x20000) / 4) .record
  else if a < 0x30800 then wordTarget (p.recCap / 32) ((a - 0x30000) / 4) .recordWr
  else .refused

/-- The target of a host access at an offset from BSFE_BASE (20_memory.md R104, R112-R114; log entries 11, 23). -/
def target (p : Config.Params) (addr : Word) (width : Width) : Target :=
  let a := addr.toNat
  if 0x02000000 ≤ a ∧ a < 0x03000000 then byteTarget p.rbspCap (a - 0x02000000) width .rbsp
  else if 0x01000000 ≤ a ∧ a < 0x02000000 then byteTarget p.auCap (a - 0x01000000) width .au
  else if width = .word ∧ a % 4 = 0 then wordWindows p a
  else .refused

/-! ### Reading -/

/-- A byte window read: one byte, zero-extended (log entry 22), or four, little-endian (20_memory.md R112). -/
def Bank.readBytes (b : Bank 8) (a : Nat) : Width → Word
  | .byte => (b.read a).setWidth 32
  | .word => b.read (a + 3) ++ b.read (a + 2) ++ b.read (a + 1) ++ b.read a

/-- A host read that returns `w`. -/
def State.returns (s : State) (w : Word) : State := { s with readData := w }

/-- A host read that may return any value (10_state.md R53, 20_memory.md R117; log entry 7). -/
def State.returnsAny (s : State) (width : Width) : State :=
  let w := Config.busyRead s.free
  { s with
    readData := match width with | .byte => (w.setWidth 8).setWidth 32 | .word => w
    free := s.free + 1 }

/-- A host read of a register or memory that the running command owns: any value while BUSY. -/
def State.returnsOwned (s : State) (width : Width) (w : Word) : State :=
  if s.block = .busy then s.returnsAny width else s.returns w

/-- A host read (20_memory.md R110-R118). -/
def State.hostRead (s : State) (addr : Word) (width : Width) : State :=
  match target s.params addr width with
  | .reg r => if r.stable then s.returns (r.value s) else s.returnsOwned width (r.value s)
  | .reserved => s.returns 0#32
  | .nalt i => s.returnsOwned width (s.mem.nalt.read i)
  | .ustore h => s.returns (s.mem.ustore.read h)
  | .record i => s.returnsOwned width (s.mem.record.read i)
  | .recordWr m => s.returnsOwned width (s.mem.recordWrWord m)
  | .au a => s.returns (s.mem.au.readBytes a width)
  | .rbsp a => s.returnsOwned width (s.mem.rbsp.readBytes a width)
  | .refused => (s.returns 0#32).warnBit .bus

/-! ### Issuing a command -/

/-- A CMD write that STATE makes the block ignore (10_state.md R55); "the command is X" means a legal X word. -/
def State.ignoresCmd (s : State) (w : Word) : Bool :=
  match s.block, decodeCmd w with
  | .idle, .ok .continueAu => true
  | .idle, .ok .abortAu => true
  | .idle, _ => false
  | .busy, _ => true
  | .paused, .ok .continueAu => false
  | .paused, .ok .abortAu => false
  | .paused, .ok .reset => false
  | .paused, _ => true
  | .halted, .ok .reset => false
  | .halted, _ => true

/-- A host write to CMD (10_state.md R34, R55; 47_control.md R500). A legal RESET word is not accepted through
`State.accept` (R503): until the block's step, only CMD and STATE change (log entry 10). -/
def State.writeCmd (s : State) (w : Word) : State :=
  if s.ignoresCmd w then s.warnBit .cmdIgnored
  else match decodeCmd w with
    | .ok .reset => { s with cmd := w, block := .busy }
    | _ => s.accept w (cmdOpc w = 0x02#8)

/-! ### Writing -/

/-- A host write to a register: read-only registers ignore it, WARN and IRQ_PEND clear the bits written as 1
(10_state.md section 3, R44, R46, R50). -/
def State.writeReg (s : State) (r : Reg) (w : Word) : State :=
  match r with
  | .cmd => s.writeCmd w
  | .arg0 => { s with ops := { s.ops with arg0 := w } }
  | .arg1 => { s with ops := { s.ops with arg1 := w } }
  | .auLen => { s with ops := { s.ops with auLen := w } }
  | .spsEntry => { s with ops := { s.ops with spsEntry := w } }
  | .warn => { s with warn := s.warn &&& ~~~w.setWidth 6 }
  | .irqEn => { s with irqEn := w.setWidth 3 }
  | .irqPend => { s with irqPend := s.irqPend &&& ~~~w.setWidth 3 }
  | .auCtsLo => { s with timing := { s.timing with ctsLo := w } }
  | .auCtsHi => { s with timing := { s.timing with ctsHi := w } }
  | .auDtsLo => { s with timing := { s.timing with dtsLo := w } }
  | .auDtsHi => { s with timing := { s.timing with dtsHi := w } }
  | .auRap => { s with timing := { s.timing with rap := w.setWidth 1 } }
  | .id | .version | .status | .result => s
  | .errCode | .errPc | .errValue | .errMin | .errMax | .errTag => s
  | .warnTag | .nalCount | .curNal => s
  | .rbspLen | .brBitpos | .brPos | .brNhb | .brHeldLo | .brHeldHi => s
  | .nuh | .seqPc | .stepCount => s
  | .capAu | .capNalt | .capUstore | .capRec | .capSteps => s

/-- A byte window written: the low byte, or four bytes, little-endian (20_memory.md R112; log entry 22). -/
def Bank.writeBytes (b : Bank 8) (a : Nat) (w : Word) : Width → Bank 8
  | .byte => b.write a (w.extractLsb' 0 8)
  | .word =>
    (((b.write a (w.extractLsb' 0 8)).write (a + 1) (w.extractLsb' 8 8)).write (a + 2) (w.extractLsb' 16 8)).write
      (a + 3) (w.extractLsb' 24 8)

/-- AU and USTORE refuse host writes in BUSY and PAUSED (20_memory.md R115). -/
def State.frozen (s : State) : Bool := s.block == .busy || s.block == .paused

/-- A host write (20_memory.md R110-R118). -/
def State.hostWrite (s : State) (addr : Word) (width : Width) (w : Word) : State :=
  match target s.params addr width with
  | .reg r => s.writeReg r w
  | .reserved => s
  | .ustore h =>
    if s.frozen then s.warnBit .bus else { s with mem := { s.mem with ustore := s.mem.ustore.write h w } }
  | .au a =>
    if s.frozen then s.warnBit .bus else { s with mem := { s.mem with au := s.mem.au.writeBytes a w width } }
  | .nalt _ | .record _ | .recordWr _ | .rbsp _ => s.warnBit .bus
  | .refused => s.warnBit .bus

/-! ### Power-on reset -/

/-- Power-on reset: the reset values, and every memory unspecified afresh (70_reset_and_hazards.md R700, R702, R703).
The model's environment is kept (log entry 24). -/
def State.powerOn (s : State) : State :=
  { State.resetWith s.params with
    mem := .unspecified s.free
    inputs := s.inputs
    readData := s.readData
    free := s.free + 6 }

end Sys2Proof.Machine
end

