-- ==== Sys2Proof/Machine/Fetch.lean ====
section
/-!
DEFINITION. What the next step is: a host or platform event, the block's step of the command in CMD (47_control.md
R500), or one turn of the SPS engine's loop (46_sps_engine.md R401). Log entry 1 says how the steps interleave.
-/

namespace Sys2Proof.Machine

/-- The next step: an instruction to execute in a state, or a step that executes none. -/
inductive Fetched where
  | run (i : Instr) (s : State)
  | settled (s : State)

/-- E_SPS_BUDGET (46_sps_engine.md R402). -/
def State.budgetRaise (s : State) : Raise := { code := .eSpsBudget, value := s.stepCount }

/-- F_UOP_PC at the head of the loop, for a bad entry (46_sps_engine.md R401). -/
def State.entryRaise (s : State) : Raise := { code := .fUopPc, value := s.seqPc }

/-- F_UOP_ILLEGAL (46_sps_engine.md R406). -/
def illegalUopRaise (w : UopWord) : Raise :=
  { code := .fUopIllegal, value := w.extractLsb' 32 32, min := w.extractLsb' 0 32 }

/-- E_CMD_ILLEGAL (47_control.md R500). -/
def illegalCmdRaise (w : Word) : Raise := { code := .eCmdIllegal, value := w }

/-- One turn of the engine's loop up to `execute(w)`: the budget, the range of SEQ_PC, the fetch and STEP_COUNT, an
illegal word (46_sps_engine.md R401, R402, R406). -/
def State.fetchUop (s : State) : Fetched :=
  if s.stepCount.toNat = s.params.maxSteps then .settled (s.endParse s.budgetRaise)
  else if s.params.ustoreCap ≤ s.seqPc.toNat then .settled (s.endParse s.entryRaise)
  else
    let w := s.mem.uop s.seqPc.toNat
    let t := { s with stepCount := s.stepCount + 1#32 }
    match decodeUop w with
    | .ok i => .run i t
    | .error _ => .settled (t.endParse (illegalUopRaise w))

/-- The block's step of the command it has accepted (47_control.md R500); nothing when there is none. -/
def State.fetchCmd (s : State) : Fetched :=
  if s.block = .busy then
    match decodeCmd s.cmd with
    | .ok i => .run i s
    | .error _ => .settled (s.endWith (illegalCmdRaise s.cmd) noPc)
  else .settled s

/-- An event of the outside world (log entry 3). -/
def State.takeEvent (s : State) : HostEvent → Fetched
  | .read addr width => .settled (s.hostRead addr width)
  | .write addr width data => .settled (s.hostWrite addr width data)
  | .blockTurn => s.fetchCmd
  | .powerOn => .settled s.powerOn

/-- Which step is next. A command that has begun runs to its end before any event is taken (20_memory.md R135); with no
event left, the block runs what it has accepted. -/
def State.fetch (s : State) : Fetched :=
  match s.engine with
  | .parseSps => s.fetchUop
  | .decodeUnit => s.fetchUop
  | .off =>
    match s.inputs with
    | [] => s.fetchCmd
    | e :: rest => { s with inputs := rest }.takeEvent e

/-- A command word placed as the accepted command, nothing else in progress (log entry 15). -/
def State.placeCmd (s : State) (w : Word) : State :=
  { s with cmd := w, block := .busy, engine := .off, inputs := [], latch := s.ops }

/-- A µop word placed where the SPS engine fetches next, in a parse that has begun (log entry 15). -/
def State.placeUop (s : State) (w : UopWord) : State :=
  let pc := if s.params.ustoreCap ≤ s.seqPc.toNat then 0#32 else s.seqPc
  { s with
    mem := s.mem.setUop pc.toNat w
    seqPc := pc
    stepCount := 0#32
    block := .busy
    engine := .parseSps
    inputs := [] }

end Sys2Proof.Machine
end

