-- ==== Sys2Proof/Machine/Step.lean ====
section
/-!
DEFINITION. One step of the machine, and the placing of an instruction where the next step fetches it.
-/

namespace Sys2Proof.Machine

/-- One step: an event, or the execution of one command or one µop (log entry 1). -/
def step (s : State) : Host.Outcome State Fault Refusal :=
  match s.fetch with
  | .run i t => exec i t
  | .settled t => .next t

/-- The state with an instruction's bits placed where the next step fetches (log entry 15): a row of at most 32 bits is
a command word, a longer one a µop word. -/
def State.withFetchWord (s : State) (nbits w : Nat) : State :=
  if nbits ≤ 32 then s.placeCmd (BitVec.ofNat 32 w) else s.placeUop (BitVec.ofNat 64 w)

end Sys2Proof.Machine
end

