-- ==== Sys2Proof/Safety.lean ====
section
/-!
DEFINITION. What a safe run is, and the terms the statements use: the invariants of the state (10_state.md R56-R58,
43_scanner_framer.md R284, R300, 46_sps_engine.md R402), what a µop or a command leaves unchanged, what becomes of a NAL unit
and how the unit loop and a parse end (43_scanner_framer.md R296-R299), and the bit strings and byte strings that the properties of the spec
speak of (41_bit_reader.md R206, 42_rbsp_converter.md R259, 43_scanner_framer.md R289, 45_vlc.md R363).
-/

namespace Sys2Proof.Machine

/-! ### Invariants -/

/-- The bit reader lies inside the RBSP, and its bit positions fit a register (10_state.md R57). -/
abbrev State.readerBounds (s : State) : Prop := s.bitPos ≤ s.streamLen ∧ s.streamLen < 2 ^ 32

/-- RBSP_LEN within the buffer, BR_BITPOS within the RBSP, and the three conditions on BR_POS, BR_NHB and BR_HELD
(10_state.md R56-R58). -/
structure State.ReaderInv (s : State) : Prop where
  len_le : s.reader.rbspLen.toNat ≤ s.params.rbspCap
  bitPos_le : s.bitPos ≤ s.streamLen
  pos_le : s.reader.pos.toNat ≤ s.reader.rbspLen.toNat
  nhb_le : s.reader.nhb.toNat ≤ 64
  position : s.bitPos + s.reader.nhb.toNat = 8 * s.reader.pos.toNat
  held : topBits s.reader.held s.reader.nhb.toNat = stream s.mem.rbsp s.bitPos s.reader.nhb.toNat
  zeros : s.reader.held.toNat % 2 ^ (64 - s.reader.nhb.toNat) = 0

/-- The NAL table lists at most NALT_CAP units, each a byte range of AU (43_scanner_framer.md R283, R284). -/
structure State.TableInv (s : State) : Prop where
  count_le : s.nalCount.toNat ≤ s.params.naltCap
  start_le : ∀ k < s.nalCount.toNat, (s.unitStart k).toNat ≤ (s.unitEnd k).toNat
  end_le : ∀ k < s.nalCount.toNat, (s.unitEnd k).toNat ≤ s.params.auCap

/-- While an SPS of DECODE_AU is parsed, and during the pause after it, CUR_NAL is a unit of the table and DEC_NEXT the
one after it (43_scanner_framer.md R296, R300). -/
def State.CursorInv (s : State) : Prop :=
  s.engine = .decodeUnit ∨ s.block = .paused →
    s.decNext.toNat = s.curNal.toNat + 1 ∧ s.decNext.toNat ≤ s.nalCount.toNat

/-- The framing invariant: legal parameters, a sound NAL table and cursor, a sound bit reader. -/
structure State.FramingInv (s : State) : Prop where
  params : s.params.valid
  table : s.TableInv
  cursor : s.CursorInv
  reader : s.ReaderInv

/-- The control invariant: legal parameters, the engine runs only while BUSY, and STEP_COUNT stays in the budget
(46_sps_engine.md R402). -/
structure State.ControlInv (s : State) : Prop where
  params : s.params.valid
  busy : s.engine ≠ .off → s.block = .busy
  budget : s.stepCount.toNat ≤ s.params.maxSteps

/-- The canonical form of every memory: indices strictly rising, and no listed element that an unlisted one equals in a
cleared memory. -/
def State.MemoryInv (s : State) : Prop := s.mem.wf = true

/-! ### What µops and commands leave unchanged -/

/-- The next sequential µop exists (46_sps_engine.md R403). -/
abbrev State.nextFits (s : State) : Prop := s.seqPc.toNat + 1 < s.params.ustoreCap

/-- Only V and SEQ_PC change: SEQ_PC moves to the next µop, V[d] takes `x` unless d is 0, every other variable keeps its
value (10_state.md R60, 46_sps_engine.md R403, R404). -/
def WritesV (s t : State) (d : BitVec 8) (x : Word) : Prop :=
  t = { s with v := t.v, seqPc := s.seqPc + 1#32 } ∧
    ∀ i, t.getV i = if i = d ∧ i ≠ 0#8 then x else s.getV i

/-- As `WritesV`, and the reader has consumed `n` bits: BR_POS, BR_NHB and BR_HELD are debug registers that R58 leaves
open (10_state.md R58). -/
def ReadsV (s t : State) (d : BitVec 8) (n : Nat) (x : Word) : Prop :=
  t = { s with v := t.v, seqPc := s.seqPc + 1#32, reader := t.reader, free := t.free } ∧
    (∀ i, t.getV i = if i = d ∧ i ≠ 0#8 then x else s.getV i) ∧
    t.reader.rbspLen = s.reader.rbspLen ∧ t.bitPos = s.bitPos + n

/-- The command completes to IDLE with a result and no outcome, and changes nothing else (47_control.md R501). -/
def Completes (s t : State) (x : Word) : Prop :=
  t = { s with result := x, block := .idle, done := true, irqPend := s.irqPend ||| 0b001#3, engine := .off }

/-- As `Completes`, and the reader has consumed `n` bits (10_state.md R58 leaves its debug registers open). -/
def ReadsResult (s t : State) (n : Nat) (x : Word) : Prop :=
  t = { s with result := x, block := .idle, done := true, irqPend := s.irqPend ||| 0b001#3, engine := .off,
               reader := t.reader, free := t.free } ∧
    t.reader.rbspLen = s.reader.rbspLen ∧ t.bitPos = s.bitPos + n

/-- The operation ends in IDLE with a class C or R outcome: the record, ERR, DONE and the DONE event; RESULT is
unchanged (47_control.md R501, 60_exceptions.md R611). `pc` is ERR_PC. -/
def FailsIdle (s t : State) (r : Raise) (pc : Word) : Prop :=
  t = { s with
    error := ⟨r.code, pc, r.value, r.min, r.max, r.tag⟩, errFlag := true,
    block := .idle, done := true, irqPend := s.irqPend ||| 0b001#3, engine := .off }

/-- The operation ends in HALTED with a class F outcome (47_control.md R501, 60_exceptions.md R611, R620). -/
def FailsHalted (s t : State) (r : Raise) (pc : Word) : Prop :=
  t = { s with
    error := ⟨r.code, pc, r.value, r.min, r.max, r.tag⟩,
    block := .halted, done := true, irqPend := s.irqPend ||| 0b100#3, engine := .off }

/-- The reader of `t` has consumed `n` bits more than that of `s`, which differs in nothing else; BR_POS, BR_NHB and
BR_HELD are open (10_state.md R58). -/
def Consumed (s t : State) (n : Nat) : Prop :=
  t = { s with reader := t.reader, free := t.free } ∧
    t.reader.rbspLen = s.reader.rbspLen ∧ t.bitPos = s.bitPos + n

/-! ### Headers -/

/-- WARN after a header parse (44_nal_header.md R333). -/
def headerWarn (w : BitVec 6) (h : Nuh) : BitVec 6 :=
  w ||| (if h.fzb = 1#1 then 0b000001#6 else 0#6) ||| (if h.rzb = 1#1 then 0b000010#6 else 0#6)

/-- The outcome of a header (44_nal_header.md R334-R338). -/
def headerOutcome (h : Nuh) : Option Code :=
  if 55 < h.layerId.toNat then some .sLayerId
  else if h.tidPlus1.toNat = 0 then some .eTidPlus1Zero
  else if 7 ≤ h.typ.toNat ∧ h.typ.toNat ≤ 11 ∧ h.tidPlus1.toNat ≠ 1 then some .eTidIrap
  else if h.typ.toNat = 1 ∧ h.layerId.toNat = 0 ∧ h.tidPlus1.toNat = 1 then some .eTidStsa
  else none

/-- The header fields of the first two bytes of a unit, by the raw-byte column of 44_nal_header.md R330. -/
def rawHeader (h0 h1 : Byte) (vcl : BitVec 1) : Nuh where
  fzb := h0.extractLsb' 7 1
  rzb := h0.extractLsb' 6 1
  layerId := h0.extractLsb' 0 6
  typ := h1.extractLsb' 3 5
  tidPlus1 := h1.extractLsb' 0 3
  tid := h1.extractLsb' 0 3 - 1#3
  vcl := vcl

/-! ### What becomes of a unit -/

/-- DISP of NALT entry `k` (10_state.md R73). -/
def State.disposition (s : State) (k : Nat) : BitVec 8 := (s.mem.naltWord k 2).extractLsb' 24 8

/-- How a unit ends before any µop runs: recognized and not parsed further, an outcome, or the start of its SPS parse
(43_scanner_framer.md R296). -/
inductive UnitEnd where
  | stub
  | outcome (r : Raise)
  | sps
deriving DecidableEq, Repr

/-- What `process(k)` makes of a unit before any µop runs (43_scanner_framer.md R296). -/
structure UnitReport where
  /-- How the unit ends. -/
  ending : UnitEnd
  /-- NUH after it. -/
  nuh    : Nuh
  /-- The bytes of RBSP after it. -/
  rbsp   : List Byte
  /-- BR_BITPOS after it. -/
  bitPos : Nat
  /-- NALT[k].VCL has been written. -/
  vclWritten : Bool
  /-- The header fields have been copied into NALT[k] word 2. -/
  headerCopied : Bool
deriving DecidableEq, Repr

/-- How a unit with a given header ends: the header's own outcome, else the dispatch of its type (44_nal_header.md
R332-R340). -/
def headerEnd (h : Nuh) : UnitEnd :=
  match headerOutcome h with
  | some .sLayerId => .outcome { code := .sLayerId, value := h.layerId.setWidth 32 }
  | some c => .outcome { code := c, value := h.pack }
  | none =>
    match typeClass h.typ with
    | .sps => .sps
    | .stub => .stub
    | .reserved => .outcome { code := .eNalTypeReserved, value := h.typ.setWidth 32 }

/-- `process(k)` from a unit's converted bytes on: the header of their first 16 bits, or fewer than 16 bits left
(44_nal_header.md R332). -/
def convertedReport (vcl : BitVec 1) (out : List Byte) : UnitReport :=
  match out with
  | h0 :: h1 :: _ => ⟨headerEnd (rawHeader h0 h1 vcl), rawHeader h0 h1 vcl, out, 16, true, true⟩
  | _ =>
    ⟨.outcome { code := .eBrUnderflow, value := 16#32, max := word (8 * out.length) },
      { Nuh.zero with vcl := vcl }, out, 0, true, true⟩

/-- `process(k)` before any µop runs, from the unit's raw bytes: too short for a header, a failed conversion, or what its
converted bytes give (43_scanner_framer.md R291-R296, 42_rbsp_converter.md R257). -/
def State.unitReport (s : State) (k : Nat) : UnitReport :=
  let a := (s.unitStart k).toNat
  let n := (s.unitEnd k).toNat - a
  let vcl := decide ((s.mem.au.read (a + 1)).toNat / 8 ≤ 11)
  if n < 2 then
    ⟨.outcome { code := .eNalTooShort, value := s.unitEnd k - s.unitStart k }, .zero, [], 0, false, false⟩
  else
    match convert (s.mem.au.slice a n) vcl with
    | .error r => ⟨.outcome r, { Nuh.zero with vcl := BitVec.ofBool vcl }, [], 0, true, false⟩
    | .ok out => convertedReport (BitVec.ofBool vcl) out

/-- The disposition of a unit: its outcome's code or O_STUB; a unit whose SPS parse begins keeps the old one until the
parse ends (43_scanner_framer.md R296, R297). -/
def UnitReport.disp (u : UnitReport) (old : BitVec 8) : BitVec 8 :=
  match u.ending with
  | .stub => 0x41#8
  | .outcome r => r.code.val
  | .sps => old

/-- INFO of a unit: ERR_VALUE of its outcome, 0 for O_STUB (43_scanner_framer.md R296, R297). -/
def UnitReport.info (u : UnitReport) (old : Word) : Word :=
  match u.ending with
  | .stub => 0#32
  | .outcome r => r.value
  | .sps => old

/-- Bits 23:0 of word 2 of a unit's entry: the header fields and VCL as far as they were reached, SC_LEN and the reserved
bits as before (10_state.md R73, 43_scanner_framer.md R296). -/
def UnitReport.fields (u : UnitReport) (old : Word) : BitVec 24 :=
  old.extractLsb' 21 3 ++
    (if u.headerCopied then u.nuh.tidPlus1 ++ u.nuh.typ ++ u.nuh.layerId ++ u.nuh.rzb ++ u.nuh.fzb
      else old.extractLsb' 5 16) ++
    (if u.vclWritten then u.nuh.vcl else old.extractLsb' 4 1) ++ old.extractLsb' 0 4

/-- Word 2 of a unit's entry (43_scanner_framer.md R296). -/
def UnitReport.word2 (u : UnitReport) (old : Word) : Word := u.disp (old.extractLsb' 24 8) ++ u.fields old

/-- The error record after a unit: its outcome, with no µop's index (43_scanner_framer.md R296, 60_exceptions.md R611). -/
def UnitReport.record (u : UnitReport) (e : ErrRecord) : ErrRecord :=
  match u.ending with
  | .outcome r => ⟨r.code, 0xFFFFFFFF#32, r.value, r.min, r.max, r.tag⟩
  | _ => e

/-- The unit sets STATUS.ERR: its outcome is of class R (43_scanner_framer.md R296, R299). -/
def UnitReport.setsErr (u : UnitReport) : Bool :=
  match u.ending with
  | .outcome r => r.code.cls == .recoverable
  | _ => false

/-! ### The unit loop -/

/-- The reports of the `n` units from DEC_NEXT on. -/
def State.unitReports (s : State) (n : Nat) : List UnitReport := (List.range' s.decNext.toNat n).map s.unitReport

/-- What the unit loop has changed after `n` units from `s.decNext` on, apart from how it ends: each unit's entry of the
table, the error record and STATUS.ERR, WARN, NUH, the cursor, the RBSP and the reader as the last unit leaves them
(43_scanner_framer.md R296, R299, R303, R304). -/
structure UnitsDone (s t : State) (n : Nat) : Prop where
  within : n ≤ s.nalCount.toNat - s.decNext.toNat
  eq : t = { s with
    error := (s.unitReports n).foldl (fun e u => u.record e) s.error
    errFlag := s.errFlag || (s.unitReports n).any UnitReport.setsErr
    warn := (s.unitReports n).foldl (fun w u => headerWarn w u.nuh) s.warn
    nuh := (s.unitReports n).foldl (fun _ u => u.nuh) s.nuh
    curNal := if n = 0 then s.curNal else word (s.decNext.toNat + n - 1)
    decNext := word (s.decNext.toNat + n)
    reader := t.reader
    free := t.free
    mem := { s.mem with rbsp := t.mem.rbsp, nalt := t.mem.nalt } }
  entry : ∀ k, s.decNext.toNat ≤ k → k < s.decNext.toNat + n →
    t.mem.naltWord k 2 = (s.unitReport k).word2 (s.mem.naltWord k 2) ∧
    t.mem.naltWord k 3 = (s.unitReport k).info (s.mem.naltWord k 3)
  other : ∀ k i, i < 4 → i < 2 ∨ k < s.decNext.toNat ∨ s.decNext.toNat + n ≤ k →
    t.mem.naltWord k i = s.mem.naltWord k i
  reader : ∀ u, (s.unitReports n).getLast? = some u →
    t.reader.rbspLen = word u.rbsp.length ∧ t.bitPos = u.bitPos ∧
      ∀ i (h : i < u.rbsp.length), t.mem.rbsp.read i = u.rbsp[i]
  nothing : n = 0 → t.reader = s.reader ∧ t.mem = s.mem ∧ t.free = s.free

/-- How the unit loop leaves the block: every unit processed and IDLE, or an SPS parse begun at the first unit whose report
says so, its variables and its record cleared (43_scanner_framer.md R296, R299, R303; 44_nal_header.md R341;
46_sps_engine.md R401). -/
def LoopEnds (s t : State) : Prop :=
  ∃ n w, UnitsDone s w n ∧
    ((n = s.nalCount.toNat - s.decNext.toNat ∧ (∀ u ∈ s.unitReports n, u.ending ≠ .sps) ∧
        t = { w with
          result := s.nalCount, block := .idle, done := true, irqPend := s.irqPend ||| 0b001#3, engine := .off }) ∨
      ((∃ m, n = m + 1 ∧ (∀ u ∈ s.unitReports m, u.ending ≠ .sps) ∧
          (s.unitReport (s.decNext.toNat + m)).ending = .sps) ∧
        t = { w with
          v := t.v, spsValid := false, stepCount := 0#32, seqPc := s.latch.spsEntry, engine := .decodeUnit,
          mem := { w.mem with record := t.mem.record, recordWr := t.mem.recordWr } } ∧
        (∀ i, t.getV i = 0#32) ∧ (∀ a, t.mem.record.read a = 0#32) ∧ ∀ a, t.mem.recordWr.read a = 0#1))

/-- A class F disposition: every unit from DEC_NEXT on gets O_ABORTED, and the block halts (43_scanner_framer.md R296,
R298). -/
def UnitsAborted (s t : State) : Prop :=
  t = { s with
    block := .halted, done := true, irqPend := s.irqPend ||| 0b100#3, engine := .off,
    mem := { s.mem with nalt := t.mem.nalt } } ∧
  ∀ k i, i < 4 → t.mem.naltWord k i =
    if i = 2 ∧ s.decNext.toNat ≤ k ∧ k < s.nalCount.toNat then 0x43#8 ++ (s.mem.naltWord k 2).extractLsb' 0 24
    else s.mem.naltWord k i

/-! ### The end of an SPS parse with an outcome -/

/-- A parse is in progress, over a NAL table in canonical form. -/
abbrev State.parsing (s : State) : Prop := s.engine ≠ .off ∧ s.mem.nalt.wf = true

/-- An outcome at SEQ_PC ends the parse of the unit CUR_NAL of a DECODE_AU or CONTINUE: the unit gets the code and INFO =
ERR_PC, the error record is written, class R sets ERR and the loop goes on with the next unit, class F halts
(43_scanner_framer.md R296-R298, 60_exceptions.md R604, R606, R611). -/
def UnitFails (s t : State) (r : Raise) : Prop :=
  ∃ w : State,
    w = { s with
      error := ⟨r.code, s.seqPc, r.value, r.min, r.max, r.tag⟩
      errFlag := s.errFlag || r.code.cls == .recoverable
      engine := .off
      mem := { s.mem with nalt := w.mem.nalt } } ∧
    w.mem.naltWord s.curNal.toNat 2 = r.code.val ++ (s.mem.naltWord s.curNal.toNat 2).extractLsb' 0 24 ∧
    w.mem.naltWord s.curNal.toNat 3 = s.seqPc ∧
    (∀ k i, i < 4 → k ≠ s.curNal.toNat ∨ i < 2 → w.mem.naltWord k i = s.mem.naltWord k i) ∧
    if r.code.cls = .fatal then UnitsAborted w t else LoopEnds w t

/-- An outcome at SEQ_PC ends the parse in progress: the command, for PARSE_SPS, or the unit's parse (46_sps_engine.md R401,
R405; 60_exceptions.md R604, R606). -/
def ParseEnds (s t : State) (r : Raise) : Prop :=
  match s.engine with
  | .decodeUnit => UnitFails s t r
  | _ => if r.code.cls = .fatal then FailsHalted s t r s.seqPc else FailsIdle s t r s.seqPc

/-! ### Bit strings and byte strings -/

/-- An Exp-Golomb code of `l` leading zeros lies at BR_BITPOS: the zeros, the 1, and `l` more bits, all within the RBSP
(45_vlc.md R362). -/
def CodeAt (s : State) (l : Nat) : Prop :=
  l < 32 ∧ 2 * l + 1 ≤ s.bitsLeft ∧
    (∀ j < l, streamBit s.mem.rbsp (s.bitPos + j) = false) ∧ streamBit s.mem.rbsp (s.bitPos + l) = true

/-- The number such a code stands for: one less than the number its `2·l + 1` bits spell (45_vlc.md R362, R363). -/
def codeNumber (s : State) (l : Nat) : Nat := stream s.mem.rbsp s.bitPos (2 * l + 1) - 1

/-- The signed number of a code number (45_vlc.md R365). -/
def signedNumber (k : Nat) : Int := if k % 2 = 1 then ((k + 1) / 2 : Nat) else -((k / 2 : Nat) : Int)

/-- The emulation-prevented form of a byte string after a run of `z` zero bytes: 0x03 before every byte up to 0x03 that
follows `00 00`, the run counted anew after an insertion (42_rbsp_converter.md R259). -/
def escape (z : Nat) : List Byte → List Byte
  | [] => []
  | b :: rest =>
    if z = 2 ∧ b.toNat ≤ 3 then 3#8 :: b :: escape (if b = 0#8 then 1 else 0) rest
    else b :: escape (if b = 0#8 then z + 1 else 0) rest

/-- The run of zero bytes at the end of a byte string after a run of `z`, the run counted anew after an insertion of
`escape` (42_rbsp_converter.md R259). -/
def zeroRun (z : Nat) : List Byte → Nat
  | [] => z
  | b :: rest => zeroRun (if b = 0#8 then (if z = 2 then 1 else z + 1) else 0) rest

/-- At least one 1 bit lies after BR_BITPOS: syntax data is left before the last 1 bit (45_vlc.md R378). -/
def MoreData (s : State) : Prop :=
  ∃ k, s.bitPos < k ∧ k < s.streamLen ∧ streamBit s.mem.rbsp k = true

/-- The `m` bits from BR_BITPOS to the next byte boundary are a 1 and then zeros (45_vlc.md R381, R383). -/
def TrailAt (s : State) (m : Nat) : Prop :=
  m = 8 - s.bitPos % 8 ∧ s.bitPos < s.streamLen ∧ streamBit s.mem.rbsp s.bitPos = true ∧
    ∀ j, 1 ≤ j → j < m → streamBit s.mem.rbsp (s.bitPos + j) = false

/-- A start code of length 4 or 3 (00_scope.md R17). -/
def startCode (four : Bool) : List Byte := if four then [0#8, 0#8, 0#8, 1#8] else [0#8, 0#8, 1#8]

/-- `c1 P1 c2 P2 … cN PN` (43_scanner_framer.md R289). -/
def joinUnits : List (Bool × List Byte) → List Byte
  | [] => []
  | (four, p) :: rest => startCode four ++ p ++ joinUnits rest

/-- The units of `joinUnits` from byte offset `o` on (43_scanner_framer.md R289). -/
def unitsFrom (o : Nat) : List (Bool × List Byte) → List NalUnit
  | [] => []
  | (four, p) :: rest =>
    let s := o + (startCode four).length
    ⟨s, s + p.length, (startCode four).length⟩ :: unitsFrom (s + p.length) rest

/-- The conditions (a) and (b) of 43_scanner_framer.md R289 on a payload. -/
def cleanPayload (p : List Byte) : Prop :=
  (∀ x ∈ [0#8, 1#8, 2#8], ¬ [0#8, 0#8, x] <:+: p) ∧ p.getLast? ≠ some 0#8

end Sys2Proof.Machine
end

