-- ==== Sys2Proof/Certificates/Slice0/Obligations.lean ====
section
/-!
DEFINITION. The statements about the machine, in the order of the sections of spec/: encodings, reset, the step, the host
interface, outcomes, the bit reader, the VLC decoder, the converter, the scanner, the framer, the header, the SPS engine,
and the rules over the whole machine.
-/

namespace Sys2Proof.Shapes

open Sys2Proof Sys2Proof.Machine

/-- V[d] holds `x` unless d is 0, every other variable its old value (10_state.md R60). -/
def setsV (s t : State) (d : BitVec 8) (x : Word) : Prop :=
  ∀ i, t.getV i = if i = d ∧ i ≠ 0#8 then x else s.getV i

/-- A format DAB µop with opcode `op` that writes `f V[A] V[B]` to V[D], whatever its unused IMM field holds; when the next
µop exists it changes only V and SEQ_PC. -/
def binaryUop (op : BitVec 8) (i : BitVec 8 → BitVec 8 → BitVec 8 → Instr) (f : Word → Word → Word) : Prop :=
  ∀ (s : State) (d a b : BitVec 8) (imm : Word),
    decodeUop (uopWord op d a b imm) = .ok (i d a b) ∧
    (∃ t, exec (i d a b) s = .next t ∧ setsV s t d (f (s.getV a) (s.getV b))) ∧
    (s.nextFits → ∃ t, exec (i d a b) s = .next t ∧ WritesV s t d (f (s.getV a) (s.getV b)))

/-- A format DA µop with opcode `op` that writes `f V[A]` to V[D], likewise. -/
def unaryUop (op : BitVec 8) (i : BitVec 8 → BitVec 8 → Instr) (f : Word → Word) : Prop :=
  ∀ (s : State) (d a b : BitVec 8) (imm : Word),
    decodeUop (uopWord op d a b imm) = .ok (i d a) ∧
    (∃ t, exec (i d a) s = .next t ∧ setsV s t d (f (s.getV a))) ∧
    (s.nextFits → ∃ t, exec (i d a) s = .next t ∧ WritesV s t d (f (s.getV a)))

/-- A format DAB µop with opcode `op` that writes `f V[A] V[B]` to V[D] when V[B] is not 0, and otherwise ends the
parse in progress with F_UOP_DIV0, the dividend as its value. -/
def divideUop (op : BitVec 8) (i : BitVec 8 → BitVec 8 → BitVec 8 → Instr) (f : Nat → Nat → Nat) : Prop :=
  ∀ (s : State) (d a b : BitVec 8) (imm : Word),
    decodeUop (uopWord op d a b imm) = .ok (i d a b) ∧
    (s.getV b ≠ 0#32 → s.nextFits →
      ∃ t, exec (i d a b) s = .next t ∧ WritesV s t d (word (f (s.getV a).toNat (s.getV b).toNat))) ∧
    (s.getV b = 0#32 → s.parsing →
      ∃ t, exec (i d a b) s = .next t ∧ ParseEnds s t { code := .fUopDiv0, value := s.getV a })

/-- 1 when a condition holds, else 0. -/
def bit (p : Prop) [Decidable p] : Word := if p then 1#32 else 0#32

/-- The register values of 70_reset_and_hazards.md R702. -/
def resetRegisters (t : State) : Prop :=
  t.block = .idle ∧ t.decNext = 0#32 ∧ t.irq = false ∧
    ∀ r : Reg, r.value t = match r with
      | .id => 0x57323636#32
      | .version => 0x00010001#32
      | .errPc => 0xFFFFFFFF#32
      | .capAu => word t.params.auCap
      | .capNalt => word t.params.naltCap
      | .capUstore => word t.params.ustoreCap
      | .capRec => word t.params.recCap
      | .capSteps => word t.params.maxSteps
      | _ => 0#32

/-- The OPC values of 30_encoding.md R151. -/
def commandOpcs : List Nat :=
  [0x00, 0x01, 0x02, 0x03, 0x10, 0x11, 0x12, 0x20, 0x21, 0x28, 0x30, 0x31, 0x32, 0x33, 0x38, 0x39, 0x3A, 0x3B,
   0x3C, 0x3D, 0x3E, 0x40, 0x41, 0x50]

/-- The OP values of 30_encoding.md R162. -/
def uopOps : List Nat :=
  [0x01, 0x02, 0x03, 0x04, 0x05, 0x06, 0x07, 0x08, 0x09, 0x10, 0x11, 0x12, 0x13, 0x14, 0x15, 0x16, 0x17, 0x18,
   0x19, 0x1A, 0x1B, 0x1C, 0x1D, 0x1E, 0x1F, 0x20, 0x21, 0x22, 0x23, 0x24, 0x25, 0x26, 0x27, 0x30, 0x31, 0x32,
   0x33, 0x40, 0x41, 0x50, 0x51, 0x60, 0x61, 0x62, 0x63, 0x7F]

/-- `n` reads in a row, each of the width listed: the values as one number, and the state they leave; none when one of
them fails. -/
def readAll (s : State) : List Nat → Option (Nat × State)
  | [] => some (0, s)
  | n :: rest =>
    match s.read n with
    | .raise _ _ => none
    | .ok x t =>
      match readAll t rest with
      | none => none
      | some (y, u) => some (x.toNat * 2 ^ rest.sum + y, u)

/-- The command is legal and is the one of the given word. -/
def isLegal (w : Word) (i : Instr) : Prop := decodeCmd w = .ok i

/-- The header fields at BR_BITPOS (44_nal_header.md R330). -/
def headerAt (s : State) (vcl : BitVec 1) : Nuh where
  fzb := BitVec.ofNat 1 (stream s.mem.rbsp s.bitPos 1)
  rzb := BitVec.ofNat 1 (stream s.mem.rbsp (s.bitPos + 1) 1)
  layerId := BitVec.ofNat 6 (stream s.mem.rbsp (s.bitPos + 2) 6)
  typ := BitVec.ofNat 5 (stream s.mem.rbsp (s.bitPos + 8) 5)
  tidPlus1 := BitVec.ofNat 3 (stream s.mem.rbsp (s.bitPos + 13) 3)
  tid := BitVec.ofNat 3 (stream s.mem.rbsp (s.bitPos + 13) 3) - 1#3
  vcl := vcl

/-- A µop that gives SEQ_PC + 1 as next_pc: any but BZ, BNZ, JMP, LOOP and END (46_sps_engine.md R403). -/
def sequential (i : Instr) : Prop :=
  match encode i with
  | .command _ => False
  | .uop w => (w.extractLsb' 56 8).toNat ∉ [0x30, 0x31, 0x32, 0x33, 0x7F]

/-- The state as a PARSE_SPS would have it whose USTORE goes on for one more µop. -/
def roomy (s : State) : State :=
  { s with params := { s.params with ustoreCap := s.seqPc.toNat + 2 }, engine := .parseSps }

/-- The registers whose host read is specified in every state, by offset (10_state.md R32, R33, R53). -/
def steadyRegisters (s : State) : List (Word × Word) :=
  [(0x000#32, 0x57323636#32), (0x004#32, 0x00010001#32), (0x008#32, s.cmd), (0x010#32, s.ops.arg0),
    (0x014#32, s.ops.arg1), (0x034#32, s.warn.setWidth 32), (0x03C#32, s.irqEn.setWidth 32),
    (0x040#32, s.irqPend.setWidth 32), (0x044#32, s.ops.auLen), (0x06C#32, s.ops.spsEntry),
    (0x078#32, s.timing.ctsLo), (0x07C#32, s.timing.ctsHi), (0x080#32, s.timing.dtsLo), (0x084#32, s.timing.dtsHi),
    (0x088#32, s.timing.rap.setWidth 32), (0x08C#32, word s.params.auCap), (0x090#32, word s.params.naltCap),
    (0x094#32, word s.params.ustoreCap), (0x098#32, word s.params.recCap), (0x09C#32, word s.params.maxSteps)]

/-- The registers whose host read is specified while not BUSY, by offset; STATUS and NUH apart (10_state.md R32, R53). -/
def resultRegisters (s : State) : List (Word × Word) :=
  [(0x018#32, s.result), (0x01C#32, s.error.code.val.setWidth 32), (0x020#32, s.error.pc), (0x024#32, s.error.value),
    (0x028#32, s.error.min), (0x02C#32, s.error.max), (0x030#32, s.error.tag), (0x038#32, s.warnTag),
    (0x048#32, s.nalCount), (0x04C#32, s.curNal), (0x050#32, s.reader.rbspLen), (0x054#32, s.reader.bitPos),
    (0x058#32, s.reader.pos), (0x05C#32, s.reader.nhb), (0x060#32, s.reader.held.extractLsb' 0 32),
    (0x064#32, s.reader.held.extractLsb' 32 32), (0x070#32, s.seqPc), (0x074#32, s.stepCount)]

/-- The offsets of the read-only registers (10_state.md R32). -/
def readOnlyOffsets : List Nat :=
  [0x000, 0x004, 0x00C, 0x018, 0x01C, 0x020, 0x024, 0x028, 0x02C, 0x030, 0x038, 0x048, 0x04C, 0x050, 0x054, 0x058,
   0x05C, 0x060, 0x064, 0x068, 0x070, 0x074, 0x08C, 0x090, 0x094, 0x098, 0x09C]

end Sys2Proof.Shapes

open Sys2Proof Sys2Proof.Machine Sys2Proof.Shapes

/-! ### Encodings -/

/-- Decoding the encoding of a well-formed instruction gives it back, for every command and µop and every operand value
its encoding admits (30_encoding.md R150-R152, R160-R162). -/
def Obligations.DecodeEncode : Prop :=
  ∀ i : Instr, i.wellFormed = true → decode (encode i) = .ok i

/-- A few words written out from the tables of 30_encoding.md R151 and R162 decode to the instructions they stand for. -/
def Obligations.DecodeWords : Prop :=
  decodeCmd 0x00000000#32 = .ok .nop ∧ decodeCmd 0x12000000#32 = .ok .decodeAu ∧
  decodeCmd 0x21000001#32 = .ok (.convertRange true) ∧ decodeCmd 0x30000011#32 = .ok (.brRead 17) ∧
  decodeUop 0x0603FEFF00000002#64 = .ok (.rdur 3#8 254#8 255#8 2#32) ∧
  decodeUop 0x1203010200000000#64 = .ok (.add 3#8 1#8 2#8) ∧
  decodeUop 0x3300141300000002#64 = .ok (.loop 20#8 19#8 2#32) ∧
  decodeUop 0x4000031400000010#64 = .ok (.str 3#8 20#8 16#32) ∧
  decodeUop 0x500017005441494C#64 = .ok (.chk 23#8 0x5441494C#32) ∧
  decodeUop 0x7F00000000000000#64 = .ok .endSps

/-- Which words are illegal. A command word: an OPC that the table does not list, RSV not 0, CMD[5:1] not 0 in form V,
CMD[5:0] not 0 in form Z. A µop word: an OP that the table does not list, whatever its other fields hold (30_encoding.md
R151-R153, R161-R163). -/
def Obligations.IllegalWords : Prop :=
  (∀ w : Word, (∃ e, decodeCmd w = .error e) ↔
      (w.extractLsb' 24 8).toNat ∉ commandOpcs ∨ w.extractLsb' 6 18 ≠ 0#18 ∨
      ((w.extractLsb' 24 8).toNat = 0x21 ∧ w.extractLsb' 1 5 ≠ 0#5) ∨
      ((w.extractLsb' 24 8).toNat ∉ [0x21, 0x30, 0x31, 0x39, 0x3C] ∧ w.extractLsb' 0 6 ≠ 0#6)) ∧
  (∀ w : UopWord, (∃ e, decodeUop w = .error e) ↔ (w.extractLsb' 56 8).toNat ∉ uopOps)

/-! ### Reset -/

/-- Every register and hidden element has its value of 70_reset_and_hazards.md R702 after the model's reset, after a
power-on event and after a RESET command, for every state before. The RESET command completes, and keeps every memory and
the variable file (R701, R703). That a power-on reset is an event of the inputs is the model's form (log entry 3). -/
def Obligations.ResetValues : Prop :=
  ((∀ p, resetRegisters (State.resetWith p)) ∧
    (∀ (s : State) (rest : List HostEvent), s.engine = .off → s.inputs = .powerOn :: rest →
      ∃ t, step s = .next t ∧ resetRegisters t ∧ t.params = s.params) ∧
    (∀ s : State, ∃ t, exec .reset s = .next t ∧ resetRegisters t ∧ t.params = s.params)) ∧
  (∀ s : State, ∃ t, exec .reset s = .next t ∧ t.mem = s.mem ∧ t.v = s.v)

/-! ### The step -/

/-- A step runs the decoded instruction. With a command accepted and no parse in progress, the block's turn runs the
command that CMD decodes to: the turn comes when no event is left or when the next event is the block's turn. During a
parse, whatever events wait, the step fetches USTORE[SEQ_PC], counts it in STEP_COUNT and runs the µop it decodes to
(47_control.md R500, 46_sps_engine.md R401). With no parse in progress, an event that comes next is taken and leaves the list:
a host access does what `State.hostRead` or `State.hostWrite` says, a power-on event what `State.powerOn` says; without a
command accepted, the block's turn changes nothing else (20_memory.md R110, R135, 70_reset_and_hazards.md R700). The order of
events and steps, and what a power-on leaves in the model's own fields, are the model's choice (log entries 1, 3 and 24). -/
def Obligations.StepRunsInstruction : Prop :=
  (∀ (s : State) (i : Instr), s.engine = .off → s.block = .busy → decodeCmd s.cmd = .ok i →
      (s.inputs = [] → step s = exec i s) ∧
      (∀ rest, s.inputs = .blockTurn :: rest → step s = exec i { s with inputs := rest })) ∧
  (∀ (s : State) (i : Instr), s.engine ≠ .off → s.stepCount.toNat ≠ s.params.maxSteps →
      s.seqPc.toNat < s.params.ustoreCap →
      decodeUop (s.mem.ustore.read (2 * s.seqPc.toNat + 1) ++ s.mem.ustore.read (2 * s.seqPc.toNat)) = .ok i →
      step s = exec i { s with stepCount := s.stepCount + 1#32 }) ∧
  (∀ (s : State) (rest : List HostEvent), s.engine = .off →
      (∀ addr width, s.inputs = .read addr width :: rest →
        step s = .next (State.hostRead { s with inputs := rest } addr width)) ∧
      (∀ addr width w, s.inputs = .write addr width w :: rest →
        step s = .next (State.hostWrite { s with inputs := rest } addr width w)) ∧
      (s.inputs = .powerOn :: rest → step s = .next (State.powerOn { s with inputs := rest })) ∧
      (s.block ≠ .busy → s.inputs = .blockTurn :: rest → step s = .next { s with inputs := rest }) ∧
      (s.block ≠ .busy → s.inputs = [] → step s = .next s))

/-- The outcomes a step has before it executes an instruction. The engine's loop ends a parse, of PARSE_SPS or inside
DECODE_AU, with E_SPS_BUDGET at the budget, else F_UOP_PC for a SEQ_PC outside USTORE, else F_UOP_ILLEGAL for an illegal
word, which STEP_COUNT counts. An accepted illegal command word ends with E_CMD_ILLEGAL and changes nothing else, when the
block's turn comes as it does for a legal word (log entry 3) (46_sps_engine.md R401, R402, R406; 47_control.md R500). -/
def Obligations.StepOutcomes : Prop :=
  (∀ s : State, s.parsing →
      (s.stepCount.toNat = s.params.maxSteps →
        ∃ t, step s = .next t ∧ ParseEnds s t { code := .eSpsBudget, value := s.stepCount }) ∧
      (s.stepCount.toNat ≠ s.params.maxSteps → s.params.ustoreCap ≤ s.seqPc.toNat →
        ∃ t, step s = .next t ∧ ParseEnds s t { code := .fUopPc, value := s.seqPc }) ∧
      (s.stepCount.toNat ≠ s.params.maxSteps → s.seqPc.toNat < s.params.ustoreCap →
        ∀ e, decodeUop (s.mem.uop s.seqPc.toNat) = .error e →
        ∃ t, step s = .next t ∧ ParseEnds { s with stepCount := s.stepCount + 1#32 } t
          { code := .fUopIllegal, value := s.mem.ustore.read (2 * s.seqPc.toNat + 1),
            min := s.mem.ustore.read (2 * s.seqPc.toNat) })) ∧
  (∀ (s : State) (e : Reject), s.engine = .off → s.block = .busy → decodeCmd s.cmd = .error e →
      (s.inputs = [] →
        ∃ t, step s = .next t ∧ FailsIdle s t { code := .eCmdIllegal, value := s.cmd } 0xFFFFFFFF#32) ∧
      (∀ rest, s.inputs = .blockTurn :: rest →
        ∃ t, step s = .next t ∧
          FailsIdle { s with inputs := rest } t { code := .eCmdIllegal, value := s.cmd } 0xFFFFFFFF#32))

/-! ### The host interface -/

/-- A CMD write: which writes STATE makes the block ignore, with W_CMD_IGNORED and nothing else changed, and what the
acceptance of every other one does: CMD, DONE, STATE, the operands latched, and the error record and ERR cleared unless
the word's OPC is CONTINUE's. A legal RESET word, in any STATE but BUSY, is not executed through that path: until the
block's next step only CMD and STATE change, and that step gives every register its reset value and keeps the memories and
V (10_state.md R55; 47_control.md R500, R503, R504; 70_reset_and_hazards.md R701, R702, R713). That the acceptance is a
state of its own, before the block's step, is the model's choice (log entries 1, 9 and 10). -/
def Obligations.CommandWrites : Prop :=
  (∀ (s : State) (w : Word),
      (s.block = .busy ∨
        (s.block = .paused ∧ ¬ isLegal w .continueAu ∧ ¬ isLegal w .abortAu ∧ ¬ isLegal w .reset) ∨
        (s.block = .halted ∧ ¬ isLegal w .reset) ∨
        (s.block = .idle ∧ (isLegal w .continueAu ∨ isLegal w .abortAu))) →
      s.hostWrite 0x008#32 .word w = { s with warn := s.warn ||| 0b010000#6 }) ∧
  (∀ (s : State) (w : Word), ¬ isLegal w .reset →
      (s.block = .idle ∧ ¬ isLegal w .continueAu ∧ ¬ isLegal w .abortAu) ∨
        (s.block = .paused ∧ (isLegal w .continueAu ∨ isLegal w .abortAu)) →
      s.hostWrite 0x008#32 .word w =
        if w.extractLsb' 24 8 = 0x02#8 then { s with cmd := w, done := false, block := .busy, latch := s.ops }
        else { s with
          cmd := w, done := false, block := .busy, latch := s.ops, errFlag := false,
          error := ⟨.ok, 0xFFFFFFFF#32, 0#32, 0#32, 0#32, 0#32⟩ }) ∧
  (∀ (s : State) (w : Word), s.block ≠ .busy → isLegal w .reset →
      w = 0x01000000#32 ∧
      ∃ u, s.hostWrite 0x008#32 .word w = u ∧ u = { s with cmd := w, block := .busy } ∧
        (s.engine = .off → s.inputs = [] → ∃ t, step u = .next t ∧ resetRegisters t ∧ t.mem = s.mem ∧ t.v = s.v))

/-- Host accesses that are ignored with W_BUS. An access of the wrong width, misaligned, in an unmapped range or beyond a
window's used size: a read returns 0 and a write changes nothing else. A write to the AU or USTORE window while BUSY or
PAUSED, or to a read-only window in any state, changes nothing else (20_memory.md R112-R116). The reserved offsets of the
control block are left out (10_state.md R52). -/
def Obligations.IgnoredAccesses : Prop :=
  (∀ (s : State) (addr w : Word) (width : Width),
      (let a := addr.toNat
       ((a < 0x0A0 ∨ 0x1000 ≤ a) ∧ a < 0x01000000 ∧ (width = .byte ∨ a % 4 ≠ 0)) ∨
       (0x01000000 ≤ a ∧ a < 0x03000000 ∧ width = .word ∧ a % 4 ≠ 0) ∨
       (0x1000 + 16 * s.params.naltCap ≤ a ∧ a < 0x10000) ∨
       (0x10000 + 8 * s.params.ustoreCap ≤ a ∧ a < 0x20000) ∨
       (0x20000 + 4 * s.params.recCap ≤ a ∧ a < 0x30000) ∨
       (0x30000 + 4 * (s.params.recCap / 32) ≤ a ∧ a < 0x01000000) ∨
       (0x01000000 + s.params.auCap ≤ a ∧ a < 0x02000000) ∨
       (0x02000000 + s.params.rbspCap ≤ a)) →
      s.params.valid →
      s.hostRead addr width = { s with readData := 0#32, warn := s.warn ||| 0b100000#6 } ∧
      s.hostWrite addr width w = { s with warn := s.warn ||| 0b100000#6 }) ∧
  (∀ (s : State) (addr w : Word) (width : Width), s.params.valid →
      (((s.block = .busy ∨ s.block = .paused) ∧
          ((0x10000 ≤ addr.toNat ∧ addr.toNat < 0x20000) ∨ (0x01000000 ≤ addr.toNat ∧ addr.toNat < 0x02000000))) ∨
        (0x1000 ≤ addr.toNat ∧ addr.toNat < 0x10000) ∨ (0x20000 ≤ addr.toNat ∧ addr.toNat < 0x30800) ∨
        (0x02000000 ≤ addr.toNat ∧ addr.toNat < 0x03000000)) →
      s.hostWrite addr width w = { s with warn := s.warn ||| 0b100000#6 })

/-- Host accesses to the memories. Writes: a 32-bit write to the AU window puts bits 8i+7..8i of the data at AU[a+i], an
8-bit write puts the data's low byte at AU[a]; two 32-bit writes to the USTORE window, the low half at the lower address,
make USTORE[j] the 64-bit word; no other element and nothing else changes. Reads: the AU and RBSP windows return a byte or
four bytes, little-endian, the USTORE window the halves of a µop, the NALT and REC windows a word, the REC_WR window 32
bits; RBSP, NALT, REC and REC_WR while not BUSY (20_memory.md R105-R108, R112, R117, R123). Where an 8-bit access has its
data in the 32 is the model's choice (log entry 22), and so is the field a read's data goes to (log entry 3). -/
def Obligations.WindowAccesses : Prop :=
  (∀ (s : State) (a : Nat) (w : Word), s.params.valid → s.mem.au.wf = true → s.block = .idle ∨ s.block = .halted →
      (a % 4 = 0 → a + 4 ≤ s.params.auCap →
        ∃ t, s.hostWrite (BitVec.ofNat 32 (0x01000000 + a)) .word w = t ∧
          t = { s with mem := { s.mem with au := t.mem.au } } ∧
          ∀ k, t.mem.au.read k =
            if a ≤ k ∧ k < a + 4 then w.extractLsb' (8 * (k - a)) 8 else s.mem.au.read k) ∧
      (a < s.params.auCap →
        ∃ t, s.hostWrite (BitVec.ofNat 32 (0x01000000 + a)) .byte w = t ∧
          t = { s with mem := { s.mem with au := t.mem.au } } ∧
          ∀ k, t.mem.au.read k = if k = a then w.extractLsb' 0 8 else s.mem.au.read k)) ∧
  (∀ (s : State) (j : Nat) (lo hi : Word), s.params.valid → s.mem.ustore.wf = true →
      s.block = .idle ∨ s.block = .halted → j < s.params.ustoreCap →
      ∃ t, (s.hostWrite (BitVec.ofNat 32 (0x10000 + 8 * j)) .word lo).hostWrite
          (BitVec.ofNat 32 (0x10000 + 8 * j + 4)) .word hi = t ∧
        t = { s with mem := { s.mem with ustore := t.mem.ustore } } ∧
        ∀ k, t.mem.uop k = if k = j then hi ++ lo else s.mem.uop k) ∧
  (∀ s : State, s.params.valid →
      (∀ a, a < s.params.auCap →
        s.hostRead (BitVec.ofNat 32 (0x01000000 + a)) .byte = { s with readData := 0#24 ++ s.mem.au.read a }) ∧
      (∀ a, a % 4 = 0 → a + 4 ≤ s.params.auCap →
        s.hostRead (BitVec.ofNat 32 (0x01000000 + a)) .word = { s with
          readData := s.mem.au.read (a + 3) ++ s.mem.au.read (a + 2) ++ s.mem.au.read (a + 1) ++ s.mem.au.read a }) ∧
      (∀ j, j < s.params.ustoreCap →
        s.hostRead (BitVec.ofNat 32 (0x10000 + 8 * j)) .word =
          { s with readData := (s.mem.uop j).extractLsb' 0 32 } ∧
        s.hostRead (BitVec.ofNat 32 (0x10000 + 8 * j + 4)) .word =
          { s with readData := (s.mem.uop j).extractLsb' 32 32 })) ∧
  (∀ s : State, s.params.valid → s.block ≠ .busy →
      (∀ a, a < s.params.rbspCap →
        s.hostRead (BitVec.ofNat 32 (0x02000000 + a)) .byte = { s with readData := 0#24 ++ s.mem.rbsp.read a }) ∧
      (∀ a, a % 4 = 0 → a + 4 ≤ s.params.rbspCap →
        s.hostRead (BitVec.ofNat 32 (0x02000000 + a)) .word = { s with
          readData :=
            s.mem.rbsp.read (a + 3) ++ s.mem.rbsp.read (a + 2) ++ s.mem.rbsp.read (a + 1) ++ s.mem.rbsp.read a }) ∧
      (∀ k i, k < s.params.naltCap → i < 4 →
        s.hostRead (BitVec.ofNat 32 (0x1000 + 16 * k + 4 * i)) .word = { s with readData := s.mem.naltWord k i }) ∧
      (∀ i, i < s.params.recCap →
        s.hostRead (BitVec.ofNat 32 (0x20000 + 4 * i)) .word = { s with readData := s.mem.record.read i }) ∧
      (∀ m, m < s.params.recCap / 32 →
        ∃ t, s.hostRead (BitVec.ofNat 32 (0x30000 + 4 * m)) .word = t ∧ t = { s with readData := t.readData } ∧
          ∀ b, b < 32 → (t.readData.getLsbD b = true ↔ s.mem.recordWr.read (32 * m + b) = 1#1)))

/-- What a host read returns and changes. It changes nothing but the data it returns, the count of free values and W_BUS.
Each register reads its value at its offset, those that the running command may update only while not BUSY; the fields of
STATUS and NUH lie at their bits; the reserved offsets read 0 (20_memory.md R118; 10_state.md R32-R64). The field that holds
the data and the count of free values are the model's own (log entries 3 and 8); that ID and VERSION read their constants
while BUSY too is the model's reading of R33 and R53 (log entry 25). -/
def Obligations.HostReads : Prop :=
  (∀ (s : State) (addr : Word) (width : Width), ∃ t, s.hostRead addr width = t ∧
    t = { s with readData := t.readData, free := t.free, warn := t.warn } ∧
    (t.warn = s.warn ∨ t.warn = s.warn ||| 0b100000#6)) ∧
  (∀ s : State,
    (∀ r ∈ steadyRegisters s, s.hostRead r.1 .word = { s with readData := r.2 }) ∧
    (s.block ≠ .busy → ∀ r ∈ resultRegisters s, s.hostRead r.1 .word = { s with readData := r.2 })) ∧
  (∀ s : State, ∃ t, s.hostRead 0x00C#32 .word = t ∧ t = { s with readData := t.readData } ∧
    t.readData.extractLsb' 0 2 = (match s.block with | .idle => 0#2 | .busy => 1#2 | .paused => 2#2 | .halted => 3#2) ∧
    t.readData.getLsbD 2 = s.done ∧ t.readData.getLsbD 3 = s.errFlag ∧
    (t.readData.getLsbD 4 = true ↔ s.block = .halted) ∧ t.readData.getLsbD 5 = s.spsValid ∧
    (t.readData.getLsbD 6 = true ↔ s.warn ≠ 0#6) ∧ t.readData.extractLsb' 7 25 = 0#25) ∧
  (∀ s : State, s.block ≠ .busy → ∃ t, s.hostRead 0x068#32 .word = t ∧ t = { s with readData := t.readData } ∧
    t.readData.extractLsb' 0 1 = s.nuh.fzb ∧ t.readData.extractLsb' 1 1 = s.nuh.rzb ∧
    t.readData.extractLsb' 2 6 = s.nuh.layerId ∧ t.readData.extractLsb' 8 5 = s.nuh.typ ∧
    t.readData.extractLsb' 13 3 = s.nuh.tidPlus1 ∧ t.readData.extractLsb' 16 3 = s.nuh.tid ∧
    t.readData.extractLsb' 19 1 = s.nuh.vcl ∧ t.readData.extractLsb' 20 12 = 0#12) ∧
  (∀ (s : State) (a : Nat), 0x0A0 ≤ a → a < 0x1000 → a % 4 = 0 →
    s.hostRead (BitVec.ofNat 32 a) .word = { s with readData := 0#32 })

/-- Host writes to the registers, CMD apart. The operand and timing registers take the data, AU_RAP its bit 0, IRQ_EN its low
three bits; WARN and IRQ_PEND clear the bits written as 1 and no others; a write to a read-only register or a reserved offset
changes nothing, W_BUS included; the interrupt output is (IRQ_PEND & IRQ_EN) ≠ 0 (10_state.md R36, R44, R46, R47, R50, R52,
R54, R63; 20_memory.md R116, R118; 60_exceptions.md R631). -/
def Obligations.RegisterWrites : Prop :=
  (∀ (s : State) (w : Word),
    s.hostWrite 0x010#32 .word w = { s with ops := { s.ops with arg0 := w } } ∧
    s.hostWrite 0x014#32 .word w = { s with ops := { s.ops with arg1 := w } } ∧
    s.hostWrite 0x044#32 .word w = { s with ops := { s.ops with auLen := w } } ∧
    s.hostWrite 0x06C#32 .word w = { s with ops := { s.ops with spsEntry := w } } ∧
    s.hostWrite 0x078#32 .word w = { s with timing := { s.timing with ctsLo := w } } ∧
    s.hostWrite 0x07C#32 .word w = { s with timing := { s.timing with ctsHi := w } } ∧
    s.hostWrite 0x080#32 .word w = { s with timing := { s.timing with dtsLo := w } } ∧
    s.hostWrite 0x084#32 .word w = { s with timing := { s.timing with dtsHi := w } } ∧
    s.hostWrite 0x088#32 .word w = { s with timing := { s.timing with rap := w.extractLsb' 0 1 } }) ∧
  (∀ (s : State) (w : Word),
    (∃ t, s.hostWrite 0x034#32 .word w = t ∧ t = { s with warn := t.warn } ∧
      ∀ i, i < 6 → t.warn.getLsbD i = (s.warn.getLsbD i && !w.getLsbD i)) ∧
    (∃ t, s.hostWrite 0x040#32 .word w = t ∧ t = { s with irqPend := t.irqPend } ∧
      ∀ i, i < 3 → t.irqPend.getLsbD i = (s.irqPend.getLsbD i && !w.getLsbD i)) ∧
    (∃ t, s.hostWrite 0x03C#32 .word w = t ∧ t = { s with irqEn := t.irqEn } ∧
      ∀ i, i < 3 → t.irqEn.getLsbD i = w.getLsbD i)) ∧
  (∀ (s : State) (a : Nat) (w : Word), a ∈ readOnlyOffsets ∨ (0x0A0 ≤ a ∧ a < 0x1000 ∧ a % 4 = 0) →
    s.hostWrite (BitVec.ofNat 32 a) .word w = s) ∧
  (∀ s : State, s.irq = true ↔ ∃ i, i < 3 ∧ s.irqPend.getLsbD i = true ∧ s.irqEn.getLsbD i = true)

/-! ### Outcomes -/

/-- The outcome codes have the values of their table and the class of a code is its high nibble, OK apart; the dispatch of
each of the 32 NAL unit types (60_exceptions.md R601, R602; 44_nal_header.md R331, R340). -/
def Obligations.CodeTables : Prop :=
  (([Code.ok, .eCmdIllegal, .eAuTooLong, .eNalIndex, .eNaltFull, .eRangeArgs].map Code.val =
      [0x00#8, 0x01#8, 0x02#8, 0x03#8, 0x04#8, 0x05#8]) ∧
    ([Code.eBrUnderflow, .eEgOverflow, .eRange, .eEpbSmall, .eEpbLarge, .eTrailingZero, .eNalTooShort, .eTidPlus1Zero,
        .eTidIrap, .eTidStsa, .eTrailStop, .eTrailAlign, .eTrailCount, .eSpsCheck, .eSpsBudget,
        .eNalTypeReserved].map Code.val =
      [0x10#8, 0x11#8, 0x12#8, 0x13#8, 0x14#8, 0x15#8, 0x16#8, 0x17#8, 0x18#8, 0x19#8, 0x1A#8, 0x1B#8, 0x1C#8,
        0x1D#8, 0x1E#8, 0x1F#8]) ∧
    ([Code.sLayerId, .fBrWidth, .fUopIllegal, .fUopPc, .fUopDiv0, .fRecRange, .fNalTypeDesync, .oSpsOk, .oStub,
        .oPending, .oAborted].map Code.val =
      [0x20#8, 0x30#8, 0x31#8, 0x32#8, 0x33#8, 0x34#8, 0x35#8, 0x40#8, 0x41#8, 0x42#8, 0x43#8]) ∧
    (∀ c : Code, c.cls = if c = .ok then .ok else match c.val.toNat / 16 with
      | 0 => Cls.rejected | 1 => .recoverable | 2 => .status | 3 => .fatal | _ => .disposition)) ∧
  ((List.range 32).map (fun n => typeClass (BitVec.ofNat 5 n)) =
      [.stub, .stub, .stub, .stub, .reserved, .reserved, .reserved, .stub, .stub, .stub, .stub, .reserved,
       .stub, .stub, .stub, .sps, .stub, .stub, .stub, .stub, .stub, .stub, .stub, .stub, .stub, .stub,
       .reserved, .reserved, .reserved, .reserved, .reserved, .reserved])

/-- HALTED is left only by an accepted RESET command or a power-on reset (60_exceptions.md R621). That they are events of the
inputs, and that an accepted RESET word leaves CMD the word and STATE BUSY until the block's next step, is the model's form
(log entries 1, 3 and 10). -/
def Obligations.LeavingHalted : Prop :=
  ∀ s t : State, s.block = .halted → s.engine = .off → step s = .next t → t.block ≠ .halted →
    ∃ rest, (s.inputs = .powerOn :: rest ∧ t.block = .idle) ∨
      (∃ w, s.inputs = .write 0x008#32 .word w :: rest ∧ isLegal w .reset ∧ t.block = .busy ∧ t.cmd = w)

/-! ### The bit reader and the VLC decoder -/

/-- The commands that change nothing but RESULT: NOP, which leaves it too; BR_PEEK n, which returns the bits left, at most n
of them, padded with zeros to n bits; BR_BITS_LEFT, BR_BITS_TO_ALIGN; MORE_RBSP_DATA (47_control.md R502;
41_bit_reader.md R203, R212, R218, R221, R222; 45_vlc.md R378, R380). -/
def Obligations.ReportCommands : Prop :=
  (∀ s : State, ∃ t, exec .nop s = .next t ∧ Completes s t s.result) ∧
  (∀ (s : State) (n : Nat), n ≤ 32 →
      ∃ t, exec (.brPeek n) s = .next t ∧ Completes s t
        (word (if n ≤ s.streamLen - s.bitPos then stream s.mem.rbsp s.bitPos n
          else stream s.mem.rbsp s.bitPos (s.streamLen - s.bitPos) * 2 ^ (n - (s.streamLen - s.bitPos))))) ∧
  (∀ s : State,
      (∃ t, exec .brBitsLeft s = .next t ∧ Completes s t (word (s.streamLen - s.bitPos))) ∧
      (∃ t, exec .brBitsToAlign s = .next t ∧ Completes s t (word ((8 - s.bitPos % 8) % 8))) ∧
      (MoreData s → ∃ t, exec .moreRbspData s = .next t ∧ Completes s t 1#32) ∧
      (¬ MoreData s → ∃ t, exec .moreRbspData s = .next t ∧ Completes s t 0#32))

/-- BR_READ n, READ_CODE n and READ_FLAG return the next bits of the stream, most significant first, and consume exactly
them, 0 bits on an empty RBSP included; READ_UVLC and READ_SVLC return the number of the Exp-Golomb code at BR_BITPOS and
consume it (41_bit_reader.md R202, R215; 45_vlc.md R362, R365, R370-R373). -/
def Obligations.ReadCommands : Prop :=
  (∀ s : State, s.readerBounds →
      (∀ n, n ≤ 32 → n ≤ s.streamLen - s.bitPos →
        (∃ t, exec (.brRead n) s = .next t ∧ ReadsResult s t n (word (stream s.mem.rbsp s.bitPos n))) ∧
        (∃ t, exec (.readCode n) s = .next t ∧ ReadsResult s t n (word (stream s.mem.rbsp s.bitPos n)))) ∧
      (1 ≤ s.streamLen - s.bitPos →
        ∃ t, exec .readFlag s = .next t ∧ ReadsResult s t 1 (word (stream s.mem.rbsp s.bitPos 1)))) ∧
  (∀ (s : State) (l : Nat), s.readerBounds → CodeAt s l →
      (∃ t, exec .readUvlc s = .next t ∧ ReadsResult s t (2 * l + 1) (word (codeNumber s l))) ∧
      (∃ t, exec .readSvlc s = .next t ∧
        ReadsResult s t (2 * l + 1) (BitVec.ofInt 32 (signedNumber (codeNumber s l)))))

/-- The outcomes of reads consume nothing. A width above 32 halts the block with F_BR_WIDTH; too few bits left give
E_BR_UNDERFLOW, for READ_FLAG with no bit left. For an Exp-Golomb code 32 zeros give E_EG_OVERFLOW, otherwise a missing 1 or
a short suffix gives E_BR_UNDERFLOW with the bits needed (41_bit_reader.md R202, R203; 45_vlc.md R362, R364). -/
def Obligations.ReadOutcomes : Prop :=
  (∀ (s : State) (n : Nat),
      (32 < n → ∀ i ∈ [Instr.brRead n, .readCode n, .brPeek n, .readCodeR n], ∃ t, exec i s = .next t ∧
        FailsHalted s t { code := .fBrWidth, value := word n } 0xFFFFFFFF#32) ∧
      (n ≤ 32 → s.streamLen - s.bitPos < n → ∀ i ∈ [Instr.brRead n, .readCode n, .readCodeR n], ∃ t,
        exec i s = .next t ∧
        FailsIdle s t { code := .eBrUnderflow, value := word n, max := word (s.streamLen - s.bitPos) } 0xFFFFFFFF#32)) ∧
  (∀ s : State, s.streamLen - s.bitPos = 0 → ∃ t, exec .readFlag s = .next t ∧
      FailsIdle s t { code := .eBrUnderflow, value := 1#32, max := 0#32 } 0xFFFFFFFF#32) ∧
  (∀ s : State, ∀ i ∈ [Instr.readUvlc, .readSvlc, .readUvlcR, .readSvlcR],
      (32 ≤ s.bitsLeft → (∀ j < 32, streamBit s.mem.rbsp (s.bitPos + j) = false) →
        ∃ t, exec i s = .next t ∧ FailsIdle s t { code := .eEgOverflow, value := 32#32 } 0xFFFFFFFF#32) ∧
      (s.bitsLeft < 32 → (∀ j < s.bitsLeft, streamBit s.mem.rbsp (s.bitPos + j) = false) →
        ∃ t, exec i s = .next t ∧
          FailsIdle s t { code := .eBrUnderflow, value := word (s.bitsLeft + 1), max := word s.bitsLeft }
            0xFFFFFFFF#32) ∧
      (∀ l, l < 32 → l < s.bitsLeft → s.bitsLeft < 2 * l + 1 →
        (∀ j < l, streamBit s.mem.rbsp (s.bitPos + j) = false) → streamBit s.mem.rbsp (s.bitPos + l) = true →
        ∃ t, exec i s = .next t ∧
          FailsIdle s t { code := .eBrUnderflow, value := word (2 * l + 1), max := word s.bitsLeft } 0xFFFFFFFF#32))

/-- Bit-exactness: reads of any widths up to 32 that add up to the length of the RBSP, from the start, return its bits
in order (41_bit_reader.md R206). -/
def Obligations.BitExactness : Prop :=
  ∀ (s : State) (ns : List Nat), s.bitPos = 0 → s.streamLen < 2 ^ 32 → (∀ n ∈ ns, n ≤ 32) → ns.sum = s.streamLen →
    ∃ t, readAll s ns = some (stream s.mem.rbsp 0 s.streamLen, t) ∧ t.bitPos = s.streamLen

/-- The refill path has no effect: on registers that satisfy R58, with any number of refill bytes that R210 allows, the
reference implementation returns the value of read(n), and its registers satisfy R58 at the position after it
(41_bit_reader.md R210, R211). -/
def Obligations.PathEquivalence : Prop :=
  ∀ (s : State) (n k : Nat), s.params.valid → s.ReaderInv → n ≤ 32 → n ≤ s.streamLen - s.bitPos →
    n - s.reader.nhb.toNat ≤ 8 * k → k ≤ 8 → s.reader.pos.toNat + k ≤ s.reader.rbspLen.toNat →
    (s.reader.readImpl s.mem.rbsp k n).1 = stream s.mem.rbsp s.bitPos n ∧
    State.ReaderInv { s with reader := (s.reader.readImpl s.mem.rbsp k n).2 } ∧
    (s.reader.readImpl s.mem.rbsp k n).2.bitPos.toNat = s.bitPos + n

/-- Every number below 2^32 − 1 has its code: when the bits at BR_BITPOS are those of `v + 1` after as many zeros as
`v + 1` has bits after its first, the code number there is `v` (45_vlc.md R363). -/
def Obligations.ExpGolombRoundTrip : Prop :=
  ∀ (s : State) (v : Nat), v < 2 ^ 32 - 1 → 2 * Nat.log 2 (v + 1) + 1 ≤ s.bitsLeft →
    stream s.mem.rbsp s.bitPos (2 * Nat.log 2 (v + 1) + 1) = v + 1 →
    s.readerBounds →
    ∃ t, s.ue = .ok (word v) t ∧ Consumed s t (2 * Nat.log 2 (v + 1) + 1)

/-- READ_CODE_R, READ_UVLC_R and READ_SVLC_R return a value inside the inclusive bounds ARG0 and ARG1, compared unsigned,
or signed for se(v); a value outside them is E_RANGE with the element consumed (45_vlc.md R366, R367, R374-R376). -/
def Obligations.RangeCheckedCommands : Prop :=
  ∀ s : State, s.readerBounds →
    (∀ n, n ≤ 32 → n ≤ s.bitsLeft → ∀ x, x = stream s.mem.rbsp s.bitPos n →
      (s.latch.arg0.toNat ≤ x ∧ x ≤ s.latch.arg1.toNat →
        ∃ t, exec (.readCodeR n) s = .next t ∧ ReadsResult s t n (word x)) ∧
      (¬ (s.latch.arg0.toNat ≤ x ∧ x ≤ s.latch.arg1.toNat) →
        ∃ t u, exec (.readCodeR n) s = .next t ∧ Consumed s u n ∧
          FailsIdle u t { code := .eRange, value := word x, min := s.latch.arg0, max := s.latch.arg1 }
            0xFFFFFFFF#32)) ∧
    (∀ l, CodeAt s l → ∀ x, x = codeNumber s l →
      (s.latch.arg0.toNat ≤ x ∧ x ≤ s.latch.arg1.toNat →
        ∃ t, exec .readUvlcR s = .next t ∧ ReadsResult s t (2 * l + 1) (word x)) ∧
      (¬ (s.latch.arg0.toNat ≤ x ∧ x ≤ s.latch.arg1.toNat) →
        ∃ t u, exec .readUvlcR s = .next t ∧ Consumed s u (2 * l + 1) ∧
          FailsIdle u t { code := .eRange, value := word x, min := s.latch.arg0, max := s.latch.arg1 }
            0xFFFFFFFF#32)) ∧
    (∀ l, CodeAt s l → ∀ x : Int, x = signedNumber (codeNumber s l) →
      (s.latch.arg0.toInt ≤ x ∧ x ≤ s.latch.arg1.toInt →
        ∃ t, exec .readSvlcR s = .next t ∧ ReadsResult s t (2 * l + 1) (BitVec.ofInt 32 x)) ∧
      (¬ (s.latch.arg0.toInt ≤ x ∧ x ≤ s.latch.arg1.toInt) →
        ∃ t u, exec .readSvlcR s = .next t ∧ Consumed s u (2 * l + 1) ∧
          FailsIdle u t { code := .eRange, value := BitVec.ofInt 32 x, min := s.latch.arg0, max := s.latch.arg1 }
            0xFFFFFFFF#32))

/-- RBSP_TRAILING_BITS consumes a 1 and the zeros up to the byte boundary, and RESULT is the bits left; a first bit 0 is
E_TRAIL_STOP, a later 1 is E_TRAIL_ALIGN, each with the bits up to it consumed, and an empty rest is E_BR_UNDERFLOW
(45_vlc.md R381-R383). -/
def Obligations.TrailingBitsCommand : Prop :=
  ∀ s : State, s.readerBounds →
    (∀ m, TrailAt s m → ∃ t, exec .rbspTrailingBits s = .next t ∧
      ReadsResult s t m (word (s.streamLen - (s.bitPos + m)))) ∧
    (s.bitPos = s.streamLen → ∃ t, exec .rbspTrailingBits s = .next t ∧
      FailsIdle s t { code := .eBrUnderflow, value := 1#32 } 0xFFFFFFFF#32) ∧
    (s.bitPos < s.streamLen → streamBit s.mem.rbsp s.bitPos = false →
      ∃ t u, exec .rbspTrailingBits s = .next t ∧ Consumed s u 1 ∧
        FailsIdle u t { code := .eTrailStop, min := word s.bitPos } 0xFFFFFFFF#32) ∧
    (∀ j, s.bitPos < s.streamLen → 1 ≤ j → j < 8 - s.bitPos % 8 → streamBit s.mem.rbsp s.bitPos = true →
      (∀ i, 1 ≤ i → i < j → streamBit s.mem.rbsp (s.bitPos + i) = false) →
      streamBit s.mem.rbsp (s.bitPos + j) = true →
      ∃ t u, exec .rbspTrailingBits s = .next t ∧ Consumed s u (j + 1) ∧
        FailsIdle u t { code := .eTrailAlign, value := 1#32, min := word (s.bitPos + j) } 0xFFFFFFFF#32)

/-! ### The converter -/

/-- CONVERT_RANGE converts AU[ARG0 .. ARG0+ARG1−1] into RBSP: RESULT and RBSP_LEN are the converted length, the reader is
reset, NUH is the VCL flag alone, and the bytes of RBSP below RBSP_LEN are the converted ones; only RBSP changes in
memory. A range past AU_LEN is E_RANGE_ARGS with nothing else changed; a conversion outcome leaves RBSP empty and NUH the
VCL flag (42_rbsp_converter.md R257, R260). -/
def Obligations.ConvertRangeCommand : Prop :=
  (∀ (s : State) (vcl : Bool) (out : List Byte), s.latch.auLen.toNat ≤ s.params.auCap →
      s.latch.arg0.toNat + s.latch.arg1.toNat ≤ s.latch.auLen.toNat →
      convert (s.mem.au.slice s.latch.arg0.toNat s.latch.arg1.toNat) vcl = .ok out →
      ∃ t, exec (.convertRange vcl) s = .next t ∧
        t = { s with
          result := word out.length, block := .idle, done := true, irqPend := s.irqPend ||| 0b001#3, engine := .off,
          reader := ⟨word out.length, 0#32, 0#32, 0#32, 0#64⟩, nuh := { Nuh.zero with vcl := BitVec.ofBool vcl },
          mem := { s.mem with rbsp := t.mem.rbsp }, free := t.free } ∧
        ∀ i (h : i < out.length), t.mem.rbsp.read i = out[i]) ∧
  (∀ (s : State) (vcl : Bool), s.latch.auLen.toNat ≤ s.params.auCap →
      (s.latch.auLen.toNat < s.latch.arg0.toNat + s.latch.arg1.toNat →
        ∃ t, exec (.convertRange vcl) s = .next t ∧
          FailsIdle s t { code := .eRangeArgs, value := s.latch.arg0, min := s.latch.arg1 } 0xFFFFFFFF#32) ∧
      (∀ r, s.latch.arg0.toNat + s.latch.arg1.toNat ≤ s.latch.auLen.toNat →
        convert (s.mem.au.slice s.latch.arg0.toNat s.latch.arg1.toNat) vcl = .error r →
        r.code ∈ [Code.eEpbSmall, .eEpbLarge, .eTrailingZero] ∧
        ∃ t u, exec (.convertRange vcl) s = .next t ∧ FailsIdle u t r 0xFFFFFFFF#32 ∧
          u = { s with
            reader := ⟨0#32, 0#32, 0#32, 0#32, 0#64⟩, nuh := { Nuh.zero with vcl := BitVec.ofBool vcl },
            mem := { s.mem with rbsp := u.mem.rbsp }, free := u.free }))

/-- Emulation round trip: converting the emulation-prevented form of a byte string that does not end in 0 gives it back,
for both values of the VCL flag (42_rbsp_converter.md R259). -/
def Obligations.EmulationRoundTrip : Prop :=
  ∀ (p : List Byte) (vcl : Bool), p.getLast? ≠ some 0#8 → convert (escape 0 p) vcl = .ok p

/-- The converted bytes are never more than the input's, and the first two bytes, a unit's header, are never changed
(42_rbsp_converter.md R258; 43_scanner_framer.md R291). -/
def Obligations.ConvertedLength : Prop :=
  ∀ (src out : List Byte) (vcl : Bool), convert src vcl = .ok out →
    out.length ≤ src.length ∧ (1 ≤ out.length → out[0]? = src[0]?) ∧ (2 ≤ out.length → out[1]? = src[1]?)

/-- What a conversion gives for any bytes, which have one of three forms: the emulation-prevented form of some bytes,
perhaps with one more 03 after a final `00 00`; such a form that ends in `00 00` and goes on with a byte below 3, E_EPB_SMALL
with that byte and its offset; or with 03 and a byte above 3, E_EPB_LARGE likewise. Of the first form, trailing zero bytes
of a VCL unit are stripped; for another unit they are E_TRAILING_ZERO with the converted length (42_rbsp_converter.md
R251-R256). -/
def Obligations.ConversionOutcomes : Prop :=
  (∀ src : List Byte, ∃ p, src = escape 0 p ∨ (zeroRun 0 p = 2 ∧
      (src = escape 0 p ++ [3#8] ∨ ∃ (b : Byte) (rest : List Byte),
        (b.toNat < 3 ∧ src = escape 0 p ++ b :: rest) ∨ (3 < b.toNat ∧ src = escape 0 p ++ 3#8 :: b :: rest)))) ∧
  (∀ (p rest : List Byte) (b : Byte) (vcl : Bool), zeroRun 0 p = 2 →
      (b.toNat < 3 → convert (escape 0 p ++ b :: rest) vcl =
        .error { code := .eEpbSmall, value := 0#24 ++ b, min := word (escape 0 p).length }) ∧
      (3 < b.toNat → convert (escape 0 p ++ 3#8 :: b :: rest) vcl =
        .error { code := .eEpbLarge, value := 0#24 ++ b, min := word ((escape 0 p).length + 1) })) ∧
  (∀ src p : List Byte, src = escape 0 p ∨ (zeroRun 0 p = 2 ∧ src = escape 0 p ++ [3#8]) →
      (∀ (q : List Byte) (n : Nat), p = q ++ List.replicate n 0#8 → q.getLast? ≠ some 0#8 → convert src true = .ok q) ∧
      (p.getLast? ≠ some 0#8 → convert src false = .ok p) ∧
      (p.getLast? = some 0#8 → convert src false = .error { code := .eTrailingZero, value := word p.length }))

/-! ### The scanner -/

/-- SCAN_AU writes the table of the units it finds: NAL_COUNT and RESULT are their number, and each entry holds START, END,
O_PENDING with SC_LEN, and INFO 0; W_NO_START_CODE is set exactly when there is none (43_scanner_framer.md R282-R285). -/
def Obligations.ScanCommand : Prop :=
  ∀ (s : State) (us : List NalUnit), s.latch.auLen.toNat ≤ s.params.auCap →
    us = nalUnits (s.mem.au.slice 0 s.latch.auLen.toNat) → us.length ≤ s.params.naltCap →
    ∃ t, exec .scanAu s = .next t ∧
      t = { s with
        result := word us.length, nalCount := word us.length, block := .idle, done := true,
        irqPend := s.irqPend ||| 0b001#3, engine := .off, mem := { s.mem with nalt := t.mem.nalt }, free := t.free,
        warn := if us = [] then s.warn ||| 0b001000#6 else s.warn } ∧
      ∀ k (h : k < us.length),
        t.mem.naltWord k 0 = word us[k].start ∧ t.mem.naltWord k 1 = word us[k].stop ∧
        t.mem.naltWord k 2 = 0x42000000#32 ||| word us[k].scLen ∧ t.mem.naltWord k 3 = 0#32

/-- More start codes than NALT_CAP end SCAN_AU and DECODE_AU with E_NALT_FULL: the first NALT_CAP entries are written
whole, and the last one ends at the start code that did not fit (43_scanner_framer.md R284, R286). -/
def Obligations.TableFull : Prop :=
  ∀ (s : State) (us : List NalUnit), s.latch.auLen.toNat ≤ s.params.auCap →
    us = nalUnits (s.mem.au.slice 0 s.latch.auLen.toNat) → s.params.naltCap < us.length →
    ∀ i ∈ [Instr.scanAu, .decodeAu], ∃ t u, exec i s = .next t ∧
      FailsIdle u t { code := .eNaltFull, value := word s.params.naltCap } 0xFFFFFFFF#32 ∧
      u = { s with
        nalCount := word s.params.naltCap, mem := { s.mem with nalt := u.mem.nalt }, free := u.free,
        spsValid := if i = .decodeAu then false else s.spsValid } ∧
      ∀ k (h : k < us.length), k < s.params.naltCap →
        t.mem.naltWord k 0 = word us[k].start ∧ t.mem.naltWord k 1 = word us[k].stop ∧
        t.mem.naltWord k 2 = 0x42000000#32 ||| word us[k].scLen ∧ t.mem.naltWord k 3 = 0#32

/-- AU_LEN above AU_CAP ends the four commands that read the access unit with E_AU_TOO_LONG, and changes nothing else
(43_scanner_framer.md R281). -/
def Obligations.AuTooLong : Prop :=
  ∀ s : State, s.params.auCap < s.latch.auLen.toNat →
    ∀ i ∈ [Instr.scanAu, .peekAuType, .decodeAu, .convertRange false, .convertRange true], ∃ t, exec i s = .next t ∧
      FailsIdle s t { code := .eAuTooLong, value := s.latch.auLen } 0xFFFFFFFF#32

/-- PEEK_AU_TYPE returns the type field of the first unit, or 0xFFFFFFFF without a first unit of two bytes, and writes
nothing else (43_scanner_framer.md R290). -/
def Obligations.PeekTypeCommand : Prop :=
  ∀ (s : State) (us : List NalUnit), s.latch.auLen.toNat ≤ s.params.auCap →
    us = nalUnits (s.mem.au.slice 0 s.latch.auLen.toNat) →
    (us = [] → ∃ t, exec .peekAuType s = .next t ∧ Completes s t 0xFFFFFFFF#32) ∧
    (∀ u rest, us = u :: rest → u.stop < u.start + 2 →
      ∃ t, exec .peekAuType s = .next t ∧ Completes s t 0xFFFFFFFF#32) ∧
    (∀ u rest, us = u :: rest → u.start + 2 ≤ u.stop →
      ∃ t, exec .peekAuType s = .next t ∧ Completes s t (((s.mem.au.read (u.start + 1)) >>> 3).setWidth 32))

/-- Start-code splitting: when the access unit is the join of payloads that hold no start-code-like pattern and do not end
in 0, with start codes of either length, SCAN_AU finds exactly those payloads: NAL_COUNT is their number and entry k has
START the offset of the payload, END the offset after it and SC_LEN the length of its code (43_scanner_framer.md R289). -/
def Obligations.StartCodeSplitting : Prop :=
  ∀ (s : State) (ps : List (Bool × List Byte)), (∀ p ∈ ps, cleanPayload p.2) → ps.length ≤ s.params.naltCap →
    s.latch.auLen.toNat ≤ s.params.auCap → s.mem.au.slice 0 s.latch.auLen.toNat = joinUnits ps →
    ∃ t, exec .scanAu s = .next t ∧ t.nalCount = word ps.length ∧ (unitsFrom 0 ps).length = ps.length ∧
      ∀ k (h : k < (unitsFrom 0 ps).length),
        t.mem.naltWord k 0 = word (unitsFrom 0 ps)[k].start ∧ t.mem.naltWord k 1 = word (unitsFrom 0 ps)[k].stop ∧
        (t.mem.naltWord k 2).extractLsb' 0 4 = BitVec.ofNat 4 (unitsFrom 0 ps)[k].scLen

/-- The units found in any bytes. They are in order, within the bytes, each preceded by its start code, and each but the last
followed at once by the next one's start code. Every `00 00 01` of the bytes starts one of them, with a start code of length
4 exactly when a zero byte comes before it. Only zero bytes follow the last unit, which does not end in one unless it is
empty (43_scanner_framer.md R283, R284, R287, R288). -/
def Obligations.TableOrder : Prop :=
  ∀ bytes : List Byte,
    (∀ u ∈ nalUnits bytes, u.start ≤ u.stop ∧ u.stop ≤ bytes.length ∧ (u.scLen = 3 ∨ u.scLen = 4) ∧
      u.scLen ≤ u.start ∧ (bytes.drop (u.start - u.scLen)).take u.scLen = startCode (u.scLen = 4)) ∧
    (∀ k (h : k + 1 < (nalUnits bytes).length),
      (nalUnits bytes)[k].stop + (nalUnits bytes)[k + 1].scLen = (nalUnits bytes)[k + 1].start) ∧
    (∀ p, (bytes.drop p).take 3 = startCode false → ∃ u ∈ nalUnits bytes, u.start = p + 3) ∧
    (∀ u ∈ nalUnits bytes, u.scLen = 4 ↔ 4 ≤ u.start ∧ bytes[u.start - 4]? = some 0#8) ∧
    (∀ u, (nalUnits bytes).getLast? = some u →
      (∀ b ∈ bytes.drop u.stop, b = 0#8) ∧ (u.start < u.stop → bytes[u.stop - 1]? ≠ some 0#8))

/-! ### The framer and the header -/

/-- LOAD_NAL converts the bytes of the unit ARG0 with the VCL flag of its second raw byte; CUR_NAL is the unit, RESULT and
RBSP_LEN the converted length; the table is not written. E_NAL_INDEX beyond the table changes nothing else;
E_NAL_TOO_SHORT leaves RBSP empty and NUH 0; a failed conversion leaves RBSP empty and NUH the VCL flag
(43_scanner_framer.md R292-R294, 42_rbsp_converter.md R257). -/
def Obligations.LoadNalCommand : Prop :=
  (∀ (s : State) (k n0 n1 : Nat) (vcl : Bool),
      k = s.latch.arg0.toNat → k < s.nalCount.toNat →
      n0 = (s.mem.naltWord k 0).toNat → n1 = (s.mem.naltWord k 1).toNat → n0 + 2 ≤ n1 →
      vcl = decide ((s.mem.au.read (n0 + 1)).toNat / 8 ≤ 11) →
      (∀ out, convert (s.mem.au.slice n0 (n1 - n0)) vcl = .ok out →
        ∃ t, exec .loadNal s = .next t ∧
          t = { s with
            curNal := s.latch.arg0, result := word out.length, block := .idle, done := true,
            irqPend := s.irqPend ||| 0b001#3, engine := .off,
            reader := ⟨word out.length, 0#32, 0#32, 0#32, 0#64⟩, nuh := { Nuh.zero with vcl := BitVec.ofBool vcl },
            mem := { s.mem with rbsp := t.mem.rbsp }, free := t.free } ∧
          ∀ i (h : i < out.length), t.mem.rbsp.read i = out[i]) ∧
      (∀ r, convert (s.mem.au.slice n0 (n1 - n0)) vcl = .error r →
        r.code ∈ [Code.eEpbSmall, .eEpbLarge, .eTrailingZero] ∧
        ∃ t u, exec .loadNal s = .next t ∧ FailsIdle u t r 0xFFFFFFFF#32 ∧
          u = { s with
            curNal := s.latch.arg0, reader := ⟨0#32, 0#32, 0#32, 0#32, 0#64⟩,
            nuh := { Nuh.zero with vcl := BitVec.ofBool vcl }, mem := { s.mem with rbsp := u.mem.rbsp },
            free := u.free })) ∧
  (∀ (s : State) (k : Nat), k = s.latch.arg0.toNat →
      (s.nalCount.toNat ≤ k → ∃ t, exec .loadNal s = .next t ∧
        FailsIdle s t { code := .eNalIndex, value := s.latch.arg0 } 0xFFFFFFFF#32) ∧
      (k < s.nalCount.toNat → (s.mem.naltWord k 1).toNat < (s.mem.naltWord k 0).toNat + 2 →
        ∃ t u, exec .loadNal s = .next t ∧
          FailsIdle u t { code := .eNalTooShort, value := s.mem.naltWord k 1 - s.mem.naltWord k 0 } 0xFFFFFFFF#32 ∧
          u = { s with
            curNal := s.latch.arg0, reader := ⟨0#32, 0#32, 0#32, 0#32, 0#64⟩, nuh := Nuh.zero,
            mem := { s.mem with rbsp := u.mem.rbsp }, free := u.free }))

/-- DECODE_AU scans the access unit and processes its units in order up to the end or to the first SPS parse: the table
holds the units scanned, and the loop ends as `LoopEnds` says, each unit as its report says, from a state with the new table
and DEC_NEXT 0 (43_scanner_framer.md R284, R295-R299, R303, R304). -/
def Obligations.DecodeAuCommand : Prop :=
  ∀ (s : State) (us : List NalUnit), s.latch.auLen.toNat ≤ s.params.auCap →
    us = nalUnits (s.mem.au.slice 0 s.latch.auLen.toNat) → us.length ≤ s.params.naltCap →
    ∃ t u, exec .decodeAu s = .next t ∧ LoopEnds u t ∧
      u = { s with
        spsValid := false, nalCount := word us.length, decNext := 0#32, mem := { s.mem with nalt := u.mem.nalt },
        free := u.free, warn := if us = [] then s.warn ||| 0b001000#6 else s.warn } ∧
      ∀ k (h : k < us.length), u.unitStart k = word us[k].start ∧ u.unitEnd k = word us[k].stop ∧
        u.mem.naltWord k 2 = 0x42000000#32 ||| word us[k].scLen ∧ u.mem.naltWord k 3 = 0#32

/-- CONTINUE resumes at DEC_NEXT: it ends as `LoopEnds` says, each unit as its report says, and with no unit left it completes
at once with RESULT NAL_COUNT (43_scanner_framer.md R296-R301). -/
def Obligations.ContinueCommand : Prop :=
  ∀ s : State, s.mem.nalt.wf = true →
    (∃ t, exec .continueAu s = .next t ∧ LoopEnds s t) ∧
    (s.nalCount.toNat ≤ s.decNext.toNat → ∃ t, exec .continueAu s = .next t ∧ Completes s t s.nalCount)

/-- ABORT gives every unit from DEC_NEXT on the disposition O_ABORTED and INFO 0, moves DEC_NEXT to NAL_COUNT and completes
to IDLE with RESULT unchanged; the other units keep theirs (43_scanner_framer.md R302). -/
def Obligations.AbortCommand : Prop :=
  ∀ s : State, s.mem.nalt.wf = true →
    ∃ t, exec .abortAu s = .next t ∧
      t = { s with
        decNext := s.nalCount, block := .idle, done := true, irqPend := s.irqPend ||| 0b001#3, engine := .off,
        mem := { s.mem with nalt := t.mem.nalt } } ∧
      (∀ k, s.decNext.toNat ≤ k → k < s.nalCount.toNat →
        t.disposition k = 0x43#8 ∧ t.mem.naltWord k 3 = 0#32 ∧
        (t.mem.naltWord k 2).extractLsb' 0 24 = (s.mem.naltWord k 2).extractLsb' 0 24 ∧
        t.unitStart k = s.unitStart k ∧ t.unitEnd k = s.unitEnd k) ∧
      (∀ k i, i < 4 → k < s.decNext.toNat ∨ s.nalCount.toNat ≤ k → t.mem.naltWord k i = s.mem.naltWord k i)

/-- PARSE_NAL_HEADER reads the 16 header bits in field order into NUH, keeps the VCL flag and sets the two warnings. With
no outcome RESULT is NUH; a layer id above 55 is recorded as S_LAYER_ID without ERR, RESULT is NUH all the same; the other
outcomes leave RESULT. With fewer than 16 bits left it is E_BR_UNDERFLOW, with NUH and the reader unchanged
(44_nal_header.md R330-R339). -/
def Obligations.HeaderCommand : Prop :=
  (∀ s : State, s.streamLen - s.bitPos < 16 → ∃ t, exec .parseNalHeader s = .next t ∧
    FailsIdle s t { code := .eBrUnderflow, value := 16#32, max := word (s.streamLen - s.bitPos) } 0xFFFFFFFF#32) ∧
  ∀ (s : State) (h : Nuh), s.readerBounds → 16 ≤ s.streamLen - s.bitPos → h = headerAt s s.nuh.vcl →
    ∃ t u, exec .parseNalHeader s = .next t ∧
      u = { s with nuh := h, warn := headerWarn s.warn h, reader := u.reader, free := u.free } ∧
      u.reader.rbspLen = s.reader.rbspLen ∧ u.bitPos = s.bitPos + 16 ∧
      match headerOutcome h with
      | none => Completes u t h.pack
      | some .sLayerId => t = { u with
          result := h.pack, error := ⟨.sLayerId, 0xFFFFFFFF#32, h.layerId.setWidth 32, 0#32, 0#32, 0#32⟩,
          block := .idle, done := true, irqPend := s.irqPend ||| 0b001#3, engine := .off }
      | some c => FailsIdle u t { code := c, value := h.pack } 0xFFFFFFFF#32

/-! ### The SPS engine -/

/-- PARSE_SPS begins a parse: V, REC and REC_WR read 0, SPS_VALID and STEP_COUNT are cleared, SEQ_PC is SPS_ENTRY; the
reader and the other memories stay (46_sps_engine.md R401). -/
def Obligations.ParseSpsCommand : Prop :=
  ∀ s : State, ∃ t, exec .parseSps s = .next t ∧
    t = { s with
      v := t.v, spsValid := false, stepCount := 0#32, seqPc := s.latch.spsEntry, engine := .parseSps,
      mem := { s.mem with record := t.mem.record, recordWr := t.mem.recordWr } } ∧
    (∀ i, t.getV i = 0#32) ∧ (∀ a, t.mem.record.read a = 0#32) ∧ (∀ a, t.mem.recordWr.read a = 0#1)

/-- RDF, RDU and RDUV write the next bits of the stream to V[D] and consume exactly them; RDUE and RDSE write the number of
the Exp-Golomb code at BR_BITPOS and consume it (46_sps_engine.md R410-R414). -/
def Obligations.ReadUops : Prop :=
  (∀ (s : State) (d a : BitVec 8) (imm : Word), s.readerBounds → s.nextFits →
      (1 ≤ s.bitsLeft → ∃ t, exec (.rdf d) s = .next t ∧ ReadsV s t d 1 (word (stream s.mem.rbsp s.bitPos 1))) ∧
      (imm.toNat ≤ 32 → imm.toNat ≤ s.bitsLeft →
        ∃ t, exec (.rdu d imm) s = .next t ∧ ReadsV s t d imm.toNat (word (stream s.mem.rbsp s.bitPos imm.toNat))) ∧
      (∀ n, n = (s.getV a).toNat → n ≤ 32 → n ≤ s.bitsLeft →
        ∃ t, exec (.rduv d a) s = .next t ∧ ReadsV s t d n (word (stream s.mem.rbsp s.bitPos n)))) ∧
  (∀ (s : State) (d : BitVec 8) (l : Nat), s.readerBounds → s.nextFits → CodeAt s l →
      (∃ t, exec (.rdue d) s = .next t ∧ ReadsV s t d (2 * l + 1) (word (codeNumber s l))) ∧
      (∃ t, exec (.rdse d) s = .next t ∧
        ReadsV s t d (2 * l + 1) (BitVec.ofInt 32 (signedNumber (codeNumber s l)))))

/-- RDUR, RDUVR, RDUER and RDSER write a value inside the inclusive bounds V[A] and V[B] to V[D] and consume the element;
the comparison is unsigned, for RDSER signed (46_sps_engine.md R415-R418). -/
def Obligations.CheckedReadUops : Prop :=
  ∀ (s : State) (d a b w : BitVec 8) (imm : Word), s.readerBounds → s.nextFits →
    (∀ n x, n ≤ 32 → n ≤ s.bitsLeft → x = stream s.mem.rbsp s.bitPos n →
      (s.getV a).toNat ≤ x → x ≤ (s.getV b).toNat →
      (n = imm.toNat → ∃ t, exec (.rdur d a b imm) s = .next t ∧ ReadsV s t d n (word x)) ∧
      (n = (s.getV w).toNat → ∃ t, exec (.rduvr d a b w) s = .next t ∧ ReadsV s t d n (word x))) ∧
    (∀ l, CodeAt s l →
      ((s.getV a).toNat ≤ codeNumber s l → codeNumber s l ≤ (s.getV b).toNat →
        ∃ t, exec (.rduer d a b) s = .next t ∧ ReadsV s t d (2 * l + 1) (word (codeNumber s l))) ∧
      ((s.getV a).toInt ≤ signedNumber (codeNumber s l) → signedNumber (codeNumber s l) ≤ (s.getV b).toInt →
        ∃ t, exec (.rdser d a b) s = .next t ∧
          ReadsV s t d (2 * l + 1) (BitVec.ofInt 32 (signedNumber (codeNumber s l)))))

/-- The outcomes of the µops that read end the parse in progress and write no variable; ERR_PC is the µop's index. A width
above 32 is F_BR_WIDTH, too few bits E_BR_UNDERFLOW; 32 zeros of an Exp-Golomb code E_EG_OVERFLOW, a missing 1 or a short
suffix E_BR_UNDERFLOW: none consumes anything. A failed range check is E_RANGE with the element consumed. TRAIL has the
outcomes of RBSP_TRAILING_BITS with the bits up to the failure consumed (46_sps_engine.md R404, R410-R418, R466;
45_vlc.md R362, R364, R366, R367, R381-R383). -/
def Obligations.ReadUopOutcomes : Prop :=
  (∀ (s : State) (d a b w : BitVec 8) (imm : Word), s.parsing →
    ∀ r ∈ [(Instr.rdf d, 1#32), (.rdu d imm, imm), (.rduv d w, s.getV w), (.rdur d a b imm, imm),
        (.rduvr d a b w, s.getV w)],
      (32 < r.2.toNat → ∃ t, exec r.1 s = .next t ∧ ParseEnds s t { code := .fBrWidth, value := r.2 }) ∧
      (r.2.toNat ≤ 32 → s.bitsLeft < r.2.toNat → ∃ t, exec r.1 s = .next t ∧
        ParseEnds s t { code := .eBrUnderflow, value := r.2, max := word s.bitsLeft })) ∧
  (∀ (s : State) (d a b : BitVec 8), s.parsing → ∀ i ∈ [Instr.rdue d, .rdse d, .rduer d a b, .rdser d a b],
      (32 ≤ s.bitsLeft → (∀ j < 32, streamBit s.mem.rbsp (s.bitPos + j) = false) →
        ∃ t, exec i s = .next t ∧ ParseEnds s t { code := .eEgOverflow, value := 32#32 }) ∧
      (s.bitsLeft < 32 → (∀ j < s.bitsLeft, streamBit s.mem.rbsp (s.bitPos + j) = false) →
        ∃ t, exec i s = .next t ∧
          ParseEnds s t { code := .eBrUnderflow, value := word (s.bitsLeft + 1), max := word s.bitsLeft }) ∧
      (∀ l, l < 32 → l < s.bitsLeft → s.bitsLeft < 2 * l + 1 →
        (∀ j < l, streamBit s.mem.rbsp (s.bitPos + j) = false) → streamBit s.mem.rbsp (s.bitPos + l) = true →
        ∃ t, exec i s = .next t ∧
          ParseEnds s t { code := .eBrUnderflow, value := word (2 * l + 1), max := word s.bitsLeft })) ∧
  (∀ (s : State) (d a b w : BitVec 8) (imm : Word), s.readerBounds → s.parsing →
    (∀ n x, n ≤ 32 → n ≤ s.bitsLeft → x = stream s.mem.rbsp s.bitPos n →
      ¬ ((s.getV a).toNat ≤ x ∧ x ≤ (s.getV b).toNat) →
      ∀ i, (i = Instr.rdur d a b imm ∧ n = imm.toNat) ∨ (i = .rduvr d a b w ∧ n = (s.getV w).toNat) →
      ∃ t u, exec i s = .next t ∧ Consumed s u n ∧
        ParseEnds u t { code := .eRange, value := word x, min := s.getV a, max := s.getV b }) ∧
    (∀ l x, CodeAt s l → x = codeNumber s l → ¬ ((s.getV a).toNat ≤ x ∧ x ≤ (s.getV b).toNat) →
      ∃ t u, exec (.rduer d a b) s = .next t ∧ Consumed s u (2 * l + 1) ∧
        ParseEnds u t { code := .eRange, value := word x, min := s.getV a, max := s.getV b }) ∧
    (∀ l x, CodeAt s l → x = signedNumber (codeNumber s l) →
      ¬ ((s.getV a).toInt ≤ x ∧ x ≤ (s.getV b).toInt) →
      ∃ t u, exec (.rdser d a b) s = .next t ∧ Consumed s u (2 * l + 1) ∧
        ParseEnds u t { code := .eRange, value := BitVec.ofInt 32 x, min := s.getV a, max := s.getV b })) ∧
  (∀ s : State, s.readerBounds → s.parsing →
    (s.bitPos = s.streamLen → ∃ t, exec .trail s = .next t ∧ ParseEnds s t { code := .eBrUnderflow, value := 1#32 }) ∧
    (s.bitPos < s.streamLen → streamBit s.mem.rbsp s.bitPos = false →
      ∃ t u, exec .trail s = .next t ∧ Consumed s u 1 ∧ ParseEnds u t { code := .eTrailStop, min := word s.bitPos }) ∧
    (∀ j, s.bitPos < s.streamLen → 1 ≤ j → j < 8 - s.bitPos % 8 → streamBit s.mem.rbsp s.bitPos = true →
      (∀ i, 1 ≤ i → i < j → streamBit s.mem.rbsp (s.bitPos + i) = false) →
      streamBit s.mem.rbsp (s.bitPos + j) = true →
      ∃ t u, exec .trail s = .next t ∧ Consumed s u (j + 1) ∧
        ParseEnds u t { code := .eTrailAlign, value := 1#32, min := word (s.bitPos + j) }))

/-- LDI and MOV copy; ADD, SUB, ADDI and MUL reduce the exact result to 32 bits (46_sps_engine.md R420-R425). -/
def Obligations.ArithmeticUops : Prop :=
  (∀ (s : State) (d a b : BitVec 8) (imm : Word),
      decodeUop (uopWord 0x10#8 d a b imm) = .ok (.ldi d imm) ∧
      decodeUop (uopWord 0x14#8 d a b imm) = .ok (.addi d a imm) ∧
      (∃ t, exec (.ldi d imm) s = .next t ∧ setsV s t d imm) ∧
      (∃ t, exec (.addi d a imm) s = .next t ∧ setsV s t d (word ((s.getV a).toNat + imm.toNat))) ∧
      (s.nextFits →
        (∃ t, exec (.ldi d imm) s = .next t ∧ WritesV s t d imm) ∧
        (∃ t, exec (.addi d a imm) s = .next t ∧ WritesV s t d (word ((s.getV a).toNat + imm.toNat))))) ∧
  (unaryUop 0x11#8 .mov (fun x => x) ∧
    binaryUop 0x12#8 .add (fun x y => word (x.toNat + y.toNat)) ∧
    binaryUop 0x13#8 .sub (fun x y => BitVec.ofInt 32 ((x.toNat : Int) - y.toNat)) ∧
    binaryUop 0x15#8 .mul (fun x y => word (x.toNat * y.toNat)))

/-- DIVU, REMU and CDIVU give the floor, the remainder and the ceiling; a divisor 0 is F_UOP_DIV0 with the dividend
(46_sps_engine.md R426-R428). -/
def Obligations.DivisionUops : Prop :=
  divideUop 0x16#8 .divu (fun x y => x / y) ∧
  divideUop 0x17#8 .remu (fun x y => x % y) ∧
  divideUop 0x18#8 .cdivu (fun x y => (x + (y - 1)) / y)

/-- The shifts give 0 from an amount of 32 on; AND, OR and XOR are bitwise; MAXU and MINU compare unsigned; CLOG2 is the
least exponent (46_sps_engine.md R429-R436). -/
def Obligations.LogicUops : Prop :=
  binaryUop 0x19#8 .shl (fun x y => if 32 ≤ y.toNat then 0#32 else word (x.toNat * 2 ^ y.toNat)) ∧
  binaryUop 0x1A#8 .shr (fun x y => if 32 ≤ y.toNat then 0#32 else word (x.toNat / 2 ^ y.toNat)) ∧
  binaryUop 0x1B#8 .and (fun x y => x &&& y) ∧
  binaryUop 0x1C#8 .or (fun x y => x ||| y) ∧
  binaryUop 0x1D#8 .xor (fun x y => x ^^^ y) ∧
  binaryUop 0x1E#8 .maxu (fun x y => word (max x.toNat y.toNat)) ∧
  binaryUop 0x1F#8 .minu (fun x y => word (min x.toNat y.toNat)) ∧
  unaryUop 0x20#8 .clog2 (fun x => word (Nat.clog 2 x.toNat))

/-- The comparisons and LNOT, which compares with 0, write 1 or 0; SETLT and SETLE compare signed, SETLTU and SETLEU
unsigned (46_sps_engine.md R437-R443). -/
def Obligations.CompareUops : Prop :=
  binaryUop 0x21#8 .seteq (fun x y => bit (x = y)) ∧
  binaryUop 0x22#8 .setne (fun x y => bit (x ≠ y)) ∧
  binaryUop 0x23#8 .setltu (fun x y => bit (x.toNat < y.toNat)) ∧
  binaryUop 0x24#8 .setleu (fun x y => bit (x.toNat ≤ y.toNat)) ∧
  binaryUop 0x25#8 .setlt (fun x y => bit (x.toInt < y.toInt)) ∧
  binaryUop 0x26#8 .setle (fun x y => bit (x.toInt ≤ y.toInt)) ∧
  unaryUop 0x27#8 .lnot (fun x => bit (x = 0#32))

/-- BZ, BNZ and JMP move SEQ_PC forward by 1 + IMM when taken and by 1 otherwise, and change nothing else; LOOP increments
its counter and goes back by IMM while the new count is below the bound as read before the write (46_sps_engine.md
R445-R448). -/
def Obligations.BranchUops : Prop :=
  ∀ (s : State) (a b : BitVec 8) (imm : Word) (n : Nat), n < s.params.ustoreCap →
    (n = (if s.getV a = 0#32 then s.seqPc.toNat + 1 + imm.toNat else s.seqPc.toNat + 1) →
      exec (.bz a imm) s = .next { s with seqPc := word n }) ∧
    (n = (if s.getV a ≠ 0#32 then s.seqPc.toNat + 1 + imm.toNat else s.seqPc.toNat + 1) →
      exec (.bnz a imm) s = .next { s with seqPc := word n }) ∧
    (n = s.seqPc.toNat + 1 + imm.toNat → exec (.jmp imm) s = .next { s with seqPc := word n }) ∧
    ((n : Int) = (if (s.getV a + 1#32).toNat < (s.getV b).toNat then (s.seqPc.toNat : Int) - imm.toNat
        else s.seqPc.toNat + 1) →
      ∃ t, exec (.loop a b imm) s = .next t ∧ t = { s with v := t.v, seqPc := word n } ∧
        ∀ i, t.getV i = if i = a ∧ i ≠ 0#8 then s.getV a + 1#32 else s.getV i)

/-- A next_pc outside USTORE ends the parse in progress with F_UOP_PC at the µop's index, with trunc_32 of the exact next_pc;
the µop's own effects are kept: the count of LOOP, back or falling through, and for every µop without a branch or an end of
its own all that it does where the next µop exists (46_sps_engine.md R403, R404). -/
def Obligations.NextPcOutOfRange : Prop :=
  (∀ (s : State) (a : BitVec 8) (imm : Word) (n : Nat), s.parsing → s.params.ustoreCap ≤ n →
    ∀ i, (i = Instr.jmp imm ∧ n = s.seqPc.toNat + 1 + imm.toNat) ∨
        (i = .bz a imm ∧ n = if s.getV a = 0#32 then s.seqPc.toNat + 1 + imm.toNat else s.seqPc.toNat + 1) ∨
        (i = .bnz a imm ∧ n = if s.getV a ≠ 0#32 then s.seqPc.toNat + 1 + imm.toNat else s.seqPc.toNat + 1) →
    ∃ t, exec i s = .next t ∧ ParseEnds s t { code := .fUopPc, value := word n }) ∧
  (∀ (s : State) (a b : BitVec 8) (imm : Word) (n : Int), s.parsing →
    n = (if (s.getV a + 1#32).toNat < (s.getV b).toNat then (s.seqPc.toNat : Int) - imm.toNat
      else s.seqPc.toNat + 1) →
    n < 0 ∨ (s.params.ustoreCap : Int) ≤ n →
    ∃ t u, exec (.loop a b imm) s = .next t ∧ u = { s with v := u.v } ∧
      (∀ i, u.getV i = if i = a ∧ i ≠ 0#8 then s.getV a + 1#32 else s.getV i) ∧
      ParseEnds u t { code := .fUopPc, value := BitVec.ofInt 32 n }) ∧
  (∀ (s : State) (d a : BitVec 8), s.parsing → s.params.ustoreCap ≤ s.seqPc.toNat + 1 →
    ∃ t u, exec (.mov d a) s = .next t ∧ u = { s with v := u.v } ∧
      (∀ i, u.getV i = if i = d ∧ i ≠ 0#8 then s.getV a else s.getV i) ∧
      ParseEnds u t { code := .fUopPc, value := s.seqPc + 1#32 }) ∧
  (∀ (s w : State) (i : Instr), s.parsing → s.params.ustoreCap ≤ s.seqPc.toNat + 1 → sequential i →
    exec i (roomy s) = .next w → w.engine = .parseSps →
    ∃ t, exec i s = .next t ∧ ParseEnds { w with params := s.params, engine := s.engine, seqPc := s.seqPc } t
      { code := .fUopPc, value := s.seqPc + 1#32 })

/-- STR writes REC[IMM + V[B]] and its REC_WR bit and no other word or bit; LDR reads the word back into V[D]. An address at
or above REC_CAP, the sum taken without bound, ends the parse in progress with F_REC_RANGE and writes nothing
(46_sps_engine.md R404, R450, R451). -/
def Obligations.RecordUops : Prop :=
  (∀ (s : State) (a b d : BitVec 8) (imm : Word) (addr : Nat), addr = imm.toNat + (s.getV b).toNat →
      addr < s.params.recCap → s.nextFits →
      (s.mem.record.wf = true → s.mem.recordWr.wf = true →
        ∃ t, exec (.str a b imm) s = .next t ∧
          t = { s with
            seqPc := s.seqPc + 1#32, mem := { s.mem with record := t.mem.record, recordWr := t.mem.recordWr } } ∧
          (∀ j, t.mem.record.read j = if j = addr then s.getV a else s.mem.record.read j) ∧
          (∀ j, t.mem.recordWr.read j = if j = addr then 1#1 else s.mem.recordWr.read j)) ∧
      (∃ t, exec (.ldr d b imm) s = .next t ∧ WritesV s t d (s.mem.record.read addr))) ∧
  (∀ (s : State) (a b d : BitVec 8) (imm : Word), s.parsing →
      s.params.recCap ≤ imm.toNat + (s.getV b).toNat →
      ∀ i ∈ [Instr.str a b imm, .ldr d b imm], ∃ t, exec i s = .next t ∧
        ParseEnds s t { code := .fRecRange, value := word (imm.toNat + (s.getV b).toNat) })

/-- CHK goes on when V[A] is not 0 and otherwise ends the parse in progress with E_SPS_CHECK and its tag; CHKW always goes on and
when V[A] is 0 sets W_SPS_CHECK and WARN_TAG (46_sps_engine.md R460, R461). -/
def Obligations.CheckUops : Prop :=
  ∀ (s : State) (a : BitVec 8) (imm : Word),
    (s.nextFits → s.getV a ≠ 0#32 → ∀ i ∈ [Instr.chk a imm, .chkw a imm],
      exec i s = .next { s with seqPc := s.seqPc + 1#32 }) ∧
    (s.parsing → s.getV a = 0#32 → ∃ t, exec (.chk a imm) s = .next t ∧
      ParseEnds s t { code := .eSpsCheck, tag := imm }) ∧
    (s.nextFits → s.getV a = 0#32 → exec (.chkw a imm) s =
      .next { s with seqPc := s.seqPc + 1#32, warn := s.warn ||| 0b000100#6, warnTag := imm })

/-- MRD, BTA and BLEFT write what the reader queries return and consume nothing; TRAIL consumes the stop bit and the zeros up
to the byte boundary and writes no variable (46_sps_engine.md R465-R468, 45_vlc.md R381). -/
def Obligations.QueryUops : Prop :=
  (∀ (s : State) (d : BitVec 8), s.nextFits →
      (MoreData s → ∃ t, exec (.mrd d) s = .next t ∧ WritesV s t d 1#32) ∧
      (¬ MoreData s → ∃ t, exec (.mrd d) s = .next t ∧ WritesV s t d 0#32) ∧
      (∃ t, exec (.bta d) s = .next t ∧ WritesV s t d (word ((8 - s.bitPos % 8) % 8))) ∧
      (∃ t, exec (.bleft d) s = .next t ∧ WritesV s t d (word (s.streamLen - s.bitPos)))) ∧
  (∀ (s : State) (m : Nat), s.readerBounds → s.nextFits → TrailAt s m →
      ∃ t u, exec .trail s = .next t ∧ Consumed s u m ∧ t = { u with seqPc := s.seqPc + 1#32 })

/-- END completes a PARSE_SPS: SPS_VALID is set, RESULT is STEP_COUNT, SEQ_PC stays. Inside DECODE_AU it pauses the block
after the unit CUR_NAL: O_SPS_OK and INFO 0, RESULT its index, the PAUSE event; every other word of the table and every
other memory stays (46_sps_engine.md R401, R470; 43_scanner_framer.md R296, R300). -/
def Obligations.EndUop : Prop :=
  (∀ s : State, s.engine = .parseSps →
      ∃ t, exec .endSps s = .next t ∧ Completes { s with spsValid := true } t s.stepCount) ∧
  (∀ (s : State) (c : Nat), s.engine = .decodeUnit → s.mem.nalt.wf = true → c = s.curNal.toNat →
      ∃ t, exec .endSps s = .next t ∧
        t = { s with
          spsValid := true, result := s.curNal, block := .paused, done := true, irqPend := s.irqPend ||| 0b010#3,
          engine := .off, mem := { s.mem with nalt := t.mem.nalt } } ∧
        t.mem.naltWord c 2 = 0x40#8 ++ (s.mem.naltWord c 2).extractLsb' 0 24 ∧ t.mem.naltWord c 3 = 0#32 ∧
        ∀ k i, i < 4 → k ≠ c ∨ i < 2 → t.mem.naltWord k i = s.mem.naltWord k i)

/-- An outcome of an SPS parse inside DECODE_AU. A fatal one, a DIVU by 0, gives the unit CUR_NAL its code with the µop's
index, every later unit O_ABORTED, and halts the block. One of class R, a failed CHK, gives the unit its code with the µop's
index, sets ERR, writes the error record, and the loop goes on at DEC_NEXT as `LoopEnds` says (43_scanner_framer.md
R296-R299, 60_exceptions.md R604). -/
def Obligations.UnitOutcomes : Prop :=
  (∀ (s : State) (d a b : BitVec 8) (c : Nat), s.engine = .decodeUnit → s.mem.nalt.wf = true → s.CursorInv →
    c = s.curNal.toNat → s.getV b = 0#32 →
    ∃ t, exec (.divu d a b) s = .next t ∧
      t = { s with
        error := ⟨.fUopDiv0, s.seqPc, s.getV a, 0#32, 0#32, 0#32⟩, block := .halted, done := true,
        irqPend := s.irqPend ||| 0b100#3, engine := .off, mem := { s.mem with nalt := t.mem.nalt } } ∧
      t.disposition c = 0x33#8 ∧ t.mem.naltWord c 3 = s.seqPc ∧
      (∀ k, c < k → k < s.nalCount.toNat → t.disposition k = 0x43#8) ∧
      ∀ k, k < c → t.mem.naltWord k 2 = s.mem.naltWord k 2 ∧ t.mem.naltWord k 3 = s.mem.naltWord k 3) ∧
  (∀ (s : State) (a : BitVec 8) (imm : Word) (c : Nat), s.engine = .decodeUnit → s.mem.nalt.wf = true →
    c = s.curNal.toNat → s.getV a = 0#32 →
    ∃ t u, exec (.chk a imm) s = .next t ∧ LoopEnds u t ∧
      u = { s with
        error := ⟨.eSpsCheck, s.seqPc, 0#32, 0#32, 0#32, imm⟩, errFlag := true, engine := .off,
        mem := { s.mem with nalt := u.mem.nalt } } ∧
      u.mem.naltWord c 2 = 0x1D#8 ++ (s.mem.naltWord c 2).extractLsb' 0 24 ∧ u.mem.naltWord c 3 = s.seqPc ∧
      ∀ k i, i < 4 → k ≠ c ∨ i < 2 → u.mem.naltWord k i = s.mem.naltWord k i)

/-! ### Rules over the whole machine -/

/-- No step changes the parameters, which the CAP registers read (00_scope.md R12, 10_state.md R51). -/
def Obligations.ParametersFixed : Prop :=
  ∀ s t : State, step s = .next t → t.params = s.params

/-- The block itself never writes AU, USTORE, the timing registers, the operand registers or IRQ_EN: no instruction but
RESET changes one of them, and RESET keeps AU and USTORE (10_state.md R36, R50, R70, R74). -/
def Obligations.BlockLeavesInputs : Prop :=
  ∀ (i : Instr) (s t : State), exec i s = .next t →
    t.mem.au = s.mem.au ∧ t.mem.ustore = s.mem.ustore ∧ t.inputs = s.inputs ∧
    (i ≠ .reset → t.timing = s.timing ∧ t.ops = s.ops ∧ t.irqEn = s.irqEn ∧ t.cmd = s.cmd)

/-- No µop moves the bit reader backward while PARSE_SPS runs, and none changes the RBSP: one forward pass
(46_sps_engine.md R407). -/
def Obligations.ForwardPass : Prop :=
  ∀ s t : State, s.engine = .parseSps → s.readerBounds → step s = .next t →
    s.bitPos ≤ t.bitPos ∧ t.bitPos ≤ t.streamLen ∧ t.mem.rbsp = s.mem.rbsp ∧
    t.reader.rbspLen = s.reader.rbspLen

/-- A PARSE_SPS ends: within MAX_STEPS − STEP_COUNT + 1 steps the engine is off and the block no longer BUSY
(46_sps_engine.md R402, 70_reset_and_hazards.md R719). That a step is one µop is the model's choice (log entry 1). -/
def Obligations.ParseTerminates : Prop :=
  ∀ s : State, s.ControlInv → s.engine = .parseSps →
    ∃ n t, n ≤ s.params.maxSteps - s.stepCount.toNat + 1 ∧
      Sys2Proof.core.run n s = .next t ∧ State.engine t = .off ∧ State.block t ≠ .busy

/-- A DECODE_AU or CONTINUE ends: its SPS parse and those of the units left take at most MAX_STEPS + 1 steps each
(70_reset_and_hazards.md R719). That a step is one µop is the model's choice (log entry 1). -/
def Obligations.DecodeTerminates : Prop :=
  ∀ s : State, s.ControlInv → s.engine = .decodeUnit →
    ∃ n t, n ≤ (s.nalCount.toNat - s.decNext.toNat + 1) * (s.params.maxSteps + 1) ∧
      Sys2Proof.core.run n s = .next t ∧ State.engine t = .off ∧ State.block t ≠ .busy

/-- Every step keeps every memory in its canonical form, which is the model's own (log entry 4). -/
def Obligations.MemoryInvariant : Prop :=
  ∀ s t : State, s.MemoryInv → step s = .next t → t.MemoryInv

/-- Every step keeps the framing invariant: the table lists byte ranges of AU, the cursor of DECODE_AU lies in it, and
the reader's registers satisfy R58 within the RBSP (10_state.md R56-R58, 43_scanner_framer.md R284, R300). That the engine's
progress is a field of the state is the model's choice (log entry 1). -/
def Obligations.FramingInvariant : Prop :=
  ∀ s t : State, s.FramingInv → step s = .next t → t.FramingInv

/-- Every step keeps the control invariant: the engine runs only while BUSY, within the step budget (46_sps_engine.md
R402, 10_state.md R31). That the engine's progress is a field of the state is the model's choice (log entry 1). -/
def Obligations.ControlInvariant : Prop :=
  ∀ s t : State, s.ControlInv → step s = .next t → t.ControlInv

/-- The three invariants hold after reset. The canonical form and the engine field are the model's choices (log entries 1
and 4). -/
def Obligations.InvariantsAtReset : Prop :=
  State.reset.MemoryInv ∧ State.reset.FramingInv ∧ State.reset.ControlInv
end

