-- ==== Sys2Proof/Laws/Memory.lean ====
section
/-!
SUPPORT. The laws of the memories: a read after a write, a write elsewhere, and that every memory operation keeps the
canonical form and the capacity.
-/

namespace Sys2Proof.Machine

/-! ### Lists of elements -/

theorem lookup_insertCell_self {α : Type} (a : Nat) (x : α) (l : List (Nat × α)) :
    lookup a (insertCell a x l) = some x := by
  induction l with
  | nil => simp [insertCell, lookup]
  | cons c l ih =>
    simp only [insertCell]
    split_ifs with h1 h2
    · simp [lookup]
    · simp [lookup]
    · simp [lookup, ih, Ne.symm h2]

theorem lookup_insertCell_of_ne {α : Type} {a b : Nat} (h : b ≠ a) (x : α) (l : List (Nat × α)) :
    lookup b (insertCell a x l) = lookup b l := by
  induction l with
  | nil => simp [insertCell, lookup, Ne.symm h]
  | cons c l ih =>
    simp only [insertCell]
    split_ifs with h1 h2
    · simp [lookup, Ne.symm h]
    · subst h2; simp [lookup, Ne.symm h]
    · simp [lookup, ih]

theorem lookup_eraseCell_of_ne {α : Type} {a b : Nat} (h : b ≠ a) (l : List (Nat × α)) :
    lookup b (eraseCell a l) = lookup b l := by
  induction l with
  | nil => rfl
  | cons c l ih =>
    simp only [eraseCell]
    split_ifs with h1
    · subst h1; simp [lookup, Ne.symm h]
    · simp [lookup, ih]

theorem lookup_eq_none_of_risingFrom {α : Type} {lo a : Nat} {l : List (Nat × α)} (hl : risingFrom lo l = true)
    (h : a < lo) : lookup a l = none := by
  induction l generalizing lo with
  | nil => rfl
  | cons c l ih =>
    simp only [risingFrom, Bool.and_eq_true, decide_eq_true_eq] at hl
    rw [lookup, if_neg (by omega)]
    exact ih hl.2 (by omega)

theorem lookup_eraseCell_self {α : Type} {lo : Nat} (a : Nat) {l : List (Nat × α)} (hl : risingFrom lo l = true) :
    lookup a (eraseCell a l) = none := by
  induction l generalizing lo with
  | nil => rfl
  | cons c l ih =>
    simp only [risingFrom, Bool.and_eq_true, decide_eq_true_eq] at hl
    simp only [eraseCell]
    split_ifs with h1
    · subst h1; exact lookup_eq_none_of_risingFrom hl.2 (Nat.lt_succ_self _)
    · simpa [lookup, h1] using ih hl.2

theorem risingFrom_mono {α : Type} {lo lo' : Nat} {l : List (Nat × α)} (h : lo' ≤ lo) (hl : risingFrom lo l = true) :
    risingFrom lo' l = true := by
  cases l with
  | nil => rfl
  | cons c l =>
    simp only [risingFrom, Bool.and_eq_true, decide_eq_true_eq] at hl ⊢
    exact ⟨by omega, hl.2⟩

theorem risingFrom_insertCell {α : Type} {lo a : Nat} (x : α) {l : List (Nat × α)} (h : lo ≤ a)
    (hl : risingFrom lo l = true) : risingFrom lo (insertCell a x l) = true := by
  induction l generalizing lo with
  | nil => simpa [insertCell, risingFrom] using h
  | cons c l ih =>
    simp only [risingFrom, Bool.and_eq_true, decide_eq_true_eq] at hl
    simp only [insertCell]
    split_ifs with h1 h2
    · simp only [risingFrom, Bool.and_eq_true, decide_eq_true_eq]
      exact ⟨h, by omega, hl.2⟩
    · subst h2
      simp only [risingFrom, Bool.and_eq_true, decide_eq_true_eq]
      exact ⟨h, hl.2⟩
    · simp only [risingFrom, Bool.and_eq_true, decide_eq_true_eq]
      exact ⟨hl.1, ih (by omega) hl.2⟩

theorem risingFrom_eraseCell {α : Type} {lo : Nat} (a : Nat) {l : List (Nat × α)} (hl : risingFrom lo l = true) :
    risingFrom lo (eraseCell a l) = true := by
  induction l generalizing lo with
  | nil => rfl
  | cons c l ih =>
    simp only [risingFrom, Bool.and_eq_true, decide_eq_true_eq] at hl
    simp only [eraseCell]
    split_ifs with h1
    · exact risingFrom_mono (by omega) hl.2
    · simp only [risingFrom, Bool.and_eq_true, decide_eq_true_eq]
      exact ⟨hl.1, ih hl.2⟩

theorem mem_insertCell {α : Type} {a : Nat} {x : α} {l : List (Nat × α)} {c : Nat × α}
    (h : c ∈ insertCell a x l) : c = (a, x) ∨ c ∈ l := by
  induction l with
  | nil => simpa [insertCell] using h
  | cons d l ih =>
    simp only [insertCell] at h
    split_ifs at h with h1 h2
    · simpa using h
    · simp only [List.mem_cons] at h ⊢
      tauto
    · simp only [List.mem_cons] at h ⊢
      rcases h with h | h
      · tauto
      · rcases ih h with h | h <;> tauto

theorem mem_eraseCell {α : Type} {a : Nat} {l : List (Nat × α)} {c : Nat × α} (h : c ∈ eraseCell a l) : c ∈ l := by
  induction l with
  | nil => simp [eraseCell] at h
  | cons d l ih =>
    simp only [eraseCell] at h
    split_ifs at h with h1
    · exact List.mem_cons_of_mem _ h
    · simp only [List.mem_cons] at h ⊢
      rcases h with h | h
      · exact .inl h
      · exact .inr (ih h)

theorem lookup_enumFrom {α : Type} (l : List α) (n i : Nat) : lookup (n + i) (enumFrom n l) = l[i]? := by
  induction l generalizing n i with
  | nil => simp [enumFrom, lookup]
  | cons x l ih =>
    cases i with
    | zero => simp [enumFrom, lookup]
    | succ i => simpa [enumFrom, lookup, Nat.add_assoc, Nat.add_comm 1 i] using ih (n + 1) i

theorem risingFrom_enumFrom {α : Type} (l : List α) (n : Nat) : risingFrom n (enumFrom n l) = true := by
  induction l generalizing n with
  | nil => rfl
  | cons x l ih => simp [enumFrom, risingFrom, ih]

/-! ### One memory -/

variable {w : Nat}

/-- What a write can do: it sets one element, or removes it where the memory is cleared and the element is 0. -/
theorem Bank.write_cases (b : Bank w) (a : Nat) (x : BitVec w) :
    b.write a x = { b with cells := insertCell a x b.cells } ∨
      (b.fill = .zero ∧ x = 0#w ∧ b.write a x = { b with cells := eraseCell a b.cells }) := by
  unfold Bank.write
  cases hb : b.fill with
  | zero =>
    by_cases hx : x = 0#w
    · exact .inr ⟨rfl, hx, by simp [hx]⟩
    · exact .inl (by simp [hx])
  | unspecified t => exact .inl rfl

theorem Bank.read_write_of_ne {a c : Nat} (h : c ≠ a) (b : Bank w) (x : BitVec w) :
    (b.write a x).read c = b.read c := by
  rcases b.write_cases a x with h' | ⟨_, _, h'⟩ <;> rw [h', Bank.read, Bank.read]
  · rw [lookup_insertCell_of_ne h]
  · rw [lookup_eraseCell_of_ne h]

theorem Bank.read_write_self {b : Bank w} (hb : b.wf = true) (a : Nat) (x : BitVec w) :
    (b.write a x).read a = x := by
  rcases b.write_cases a x with h' | ⟨hf, hx, h'⟩ <;> rw [h', Bank.read]
  · rw [lookup_insertCell_self]
  · simp only [Bank.wf, Bool.and_eq_true] at hb
    rw [lookup_eraseCell_self a hb.1, hf, hx]
    rfl

theorem Bank.read_write_unspecified {b : Bank w} {t : Nat} (hb : b.fill = .unspecified t) (a : Nat) (x : BitVec w) :
    (b.write a x).read a = x := by
  rcases b.write_cases a x with h' | ⟨hf, _, _⟩
  · rw [h', Bank.read, lookup_insertCell_self]
  · rw [hb] at hf; exact absurd hf (by simp)

@[simp] theorem Bank.write_fill (b : Bank w) (a : Nat) (x : BitVec w) : (b.write a x).fill = b.fill := by
  rcases b.write_cases a x with h' | ⟨_, _, h'⟩ <;> rw [h']

theorem Bank.write_wf {b : Bank w} (hb : b.wf = true) (a : Nat) (x : BitVec w) : (b.write a x).wf = true := by
  simp only [Bank.wf, Bool.and_eq_true] at hb
  unfold Bank.write
  cases hf : b.fill with
  | zero =>
    rw [hf] at hb
    simp only [List.all_eq_true, bne_iff_ne, ne_eq] at hb
    by_cases hx : x = 0#w
    · simp only [hx, if_true, Bank.wf, Bool.and_eq_true, List.all_eq_true, bne_iff_ne, ne_eq]
      exact ⟨risingFrom_eraseCell a hb.1, fun c hc => hb.2 c (mem_eraseCell hc)⟩
    · simp only [hx, if_false, Bank.wf, Bool.and_eq_true, List.all_eq_true, bne_iff_ne, ne_eq]
      refine ⟨risingFrom_insertCell x (Nat.zero_le _) hb.1, fun c hc => ?_⟩
      rcases mem_insertCell hc with rfl | hc
      · exact hx
      · exact hb.2 c hc
  | unspecified t => simp [Bank.wf, risingFrom_insertCell x (Nat.zero_le a) hb.1]

@[simp] theorem Bank.wf_cleared : (Bank.cleared : Bank w).wf = true := rfl
@[simp] theorem Bank.wf_unspecified (t : Nat) : (Bank.unspecified t : Bank w).wf = true := rfl
@[simp] theorem Bank.read_cleared (a : Nat) : (Bank.cleared : Bank w).read a = 0#w := rfl

@[simp] theorem Bank.wf_ofList (t : Nat) (l : List (BitVec w)) : (Bank.ofList t l).wf = true := by
  simp [Bank.wf, Bank.ofList, risingFrom_enumFrom]

theorem Bank.read_ofList (t : Nat) (l : List (BitVec w)) {i : Nat} (h : i < l.length) :
    (Bank.ofList t l).read i = l[i] := by
  have := lookup_enumFrom l 0 i
  rw [Nat.zero_add] at this
  rw [Bank.read, Bank.ofList, this, List.getElem?_eq_getElem h]

@[simp] theorem Bank.length_slice (b : Bank w) (a n : Nat) : (b.slice a n).length = n := by
  induction n generalizing a with
  | zero => rfl
  | succ n ih => simp [Bank.slice, ih]

theorem Bank.slice_getElem? (b : Bank w) (a n i : Nat) (h : i < n) : (b.slice a n)[i]? = some (b.read (a + i)) := by
  induction n generalizing a i with
  | zero => omega
  | succ n ih =>
    cases i with
    | zero => simp [Bank.slice]
    | succ i =>
      have := ih (a + 1) i (by omega)
      simpa [Bank.slice, Nat.add_assoc, Nat.add_comm 1 i] using this

/-! ### All the memories -/

theorem Memory.wf_iff (m : Memory) : m.wf = true ↔ m.au.wf = true ∧ m.rbsp.wf = true ∧ m.nalt.wf = true ∧
    m.ustore.wf = true ∧ m.record.wf = true ∧ m.recordWr.wf = true := by
  simp only [Memory.wf, Bool.and_eq_true]; tauto

theorem Memory.wf_unspecified (t : Nat) : (Memory.unspecified t).wf = true := rfl

theorem Memory.wf_setNaltWord {m : Memory} (h : m.wf = true) (k i : Nat) (x : Word) :
    (m.setNaltWord k i x).wf = true := by
  rw [Memory.wf_iff] at h ⊢
  obtain ⟨h1, h2, h3, h4, h5, h6⟩ := h
  exact ⟨h1, h2, Bank.write_wf h3 _ _, h4, h5, h6⟩

theorem Memory.wf_setRecord {m : Memory} (h : m.wf = true) (i : Nat) (x : Word) : (m.setRecord i x).wf = true := by
  rw [Memory.wf_iff] at h ⊢
  obtain ⟨h1, h2, h3, h4, h5, h6⟩ := h
  exact ⟨h1, h2, h3, h4, Bank.write_wf h5 _ _, Bank.write_wf h6 _ _⟩

theorem Memory.wf_clearRecord {m : Memory} (h : m.wf = true) : m.clearRecord.wf = true := by
  rw [Memory.wf_iff] at h ⊢
  obtain ⟨h1, h2, h3, h4, _, _⟩ := h
  exact ⟨h1, h2, h3, h4, Bank.wf_cleared, Bank.wf_cleared⟩

theorem Memory.wf_setUop {m : Memory} (h : m.wf = true) (j : Nat) (x : UopWord) : (m.setUop j x).wf = true := by
  rw [Memory.wf_iff] at h ⊢
  obtain ⟨h1, h2, h3, h4, h5, h6⟩ := h
  exact ⟨h1, h2, h3, Bank.write_wf (Bank.write_wf h4 _ _) _ _, h5, h6⟩

theorem Memory.uop_setUop {m : Memory} (h : m.ustore.wf = true) (j : Nat) (x : UopWord) : (m.setUop j x).uop j = x := by
  unfold Memory.uop Memory.setUop
  rw [Bank.read_write_self (Bank.write_wf h _ _), Bank.read_write_of_ne (by omega), Bank.read_write_self h]
  ext i hi
  rw [← BitVec.getLsbD_eq_getElem, ← BitVec.getLsbD_eq_getElem, BitVec.getLsbD_append]
  split_ifs with h
  · simp [h]
  · have h1 : i - 32 < 32 := by omega
    have h2 : 32 + (i - 32) = i := by omega
    simp [h1, h2]

end Sys2Proof.Machine
end

