-- ==== Sys2Proof/Laws/Flags.lean ====
section
/-!
SUPPORT. The class of each outcome code (60_exceptions.md R601, R602), and the masks of warnings and interrupt sources as
bits (10_state.md R44, 60_exceptions.md R630).
-/

namespace Sys2Proof.Machine

/-! ### Classes -/

@[simp] theorem Code.cls_ok : Code.cls .ok = .ok := by decide
@[simp] theorem Code.cls_eCmdIllegal : Code.cls .eCmdIllegal = .rejected := by decide
@[simp] theorem Code.cls_eAuTooLong : Code.cls .eAuTooLong = .rejected := by decide
@[simp] theorem Code.cls_eNalIndex : Code.cls .eNalIndex = .rejected := by decide
@[simp] theorem Code.cls_eNaltFull : Code.cls .eNaltFull = .rejected := by decide
@[simp] theorem Code.cls_eRangeArgs : Code.cls .eRangeArgs = .rejected := by decide
@[simp] theorem Code.cls_eBrUnderflow : Code.cls .eBrUnderflow = .recoverable := by decide
@[simp] theorem Code.cls_eEgOverflow : Code.cls .eEgOverflow = .recoverable := by decide
@[simp] theorem Code.cls_eRange : Code.cls .eRange = .recoverable := by decide
@[simp] theorem Code.cls_eEpbSmall : Code.cls .eEpbSmall = .recoverable := by decide
@[simp] theorem Code.cls_eEpbLarge : Code.cls .eEpbLarge = .recoverable := by decide
@[simp] theorem Code.cls_eTrailingZero : Code.cls .eTrailingZero = .recoverable := by decide
@[simp] theorem Code.cls_eNalTooShort : Code.cls .eNalTooShort = .recoverable := by decide
@[simp] theorem Code.cls_eTidPlus1Zero : Code.cls .eTidPlus1Zero = .recoverable := by decide
@[simp] theorem Code.cls_eTidIrap : Code.cls .eTidIrap = .recoverable := by decide
@[simp] theorem Code.cls_eTidStsa : Code.cls .eTidStsa = .recoverable := by decide
@[simp] theorem Code.cls_eTrailStop : Code.cls .eTrailStop = .recoverable := by decide
@[simp] theorem Code.cls_eTrailAlign : Code.cls .eTrailAlign = .recoverable := by decide
@[simp] theorem Code.cls_eTrailCount : Code.cls .eTrailCount = .recoverable := by decide
@[simp] theorem Code.cls_eSpsCheck : Code.cls .eSpsCheck = .recoverable := by decide
@[simp] theorem Code.cls_eSpsBudget : Code.cls .eSpsBudget = .recoverable := by decide
@[simp] theorem Code.cls_eNalTypeReserved : Code.cls .eNalTypeReserved = .recoverable := by decide
@[simp] theorem Code.cls_sLayerId : Code.cls .sLayerId = .status := by decide
@[simp] theorem Code.cls_fBrWidth : Code.cls .fBrWidth = .fatal := by decide
@[simp] theorem Code.cls_fUopIllegal : Code.cls .fUopIllegal = .fatal := by decide
@[simp] theorem Code.cls_fUopPc : Code.cls .fUopPc = .fatal := by decide
@[simp] theorem Code.cls_fUopDiv0 : Code.cls .fUopDiv0 = .fatal := by decide
@[simp] theorem Code.cls_fRecRange : Code.cls .fRecRange = .fatal := by decide
@[simp] theorem Code.cls_fNalTypeDesync : Code.cls .fNalTypeDesync = .fatal := by decide
@[simp] theorem Code.cls_oSpsOk : Code.cls .oSpsOk = .disposition := by decide
@[simp] theorem Code.cls_oStub : Code.cls .oStub = .disposition := by decide
@[simp] theorem Code.cls_oPending : Code.cls .oPending = .disposition := by decide
@[simp] theorem Code.cls_oAborted : Code.cls .oAborted = .disposition := by decide

/-- Only classes C and R set STATUS.ERR (60_exceptions.md R611). -/
theorem Code.setsErr_eq (c : Code) : c.setsErr = true ↔ c.cls = .rejected ∨ c.cls = .recoverable := by
  simp [Code.setsErr]

/-! ### Masks -/

@[simp] theorem WarnBit.mask_forbiddenZero : WarnBit.mask .forbiddenZero = 0b000001#6 := rfl
@[simp] theorem WarnBit.mask_reservedZero : WarnBit.mask .reservedZero = 0b000010#6 := rfl
@[simp] theorem WarnBit.mask_spsCheck : WarnBit.mask .spsCheck = 0b000100#6 := rfl
@[simp] theorem WarnBit.mask_noStartCode : WarnBit.mask .noStartCode = 0b001000#6 := rfl
@[simp] theorem WarnBit.mask_cmdIgnored : WarnBit.mask .cmdIgnored = 0b010000#6 := rfl
@[simp] theorem WarnBit.mask_bus : WarnBit.mask .bus = 0b100000#6 := rfl
@[simp] theorem IrqBit.mask_done : IrqBit.mask .done = 0b001#3 := rfl
@[simp] theorem IrqBit.mask_pause : IrqBit.mask .pause = 0b010#3 := rfl
@[simp] theorem IrqBit.mask_fatal : IrqBit.mask .fatal = 0b100#3 := rfl

end Sys2Proof.Machine
end

