-- ==== Sys2Proof/Laws/State.lean ====
section
/-!
SUPPORT. What each named update of the state leaves in each field: one lemma per field per update, true by definition.
-/

namespace Sys2Proof.Machine

variable (s : State)

/-! ### State.setV -/

@[simp] theorem State.setV_block (i : BitVec 8) (x : Word) : (s.setV i x).block = s.block := rfl
@[simp] theorem State.setV_done (i : BitVec 8) (x : Word) : (s.setV i x).done = s.done := rfl
@[simp] theorem State.setV_errFlag (i : BitVec 8) (x : Word) : (s.setV i x).errFlag = s.errFlag := rfl
@[simp] theorem State.setV_spsValid (i : BitVec 8) (x : Word) : (s.setV i x).spsValid = s.spsValid := rfl
@[simp] theorem State.setV_cmd (i : BitVec 8) (x : Word) : (s.setV i x).cmd = s.cmd := rfl
@[simp] theorem State.setV_ops (i : BitVec 8) (x : Word) : (s.setV i x).ops = s.ops := rfl
@[simp] theorem State.setV_result (i : BitVec 8) (x : Word) : (s.setV i x).result = s.result := rfl
@[simp] theorem State.setV_error (i : BitVec 8) (x : Word) : (s.setV i x).error = s.error := rfl
@[simp] theorem State.setV_warn (i : BitVec 8) (x : Word) : (s.setV i x).warn = s.warn := rfl
@[simp] theorem State.setV_warnTag (i : BitVec 8) (x : Word) : (s.setV i x).warnTag = s.warnTag := rfl
@[simp] theorem State.setV_irqEn (i : BitVec 8) (x : Word) : (s.setV i x).irqEn = s.irqEn := rfl
@[simp] theorem State.setV_irqPend (i : BitVec 8) (x : Word) : (s.setV i x).irqPend = s.irqPend := rfl
@[simp] theorem State.setV_nuh (i : BitVec 8) (x : Word) : (s.setV i x).nuh = s.nuh := rfl
@[simp] theorem State.setV_nalCount (i : BitVec 8) (x : Word) : (s.setV i x).nalCount = s.nalCount := rfl
@[simp] theorem State.setV_curNal (i : BitVec 8) (x : Word) : (s.setV i x).curNal = s.curNal := rfl
@[simp] theorem State.setV_timing (i : BitVec 8) (x : Word) : (s.setV i x).timing = s.timing := rfl
@[simp] theorem State.setV_reader (i : BitVec 8) (x : Word) : (s.setV i x).reader = s.reader := rfl
@[simp] theorem State.setV_v (i : BitVec 8) (x : Word) : (s.setV i x).v = s.vWith i x := rfl
@[simp] theorem State.setV_seqPc (i : BitVec 8) (x : Word) : (s.setV i x).seqPc = s.seqPc := rfl
@[simp] theorem State.setV_stepCount (i : BitVec 8) (x : Word) : (s.setV i x).stepCount = s.stepCount := rfl
@[simp] theorem State.setV_decNext (i : BitVec 8) (x : Word) : (s.setV i x).decNext = s.decNext := rfl
@[simp] theorem State.setV_mem (i : BitVec 8) (x : Word) : (s.setV i x).mem = s.mem := rfl
@[simp] theorem State.setV_params (i : BitVec 8) (x : Word) : (s.setV i x).params = s.params := rfl
@[simp] theorem State.setV_engine (i : BitVec 8) (x : Word) : (s.setV i x).engine = s.engine := rfl
@[simp] theorem State.setV_latch (i : BitVec 8) (x : Word) : (s.setV i x).latch = s.latch := rfl
@[simp] theorem State.setV_inputs (i : BitVec 8) (x : Word) : (s.setV i x).inputs = s.inputs := rfl
@[simp] theorem State.setV_readData (i : BitVec 8) (x : Word) : (s.setV i x).readData = s.readData := rfl
@[simp] theorem State.setV_free (i : BitVec 8) (x : Word) : (s.setV i x).free = s.free := rfl

/-! ### State.warnBit -/

@[simp] theorem State.warnBit_block (b : WarnBit) : (s.warnBit b).block = s.block := rfl
@[simp] theorem State.warnBit_done (b : WarnBit) : (s.warnBit b).done = s.done := rfl
@[simp] theorem State.warnBit_errFlag (b : WarnBit) : (s.warnBit b).errFlag = s.errFlag := rfl
@[simp] theorem State.warnBit_spsValid (b : WarnBit) : (s.warnBit b).spsValid = s.spsValid := rfl
@[simp] theorem State.warnBit_cmd (b : WarnBit) : (s.warnBit b).cmd = s.cmd := rfl
@[simp] theorem State.warnBit_ops (b : WarnBit) : (s.warnBit b).ops = s.ops := rfl
@[simp] theorem State.warnBit_result (b : WarnBit) : (s.warnBit b).result = s.result := rfl
@[simp] theorem State.warnBit_error (b : WarnBit) : (s.warnBit b).error = s.error := rfl
@[simp] theorem State.warnBit_warn (b : WarnBit) : (s.warnBit b).warn = s.warn ||| b.mask := rfl
@[simp] theorem State.warnBit_warnTag (b : WarnBit) : (s.warnBit b).warnTag = s.warnTag := rfl
@[simp] theorem State.warnBit_irqEn (b : WarnBit) : (s.warnBit b).irqEn = s.irqEn := rfl
@[simp] theorem State.warnBit_irqPend (b : WarnBit) : (s.warnBit b).irqPend = s.irqPend := rfl
@[simp] theorem State.warnBit_nuh (b : WarnBit) : (s.warnBit b).nuh = s.nuh := rfl
@[simp] theorem State.warnBit_nalCount (b : WarnBit) : (s.warnBit b).nalCount = s.nalCount := rfl
@[simp] theorem State.warnBit_curNal (b : WarnBit) : (s.warnBit b).curNal = s.curNal := rfl
@[simp] theorem State.warnBit_timing (b : WarnBit) : (s.warnBit b).timing = s.timing := rfl
@[simp] theorem State.warnBit_reader (b : WarnBit) : (s.warnBit b).reader = s.reader := rfl
@[simp] theorem State.warnBit_v (b : WarnBit) : (s.warnBit b).v = s.v := rfl
@[simp] theorem State.warnBit_seqPc (b : WarnBit) : (s.warnBit b).seqPc = s.seqPc := rfl
@[simp] theorem State.warnBit_stepCount (b : WarnBit) : (s.warnBit b).stepCount = s.stepCount := rfl
@[simp] theorem State.warnBit_decNext (b : WarnBit) : (s.warnBit b).decNext = s.decNext := rfl
@[simp] theorem State.warnBit_mem (b : WarnBit) : (s.warnBit b).mem = s.mem := rfl
@[simp] theorem State.warnBit_params (b : WarnBit) : (s.warnBit b).params = s.params := rfl
@[simp] theorem State.warnBit_engine (b : WarnBit) : (s.warnBit b).engine = s.engine := rfl
@[simp] theorem State.warnBit_latch (b : WarnBit) : (s.warnBit b).latch = s.latch := rfl
@[simp] theorem State.warnBit_inputs (b : WarnBit) : (s.warnBit b).inputs = s.inputs := rfl
@[simp] theorem State.warnBit_readData (b : WarnBit) : (s.warnBit b).readData = s.readData := rfl
@[simp] theorem State.warnBit_free (b : WarnBit) : (s.warnBit b).free = s.free := rfl

/-! ### State.recordOutcome -/

@[simp] theorem State.recordOutcome_block (r : Raise) (pc : Word) : (s.recordOutcome r pc).block = s.block := rfl
@[simp] theorem State.recordOutcome_done (r : Raise) (pc : Word) : (s.recordOutcome r pc).done = s.done := rfl
@[simp] theorem State.recordOutcome_errFlag (r : Raise) (pc : Word) : (s.recordOutcome r pc).errFlag = (s.errFlag || r.code.setsErr) := rfl
@[simp] theorem State.recordOutcome_spsValid (r : Raise) (pc : Word) : (s.recordOutcome r pc).spsValid = s.spsValid := rfl
@[simp] theorem State.recordOutcome_cmd (r : Raise) (pc : Word) : (s.recordOutcome r pc).cmd = s.cmd := rfl
@[simp] theorem State.recordOutcome_ops (r : Raise) (pc : Word) : (s.recordOutcome r pc).ops = s.ops := rfl
@[simp] theorem State.recordOutcome_result (r : Raise) (pc : Word) : (s.recordOutcome r pc).result = s.result := rfl
@[simp] theorem State.recordOutcome_error (r : Raise) (pc : Word) : (s.recordOutcome r pc).error = ⟨r.code, pc, r.value, r.min, r.max, r.tag⟩ := rfl
@[simp] theorem State.recordOutcome_warn (r : Raise) (pc : Word) : (s.recordOutcome r pc).warn = s.warn := rfl
@[simp] theorem State.recordOutcome_warnTag (r : Raise) (pc : Word) : (s.recordOutcome r pc).warnTag = s.warnTag := rfl
@[simp] theorem State.recordOutcome_irqEn (r : Raise) (pc : Word) : (s.recordOutcome r pc).irqEn = s.irqEn := rfl
@[simp] theorem State.recordOutcome_irqPend (r : Raise) (pc : Word) : (s.recordOutcome r pc).irqPend = s.irqPend := rfl
@[simp] theorem State.recordOutcome_nuh (r : Raise) (pc : Word) : (s.recordOutcome r pc).nuh = s.nuh := rfl
@[simp] theorem State.recordOutcome_nalCount (r : Raise) (pc : Word) : (s.recordOutcome r pc).nalCount = s.nalCount := rfl
@[simp] theorem State.recordOutcome_curNal (r : Raise) (pc : Word) : (s.recordOutcome r pc).curNal = s.curNal := rfl
@[simp] theorem State.recordOutcome_timing (r : Raise) (pc : Word) : (s.recordOutcome r pc).timing = s.timing := rfl
@[simp] theorem State.recordOutcome_reader (r : Raise) (pc : Word) : (s.recordOutcome r pc).reader = s.reader := rfl
@[simp] theorem State.recordOutcome_v (r : Raise) (pc : Word) : (s.recordOutcome r pc).v = s.v := rfl
@[simp] theorem State.recordOutcome_seqPc (r : Raise) (pc : Word) : (s.recordOutcome r pc).seqPc = s.seqPc := rfl
@[simp] theorem State.recordOutcome_stepCount (r : Raise) (pc : Word) : (s.recordOutcome r pc).stepCount = s.stepCount := rfl
@[simp] theorem State.recordOutcome_decNext (r : Raise) (pc : Word) : (s.recordOutcome r pc).decNext = s.decNext := rfl
@[simp] theorem State.recordOutcome_mem (r : Raise) (pc : Word) : (s.recordOutcome r pc).mem = s.mem := rfl
@[simp] theorem State.recordOutcome_params (r : Raise) (pc : Word) : (s.recordOutcome r pc).params = s.params := rfl
@[simp] theorem State.recordOutcome_engine (r : Raise) (pc : Word) : (s.recordOutcome r pc).engine = s.engine := rfl
@[simp] theorem State.recordOutcome_latch (r : Raise) (pc : Word) : (s.recordOutcome r pc).latch = s.latch := rfl
@[simp] theorem State.recordOutcome_inputs (r : Raise) (pc : Word) : (s.recordOutcome r pc).inputs = s.inputs := rfl
@[simp] theorem State.recordOutcome_readData (r : Raise) (pc : Word) : (s.recordOutcome r pc).readData = s.readData := rfl
@[simp] theorem State.recordOutcome_free (r : Raise) (pc : Word) : (s.recordOutcome r pc).free = s.free := rfl

/-! ### State.complete -/

@[simp] theorem State.complete_block : (s.complete).block = .idle := rfl
@[simp] theorem State.complete_done : (s.complete).done = true := rfl
@[simp] theorem State.complete_errFlag : (s.complete).errFlag = s.errFlag := rfl
@[simp] theorem State.complete_spsValid : (s.complete).spsValid = s.spsValid := rfl
@[simp] theorem State.complete_cmd : (s.complete).cmd = s.cmd := rfl
@[simp] theorem State.complete_ops : (s.complete).ops = s.ops := rfl
@[simp] theorem State.complete_result : (s.complete).result = s.result := rfl
@[simp] theorem State.complete_error : (s.complete).error = s.error := rfl
@[simp] theorem State.complete_warn : (s.complete).warn = s.warn := rfl
@[simp] theorem State.complete_warnTag : (s.complete).warnTag = s.warnTag := rfl
@[simp] theorem State.complete_irqEn : (s.complete).irqEn = s.irqEn := rfl
@[simp] theorem State.complete_irqPend : (s.complete).irqPend = s.irqPend ||| IrqBit.done.mask := rfl
@[simp] theorem State.complete_nuh : (s.complete).nuh = s.nuh := rfl
@[simp] theorem State.complete_nalCount : (s.complete).nalCount = s.nalCount := rfl
@[simp] theorem State.complete_curNal : (s.complete).curNal = s.curNal := rfl
@[simp] theorem State.complete_timing : (s.complete).timing = s.timing := rfl
@[simp] theorem State.complete_reader : (s.complete).reader = s.reader := rfl
@[simp] theorem State.complete_v : (s.complete).v = s.v := rfl
@[simp] theorem State.complete_seqPc : (s.complete).seqPc = s.seqPc := rfl
@[simp] theorem State.complete_stepCount : (s.complete).stepCount = s.stepCount := rfl
@[simp] theorem State.complete_decNext : (s.complete).decNext = s.decNext := rfl
@[simp] theorem State.complete_mem : (s.complete).mem = s.mem := rfl
@[simp] theorem State.complete_params : (s.complete).params = s.params := rfl
@[simp] theorem State.complete_engine : (s.complete).engine = .off := rfl
@[simp] theorem State.complete_latch : (s.complete).latch = s.latch := rfl
@[simp] theorem State.complete_inputs : (s.complete).inputs = s.inputs := rfl
@[simp] theorem State.complete_readData : (s.complete).readData = s.readData := rfl
@[simp] theorem State.complete_free : (s.complete).free = s.free := rfl

/-! ### State.halt -/

@[simp] theorem State.halt_block : (s.halt).block = .halted := rfl
@[simp] theorem State.halt_done : (s.halt).done = true := rfl
@[simp] theorem State.halt_errFlag : (s.halt).errFlag = s.errFlag := rfl
@[simp] theorem State.halt_spsValid : (s.halt).spsValid = s.spsValid := rfl
@[simp] theorem State.halt_cmd : (s.halt).cmd = s.cmd := rfl
@[simp] theorem State.halt_ops : (s.halt).ops = s.ops := rfl
@[simp] theorem State.halt_result : (s.halt).result = s.result := rfl
@[simp] theorem State.halt_error : (s.halt).error = s.error := rfl
@[simp] theorem State.halt_warn : (s.halt).warn = s.warn := rfl
@[simp] theorem State.halt_warnTag : (s.halt).warnTag = s.warnTag := rfl
@[simp] theorem State.halt_irqEn : (s.halt).irqEn = s.irqEn := rfl
@[simp] theorem State.halt_irqPend : (s.halt).irqPend = s.irqPend ||| IrqBit.fatal.mask := rfl
@[simp] theorem State.halt_nuh : (s.halt).nuh = s.nuh := rfl
@[simp] theorem State.halt_nalCount : (s.halt).nalCount = s.nalCount := rfl
@[simp] theorem State.halt_curNal : (s.halt).curNal = s.curNal := rfl
@[simp] theorem State.halt_timing : (s.halt).timing = s.timing := rfl
@[simp] theorem State.halt_reader : (s.halt).reader = s.reader := rfl
@[simp] theorem State.halt_v : (s.halt).v = s.v := rfl
@[simp] theorem State.halt_seqPc : (s.halt).seqPc = s.seqPc := rfl
@[simp] theorem State.halt_stepCount : (s.halt).stepCount = s.stepCount := rfl
@[simp] theorem State.halt_decNext : (s.halt).decNext = s.decNext := rfl
@[simp] theorem State.halt_mem : (s.halt).mem = s.mem := rfl
@[simp] theorem State.halt_params : (s.halt).params = s.params := rfl
@[simp] theorem State.halt_engine : (s.halt).engine = .off := rfl
@[simp] theorem State.halt_latch : (s.halt).latch = s.latch := rfl
@[simp] theorem State.halt_inputs : (s.halt).inputs = s.inputs := rfl
@[simp] theorem State.halt_readData : (s.halt).readData = s.readData := rfl
@[simp] theorem State.halt_free : (s.halt).free = s.free := rfl

/-! ### State.pause -/

@[simp] theorem State.pause_block : (s.pause).block = .paused := rfl
@[simp] theorem State.pause_done : (s.pause).done = true := rfl
@[simp] theorem State.pause_errFlag : (s.pause).errFlag = s.errFlag := rfl
@[simp] theorem State.pause_spsValid : (s.pause).spsValid = s.spsValid := rfl
@[simp] theorem State.pause_cmd : (s.pause).cmd = s.cmd := rfl
@[simp] theorem State.pause_ops : (s.pause).ops = s.ops := rfl
@[simp] theorem State.pause_result : (s.pause).result = s.result := rfl
@[simp] theorem State.pause_error : (s.pause).error = s.error := rfl
@[simp] theorem State.pause_warn : (s.pause).warn = s.warn := rfl
@[simp] theorem State.pause_warnTag : (s.pause).warnTag = s.warnTag := rfl
@[simp] theorem State.pause_irqEn : (s.pause).irqEn = s.irqEn := rfl
@[simp] theorem State.pause_irqPend : (s.pause).irqPend = s.irqPend ||| IrqBit.pause.mask := rfl
@[simp] theorem State.pause_nuh : (s.pause).nuh = s.nuh := rfl
@[simp] theorem State.pause_nalCount : (s.pause).nalCount = s.nalCount := rfl
@[simp] theorem State.pause_curNal : (s.pause).curNal = s.curNal := rfl
@[simp] theorem State.pause_timing : (s.pause).timing = s.timing := rfl
@[simp] theorem State.pause_reader : (s.pause).reader = s.reader := rfl
@[simp] theorem State.pause_v : (s.pause).v = s.v := rfl
@[simp] theorem State.pause_seqPc : (s.pause).seqPc = s.seqPc := rfl
@[simp] theorem State.pause_stepCount : (s.pause).stepCount = s.stepCount := rfl
@[simp] theorem State.pause_decNext : (s.pause).decNext = s.decNext := rfl
@[simp] theorem State.pause_mem : (s.pause).mem = s.mem := rfl
@[simp] theorem State.pause_params : (s.pause).params = s.params := rfl
@[simp] theorem State.pause_engine : (s.pause).engine = .off := rfl
@[simp] theorem State.pause_latch : (s.pause).latch = s.latch := rfl
@[simp] theorem State.pause_inputs : (s.pause).inputs = s.inputs := rfl
@[simp] theorem State.pause_readData : (s.pause).readData = s.readData := rfl
@[simp] theorem State.pause_free : (s.pause).free = s.free := rfl

/-! ### State.moveReader -/

@[simp] theorem State.moveReader_block (p : Nat) : (s.moveReader p).block = s.block := rfl
@[simp] theorem State.moveReader_done (p : Nat) : (s.moveReader p).done = s.done := rfl
@[simp] theorem State.moveReader_errFlag (p : Nat) : (s.moveReader p).errFlag = s.errFlag := rfl
@[simp] theorem State.moveReader_spsValid (p : Nat) : (s.moveReader p).spsValid = s.spsValid := rfl
@[simp] theorem State.moveReader_cmd (p : Nat) : (s.moveReader p).cmd = s.cmd := rfl
@[simp] theorem State.moveReader_ops (p : Nat) : (s.moveReader p).ops = s.ops := rfl
@[simp] theorem State.moveReader_result (p : Nat) : (s.moveReader p).result = s.result := rfl
@[simp] theorem State.moveReader_error (p : Nat) : (s.moveReader p).error = s.error := rfl
@[simp] theorem State.moveReader_warn (p : Nat) : (s.moveReader p).warn = s.warn := rfl
@[simp] theorem State.moveReader_warnTag (p : Nat) : (s.moveReader p).warnTag = s.warnTag := rfl
@[simp] theorem State.moveReader_irqEn (p : Nat) : (s.moveReader p).irqEn = s.irqEn := rfl
@[simp] theorem State.moveReader_irqPend (p : Nat) : (s.moveReader p).irqPend = s.irqPend := rfl
@[simp] theorem State.moveReader_nuh (p : Nat) : (s.moveReader p).nuh = s.nuh := rfl
@[simp] theorem State.moveReader_nalCount (p : Nat) : (s.moveReader p).nalCount = s.nalCount := rfl
@[simp] theorem State.moveReader_curNal (p : Nat) : (s.moveReader p).curNal = s.curNal := rfl
@[simp] theorem State.moveReader_timing (p : Nat) : (s.moveReader p).timing = s.timing := rfl
@[simp] theorem State.moveReader_v (p : Nat) : (s.moveReader p).v = s.v := rfl
@[simp] theorem State.moveReader_seqPc (p : Nat) : (s.moveReader p).seqPc = s.seqPc := rfl
@[simp] theorem State.moveReader_stepCount (p : Nat) : (s.moveReader p).stepCount = s.stepCount := rfl
@[simp] theorem State.moveReader_decNext (p : Nat) : (s.moveReader p).decNext = s.decNext := rfl
@[simp] theorem State.moveReader_mem (p : Nat) : (s.moveReader p).mem = s.mem := rfl
@[simp] theorem State.moveReader_params (p : Nat) : (s.moveReader p).params = s.params := rfl
@[simp] theorem State.moveReader_engine (p : Nat) : (s.moveReader p).engine = s.engine := rfl
@[simp] theorem State.moveReader_latch (p : Nat) : (s.moveReader p).latch = s.latch := rfl
@[simp] theorem State.moveReader_inputs (p : Nat) : (s.moveReader p).inputs = s.inputs := rfl
@[simp] theorem State.moveReader_readData (p : Nat) : (s.moveReader p).readData = s.readData := rfl
@[simp] theorem State.moveReader_free (p : Nat) : (s.moveReader p).free = s.free + 1 := rfl

/-! ### State.emptyRbsp -/

@[simp] theorem State.emptyRbsp_block (h : Nuh) : (s.emptyRbsp h).block = s.block := rfl
@[simp] theorem State.emptyRbsp_done (h : Nuh) : (s.emptyRbsp h).done = s.done := rfl
@[simp] theorem State.emptyRbsp_errFlag (h : Nuh) : (s.emptyRbsp h).errFlag = s.errFlag := rfl
@[simp] theorem State.emptyRbsp_spsValid (h : Nuh) : (s.emptyRbsp h).spsValid = s.spsValid := rfl
@[simp] theorem State.emptyRbsp_cmd (h : Nuh) : (s.emptyRbsp h).cmd = s.cmd := rfl
@[simp] theorem State.emptyRbsp_ops (h : Nuh) : (s.emptyRbsp h).ops = s.ops := rfl
@[simp] theorem State.emptyRbsp_result (h : Nuh) : (s.emptyRbsp h).result = s.result := rfl
@[simp] theorem State.emptyRbsp_error (h : Nuh) : (s.emptyRbsp h).error = s.error := rfl
@[simp] theorem State.emptyRbsp_warn (h : Nuh) : (s.emptyRbsp h).warn = s.warn := rfl
@[simp] theorem State.emptyRbsp_warnTag (h : Nuh) : (s.emptyRbsp h).warnTag = s.warnTag := rfl
@[simp] theorem State.emptyRbsp_irqEn (h : Nuh) : (s.emptyRbsp h).irqEn = s.irqEn := rfl
@[simp] theorem State.emptyRbsp_irqPend (h : Nuh) : (s.emptyRbsp h).irqPend = s.irqPend := rfl
@[simp] theorem State.emptyRbsp_nuh (h : Nuh) : (s.emptyRbsp h).nuh = h := rfl
@[simp] theorem State.emptyRbsp_nalCount (h : Nuh) : (s.emptyRbsp h).nalCount = s.nalCount := rfl
@[simp] theorem State.emptyRbsp_curNal (h : Nuh) : (s.emptyRbsp h).curNal = s.curNal := rfl
@[simp] theorem State.emptyRbsp_timing (h : Nuh) : (s.emptyRbsp h).timing = s.timing := rfl
@[simp] theorem State.emptyRbsp_reader (h : Nuh) : (s.emptyRbsp h).reader = ⟨0#32, 0#32, 0#32, 0#32, 0#64⟩ := rfl
@[simp] theorem State.emptyRbsp_v (h : Nuh) : (s.emptyRbsp h).v = s.v := rfl
@[simp] theorem State.emptyRbsp_seqPc (h : Nuh) : (s.emptyRbsp h).seqPc = s.seqPc := rfl
@[simp] theorem State.emptyRbsp_stepCount (h : Nuh) : (s.emptyRbsp h).stepCount = s.stepCount := rfl
@[simp] theorem State.emptyRbsp_decNext (h : Nuh) : (s.emptyRbsp h).decNext = s.decNext := rfl
@[simp] theorem State.emptyRbsp_mem (h : Nuh) : (s.emptyRbsp h).mem = { s.mem with rbsp := .unspecified s.free } := rfl
@[simp] theorem State.emptyRbsp_params (h : Nuh) : (s.emptyRbsp h).params = s.params := rfl
@[simp] theorem State.emptyRbsp_engine (h : Nuh) : (s.emptyRbsp h).engine = s.engine := rfl
@[simp] theorem State.emptyRbsp_latch (h : Nuh) : (s.emptyRbsp h).latch = s.latch := rfl
@[simp] theorem State.emptyRbsp_inputs (h : Nuh) : (s.emptyRbsp h).inputs = s.inputs := rfl
@[simp] theorem State.emptyRbsp_readData (h : Nuh) : (s.emptyRbsp h).readData = s.readData := rfl
@[simp] theorem State.emptyRbsp_free (h : Nuh) : (s.emptyRbsp h).free = s.free + 1 := rfl

/-! ### State.storeRbsp -/

@[simp] theorem State.storeRbsp_block (out : List Byte) (vcl : Bool) : (s.storeRbsp out vcl).block = s.block := rfl
@[simp] theorem State.storeRbsp_done (out : List Byte) (vcl : Bool) : (s.storeRbsp out vcl).done = s.done := rfl
@[simp] theorem State.storeRbsp_errFlag (out : List Byte) (vcl : Bool) : (s.storeRbsp out vcl).errFlag = s.errFlag := rfl
@[simp] theorem State.storeRbsp_spsValid (out : List Byte) (vcl : Bool) : (s.storeRbsp out vcl).spsValid = s.spsValid := rfl
@[simp] theorem State.storeRbsp_cmd (out : List Byte) (vcl : Bool) : (s.storeRbsp out vcl).cmd = s.cmd := rfl
@[simp] theorem State.storeRbsp_ops (out : List Byte) (vcl : Bool) : (s.storeRbsp out vcl).ops = s.ops := rfl
@[simp] theorem State.storeRbsp_result (out : List Byte) (vcl : Bool) : (s.storeRbsp out vcl).result = s.result := rfl
@[simp] theorem State.storeRbsp_error (out : List Byte) (vcl : Bool) : (s.storeRbsp out vcl).error = s.error := rfl
@[simp] theorem State.storeRbsp_warn (out : List Byte) (vcl : Bool) : (s.storeRbsp out vcl).warn = s.warn := rfl
@[simp] theorem State.storeRbsp_warnTag (out : List Byte) (vcl : Bool) : (s.storeRbsp out vcl).warnTag = s.warnTag := rfl
@[simp] theorem State.storeRbsp_irqEn (out : List Byte) (vcl : Bool) : (s.storeRbsp out vcl).irqEn = s.irqEn := rfl
@[simp] theorem State.storeRbsp_irqPend (out : List Byte) (vcl : Bool) : (s.storeRbsp out vcl).irqPend = s.irqPend := rfl
@[simp] theorem State.storeRbsp_nuh (out : List Byte) (vcl : Bool) : (s.storeRbsp out vcl).nuh = .converted vcl := rfl
@[simp] theorem State.storeRbsp_nalCount (out : List Byte) (vcl : Bool) : (s.storeRbsp out vcl).nalCount = s.nalCount := rfl
@[simp] theorem State.storeRbsp_curNal (out : List Byte) (vcl : Bool) : (s.storeRbsp out vcl).curNal = s.curNal := rfl
@[simp] theorem State.storeRbsp_timing (out : List Byte) (vcl : Bool) : (s.storeRbsp out vcl).timing = s.timing := rfl
@[simp] theorem State.storeRbsp_reader (out : List Byte) (vcl : Bool) : (s.storeRbsp out vcl).reader = ⟨word out.length, 0#32, 0#32, 0#32, 0#64⟩ := rfl
@[simp] theorem State.storeRbsp_v (out : List Byte) (vcl : Bool) : (s.storeRbsp out vcl).v = s.v := rfl
@[simp] theorem State.storeRbsp_seqPc (out : List Byte) (vcl : Bool) : (s.storeRbsp out vcl).seqPc = s.seqPc := rfl
@[simp] theorem State.storeRbsp_stepCount (out : List Byte) (vcl : Bool) : (s.storeRbsp out vcl).stepCount = s.stepCount := rfl
@[simp] theorem State.storeRbsp_decNext (out : List Byte) (vcl : Bool) : (s.storeRbsp out vcl).decNext = s.decNext := rfl
@[simp] theorem State.storeRbsp_mem (out : List Byte) (vcl : Bool) : (s.storeRbsp out vcl).mem = { s.mem with rbsp := .ofList s.free out } := rfl
@[simp] theorem State.storeRbsp_params (out : List Byte) (vcl : Bool) : (s.storeRbsp out vcl).params = s.params := rfl
@[simp] theorem State.storeRbsp_engine (out : List Byte) (vcl : Bool) : (s.storeRbsp out vcl).engine = s.engine := rfl
@[simp] theorem State.storeRbsp_latch (out : List Byte) (vcl : Bool) : (s.storeRbsp out vcl).latch = s.latch := rfl
@[simp] theorem State.storeRbsp_inputs (out : List Byte) (vcl : Bool) : (s.storeRbsp out vcl).inputs = s.inputs := rfl
@[simp] theorem State.storeRbsp_readData (out : List Byte) (vcl : Bool) : (s.storeRbsp out vcl).readData = s.readData := rfl
@[simp] theorem State.storeRbsp_free (out : List Byte) (vcl : Bool) : (s.storeRbsp out vcl).free = s.free + 1 := rfl

/-! ### State.writeTable -/

@[simp] theorem State.writeTable_block (us : List NalUnit) : (s.writeTable us).block = s.block := rfl
@[simp] theorem State.writeTable_done (us : List NalUnit) : (s.writeTable us).done = s.done := rfl
@[simp] theorem State.writeTable_errFlag (us : List NalUnit) : (s.writeTable us).errFlag = s.errFlag := rfl
@[simp] theorem State.writeTable_spsValid (us : List NalUnit) : (s.writeTable us).spsValid = s.spsValid := rfl
@[simp] theorem State.writeTable_cmd (us : List NalUnit) : (s.writeTable us).cmd = s.cmd := rfl
@[simp] theorem State.writeTable_ops (us : List NalUnit) : (s.writeTable us).ops = s.ops := rfl
@[simp] theorem State.writeTable_result (us : List NalUnit) : (s.writeTable us).result = s.result := rfl
@[simp] theorem State.writeTable_error (us : List NalUnit) : (s.writeTable us).error = s.error := rfl
@[simp] theorem State.writeTable_warn (us : List NalUnit) : (s.writeTable us).warn = s.warn := rfl
@[simp] theorem State.writeTable_warnTag (us : List NalUnit) : (s.writeTable us).warnTag = s.warnTag := rfl
@[simp] theorem State.writeTable_irqEn (us : List NalUnit) : (s.writeTable us).irqEn = s.irqEn := rfl
@[simp] theorem State.writeTable_irqPend (us : List NalUnit) : (s.writeTable us).irqPend = s.irqPend := rfl
@[simp] theorem State.writeTable_nuh (us : List NalUnit) : (s.writeTable us).nuh = s.nuh := rfl
@[simp] theorem State.writeTable_nalCount (us : List NalUnit) : (s.writeTable us).nalCount = word us.length := rfl
@[simp] theorem State.writeTable_curNal (us : List NalUnit) : (s.writeTable us).curNal = s.curNal := rfl
@[simp] theorem State.writeTable_timing (us : List NalUnit) : (s.writeTable us).timing = s.timing := rfl
@[simp] theorem State.writeTable_reader (us : List NalUnit) : (s.writeTable us).reader = s.reader := rfl
@[simp] theorem State.writeTable_v (us : List NalUnit) : (s.writeTable us).v = s.v := rfl
@[simp] theorem State.writeTable_seqPc (us : List NalUnit) : (s.writeTable us).seqPc = s.seqPc := rfl
@[simp] theorem State.writeTable_stepCount (us : List NalUnit) : (s.writeTable us).stepCount = s.stepCount := rfl
@[simp] theorem State.writeTable_decNext (us : List NalUnit) : (s.writeTable us).decNext = s.decNext := rfl
@[simp] theorem State.writeTable_mem (us : List NalUnit) : (s.writeTable us).mem = { s.mem with nalt := .ofList s.free (tableWords us) } := rfl
@[simp] theorem State.writeTable_params (us : List NalUnit) : (s.writeTable us).params = s.params := rfl
@[simp] theorem State.writeTable_engine (us : List NalUnit) : (s.writeTable us).engine = s.engine := rfl
@[simp] theorem State.writeTable_latch (us : List NalUnit) : (s.writeTable us).latch = s.latch := rfl
@[simp] theorem State.writeTable_inputs (us : List NalUnit) : (s.writeTable us).inputs = s.inputs := rfl
@[simp] theorem State.writeTable_readData (us : List NalUnit) : (s.writeTable us).readData = s.readData := rfl
@[simp] theorem State.writeTable_free (us : List NalUnit) : (s.writeTable us).free = s.free + 1 := rfl

/-! ### State.mapWord2 -/

@[simp] theorem State.mapWord2_block (k : Nat) (f : Word → Word) : (s.mapWord2 k f).block = s.block := rfl
@[simp] theorem State.mapWord2_done (k : Nat) (f : Word → Word) : (s.mapWord2 k f).done = s.done := rfl
@[simp] theorem State.mapWord2_errFlag (k : Nat) (f : Word → Word) : (s.mapWord2 k f).errFlag = s.errFlag := rfl
@[simp] theorem State.mapWord2_spsValid (k : Nat) (f : Word → Word) : (s.mapWord2 k f).spsValid = s.spsValid := rfl
@[simp] theorem State.mapWord2_cmd (k : Nat) (f : Word → Word) : (s.mapWord2 k f).cmd = s.cmd := rfl
@[simp] theorem State.mapWord2_ops (k : Nat) (f : Word → Word) : (s.mapWord2 k f).ops = s.ops := rfl
@[simp] theorem State.mapWord2_result (k : Nat) (f : Word → Word) : (s.mapWord2 k f).result = s.result := rfl
@[simp] theorem State.mapWord2_error (k : Nat) (f : Word → Word) : (s.mapWord2 k f).error = s.error := rfl
@[simp] theorem State.mapWord2_warn (k : Nat) (f : Word → Word) : (s.mapWord2 k f).warn = s.warn := rfl
@[simp] theorem State.mapWord2_warnTag (k : Nat) (f : Word → Word) : (s.mapWord2 k f).warnTag = s.warnTag := rfl
@[simp] theorem State.mapWord2_irqEn (k : Nat) (f : Word → Word) : (s.mapWord2 k f).irqEn = s.irqEn := rfl
@[simp] theorem State.mapWord2_irqPend (k : Nat) (f : Word → Word) : (s.mapWord2 k f).irqPend = s.irqPend := rfl
@[simp] theorem State.mapWord2_nuh (k : Nat) (f : Word → Word) : (s.mapWord2 k f).nuh = s.nuh := rfl
@[simp] theorem State.mapWord2_nalCount (k : Nat) (f : Word → Word) : (s.mapWord2 k f).nalCount = s.nalCount := rfl
@[simp] theorem State.mapWord2_curNal (k : Nat) (f : Word → Word) : (s.mapWord2 k f).curNal = s.curNal := rfl
@[simp] theorem State.mapWord2_timing (k : Nat) (f : Word → Word) : (s.mapWord2 k f).timing = s.timing := rfl
@[simp] theorem State.mapWord2_reader (k : Nat) (f : Word → Word) : (s.mapWord2 k f).reader = s.reader := rfl
@[simp] theorem State.mapWord2_v (k : Nat) (f : Word → Word) : (s.mapWord2 k f).v = s.v := rfl
@[simp] theorem State.mapWord2_seqPc (k : Nat) (f : Word → Word) : (s.mapWord2 k f).seqPc = s.seqPc := rfl
@[simp] theorem State.mapWord2_stepCount (k : Nat) (f : Word → Word) : (s.mapWord2 k f).stepCount = s.stepCount := rfl
@[simp] theorem State.mapWord2_decNext (k : Nat) (f : Word → Word) : (s.mapWord2 k f).decNext = s.decNext := rfl
@[simp] theorem State.mapWord2_mem (k : Nat) (f : Word → Word) : (s.mapWord2 k f).mem = s.mem.setNaltWord k 2 (f (s.mem.naltWord k 2)) := rfl
@[simp] theorem State.mapWord2_params (k : Nat) (f : Word → Word) : (s.mapWord2 k f).params = s.params := rfl
@[simp] theorem State.mapWord2_engine (k : Nat) (f : Word → Word) : (s.mapWord2 k f).engine = s.engine := rfl
@[simp] theorem State.mapWord2_latch (k : Nat) (f : Word → Word) : (s.mapWord2 k f).latch = s.latch := rfl
@[simp] theorem State.mapWord2_inputs (k : Nat) (f : Word → Word) : (s.mapWord2 k f).inputs = s.inputs := rfl
@[simp] theorem State.mapWord2_readData (k : Nat) (f : Word → Word) : (s.mapWord2 k f).readData = s.readData := rfl
@[simp] theorem State.mapWord2_free (k : Nat) (f : Word → Word) : (s.mapWord2 k f).free = s.free := rfl

/-! ### State.dispose -/

@[simp] theorem State.dispose_block (k : Nat) (c : Code) (info : Word) : (s.dispose k c info).block = s.block := rfl
@[simp] theorem State.dispose_done (k : Nat) (c : Code) (info : Word) : (s.dispose k c info).done = s.done := rfl
@[simp] theorem State.dispose_errFlag (k : Nat) (c : Code) (info : Word) : (s.dispose k c info).errFlag = s.errFlag := rfl
@[simp] theorem State.dispose_spsValid (k : Nat) (c : Code) (info : Word) : (s.dispose k c info).spsValid = s.spsValid := rfl
@[simp] theorem State.dispose_cmd (k : Nat) (c : Code) (info : Word) : (s.dispose k c info).cmd = s.cmd := rfl
@[simp] theorem State.dispose_ops (k : Nat) (c : Code) (info : Word) : (s.dispose k c info).ops = s.ops := rfl
@[simp] theorem State.dispose_result (k : Nat) (c : Code) (info : Word) : (s.dispose k c info).result = s.result := rfl
@[simp] theorem State.dispose_error (k : Nat) (c : Code) (info : Word) : (s.dispose k c info).error = s.error := rfl
@[simp] theorem State.dispose_warn (k : Nat) (c : Code) (info : Word) : (s.dispose k c info).warn = s.warn := rfl
@[simp] theorem State.dispose_warnTag (k : Nat) (c : Code) (info : Word) : (s.dispose k c info).warnTag = s.warnTag := rfl
@[simp] theorem State.dispose_irqEn (k : Nat) (c : Code) (info : Word) : (s.dispose k c info).irqEn = s.irqEn := rfl
@[simp] theorem State.dispose_irqPend (k : Nat) (c : Code) (info : Word) : (s.dispose k c info).irqPend = s.irqPend := rfl
@[simp] theorem State.dispose_nuh (k : Nat) (c : Code) (info : Word) : (s.dispose k c info).nuh = s.nuh := rfl
@[simp] theorem State.dispose_nalCount (k : Nat) (c : Code) (info : Word) : (s.dispose k c info).nalCount = s.nalCount := rfl
@[simp] theorem State.dispose_curNal (k : Nat) (c : Code) (info : Word) : (s.dispose k c info).curNal = s.curNal := rfl
@[simp] theorem State.dispose_timing (k : Nat) (c : Code) (info : Word) : (s.dispose k c info).timing = s.timing := rfl
@[simp] theorem State.dispose_reader (k : Nat) (c : Code) (info : Word) : (s.dispose k c info).reader = s.reader := rfl
@[simp] theorem State.dispose_v (k : Nat) (c : Code) (info : Word) : (s.dispose k c info).v = s.v := rfl
@[simp] theorem State.dispose_seqPc (k : Nat) (c : Code) (info : Word) : (s.dispose k c info).seqPc = s.seqPc := rfl
@[simp] theorem State.dispose_stepCount (k : Nat) (c : Code) (info : Word) : (s.dispose k c info).stepCount = s.stepCount := rfl
@[simp] theorem State.dispose_decNext (k : Nat) (c : Code) (info : Word) : (s.dispose k c info).decNext = s.decNext := rfl
@[simp] theorem State.dispose_mem (k : Nat) (c : Code) (info : Word) : (s.dispose k c info).mem = (s.mem.setNaltWord k 2 (setDisp (s.mem.naltWord k 2) c)).setNaltWord k 3 info := rfl
@[simp] theorem State.dispose_params (k : Nat) (c : Code) (info : Word) : (s.dispose k c info).params = s.params := rfl
@[simp] theorem State.dispose_engine (k : Nat) (c : Code) (info : Word) : (s.dispose k c info).engine = s.engine := rfl
@[simp] theorem State.dispose_latch (k : Nat) (c : Code) (info : Word) : (s.dispose k c info).latch = s.latch := rfl
@[simp] theorem State.dispose_inputs (k : Nat) (c : Code) (info : Word) : (s.dispose k c info).inputs = s.inputs := rfl
@[simp] theorem State.dispose_readData (k : Nat) (c : Code) (info : Word) : (s.dispose k c info).readData = s.readData := rfl
@[simp] theorem State.dispose_free (k : Nat) (c : Code) (info : Word) : (s.dispose k c info).free = s.free := rfl

/-! ### State.nextUnit -/

@[simp] theorem State.nextUnit_block : (s.nextUnit).block = s.block := rfl
@[simp] theorem State.nextUnit_done : (s.nextUnit).done = s.done := rfl
@[simp] theorem State.nextUnit_errFlag : (s.nextUnit).errFlag = s.errFlag := rfl
@[simp] theorem State.nextUnit_spsValid : (s.nextUnit).spsValid = s.spsValid := rfl
@[simp] theorem State.nextUnit_cmd : (s.nextUnit).cmd = s.cmd := rfl
@[simp] theorem State.nextUnit_ops : (s.nextUnit).ops = s.ops := rfl
@[simp] theorem State.nextUnit_result : (s.nextUnit).result = s.result := rfl
@[simp] theorem State.nextUnit_error : (s.nextUnit).error = s.error := rfl
@[simp] theorem State.nextUnit_warn : (s.nextUnit).warn = s.warn := rfl
@[simp] theorem State.nextUnit_warnTag : (s.nextUnit).warnTag = s.warnTag := rfl
@[simp] theorem State.nextUnit_irqEn : (s.nextUnit).irqEn = s.irqEn := rfl
@[simp] theorem State.nextUnit_irqPend : (s.nextUnit).irqPend = s.irqPend := rfl
@[simp] theorem State.nextUnit_nuh : (s.nextUnit).nuh = s.nuh := rfl
@[simp] theorem State.nextUnit_nalCount : (s.nextUnit).nalCount = s.nalCount := rfl
@[simp] theorem State.nextUnit_curNal : (s.nextUnit).curNal = s.decNext := rfl
@[simp] theorem State.nextUnit_timing : (s.nextUnit).timing = s.timing := rfl
@[simp] theorem State.nextUnit_reader : (s.nextUnit).reader = s.reader := rfl
@[simp] theorem State.nextUnit_v : (s.nextUnit).v = s.v := rfl
@[simp] theorem State.nextUnit_seqPc : (s.nextUnit).seqPc = s.seqPc := rfl
@[simp] theorem State.nextUnit_stepCount : (s.nextUnit).stepCount = s.stepCount := rfl
@[simp] theorem State.nextUnit_decNext : (s.nextUnit).decNext = s.decNext + 1#32 := rfl
@[simp] theorem State.nextUnit_mem : (s.nextUnit).mem = s.mem := rfl
@[simp] theorem State.nextUnit_params : (s.nextUnit).params = s.params := rfl
@[simp] theorem State.nextUnit_engine : (s.nextUnit).engine = s.engine := rfl
@[simp] theorem State.nextUnit_latch : (s.nextUnit).latch = s.latch := rfl
@[simp] theorem State.nextUnit_inputs : (s.nextUnit).inputs = s.inputs := rfl
@[simp] theorem State.nextUnit_readData : (s.nextUnit).readData = s.readData := rfl
@[simp] theorem State.nextUnit_free : (s.nextUnit).free = s.free := rfl

/-! ### State.startSps -/

@[simp] theorem State.startSps_block (c : Engine) : (s.startSps c).block = s.block := rfl
@[simp] theorem State.startSps_done (c : Engine) : (s.startSps c).done = s.done := rfl
@[simp] theorem State.startSps_errFlag (c : Engine) : (s.startSps c).errFlag = s.errFlag := rfl
@[simp] theorem State.startSps_spsValid (c : Engine) : (s.startSps c).spsValid = false := rfl
@[simp] theorem State.startSps_cmd (c : Engine) : (s.startSps c).cmd = s.cmd := rfl
@[simp] theorem State.startSps_ops (c : Engine) : (s.startSps c).ops = s.ops := rfl
@[simp] theorem State.startSps_result (c : Engine) : (s.startSps c).result = s.result := rfl
@[simp] theorem State.startSps_error (c : Engine) : (s.startSps c).error = s.error := rfl
@[simp] theorem State.startSps_warn (c : Engine) : (s.startSps c).warn = s.warn := rfl
@[simp] theorem State.startSps_warnTag (c : Engine) : (s.startSps c).warnTag = s.warnTag := rfl
@[simp] theorem State.startSps_irqEn (c : Engine) : (s.startSps c).irqEn = s.irqEn := rfl
@[simp] theorem State.startSps_irqPend (c : Engine) : (s.startSps c).irqPend = s.irqPend := rfl
@[simp] theorem State.startSps_nuh (c : Engine) : (s.startSps c).nuh = s.nuh := rfl
@[simp] theorem State.startSps_nalCount (c : Engine) : (s.startSps c).nalCount = s.nalCount := rfl
@[simp] theorem State.startSps_curNal (c : Engine) : (s.startSps c).curNal = s.curNal := rfl
@[simp] theorem State.startSps_timing (c : Engine) : (s.startSps c).timing = s.timing := rfl
@[simp] theorem State.startSps_reader (c : Engine) : (s.startSps c).reader = s.reader := rfl
@[simp] theorem State.startSps_v (c : Engine) : (s.startSps c).v = vCleared := rfl
@[simp] theorem State.startSps_seqPc (c : Engine) : (s.startSps c).seqPc = s.latch.spsEntry := rfl
@[simp] theorem State.startSps_stepCount (c : Engine) : (s.startSps c).stepCount = 0#32 := rfl
@[simp] theorem State.startSps_decNext (c : Engine) : (s.startSps c).decNext = s.decNext := rfl
@[simp] theorem State.startSps_mem (c : Engine) : (s.startSps c).mem = s.mem.clearRecord := rfl
@[simp] theorem State.startSps_params (c : Engine) : (s.startSps c).params = s.params := rfl
@[simp] theorem State.startSps_engine (c : Engine) : (s.startSps c).engine = c := rfl
@[simp] theorem State.startSps_latch (c : Engine) : (s.startSps c).latch = s.latch := rfl
@[simp] theorem State.startSps_inputs (c : Engine) : (s.startSps c).inputs = s.inputs := rfl
@[simp] theorem State.startSps_readData (c : Engine) : (s.startSps c).readData = s.readData := rfl
@[simp] theorem State.startSps_free (c : Engine) : (s.startSps c).free = s.free := rfl

/-! ### State.commandReset -/

@[simp] theorem State.commandReset_v : (s.commandReset).v = s.v := rfl
@[simp] theorem State.commandReset_mem : (s.commandReset).mem = s.mem := rfl
@[simp] theorem State.commandReset_params : (s.commandReset).params = s.params := rfl
@[simp] theorem State.commandReset_inputs : (s.commandReset).inputs = s.inputs := rfl
@[simp] theorem State.commandReset_readData : (s.commandReset).readData = s.readData := rfl
@[simp] theorem State.commandReset_free : (s.commandReset).free = s.free := rfl

/-! ### State.returns -/

@[simp] theorem State.returns_block (w : Word) : (s.returns w).block = s.block := rfl
@[simp] theorem State.returns_done (w : Word) : (s.returns w).done = s.done := rfl
@[simp] theorem State.returns_errFlag (w : Word) : (s.returns w).errFlag = s.errFlag := rfl
@[simp] theorem State.returns_spsValid (w : Word) : (s.returns w).spsValid = s.spsValid := rfl
@[simp] theorem State.returns_cmd (w : Word) : (s.returns w).cmd = s.cmd := rfl
@[simp] theorem State.returns_ops (w : Word) : (s.returns w).ops = s.ops := rfl
@[simp] theorem State.returns_result (w : Word) : (s.returns w).result = s.result := rfl
@[simp] theorem State.returns_error (w : Word) : (s.returns w).error = s.error := rfl
@[simp] theorem State.returns_warn (w : Word) : (s.returns w).warn = s.warn := rfl
@[simp] theorem State.returns_warnTag (w : Word) : (s.returns w).warnTag = s.warnTag := rfl
@[simp] theorem State.returns_irqEn (w : Word) : (s.returns w).irqEn = s.irqEn := rfl
@[simp] theorem State.returns_irqPend (w : Word) : (s.returns w).irqPend = s.irqPend := rfl
@[simp] theorem State.returns_nuh (w : Word) : (s.returns w).nuh = s.nuh := rfl
@[simp] theorem State.returns_nalCount (w : Word) : (s.returns w).nalCount = s.nalCount := rfl
@[simp] theorem State.returns_curNal (w : Word) : (s.returns w).curNal = s.curNal := rfl
@[simp] theorem State.returns_timing (w : Word) : (s.returns w).timing = s.timing := rfl
@[simp] theorem State.returns_reader (w : Word) : (s.returns w).reader = s.reader := rfl
@[simp] theorem State.returns_v (w : Word) : (s.returns w).v = s.v := rfl
@[simp] theorem State.returns_seqPc (w : Word) : (s.returns w).seqPc = s.seqPc := rfl
@[simp] theorem State.returns_stepCount (w : Word) : (s.returns w).stepCount = s.stepCount := rfl
@[simp] theorem State.returns_decNext (w : Word) : (s.returns w).decNext = s.decNext := rfl
@[simp] theorem State.returns_mem (w : Word) : (s.returns w).mem = s.mem := rfl
@[simp] theorem State.returns_params (w : Word) : (s.returns w).params = s.params := rfl
@[simp] theorem State.returns_engine (w : Word) : (s.returns w).engine = s.engine := rfl
@[simp] theorem State.returns_latch (w : Word) : (s.returns w).latch = s.latch := rfl
@[simp] theorem State.returns_inputs (w : Word) : (s.returns w).inputs = s.inputs := rfl
@[simp] theorem State.returns_readData (w : Word) : (s.returns w).readData = w := rfl
@[simp] theorem State.returns_free (w : Word) : (s.returns w).free = s.free := rfl

/-! ### The parts of Memory -/

variable (m : Memory) (k i : Nat) (w : Word)

@[simp] theorem Memory.setNaltWord_au : (m.setNaltWord k i w).au = m.au := rfl
@[simp] theorem Memory.setNaltWord_rbsp : (m.setNaltWord k i w).rbsp = m.rbsp := rfl
@[simp] theorem Memory.setNaltWord_nalt : (m.setNaltWord k i w).nalt = m.nalt.write (4 * k + i) w := rfl
@[simp] theorem Memory.setNaltWord_ustore : (m.setNaltWord k i w).ustore = m.ustore := rfl
@[simp] theorem Memory.setNaltWord_record : (m.setNaltWord k i w).record = m.record := rfl
@[simp] theorem Memory.setNaltWord_recordWr : (m.setNaltWord k i w).recordWr = m.recordWr := rfl
@[simp] theorem Memory.setRecord_au : (m.setRecord i w).au = m.au := rfl
@[simp] theorem Memory.setRecord_rbsp : (m.setRecord i w).rbsp = m.rbsp := rfl
@[simp] theorem Memory.setRecord_nalt : (m.setRecord i w).nalt = m.nalt := rfl
@[simp] theorem Memory.setRecord_ustore : (m.setRecord i w).ustore = m.ustore := rfl
@[simp] theorem Memory.setRecord_record : (m.setRecord i w).record = m.record.write i w := rfl
@[simp] theorem Memory.setRecord_recordWr : (m.setRecord i w).recordWr = m.recordWr.write i 1#1 := rfl
@[simp] theorem Memory.clearRecord_au : m.clearRecord.au = m.au := rfl
@[simp] theorem Memory.clearRecord_rbsp : m.clearRecord.rbsp = m.rbsp := rfl
@[simp] theorem Memory.clearRecord_nalt : m.clearRecord.nalt = m.nalt := rfl
@[simp] theorem Memory.clearRecord_ustore : m.clearRecord.ustore = m.ustore := rfl
@[simp] theorem Memory.clearRecord_record : m.clearRecord.record = .cleared := rfl
@[simp] theorem Memory.clearRecord_recordWr : m.clearRecord.recordWr = .cleared := rfl

/-! ### The parts of Reader after a move -/

@[simp] theorem State.moveReader_rbspLen (p : Nat) : (s.moveReader p).reader.rbspLen = s.reader.rbspLen := rfl
@[simp] theorem State.moveReader_bitPos (p : Nat) : (s.moveReader p).reader.bitPos = word p := rfl

end Sys2Proof.Machine
end

