-- ==== Sys2Proof/Laws/Ops.lean ====
section
/-!
SUPPORT. What the shared operations do: the sequencing of functions that may raise, the end of a command with and without
an outcome (47_control.md R501, 60_exceptions.md R611), acceptance (47_control.md R500), variables (10_state.md R60).
-/

namespace Sys2Proof.Machine

/-! ### Functions that may raise -/

@[simp] theorem Eff.bind_ok {α β : Type} (a : α) (s : State) (f : α → State → Eff β) : (Eff.ok a s).bind f = f a s := rfl
@[simp] theorem Eff.bind_raise {α β : Type} (r : Raise) (s : State) (f : α → State → Eff β) :
    (Eff.raise r s).bind f = .raise r s := rfl

theorem Eff.bind_eq_ok {α β : Type} {e : Eff α} {f : α → State → Eff β} {b : β} {u : State}
    (h : e.bind f = .ok b u) : ∃ a t, e = .ok a t ∧ f a t = .ok b u := by
  cases e with
  | ok a t => exact ⟨a, t, rfl, h⟩
  | raise r t => simp at h

theorem Eff.bind_eq_raise {α β : Type} {e : Eff α} {f : α → State → Eff β} {r : Raise} {u : State}
    (h : e.bind f = .raise r u) : e = .raise r u ∨ ∃ a t, e = .ok a t ∧ f a t = .raise r u := by
  cases e with
  | ok a t => exact .inr ⟨a, t, rfl, h⟩
  | raise r' t => cases h; exact .inl rfl

/-! ### Classes -/

theorem Code.setsErr_of_fatal {c : Code} (h : c.cls = .fatal) : c.setsErr = false := by
  simp [Code.setsErr, h]

/-- An outcome of a class other than F leaves the block in IDLE, one of class F in HALTED (47_control.md R501). -/
theorem State.endByClass_cases (s : State) (c : Code) :
    (c.cls = .fatal ∧ s.endByClass c = s.halt) ∨ (c.cls ≠ .fatal ∧ s.endByClass c = s.complete) := by
  unfold State.endByClass
  by_cases h : c.cls = .fatal
  · exact .inl ⟨h, if_pos h⟩
  · exact .inr ⟨h, if_neg h⟩

@[simp] theorem State.endByClass_engine (s : State) (c : Code) : (s.endByClass c).engine = .off := by
  rcases s.endByClass_cases c with ⟨_, h⟩ | ⟨_, h⟩ <;> rw [h] <;> rfl

@[simp] theorem State.endByClass_mem (s : State) (c : Code) : (s.endByClass c).mem = s.mem := by
  rcases s.endByClass_cases c with ⟨_, h⟩ | ⟨_, h⟩ <;> rw [h] <;> rfl

@[simp] theorem State.endByClass_reader (s : State) (c : Code) : (s.endByClass c).reader = s.reader := by
  rcases s.endByClass_cases c with ⟨_, h⟩ | ⟨_, h⟩ <;> rw [h] <;> rfl

@[simp] theorem State.endByClass_params (s : State) (c : Code) : (s.endByClass c).params = s.params := by
  rcases s.endByClass_cases c with ⟨_, h⟩ | ⟨_, h⟩ <;> rw [h] <;> rfl

theorem State.endByClass_block (s : State) (c : Code) : (s.endByClass c).block = .idle ∨ (s.endByClass c).block = .halted := by
  rcases s.endByClass_cases c with ⟨_, h⟩ | ⟨_, h⟩ <;> rw [h]
  · exact .inr rfl
  · exact .inl rfl

/-! ### Ending a command -/

/-- What taking an outcome can change: STATE, DONE, ERR, the error record, IRQ_PEND and the engine, nothing else. -/
theorem State.endWith_frame (s : State) (r : Raise) (pc : Word) :
    s.endWith r pc = { s with
      error := ⟨r.code, pc, r.value, r.min, r.max, r.tag⟩, errFlag := (s.endWith r pc).errFlag,
      block := (s.endWith r pc).block, done := true, irqPend := (s.endWith r pc).irqPend, engine := .off } := by
  unfold State.endWith
  rcases (s.recordOutcome r pc).endByClass_cases r.code with ⟨_, h⟩ | ⟨_, h⟩ <;> rw [h] <;> rfl

/-- A class C or R outcome ends an operation in IDLE with ERR set. -/
theorem State.endWith_failsIdle (s : State) {r : Raise} (pc : Word) (h : r.code.setsErr = true) :
    FailsIdle s (s.endWith r pc) r pc := by
  have hc : r.code.cls ≠ .fatal := by
    intro hf
    rw [Code.setsErr_of_fatal hf] at h
    exact Bool.noConfusion h
  simp [FailsIdle, State.endWith, State.endByClass, hc, State.recordOutcome, State.complete, h, IrqBit.mask]

/-- A class F outcome ends an operation in HALTED. -/
theorem State.endWith_failsHalted (s : State) {r : Raise} (pc : Word) (h : r.code.cls = .fatal) :
    FailsHalted s (s.endWith r pc) r pc := by
  simp [FailsHalted, State.endWith, State.endByClass, h, State.recordOutcome, State.halt, Code.setsErr_of_fatal h,
    IrqBit.mask]

@[simp] theorem State.finishResult_ok (x : Word) (s : State) :
    State.finishResult (.ok x s) = { s with result := x }.complete := rfl
@[simp] theorem State.finishResult_raise (r : Raise) (s : State) :
    State.finishResult (.raise r s) = s.endWith r noPc := rfl

/-- A command without an outcome completes with its result. -/
theorem State.completes_result (s : State) (x : Word) : Completes s { s with result := x }.complete x := rfl

/-! ### Accepting a command -/

theorem State.accept_eq (s : State) (w : Word) (keep : Bool) :
    s.accept w keep = { s with
      cmd := w, done := false, block := .busy, latch := s.ops,
      error := if keep then s.error else .cleared, errFlag := if keep then s.errFlag else false } := by
  cases keep <;> rfl

/-! ### Variables -/

@[simp] theorem State.getV_zero (s : State) : s.getV 0#8 = 0#32 := rfl

/-- A write to a variable is seen by its reads, but for V[0] (10_state.md R60). -/
theorem State.getV_setV (s : State) (d : BitVec 8) (x : Word) (i : BitVec 8) :
    (s.setV d x).getV i = if i = d ∧ i ≠ 0#8 then x else s.getV i := by
  unfold State.getV State.setV State.vWith
  by_cases hi : i = 0#8
  · simp [hi]
  · by_cases hd : d = 0#8
    · have : i ≠ d := by rintro rfl; exact hi hd
      simp [hi, hd]
    · by_cases h : i = d
      · subst h; simp [hi]
      · have h' : d.toNat ≠ i.toNat := fun e => h (BitVec.eq_of_toNat_eq e.symm)
        simp [hi, hd, h, h']

theorem State.getV_congr {s t : State} (h : t.v = s.v) (i : BitVec 8) : t.getV i = s.getV i := by
  unfold State.getV; simp only [h]

theorem State.getV_startSps (s : State) (c : Engine) (i : BitVec 8) : (s.startSps c).getV i = 0#32 := by
  unfold State.getV
  split
  · rfl
  · simp [vCleared]

end Sys2Proof.Machine
end

