-- ==== Sys2Proof/Laws/Bus.lean ====
section
/-!
SUPPORT. The host interface: what an address reaches (20_memory.md R104-R114), what a host access can change, and what a
CMD write does (10_state.md R55, 47_control.md R500).
-/

namespace Sys2Proof.Machine

open Config (Params)

/-! ### The address map -/

/-- A 32-bit access below the byte windows (20_memory.md R104). -/
theorem target_word {p : Params} {addr : Word} (h : addr.toNat < 0x01000000) (h4 : addr.toNat % 4 = 0) :
    target p addr .word = wordWindows p addr.toNat := by
  unfold target
  rw [if_neg (by omega), if_neg (by omega), if_pos ⟨rfl, h4⟩]

/-- A byte access, or a misaligned one, below the byte windows is refused (20_memory.md R113). -/
theorem target_narrow {p : Params} {addr : Word} {width : Width} (h : addr.toNat < 0x01000000)
    (hw : width = .byte ∨ addr.toNat % 4 ≠ 0) : target p addr width = .refused := by
  unfold target
  rw [if_neg (by omega), if_neg (by omega), if_neg]
  rintro ⟨rfl, h4⟩
  rcases hw with hw | hw
  · cases hw
  · exact hw h4

theorem target_au {p : Params} {addr : Word} {width : Width} (h : 0x01000000 ≤ addr.toNat) (h' : addr.toNat < 0x02000000) :
    target p addr width = byteTarget p.auCap (addr.toNat - 0x01000000) width .au := by
  unfold target
  rw [if_neg (by omega), if_pos ⟨h, h'⟩]

theorem target_rbsp {p : Params} {addr : Word} {width : Width} (h : 0x02000000 ≤ addr.toNat)
    (h' : addr.toNat < 0x03000000) :
    target p addr width = byteTarget p.rbspCap (addr.toNat - 0x02000000) width .rbsp := by
  unfold target
  rw [if_pos ⟨h, h'⟩]

/-- Nothing is mapped above the byte windows (20_memory.md R104, R113). -/
theorem target_above {p : Params} {addr : Word} {width : Width} (h : 0x03000000 ≤ addr.toNat) :
    target p addr width = .refused := by
  unfold target
  rw [if_neg (by omega), if_neg (by omega)]
  split
  · unfold wordWindows
    rw [if_neg (by omega), if_neg (by omega), if_neg (by omega), if_neg (by omega), if_neg (by omega)]
  · rfl

/-- A register of the control block (10_state.md R32). -/
theorem target_reg {p : Params} {i : Nat} {r : Reg} (h : Reg.atIndex i = some r) :
    target p (BitVec.ofNat 32 (4 * i)) .word = .reg r := by
  have hi : i < 40 := by
    by_contra hc
    rw [Reg.atIndex, List.getElem?_eq_none (by simp; omega)] at h
    cases h
  have hn : (BitVec.ofNat 32 (4 * i)).toNat = 4 * i := by
    rw [BitVec.toNat_ofNat, Nat.mod_eq_of_lt (by omega)]
  rw [target_word (by omega) (by omega), hn, wordWindows, if_pos (by omega), Nat.mul_div_cancel_left i (by omega), h]

/-- The four 32-bit windows, by element (20_memory.md R104, R105, R107, R108). -/
theorem target_windows {p : Params} (hp : p.valid) :
    (∀ i, i < 4 * p.naltCap → target p (BitVec.ofNat 32 (0x1000 + 4 * i)) .word = .nalt i) ∧
    (∀ h, h < 2 * p.ustoreCap → target p (BitVec.ofNat 32 (0x10000 + 4 * h)) .word = .ustore h) ∧
    (∀ i, i < p.recCap → target p (BitVec.ofNat 32 (0x20000 + 4 * i)) .word = .record i) ∧
    (∀ m, m < p.recCap / 32 → target p (BitVec.ofNat 32 (0x30000 + 4 * m)) .word = .recordWr m) := by
  obtain ⟨⟨_, h1⟩, ⟨_, h2⟩, ⟨_, h3⟩, ⟨_, h4, h5⟩, _⟩ := hp
  have key : ∀ a, a < 0x30800 → a % 4 = 0 → target p (BitVec.ofNat 32 a) .word = wordWindows p a := by
    intro a ha h
    have hn : (BitVec.ofNat 32 a).toNat = a := (BitVec.toNat_ofNat a 32).trans (Nat.mod_eq_of_lt (by omega))
    rw [target_word (by omega) (by omega), hn]
  refine ⟨fun i hi => ?_, fun i hi => ?_, fun i hi => ?_, fun i hi => ?_⟩ <;> rw [key _ (by omega) (by omega)] <;>
    unfold wordWindows wordTarget
  · rw [if_neg (by omega), if_pos (by omega), show (0x1000 + 4 * i - 0x1000) / 4 = i by omega, if_pos hi]
  · rw [if_neg (by omega), if_neg (by omega), if_pos (by omega), show (0x10000 + 4 * i - 0x10000) / 4 = i by omega,
      if_pos hi]
  · rw [if_neg (by omega), if_neg (by omega), if_neg (by omega), if_pos (by omega),
      show (0x20000 + 4 * i - 0x20000) / 4 = i by omega, if_pos hi]
  · rw [if_neg (by omega), if_neg (by omega), if_neg (by omega), if_neg (by omega), if_pos (by omega),
      show (0x30000 + 4 * i - 0x30000) / 4 = i by omega, if_pos hi]

/-- The two byte windows, by element (20_memory.md R104, R106, R112). -/
theorem target_bytes {p : Params} (hp : p.valid) :
    (∀ a, a < p.auCap → target p (BitVec.ofNat 32 (0x01000000 + a)) .byte = .au a) ∧
    (∀ a, a % 4 = 0 → a + 4 ≤ p.auCap → target p (BitVec.ofNat 32 (0x01000000 + a)) .word = .au a) ∧
    (∀ a, a < p.rbspCap → target p (BitVec.ofNat 32 (0x02000000 + a)) .byte = .rbsp a) ∧
    (∀ a, a % 4 = 0 → a + 4 ≤ p.rbspCap → target p (BitVec.ofNat 32 (0x02000000 + a)) .word = .rbsp a) := by
  obtain ⟨⟨_, h1⟩, _⟩ := hp
  unfold Config.Params.rbspCap
  have au : ∀ a width, a < p.auCap → target p (BitVec.ofNat 32 (0x01000000 + a)) width = byteTarget p.auCap a width .au := by
    intro a width ha
    have hn : (BitVec.ofNat 32 (0x01000000 + a)).toNat = 0x01000000 + a :=
      (BitVec.toNat_ofNat _ 32).trans (Nat.mod_eq_of_lt (by omega))
    rw [target_au (by omega) (by omega), hn, Nat.add_sub_cancel_left]
  have rbsp : ∀ a width, a < p.auCap →
      target p (BitVec.ofNat 32 (0x02000000 + a)) width = byteTarget p.auCap a width .rbsp := by
    intro a width ha
    have hn : (BitVec.ofNat 32 (0x02000000 + a)).toNat = 0x02000000 + a :=
      (BitVec.toNat_ofNat _ 32).trans (Nat.mod_eq_of_lt (by omega))
    rw [target_rbsp (by omega) (by omega), hn, Nat.add_sub_cancel_left]
  refine ⟨fun a ha => ?_, fun a h4 ha => ?_, fun a ha => ?_, fun a h4 ha => ?_⟩
  · rw [au a .byte ha]; exact if_pos ha
  · rw [au a .word (by omega)]; exact if_pos ⟨h4, ha⟩
  · rw [rbsp a .byte ha]; exact if_pos ha
  · rw [rbsp a .word (by omega)]; exact if_pos ⟨h4, ha⟩

/-- A reserved offset of the control block (10_state.md R52). -/
theorem target_reserved {p : Params} {a : Nat} (h : 0x0A0 ≤ a) (h' : a < 0x1000) (h4 : a % 4 = 0) :
    target p (BitVec.ofNat 32 a) .word = .reserved := by
  have hn : (BitVec.ofNat 32 a).toNat = a := (BitVec.toNat_ofNat a 32).trans (Nat.mod_eq_of_lt (by omega))
  rw [target_word (by omega) (by omega), hn, wordWindows, if_pos h',
    show Reg.atIndex (a / 4) = none from List.getElem?_eq_none (by simp; omega)]

/-! ### What host accesses change -/

/-- A host read changes nothing but the data it returns, the count of free values and W_BUS (20_memory.md R118). -/
theorem State.hostRead_frame (s : State) (addr : Word) (width : Width) :
    s.hostRead addr width = { s with
      readData := (s.hostRead addr width).readData, free := (s.hostRead addr width).free,
      warn := (s.hostRead addr width).warn } ∧
    ((s.hostRead addr width).warn = s.warn ∨ (s.hostRead addr width).warn = s.warn ||| 0b100000#6) := by
  have owned : ∀ w : Word, s.returnsOwned width w = { s with
      readData := (s.returnsOwned width w).readData, free := (s.returnsOwned width w).free } := by
    intro w
    unfold State.returnsOwned
    split <;> rfl
  have ownedWarn : ∀ w : Word, (s.returnsOwned width w).warn = s.warn := fun w => by rw [owned w]
  unfold State.hostRead
  split
  · split
    · exact ⟨rfl, .inl rfl⟩
    · exact ⟨by rw [ownedWarn]; exact owned _, .inl (ownedWarn _)⟩
  · exact ⟨rfl, .inl rfl⟩
  · exact ⟨by rw [ownedWarn]; exact owned _, .inl (ownedWarn _)⟩
  · exact ⟨rfl, .inl rfl⟩
  · exact ⟨by rw [ownedWarn]; exact owned _, .inl (ownedWarn _)⟩
  · exact ⟨by rw [ownedWarn]; exact owned _, .inl (ownedWarn _)⟩
  · exact ⟨rfl, .inl rfl⟩
  · exact ⟨by rw [ownedWarn]; exact owned _, .inl (ownedWarn _)⟩
  · exact ⟨rfl, .inr rfl⟩

/-- A host read of a register (10_state.md R32, R53). -/
theorem State.hostRead_reg {s : State} {i : Nat} {r : Reg} (h : Reg.atIndex i = some r)
    (hb : s.block ≠ .busy ∨ r.stable = true) :
    s.hostRead (BitVec.ofNat 32 (4 * i)) .word = { s with readData := r.value s } := by
  unfold State.hostRead
  rw [target_reg h]
  simp only [State.returns, State.returnsOwned]
  split
  · rfl
  · rw [if_neg (by simp_all)]

/-- A host write to a register (10_state.md R32). -/
theorem State.hostWrite_reg {s : State} {i : Nat} {r : Reg} (h : Reg.atIndex i = some r) (w : Word) :
    s.hostWrite (BitVec.ofNat 32 (4 * i)) .word w = s.writeReg r w := by
  unfold State.hostWrite
  rw [target_reg h]

/-- What a CMD write does: it is ignored, or it is a legal RESET word, or it is accepted (10_state.md R55). -/
theorem State.writeCmd_cases (s : State) (w : Word) :
    (s.ignoresCmd w = true ∧ s.writeCmd w = s.warnBit .cmdIgnored) ∨
      (s.ignoresCmd w = false ∧ decodeCmd w = .ok .reset ∧ s.writeCmd w = { s with cmd := w, block := .busy }) ∨
      (s.ignoresCmd w = false ∧ decodeCmd w ≠ .ok .reset ∧ s.writeCmd w = s.accept w (cmdOpc w = 0x02#8)) := by
  unfold State.writeCmd
  cases hi : s.ignoresCmd w with
  | true => exact .inl ⟨rfl, if_pos rfl⟩
  | false =>
    by_cases hd : decodeCmd w = .ok .reset
    · exact .inr (.inl ⟨rfl, hd, by rw [hd]; rfl⟩)
    · refine .inr (.inr ⟨rfl, hd, ?_⟩)
      rw [if_neg Bool.false_ne_true]
      split
      · rename_i h; exact absurd h hd
      · rfl

/-- A host write changes the registers the host owns, AU, USTORE and the warnings, or it issues a command; the block's
own registers and memories stay (20_memory.md R115, R116; 10_state.md section 3). -/
theorem State.hostWrite_frame (s : State) (addr : Word) (width : Width) (w : Word) :
    (s.hostWrite addr width w = s.writeCmd w ∧ target s.params addr width = .reg .cmd) ∨
    s.hostWrite addr width w = { s with
      ops := (s.hostWrite addr width w).ops, warn := (s.hostWrite addr width w).warn,
      irqEn := (s.hostWrite addr width w).irqEn, irqPend := (s.hostWrite addr width w).irqPend,
      timing := (s.hostWrite addr width w).timing,
      mem := { s.mem with
        au := (s.hostWrite addr width w).mem.au, ustore := (s.hostWrite addr width w).mem.ustore } } := by
  unfold State.hostWrite
  split
  · rename_i r hr
    cases r with
    | cmd => exact .inl ⟨rfl, hr⟩
    | _ => exact .inr rfl
  · exact .inr rfl
  · split <;> exact .inr rfl
  · split <;> exact .inr rfl
  all_goals exact .inr rfl

/-- REC_WR bit `32·m + b` is bit `b` of word `m` (20_memory.md R108). -/
theorem Memory.recordWrWord_getLsbD (mem : Memory) (m b : Nat) (hb : b < 32) :
    (mem.recordWrWord m).getLsbD b = (mem.recordWr.read (32 * m + b)).getLsbD 0 := by
  unfold Memory.recordWrWord
  have step : ∀ n, n ≤ 32 → ((List.range n).foldl
      (fun acc b => acc ||| ((mem.recordWr.read (32 * m + b)).setWidth 32 <<< b)) 0#32).getLsbD b =
      (decide (b < n) && (mem.recordWr.read (32 * m + b)).getLsbD 0) := by
    intro n hn
    induction n with
    | zero => simp
    | succ n ih =>
      rw [List.range_succ, List.foldl_append, List.foldl_cons, List.foldl_nil, BitVec.getLsbD_or, ih (by omega),
        BitVec.getLsbD_shiftLeft, BitVec.getLsbD_setWidth]
      rcases Nat.lt_trichotomy b n with h | rfl | h
      · simp [h, show b < n + 1 by omega]
      · simp [hb]
      · rw [BitVec.getLsbD_of_ge _ (b - n) (by omega)]
        simp [show ¬ b < n by omega, show ¬ b < n + 1 by omega]
  rw [step 32 (Nat.le_refl _)]
  simp [hb]

end Sys2Proof.Machine
end

