-- ==== Sys2Proof/Laws/Reader.lean ====
section
/-!
SUPPORT. The bit reader: what a bit string is worth (00_scope.md R14), what `read` and `peek` do (41_bit_reader.md R202,
R203), and where moving the reader leaves its registers (10_state.md R56-R58).
-/

namespace Sys2Proof.Machine

/-! ### The stream -/

@[simp] theorem stream_zero (b : Bank 8) (k : Nat) : stream b k 0 = 0 := rfl

theorem stream_succ (b : Bank 8) (k n : Nat) : stream b k (n + 1) = 2 * stream b k n + (streamBit b (k + n)).toNat := rfl

@[simp] theorem stream_one (b : Bank 8) (k : Nat) : stream b k 1 = (streamBit b k).toNat := by
  simp [stream_succ]

theorem stream_lt (b : Bank 8) (k n : Nat) : stream b k n < 2 ^ n := by
  induction n with
  | zero => simp
  | succ n ih =>
    rw [stream_succ, Nat.pow_succ]
    have := Bool.toNat_le (streamBit b (k + n))
    omega

/-- The bits of a bit string, the first the most significant (00_scope.md R14). -/
theorem stream_testBit (b : Bank 8) (k : Nat) {n i : Nat} (h : i < n) :
    (stream b k n).testBit i = streamBit b (k + (n - 1 - i)) := by
  induction n generalizing i with
  | zero => omega
  | succ n ih =>
    rw [stream_succ]
    cases i with
    | zero => rw [Nat.testBit_zero, Nat.add_sub_cancel, Nat.sub_zero]; cases streamBit b (k + n) <;> simp
    | succ i =>
      rw [Nat.testBit_succ, show (2 * stream b k n + (streamBit b (k + n)).toNat) / 2 = stream b k n by
        cases streamBit b (k + n) <;> (simp; try omega), ih (by omega)]
      congr 1
      omega

/-- A bit string split in two. -/
theorem stream_add (b : Bank 8) (k m n : Nat) :
    stream b k (m + n) = stream b k m * 2 ^ n + stream b (k + m) n := by
  induction n with
  | zero => simp
  | succ n ih =>
    rw [← Nat.add_assoc, stream_succ, ih, stream_succ, Nat.pow_succ, Nat.add_assoc k m n]
    ring

/-- The first bit is the most significant one. -/
theorem stream_succ' (b : Bank 8) (k n : Nat) :
    stream b k (n + 1) = (streamBit b k).toNat * 2 ^ n + stream b (k + 1) n := by
  rw [Nat.add_comm n 1, stream_add, stream_one]

theorem stream_congr {b c : Bank 8} {k l n : Nat} (h : ∀ j < n, streamBit b (k + j) = streamBit c (l + j)) :
    stream b k n = stream c l n := by
  induction n with
  | zero => rfl
  | succ n ih => rw [stream_succ, stream_succ, ih fun j hj => h j (by omega), h n (by omega)]

/-- A run of 0 bits is worth 0. -/
theorem stream_zeros {b : Bank 8} {k n : Nat} (h : ∀ j < n, streamBit b (k + j) = false) : stream b k n = 0 := by
  induction n with
  | zero => rfl
  | succ n ih => rw [stream_succ, ih fun j hj => h j (by omega), h n (by omega)]; rfl

theorem word_stream_toNat (b : Bank 8) (k : Nat) {n : Nat} (h : n ≤ 32) : (word (stream b k n)).toNat = stream b k n := by
  rw [BitVec.toNat_ofNat, Nat.mod_eq_of_lt]
  exact Nat.lt_of_lt_of_le (stream_lt b k n) (Nat.pow_le_pow_right (by omega) h)

/-! ### Moving the reader -/

theorem State.bitPos_toNat (s : State) : s.reader.bitPos.toNat = s.bitPos := rfl

theorem State.bitPos_lt (s : State) : s.bitPos < 2 ^ 32 := s.reader.bitPos.isLt

theorem State.bitPos_moveReader (s : State) {pos : Nat} (h : pos < 2 ^ 32) : (s.moveReader pos).bitPos = pos := by
  unfold State.bitPos State.moveReader
  exact (BitVec.toNat_ofNat pos 32).trans (Nat.mod_eq_of_lt h)

/-- Moving the reader changes the reader's registers and the count of free values, nothing else. -/
theorem State.moveReader_frame (s : State) (pos : Nat) :
    s.moveReader pos = { s with reader := (s.moveReader pos).reader, free := s.free + 1 } := rfl

/-- A move inside the RBSP consumes the bits it passes. -/
theorem State.moveReader_consumed {s : State} {n : Nat} (h : s.bitPos + n < 2 ^ 32) :
    Consumed s (s.moveReader (s.bitPos + n)) n :=
  ⟨rfl, rfl, s.bitPos_moveReader h⟩

/-- BR_POS at a position in the RBSP is a byte count that R58 allows (10_state.md R58). -/
theorem State.refillPos_bounds (s : State) {pos : Nat} (h : pos ≤ s.streamLen) :
    pos ≤ 8 * s.refillPos pos ∧ s.refillPos pos ≤ s.reader.rbspLen.toNat ∧ 8 * s.refillPos pos ≤ pos + 64 := by
  unfold State.streamLen at h
  unfold State.refillPos
  simp only
  have := Nat.mod_lt (Config.refillChoice s.free) (y := min s.reader.rbspLen.toNat ((pos + 64) / 8) - (pos + 7) / 8 + 1)
    (by omega)
  omega

/-- Moving the reader keeps its invariant (10_state.md R56-R58). -/
theorem State.moveReader_inv {s : State} {pos : Nat} (hl : s.reader.rbspLen.toNat ≤ s.params.rbspCap)
    (hb : s.streamLen < 2 ^ 32) (h : pos ≤ s.streamLen) : (s.moveReader pos).ReaderInv := by
  have hp := s.bitPos_moveReader (pos := pos) (by omega)
  obtain ⟨h1, h2, h3⟩ := s.refillPos_bounds h
  have hlen : s.refillPos pos < 2 ^ 32 := Nat.lt_of_le_of_lt h2 s.reader.rbspLen.isLt
  have hpos : (s.moveReader pos).reader.pos.toNat = s.refillPos pos :=
    (BitVec.toNat_ofNat _ 32).trans (Nat.mod_eq_of_lt hlen)
  have hn : (s.moveReader pos).reader.nhb.toNat = 8 * s.refillPos pos - pos :=
    (BitVec.toNat_ofNat _ 32).trans (Nat.mod_eq_of_lt (by omega))
  have hh : (s.moveReader pos).reader.held.toNat =
      stream s.mem.rbsp pos (8 * s.refillPos pos - pos) * 2 ^ (64 - (8 * s.refillPos pos - pos)) := by
    refine (BitVec.toNat_ofNat _ 64).trans (Nat.mod_eq_of_lt ?_)
    refine Nat.lt_of_lt_of_le (Nat.mul_lt_mul_of_pos_right (stream_lt _ _ _) (by positivity)) ?_
    rw [← Nat.pow_add]
    exact Nat.pow_le_pow_right (by omega) (by omega)
  refine ⟨hl, ?_, ?_, ?_, ?_, ?_, ?_⟩
  · rw [hp]; exact h
  · rw [hpos]; exact h2
  · rw [hn]; omega
  · rw [hp, hn, hpos]; omega
  · unfold topBits
    rw [hh, hn, hp, Nat.mul_div_cancel _ (by positivity)]
    rfl
  · rw [hh, hn, Nat.mul_mod_left]

/-- A reader at the start with nothing held satisfies its invariant. -/
theorem State.reader_start_inv {s : State} {n : Word} (hl : n.toNat ≤ s.params.rbspCap)
    (h : s.reader = ⟨n, 0#32, 0#32, 0#32, 0#64⟩) : s.ReaderInv := by
  refine ⟨by rw [h]; exact hl, ?_, ?_, ?_, ?_, ?_, ?_⟩ <;> simp [State.bitPos, h, topBits]

/-! ### read -/

theorem State.read_width {s : State} {n : Nat} (h : 32 < n) :
    s.read n = .raise { code := .fBrWidth, value := word n } s := by
  unfold State.read; rw [if_pos h]

theorem State.read_underflow {s : State} {n : Nat} (h : n ≤ 32) (h' : s.bitsLeft < n) :
    s.read n = .raise { code := .eBrUnderflow, value := word n, max := word s.bitsLeft } s := by
  unfold State.read; rw [if_neg (by omega), if_pos h']

/-- `read(n)` returns the next `n` bits and consumes them (41_bit_reader.md R202). -/
theorem State.read_ok {s : State} {n : Nat} (hb : s.readerBounds) (h : n ≤ 32) (h' : n ≤ s.bitsLeft) :
    ∃ t, s.read n = .ok (word (stream s.mem.rbsp s.bitPos n)) t ∧ Consumed s t n := by
  unfold State.read
  rw [if_neg (by omega), if_neg (by omega)]
  by_cases h0 : n = 0
  · subst h0
    exact ⟨s, if_pos rfl, rfl, rfl, rfl⟩
  · refine ⟨_, if_neg h0, State.moveReader_consumed ?_⟩
    have := hb.2
    unfold State.bitsLeft at h'
    have := hb.1
    omega

/-- Everything `read(n)` can do. -/
theorem State.read_cases (s : State) (n : Nat) :
    (∃ r, s.read n = .raise r s ∧ (r.code = .fBrWidth ∨ r.code = .eBrUnderflow)) ∨
      (n ≤ 32 ∧ n ≤ s.bitsLeft ∧ ∃ t, s.read n = .ok (word (stream s.mem.rbsp s.bitPos n)) t ∧
        (t = s ∧ n = 0 ∨ t = s.moveReader (s.bitPos + n))) := by
  by_cases h : 32 < n
  · exact .inl ⟨_, State.read_width h, .inl rfl⟩
  · by_cases h' : s.bitsLeft < n
    · exact .inl ⟨_, State.read_underflow (by omega) h', .inr rfl⟩
    · refine .inr ⟨by omega, by omega, ?_⟩
      unfold State.read
      rw [if_neg h, if_neg h']
      by_cases h0 : n = 0
      · subst h0
        exact ⟨s, if_pos rfl, .inl ⟨rfl, rfl⟩⟩
      · exact ⟨_, if_neg h0, .inr rfl⟩

/-! ### peek -/

/-- `peek(n)` changes nothing (41_bit_reader.md R203, R212). -/
theorem State.peek_cases (s : State) (n : Nat) :
    (32 < n ∧ s.peek n = .raise { code := .fBrWidth, value := word n } s) ∨ (n ≤ 32 ∧ ∃ x, s.peek n = .ok x s) := by
  unfold State.peek
  by_cases h : 32 < n
  · exact .inl ⟨h, if_pos h⟩
  · exact .inr ⟨by omega, _, if_neg h⟩

/-! ### Consuming bits -/

theorem Consumed.refl (s : State) : Consumed s s 0 := ⟨rfl, rfl, rfl⟩

theorem Consumed.trans {s t u : State} {m n : Nat} (h : Consumed s t m) (h' : Consumed t u n) :
    Consumed s u (m + n) := by
  obtain ⟨h1, h2, h3⟩ := h
  obtain ⟨k1, k2, k3⟩ := h'
  refine ⟨?_, k2.trans h2, by rw [k3, h3, Nat.add_assoc]⟩
  rw [k1, h1]

theorem Consumed.mem {s t : State} {n : Nat} (h : Consumed s t n) : t.mem = s.mem := by rw [h.1]
theorem Consumed.params {s t : State} {n : Nat} (h : Consumed s t n) : t.params = s.params := by rw [h.1]
theorem Consumed.streamLen {s t : State} {n : Nat} (h : Consumed s t n) : t.streamLen = s.streamLen := by
  unfold State.streamLen; rw [h.2.1]

theorem Consumed.bitsLeft {s t : State} {n : Nat} (h : Consumed s t n) : t.bitsLeft = s.bitsLeft - n := by
  unfold State.bitsLeft; rw [h.streamLen, h.2.2]; omega

theorem Consumed.bounds {s t : State} {n : Nat} (h : Consumed s t n) (hb : s.readerBounds) (hn : n ≤ s.bitsLeft) :
    t.readerBounds := by
  have := hb.1
  unfold State.bitsLeft at hn
  exact ⟨by rw [h.streamLen, h.2.2]; omega, by rw [h.streamLen]; exact hb.2⟩

end Sys2Proof.Machine
end

