-- ==== Sys2Proof/Laws/Header.lean ====
section
/-!
SUPPORT. The NAL unit header: what a header parse changes and which outcomes it has (44_nal_header.md R332-R338), and the
type dispatch (R340).
-/

namespace Sys2Proof.Machine

/-- The two header warnings change WARN only (44_nal_header.md R333). -/
theorem State.headerWarnings_frame (s : State) (h : Nuh) :
    s.headerWarnings h = { s with warn := (s.headerWarnings h).warn } := by
  unfold State.headerWarnings
  simp only
  split <;> split <;> rfl

/-- Storing a header word changes NUH and WARN only (44_nal_header.md R332, R333). -/
theorem State.storeHeader_frame (s : State) (w : Word) :
    s.storeHeader w = { s with nuh := headerFields w s.nuh.vcl, warn := (s.storeHeader w).warn } := by
  unfold State.storeHeader
  simp only
  rw [State.headerWarnings_frame]

theorem State.storeHeader_warn (s : State) (w : Word) :
    (s.storeHeader w).warn = headerWarn s.warn (headerFields w s.nuh.vcl) := by
  unfold State.storeHeader State.headerWarnings headerWarn
  generalize headerFields w s.nuh.vcl = h
  by_cases h1 : h.fzb = 1#1 <;> by_cases h2 : h.rzb = 1#1 <;> simp [h1, h2, WarnBit.mask]

/-- The 16 header bits at the start of a buffer are its first two bytes (44_nal_header.md R330). -/
theorem headerFields_bytes (b : Bank 8) (vcl : BitVec 1) :
    headerFields (word (stream b 0 16)) vcl = rawHeader (b.read 0) (b.read 1) vcl := by
  have bit : ∀ i < 16, (word (stream b 0 16)).getLsbD i = streamBit b (15 - i) := by
    intro i hi
    rw [word, BitVec.getLsbD_ofNat, stream_testBit b 0 hi, Nat.zero_add]
    simp [show i < 32 by omega]
  have hi : ∀ i < 8, (word (stream b 0 16)).getLsbD (i + 8) = (b.read 0).getLsbD i := by
    intro i h
    rw [bit _ (by omega), streamBit, show (15 - (i + 8)) / 8 = 0 by omega, show 7 - (15 - (i + 8)) % 8 = i by omega]
  have lo : ∀ i < 8, (word (stream b 0 16)).getLsbD i = (b.read 1).getLsbD i := by
    intro i h
    rw [bit _ (by omega), streamBit, show (15 - i) / 8 = 1 by omega, show 7 - (15 - i) % 8 = i by omega]
  have upper : ∀ a n, a + n ≤ 8 →
      (word (stream b 0 16)).extractLsb' (a + 8) n = (b.read 0).extractLsb' a n := by
    intro a n h
    ext i hn
    rw [BitVec.getElem_extractLsb', BitVec.getElem_extractLsb', ← hi _ (by omega)]
    congr 1
    omega
  have lower : ∀ a n, a + n ≤ 8 → (word (stream b 0 16)).extractLsb' a n = (b.read 1).extractLsb' a n := by
    intro a n h
    ext i hn
    rw [BitVec.getElem_extractLsb', BitVec.getElem_extractLsb', ← lo _ (by omega)]
  unfold headerFields rawHeader
  rw [upper 7 1 (by omega), upper 6 1 (by omega), upper 0 6 (by omega), lower 3 5 (by omega), lower 0 3 (by omega)]

/-- A header's first failing check and its dispatch, in the terms of the statements (44_nal_header.md R334-R340). -/
theorem headerEnd_eq (h : Nuh) :
    headerEnd h = match headerCheck h with
      | some r => .outcome r
      | none => match typeClass h.typ with
        | .sps => .sps
        | .stub => .stub
        | .reserved => .outcome { code := .eNalTypeReserved, value := h.typ.setWidth 32 } := by
  unfold headerEnd headerOutcome headerCheck
  by_cases a : 55 < h.layerId.toNat
  · simp [a]
  · by_cases b : h.tidPlus1 = 0#3
    · simp [a, b]
    · have b' : h.tidPlus1.toNat ≠ 0 := fun hc => b (BitVec.eq_of_toNat_eq hc)
      by_cases c : 7 ≤ h.typ.toNat ∧ h.typ.toNat ≤ 11 ∧ h.tidPlus1.toNat ≠ 1
      · have c' : (7 ≤ h.typ.toNat ∧ h.typ.toNat ≤ 11) ∧ h.tidPlus1.toNat - 1 ≠ 0 := ⟨⟨c.1, c.2.1⟩, by omega⟩
        simp only [if_neg a, if_neg b', if_pos c, if_neg b, if_pos c']
      · have c' : ¬ ((7 ≤ h.typ.toNat ∧ h.typ.toNat ≤ 11) ∧ h.tidPlus1.toNat - 1 ≠ 0) := by omega
        by_cases d : h.typ.toNat = 1 ∧ h.layerId.toNat = 0 ∧ h.tidPlus1.toNat = 1
        · have d' : h.typ.toNat = 1 ∧ h.layerId.toNat = 0 ∧ h.tidPlus1.toNat - 1 = 0 := by omega
          simp only [if_neg a, if_neg b', if_neg c, if_pos d, if_neg b, if_neg c', if_pos d']
        · have d' : ¬ (h.typ.toNat = 1 ∧ h.layerId.toNat = 0 ∧ h.tidPlus1.toNat - 1 = 0) := by omega
          cases typeClass h.typ <;> simp only [if_neg a, if_neg b', if_neg c, if_neg d, if_neg b, if_neg c', if_neg d']

/-- The outcomes of a header are of class R, but for S_LAYER_ID (44_nal_header.md R334-R337). -/
theorem headerCheck_class {h : Nuh} {r : Raise} (hr : headerCheck h = some r) :
    r.code = .sLayerId ∨ r.code.cls = .recoverable := by
  unfold headerCheck at hr
  split at hr
  · cases hr; exact .inl rfl
  · split at hr
    · cases hr; exact .inr (by simp)
    · split at hr
      · cases hr; exact .inr (by simp)
      · split at hr
        · cases hr; exact .inr (by simp)
        · cases hr

/-- Everything a header parse can do: an underflow before any effect, or the header stored, with its check's outcome if it
has one (44_nal_header.md R332, R338). -/
theorem State.parseHeader_cases (s : State) :
    (s.bitsLeft < 16 ∧
      s.parseHeader = .raise { code := .eBrUnderflow, value := 16#32, max := word s.bitsLeft } s) ∨
    (16 ≤ s.bitsLeft ∧ ∃ t, t = (s.moveReader (s.bitPos + 16)).storeHeader (word (stream s.mem.rbsp s.bitPos 16)) ∧
      ((headerCheck t.nuh = none ∧ s.parseHeader = .ok () t) ∨
        ∃ r, headerCheck t.nuh = some r ∧ s.parseHeader = .raise r t)) := by
  by_cases h : s.bitsLeft < 16
  · refine .inl ⟨h, ?_⟩
    unfold State.parseHeader
    rw [State.read_underflow (by omega) h, Eff.bind_raise]
  · refine .inr ⟨by omega, _, rfl, ?_⟩
    have hr : s.read 16 = .ok (word (stream s.mem.rbsp s.bitPos 16)) (s.moveReader (s.bitPos + 16)) := by
      unfold State.read
      rw [if_neg (by omega), if_neg h, if_neg (by omega)]
    unfold State.parseHeader
    rw [hr, Eff.bind_ok]
    simp only
    split
    · rename_i r hc; exact .inr ⟨r, hc, rfl⟩
    · rename_i hc; exact .inl ⟨hc, rfl⟩

/-- Only type 15 is dispatched to the SPS parser (44_nal_header.md R340). -/
theorem typeClass_eq_sps {t : BitVec 5} (h : typeClass t = .sps) : t = 15#5 := by
  revert h
  revert t
  decide

end Sys2Proof.Machine
end

