-- ==== Sys2Proof/Laws/Converter.lean ====
section
/-!
SUPPORT. The RBSP converter: how long its output is, which outcomes it has, and what a conversion leaves in the state
(42_rbsp_converter.md R251-R258).
-/

namespace Sys2Proof.Machine

/-! ### The loop -/

/-- The loop copies a byte or drops it: the output is never longer (42_rbsp_converter.md R258). -/
theorem unescape_length {z i : Nat} {d : Bool} {src out : List Byte} (h : unescape z i d src = .ok out) :
    out.length ≤ src.length := by
  induction src generalizing z i d out with
  | nil => cases h; exact Nat.le_refl _
  | cons b rest ih =>
    have copied : ∀ {z' : Nat}, (unescape z' (i + 1) false rest).map (b :: ·) = .ok out →
        out.length ≤ (b :: rest).length := by
      intro z' h
      cases hu : unescape z' (i + 1) false rest with
      | error r => rw [hu] at h; cases h
      | ok o =>
        rw [hu] at h
        cases h
        simpa using ih hu
    unfold unescape at h
    split at h
    · split at h
      · cases h
      · exact copied h
    · split at h
      · cases h
      · split at h
        · exact Nat.le_succ_of_le (ih h)
        · exact copied h

/-- The outcomes of the loop (42_rbsp_converter.md R254, R255). -/
theorem unescape_error {z i : Nat} {d : Bool} {src : List Byte} {r : Raise} (h : unescape z i d src = .error r) :
    r.code = .eEpbSmall ∨ r.code = .eEpbLarge := by
  induction src generalizing z i d with
  | nil => cases h
  | cons b rest ih =>
    have copied : ∀ {z' : Nat}, (unescape z' (i + 1) false rest).map (b :: ·) = .error r →
        r.code = .eEpbSmall ∨ r.code = .eEpbLarge := by
      intro z' h
      cases hu : unescape z' (i + 1) false rest with
      | error r' => rw [hu] at h; cases h; exact ih hu
      | ok o => rw [hu] at h; cases h
    unfold unescape at h
    split at h
    · split at h
      · cases h; exact .inr rfl
      · exact copied h
    · split at h
      · cases h; exact .inl rfl
      · split at h
        · exact ih h
        · exact copied h

/-! ### convert -/

theorem dropTrailingZeros_prefix (l : List Byte) : dropTrailingZeros l <+: l := by
  unfold dropTrailingZeros
  rw [← List.reverse_suffix, List.reverse_reverse]
  exact List.dropWhile_suffix _

theorem dropTrailingZeros_length (l : List Byte) : (dropTrailingZeros l).length ≤ l.length :=
  (dropTrailingZeros_prefix l).length_le

theorem dropTrailingZeros_eq_self {l : List Byte} (h : l.getLast? ≠ some 0#8) : dropTrailingZeros l = l := by
  unfold dropTrailingZeros
  rw [← List.head?_reverse] at h
  cases hr : l.reverse with
  | nil => rw [List.reverse_eq_nil_iff] at hr; rw [hr]; rfl
  | cons a m =>
    rw [hr] at h
    rw [List.dropWhile_cons_of_neg (by simpa using h), ← hr, List.reverse_reverse]

/-- The post-pass returns a prefix of the loop's output, or E_TRAILING_ZERO (42_rbsp_converter.md R256). -/
theorem postPass_cases (vcl : Bool) (out : List Byte) :
    (∃ o, postPass vcl out = .ok o ∧ o <+: out) ∨ ∃ r, postPass vcl out = .error r ∧ r.code = .eTrailingZero := by
  unfold postPass
  split
  · exact .inl ⟨_, rfl, dropTrailingZeros_prefix out⟩
  · split
    · exact .inr ⟨_, rfl, rfl⟩
    · exact .inl ⟨_, rfl, List.prefix_refl out⟩

/-- A conversion's output is a prefix of what the loop gives. -/
theorem convert_ok {src out : List Byte} {vcl : Bool} (h : convert src vcl = .ok out) :
    ∃ o, unescape 0 0 false src = .ok o ∧ out <+: o := by
  unfold convert at h
  cases hu : unescape 0 0 false src with
  | error r => rw [hu] at h; cases h
  | ok o =>
    rw [hu] at h
    replace h : postPass vcl o = .ok out := h
    rcases postPass_cases vcl o with ⟨p, h1, h2⟩ | ⟨r, h1, _⟩
    · rw [h1] at h; cases h; exact ⟨o, rfl, h2⟩
    · rw [h1] at h; cases h

theorem convert_length {src out : List Byte} {vcl : Bool} (h : convert src vcl = .ok out) : out.length ≤ src.length := by
  obtain ⟨o, h1, h2⟩ := convert_ok h
  exact Nat.le_trans h2.length_le (unescape_length h1)

/-- The outcomes of a conversion (42_rbsp_converter.md R254-R256). -/
theorem convert_error {src : List Byte} {vcl : Bool} {r : Raise} (h : convert src vcl = .error r) :
    r.code = .eEpbSmall ∨ r.code = .eEpbLarge ∨ r.code = .eTrailingZero := by
  unfold convert at h
  cases hu : unescape 0 0 false src with
  | error r' =>
    rw [hu] at h
    cases h
    rcases unescape_error hu with h | h
    · exact .inl h
    · exact .inr (.inl h)
  | ok o =>
    rw [hu] at h
    replace h : postPass vcl o = .error r := h
    rcases postPass_cases vcl o with ⟨p, h1, _⟩ | ⟨r', h1, h2⟩
    · rw [h1] at h; cases h
    · rw [h1] at h; cases h; exact .inr (.inr h2)

/-! ### A conversion into RBSP -/

/-- Everything a conversion can do (42_rbsp_converter.md R251, R257). -/
theorem State.convertBytes_cases (s : State) (src : List Byte) (vcl : Bool) :
    (∃ out, convert src vcl = .ok out ∧ s.convertBytes src vcl = .ok (word out.length) (s.storeRbsp out vcl)) ∨
      ∃ r, convert src vcl = .error r ∧ s.convertBytes src vcl = .raise r (s.emptyRbsp (.converted vcl)) := by
  unfold State.convertBytes
  cases h : convert src vcl with
  | ok out => exact .inl ⟨out, rfl, rfl⟩
  | error r => exact .inr ⟨r, rfl, rfl⟩

/-- The bytes of RBSP after a conversion are its output (42_rbsp_converter.md R257). -/
theorem State.storeRbsp_read (s : State) (out : List Byte) (vcl : Bool) {i : Nat} (h : i < out.length) :
    (s.storeRbsp out vcl).mem.rbsp.read i = out[i] :=
  Bank.read_ofList s.free out h

theorem State.storeRbsp_inv {s : State} {out : List Byte} (vcl : Bool) (h : out.length ≤ s.params.rbspCap) :
    (s.storeRbsp out vcl).ReaderInv := by
  refine State.reader_start_inv (n := word out.length) ?_ rfl
  exact Nat.le_trans (by rw [BitVec.toNat_ofNat]; exact Nat.mod_le _ _) h

theorem State.emptyRbsp_inv (s : State) (h : Nuh) : (s.emptyRbsp h).ReaderInv :=
  State.reader_start_inv (n := 0#32) (by simp) rfl

end Sys2Proof.Machine
end

