-- ==== Sys2Proof/Laws/Scanner.lean ====
section
/-!
SUPPORT. The start-code scanner: where the codes it finds lie, which units they frame (43_scanner_framer.md R280-R288), and
what a scan leaves in the table and the state (R284-R286).
-/

namespace Sys2Proof.Machine

/-! ### Start codes -/

/-- A start code of length `l` lies at offset `q` (00_scope.md R17). -/
def CodeIn (bytes : List Byte) (q l : Nat) : Prop :=
  (l = 3 ∨ l = 4) ∧ q + l ≤ bytes.length ∧ (bytes.drop q).take l = startCode (l = 4)

theorem isCode4_iff (l : List Byte) : isCode4 l = true ↔ ∃ rest, l = 0#8 :: 0#8 :: 0#8 :: 1#8 :: rest := by
  unfold isCode4
  split
  · simp [Bool.and_eq_true, and_assoc]
  · rename_i h
    simp only [Bool.false_eq_true, false_iff]
    rintro ⟨r, rfl⟩
    exact h _ _ _ _ _ rfl

theorem isCode3_iff (l : List Byte) : isCode3 l = true ↔ ∃ rest, l = 0#8 :: 0#8 :: 1#8 :: rest := by
  unfold isCode3
  split
  · simp [Bool.and_eq_true, and_assoc]
  · rename_i h
    simp only [Bool.false_eq_true, false_iff]
    rintro ⟨r, rfl⟩
    exact h _ _ _ _ rfl

theorem startCodes_skip (p k : Nat) (b : Byte) (rest : List Byte) :
    startCodes p (k + 1) (b :: rest) = startCodes (p + 1) k rest := rfl

theorem startCodes_cons (p : Nat) (b : Byte) (rest : List Byte) :
    startCodes p 0 (b :: rest) =
      if isCode4 (b :: rest) then (p, 4) :: startCodes (p + 1) 3 rest
      else if isCode3 (b :: rest) then (p, 3) :: startCodes (p + 1) 2 rest
      else startCodes (p + 1) 0 rest := rfl

/-- The bytes a match covers are passed over. -/
theorem startCodes_skip_append (p : Nat) (pre rest : List Byte) :
    startCodes p pre.length (pre ++ rest) = startCodes (p + pre.length) 0 rest := by
  induction pre generalizing p with
  | nil => rfl
  | cons b pre ih =>
    rw [List.length_cons, List.cons_append, startCodes_skip, ih]
    congr 1
    omega

/-- Every code found lies in the bytes, at or after the end of the last match. -/
theorem startCodes_mem {p skip : Nat} {bytes : List Byte} {c : Nat × Nat} (h : c ∈ startCodes p skip bytes) :
    p + skip ≤ c.1 ∧ CodeIn bytes (c.1 - p) c.2 := by
  induction bytes generalizing p skip with
  | nil => simp [startCodes] at h
  | cons b rest ih =>
    have later : ∀ {k : Nat}, c ∈ startCodes (p + 1) k rest → p + 1 + k ≤ c.1 ∧ CodeIn (b :: rest) (c.1 - p) c.2 := by
      intro k hk
      obtain ⟨h1, h2, h3, h4⟩ := ih hk
      refine ⟨h1, h2, ?_, ?_⟩
      · simp only [List.length_cons]; omega
      · rw [show c.1 - p = c.1 - (p + 1) + 1 by omega, List.drop_succ_cons]; exact h4
    cases skip with
    | succ k =>
      rw [startCodes_skip] at h
      obtain ⟨h1, h2⟩ := later h
      exact ⟨by omega, h2⟩
    | zero =>
      rw [startCodes_cons] at h
      split at h
      · rename_i h4
        rcases List.mem_cons.mp h with rfl | h
        · obtain ⟨r, hr⟩ := (isCode4_iff _).mp h4
          refine ⟨Nat.le_refl _, .inr rfl, ?_, ?_⟩
          · rw [hr]; simp
          · rw [hr]; simp [startCode]
        · obtain ⟨h1, h2⟩ := later h
          exact ⟨by omega, h2⟩
      · split at h
        · rename_i h3
          rcases List.mem_cons.mp h with rfl | h
          · obtain ⟨r, hr⟩ := (isCode3_iff _).mp h3
            refine ⟨Nat.le_refl _, .inl rfl, ?_, ?_⟩
            · rw [hr]; simp
            · rw [hr]; simp [startCode]
          · obtain ⟨h1, h2⟩ := later h
            exact ⟨by omega, h2⟩
        · obtain ⟨h1, h2⟩ := later h
          exact ⟨by omega, h2⟩

/-- The codes found do not overlap, in order (43_scanner_framer.md R287). -/
theorem startCodes_pairwise (p skip : Nat) (bytes : List Byte) :
    (startCodes p skip bytes).Pairwise fun c d => c.1 + c.2 ≤ d.1 := by
  induction bytes generalizing p skip with
  | nil => exact List.Pairwise.nil
  | cons b rest ih =>
    cases skip with
    | succ k => rw [startCodes_skip]; exact ih _ _
    | zero =>
      rw [startCodes_cons]
      split
      · exact List.pairwise_cons.mpr ⟨fun d hd => by have := (startCodes_mem hd).1; simp only; omega, ih _ _⟩
      · split
        · exact List.pairwise_cons.mpr ⟨fun d hd => by have := (startCodes_mem hd).1; simp only; omega, ih _ _⟩
        · exact ih _ _

/-! ### Units -/

theorem trimmedEnd_le {bytes : List Byte} {start : Nat} (h : start ≤ bytes.length) :
    start ≤ trimmedEnd bytes start ∧ trimmedEnd bytes start ≤ bytes.length := by
  unfold trimmedEnd
  have := dropTrailingZeros_length (bytes.drop start)
  rw [List.length_drop] at this
  omega

@[simp] theorem frameUnits_length (bytes : List Byte) (cs : List (Nat × Nat)) : (frameUnits bytes cs).length = cs.length := by
  induction cs with
  | nil => rfl
  | cons c cs ih =>
    cases cs with
    | nil => rfl
    | cons d cs => exact congrArg Nat.succ ih

/-- The unit a code opens runs to the next code, or to the trimmed end (43_scanner_framer.md R283). -/
theorem frameUnits_getElem (bytes : List Byte) (cs : List (Nat × Nat)) (k : Nat) (h : k < (frameUnits bytes cs).length)
    (h' : k < cs.length) :
    (frameUnits bytes cs)[k] = ⟨cs[k].1 + cs[k].2,
      if hn : k + 1 < cs.length then cs[k + 1].1 else trimmedEnd bytes (cs[k].1 + cs[k].2), cs[k].2⟩ := by
  induction cs generalizing k with
  | nil => simp at h'
  | cons c cs ih =>
    cases cs with
    | nil =>
      have : k = 0 := by simpa using h'
      subst this
      simp [frameUnits]
    | cons d cs =>
      cases k with
      | zero => simp [frameUnits]
      | succ k =>
        have := ih k (by simpa using h) (by simpa using h')
        simp only [frameUnits, List.getElem_cons_succ]
        rw [this]
        simp

/-- Every unit found lies in the bytes, behind its start code (43_scanner_framer.md R283). -/
theorem nalUnits_bounds {bytes : List Byte} {k : Nat} (h : k < (nalUnits bytes).length) :
    (nalUnits bytes)[k].start ≤ (nalUnits bytes)[k].stop ∧ (nalUnits bytes)[k].stop ≤ bytes.length ∧
      (nalUnits bytes)[k].scLen ≤ (nalUnits bytes)[k].start ∧
      CodeIn bytes ((nalUnits bytes)[k].start - (nalUnits bytes)[k].scLen) (nalUnits bytes)[k].scLen := by
  unfold nalUnits at h ⊢
  have hk : k < (startCodes 0 0 bytes).length := by simpa using h
  have hc := (startCodes_mem (List.getElem_mem hk)).2
  rw [Nat.sub_zero] at hc
  have hle := hc.2.1
  rw [frameUnits_getElem bytes _ k h hk]
  refine ⟨?_, ?_, Nat.le_add_left _ _, ?_⟩
  · simp only
    split
    · rename_i hn
      exact List.pairwise_iff_getElem.mp (startCodes_pairwise 0 0 bytes) k (k + 1) hk hn (by omega)
    · exact (trimmedEnd_le hle).1
  · simp only
    split
    · rename_i hn
      have := (startCodes_mem (List.getElem_mem hn)).2.2.1
      omega
    · exact (trimmedEnd_le hle).2
  · simp only
    rw [Nat.add_sub_cancel]
    exact hc

/-- There are no more units than a third of the bytes, so their number fits a register. -/
theorem nalUnits_length_le (bytes : List Byte) : (nalUnits bytes).length ≤ bytes.length := by
  have key : ∀ p skip (bs : List Byte), (startCodes p skip bs).length ≤ bs.length := by
    intro p skip bs
    induction bs generalizing p skip with
    | nil => exact Nat.le_refl 0
    | cons b rest ih =>
      cases skip with
      | succ k => rw [startCodes_skip]; exact Nat.le_succ_of_le (ih _ _)
      | zero =>
        rw [startCodes_cons]
        split
        · exact Nat.succ_le_succ (ih _ _)
        · split
          · exact Nat.succ_le_succ (ih _ _)
          · exact Nat.le_succ_of_le (ih _ _)
  unfold nalUnits
  rw [frameUnits_length]
  exact key 0 0 bytes

/-! ### The table -/

theorem tableWords_cons (u : NalUnit) (us : List NalUnit) : tableWords (u :: us) = u.words ++ tableWords us := rfl

@[simp] theorem tableWords_length (us : List NalUnit) : (tableWords us).length = 4 * us.length := by
  induction us with
  | nil => rfl
  | cons u us ih => rw [tableWords_cons, List.length_append, ih]; simp [NalUnit.words]; omega

theorem tableWords_getElem? (us : List NalUnit) (k i : Nat) (hi : i < 4) (hk : k < us.length) :
    (tableWords us)[4 * k + i]? = us[k].words[i]? := by
  induction us generalizing k with
  | nil => simp at hk
  | cons u us ih =>
    rw [tableWords_cons]
    cases k with
    | zero => rw [List.getElem?_append_left (by simp [NalUnit.words]; omega)]; simp
    | succ k =>
      rw [List.getElem?_append_right (by simp [NalUnit.words]; omega)]
      have := ih k (by simpa using hk)
      rw [List.getElem_cons_succ, ← this]
      congr 1
      simp [NalUnit.words]
      omega

/-- The table reads back what a scan has written (43_scanner_framer.md R284). -/
theorem State.writeTable_naltWord (s : State) (us : List NalUnit) {k : Nat} (hk : k < us.length) :
    (s.writeTable us).mem.naltWord k 0 = word us[k].start ∧ (s.writeTable us).mem.naltWord k 1 = word us[k].stop ∧
      (s.writeTable us).mem.naltWord k 2 = entryWord2 us[k].scLen ∧ (s.writeTable us).mem.naltWord k 3 = 0#32 := by
  have key : ∀ i (hi : i < 4) (x : Word), us[k].words[i]? = some x → (s.writeTable us).mem.naltWord k i = x := by
    intro i hi x hx
    have h1 : 4 * k + i < (tableWords us).length := by rw [tableWords_length]; omega
    have h2 := tableWords_getElem? us k i hi hk
    rw [hx, List.getElem?_eq_getElem h1, Option.some_inj] at h2
    exact (Bank.read_ofList s.free (tableWords us) h1).trans h2
  exact ⟨key 0 (by omega) _ rfl, key 1 (by omega) _ rfl, key 2 (by omega) _ rfl, key 3 (by omega) _ rfl⟩

/-- Everything `scan()` can do: the table of all units, with a warning when there is none, or E_NALT_FULL after the first
NALT_CAP of them (43_scanner_framer.md R283-R286). -/
theorem State.scan_cases (s : State) :
    (s.params.naltCap < (nalUnits s.auBytes).length ∧
      s.scan = .raise { code := .eNaltFull, value := word s.params.naltCap }
        (s.writeTable ((nalUnits s.auBytes).take s.params.naltCap))) ∨
    ((nalUnits s.auBytes).length ≤ s.params.naltCap ∧ nalUnits s.auBytes ≠ [] ∧
      s.scan = .ok (word (nalUnits s.auBytes).length) (s.writeTable (nalUnits s.auBytes))) ∨
    (nalUnits s.auBytes = [] ∧ s.scan = .ok 0#32 ((s.writeTable []).warnBit .noStartCode)) := by
  unfold State.scan
  by_cases h : s.params.naltCap < (nalUnits s.auBytes).length
  · exact .inl ⟨h, by simp only; rw [if_pos h]⟩
  · refine .inr ?_
    simp only
    rw [if_neg h]
    cases hu : nalUnits s.auBytes with
    | nil => exact .inr ⟨rfl, rfl⟩
    | cons u us => exact .inl ⟨by rw [hu] at h; omega, by simp, rfl⟩

@[simp] theorem State.auBytes_length (s : State) : s.auBytes.length = s.latch.auLen.toNat := Bank.length_slice _ _ _

end Sys2Proof.Machine
end

