-- ==== Sys2Proof/Laws/Framer.lean ====
section
/-!
SUPPORT. The NAL framer: what the table holds after a disposition, what processing one unit can do, and one turn of the unit
loop (43_scanner_framer.md R292-R302).
-/

namespace Sys2Proof.Machine

/-! ### The table -/

theorem Memory.naltWord_setNaltWord_of_ne {m : Memory} {k i j l : Nat} (h : 4 * j + l ≠ 4 * k + i) (x : Word) :
    (m.setNaltWord k i x).naltWord j l = m.naltWord j l :=
  Bank.read_write_of_ne h m.nalt x

theorem Memory.naltWord_setNaltWord {m : Memory} (h : m.nalt.wf = true) (k i : Nat) (x : Word) :
    (m.setNaltWord k i x).naltWord k i = x :=
  Bank.read_write_self h (4 * k + i) x

theorem Memory.nalt_wf_setNaltWord {m : Memory} (h : m.nalt.wf = true) (k i : Nat) (x : Word) :
    (m.setNaltWord k i x).nalt.wf = true :=
  Bank.write_wf h _ _

theorem disp_setDisp (w : Word) (c : Code) : (setDisp w c).extractLsb' 24 8 = c.val := by
  unfold setDisp
  ext i hi
  simp only [BitVec.getElem_extractLsb', BitVec.getLsbD_append]
  rw [if_neg (by omega), show 24 + i - 24 = i by omega, BitVec.getLsbD_eq_getElem hi]

theorem low_setDisp (w : Word) (c : Code) : (setDisp w c).extractLsb' 0 24 = w.extractLsb' 0 24 := by
  unfold setDisp
  ext i hi
  simp only [BitVec.getElem_extractLsb', BitVec.getLsbD_append, BitVec.getLsbD_extractLsb']
  rw [if_pos (by omega)]
  simp [hi]

/-- A disposition: DISP and INFO of the entry are written, its other bits and every other entry stay (43_scanner_framer.md
R296). -/
theorem State.dispose_naltWord {s : State} (h : s.mem.nalt.wf = true) (k : Nat) (c : Code) (info : Word) :
    (s.dispose k c info).mem.naltWord k 2 = setDisp (s.mem.naltWord k 2) c ∧
      (s.dispose k c info).mem.naltWord k 3 = info ∧ (s.dispose k c info).disposition k = c.val := by
  have h2 : (s.dispose k c info).mem.naltWord k 2 = setDisp (s.mem.naltWord k 2) c := by
    refine (Memory.naltWord_setNaltWord_of_ne (by omega) info).trans ?_
    exact Memory.naltWord_setNaltWord h k 2 _
  refine ⟨h2, ?_, ?_⟩
  · exact Memory.naltWord_setNaltWord (Memory.nalt_wf_setNaltWord h k 2 _) k 3 info
  · unfold State.disposition
    rw [h2, disp_setDisp]

theorem State.dispose_frame (s : State) (k : Nat) (c : Code) (info : Word) :
    s.dispose k c info = { s with mem := { s.mem with nalt := (s.dispose k c info).mem.nalt } } := rfl

theorem State.dispose_naltWord_of_ne (s : State) {k j i : Nat} (c : Code) (info : Word) (hi : i < 4)
    (h : ¬ (j = k ∧ 2 ≤ i)) : (s.dispose k c info).mem.naltWord j i = s.mem.naltWord j i :=
  (Memory.naltWord_setNaltWord_of_ne (by omega) info).trans (Memory.naltWord_setNaltWord_of_ne (by omega) _)

theorem State.dispose_nalt_wf {s : State} (h : s.mem.nalt.wf = true) (k : Nat) (c : Code) (info : Word) :
    (s.dispose k c info).mem.nalt.wf = true :=
  Memory.nalt_wf_setNaltWord (Memory.nalt_wf_setNaltWord h k 2 _) k 3 info

/-! ### Aborted units -/

/-- The units aborted at a class F disposition (43_scanner_framer.md R298). -/
theorem State.abortUnits_spec {s : State} (h : s.mem.nalt.wf = true) (j n : Nat) :
    s.abortUnits j n = { s with mem := { s.mem with nalt := (s.abortUnits j n).mem.nalt } } ∧
      (s.abortUnits j n).mem.nalt.wf = true ∧
      (∀ k, j ≤ k → k < j + n → (s.abortUnits j n).mem.naltWord k 2 = setDisp (s.mem.naltWord k 2) .oAborted) ∧
      ∀ k i, i < 4 → ¬ (i = 2 ∧ j ≤ k ∧ k < j + n) → (s.abortUnits j n).mem.naltWord k i = s.mem.naltWord k i := by
  induction n generalizing s j with
  | zero => exact ⟨rfl, h, fun k h1 h2 => by omega, fun _ _ _ _ => rfl⟩
  | succ n ih =>
    have hw : (s.mapWord2 j (setDisp · .oAborted)).mem.nalt.wf = true := Memory.nalt_wf_setNaltWord h j 2 _
    obtain ⟨h1, h2, h3, h4⟩ := ih hw (j + 1)
    have self : (s.mapWord2 j (setDisp · .oAborted)).mem.naltWord j 2 = setDisp (s.mem.naltWord j 2) .oAborted :=
      Memory.naltWord_setNaltWord h j 2 _
    have other : ∀ k i, i < 4 → ¬ (k = j ∧ i = 2) →
        (s.mapWord2 j (setDisp · .oAborted)).mem.naltWord k i = s.mem.naltWord k i :=
      fun k i hi hk => Memory.naltWord_setNaltWord_of_ne (by omega) _
    refine ⟨?_, h2, fun k hk hkn => ?_, fun k i hi hk => ?_⟩
    · show (s.mapWord2 j (setDisp · .oAborted)).abortUnits (j + 1) n = _
      rw [h1]; rfl
    · show ((s.mapWord2 j (setDisp · .oAborted)).abortUnits (j + 1) n).mem.naltWord k 2 = _
      rcases Nat.eq_or_lt_of_le hk with rfl | hlt
      · rw [h4 j 2 (by omega) (by omega), self]
      · rw [h3 k (by omega) (by omega), other k 2 (by omega) (by omega)]
    · show ((s.mapWord2 j (setDisp · .oAborted)).abortUnits (j + 1) n).mem.naltWord k i = _
      rw [h4 k i hi (by omega), other k i hi (by omega)]

/-- The units aborted by ABORT (43_scanner_framer.md R302). -/
theorem State.abortUnitsInfo_spec {s : State} (h : s.mem.nalt.wf = true) (j n : Nat) :
    s.abortUnitsInfo j n = { s with mem := { s.mem with nalt := (s.abortUnitsInfo j n).mem.nalt } } ∧
      (s.abortUnitsInfo j n).mem.nalt.wf = true ∧
      (∀ k, j ≤ k → k < j + n → (s.abortUnitsInfo j n).mem.naltWord k 2 = setDisp (s.mem.naltWord k 2) .oAborted ∧
        (s.abortUnitsInfo j n).mem.naltWord k 3 = 0#32) ∧
      ∀ k i, i < 4 → ¬ (2 ≤ i ∧ j ≤ k ∧ k < j + n) → (s.abortUnitsInfo j n).mem.naltWord k i = s.mem.naltWord k i := by
  induction n generalizing s j with
  | zero => exact ⟨rfl, h, fun k h1 h2 => by omega, fun _ _ _ _ => rfl⟩
  | succ n ih =>
    obtain ⟨h1, h2, h3, h4⟩ := ih (State.dispose_nalt_wf h j .oAborted 0#32) (j + 1)
    obtain ⟨d2, d3, -⟩ := State.dispose_naltWord h j .oAborted 0#32
    refine ⟨?_, h2, fun k hk hkn => ?_, fun k i hi hk => ?_⟩
    · show (s.dispose j .oAborted 0#32).abortUnitsInfo (j + 1) n = _
      rw [h1]; rfl
    · show ((s.dispose j .oAborted 0#32).abortUnitsInfo (j + 1) n).mem.naltWord k 2 = _ ∧
        ((s.dispose j .oAborted 0#32).abortUnitsInfo (j + 1) n).mem.naltWord k 3 = _
      rcases Nat.eq_or_lt_of_le hk with rfl | hlt
      · rw [h4 j 2 (by omega) (by omega), h4 j 3 (by omega) (by omega)]; exact ⟨d2, d3⟩
      · obtain ⟨e2, e3⟩ := h3 k (by omega) (by omega)
        rw [e2, e3, s.dispose_naltWord_of_ne .oAborted 0#32 (by omega) (by omega)]; exact ⟨rfl, rfl⟩
    · show ((s.dispose j .oAborted 0#32).abortUnitsInfo (j + 1) n).mem.naltWord k i = _
      rw [h4 k i hi (by omega), s.dispose_naltWord_of_ne .oAborted 0#32 hi (by omega)]

/-- A class F disposition: every unit from DEC_NEXT on is aborted, and the block halts (43_scanner_framer.md R298). -/
theorem State.haltUnits_spec {s : State} (h : s.mem.nalt.wf = true) :
    s.haltUnits = { s with
      block := .halted, done := true, irqPend := s.irqPend ||| 0b100#3, engine := .off,
      mem := { s.mem with nalt := s.haltUnits.mem.nalt } } ∧
    s.haltUnits.mem.nalt.wf = true ∧
    (∀ k, s.decNext.toNat ≤ k → k < s.nalCount.toNat →
      s.haltUnits.mem.naltWord k 2 = setDisp (s.mem.naltWord k 2) .oAborted) ∧
    ∀ k i, i < 4 → ¬ (i = 2 ∧ s.decNext.toNat ≤ k ∧ k < s.nalCount.toNat) →
      s.haltUnits.mem.naltWord k i = s.mem.naltWord k i := by
  obtain ⟨h1, h2, h3, h4⟩ := State.abortUnits_spec h s.decNext.toNat s.unitsLeft
  have hm : s.haltUnits.mem = (s.abortUnits s.decNext.toNat s.unitsLeft).mem := rfl
  rw [hm]
  unfold State.unitsLeft at *
  refine ⟨?_, h2, fun k hk hk' => h3 k hk (by omega), fun k i hi hk => h4 k i hi (by omega)⟩
  unfold State.haltUnits State.unitsLeft
  generalize s.abortUnits s.decNext.toNat (s.nalCount.toNat - s.decNext.toNat) = t at h1
  rw [h1]
  rfl

/-! ### Word 2 of an entry -/

theorem getLsbD_join (d : BitVec 8) (f : BitVec 24) (i : Nat) :
    (d ++ f : Word).getLsbD i = if i < 24 then f.getLsbD i else d.getLsbD (i - 24) :=
  BitVec.getLsbD_append

theorem setDisp_join (d : BitVec 8) (f : BitVec 24) (c : Code) : setDisp (d ++ f) c = c.val ++ f := by
  apply BitVec.eq_of_getLsbD_eq
  intro i hi
  unfold setDisp
  rw [getLsbD_join, getLsbD_join]
  split
  · rename_i h
    rw [BitVec.getLsbD_extractLsb', Nat.zero_add, getLsbD_join, if_pos h]
    simp [h]
  · rfl

/-- Bit `i` of the fields below DISP (10_state.md R73). -/
theorem UnitReport.getLsbD_fields (u : UnitReport) (w : Word) (i : Nat) :
    (u.fields w).getLsbD i =
      if i < 4 then w.getLsbD i
      else if i < 5 then (if u.vclWritten then u.nuh.vcl else w.extractLsb' 4 1).getLsbD (i - 4)
      else if i < 21 then (if u.headerCopied then u.nuh.tidPlus1 ++ u.nuh.typ ++ u.nuh.layerId ++ u.nuh.rzb ++ u.nuh.fzb
        else w.extractLsb' 5 16).getLsbD (i - 5)
      else decide (i < 24) && w.getLsbD i := by
  show (w.extractLsb' 21 3 ++
    (if u.headerCopied then u.nuh.tidPlus1 ++ u.nuh.typ ++ u.nuh.layerId ++ u.nuh.rzb ++ u.nuh.fzb
      else w.extractLsb' 5 16) ++
    (if u.vclWritten then u.nuh.vcl else w.extractLsb' 4 1) ++ w.extractLsb' 0 4 : BitVec (3 + 16 + 1 + 4)).getLsbD i = _
  simp only [BitVec.getLsbD_append, BitVec.getLsbD_extractLsb' (start := 0), BitVec.getLsbD_extractLsb' (start := 21),
    Nat.sub_sub]
  split_ifs <;> first
    | omega
    | rfl
    | (rw [show 21 + (i - (4 + (1 + 16))) = i by omega]; congr 1; rw [decide_eq_decide]; omega)
    | simp_all

theorem getLsbD_setVclBit (w : Word) (vcl : Bool) (i : Nat) :
    (setVclBit w vcl).getLsbD i = if i = 4 then vcl else decide (i < 32) && w.getLsbD i := by
  show (w.extractLsb' 5 27 ++ BitVec.ofBool vcl ++ w.extractLsb' 0 4 : BitVec (27 + 1 + 4)).getLsbD i = _
  simp only [BitVec.getLsbD_append, BitVec.getLsbD_extractLsb', Nat.sub_sub, Nat.zero_add]
  split_ifs <;> first
    | omega
    | (subst_vars; simp; done)
    | (rw [show 5 + (i - (4 + 1)) = i by omega]; congr 1; rw [decide_eq_decide]; omega)
    | (rw [decide_eq_true (by omega), decide_eq_true (by omega)])

theorem getLsbD_setHeaderBits (w : Word) (h : Nuh) (i : Nat) :
    (setHeaderBits w h).getLsbD i =
      if i < 5 then w.getLsbD i
      else if i < 21 then (h.tidPlus1 ++ h.typ ++ h.layerId ++ h.rzb ++ h.fzb).getLsbD (i - 5)
      else decide (i < 32) && w.getLsbD i := by
  show (w.extractLsb' 21 11 ++ h.tidPlus1 ++ h.typ ++ h.layerId ++ h.rzb ++ h.fzb ++ w.extractLsb' 0 5 :
    BitVec (11 + 3 + 5 + 6 + 1 + 1 + 5)).getLsbD i = _
  simp only [BitVec.getLsbD_append, BitVec.getLsbD_extractLsb', Nat.sub_sub, Nat.zero_add]
  split_ifs <;> first
    | omega
    | rfl
    | (rw [decide_eq_true (by omega), Bool.true_and])
    | (congr 1 <;> first | (rw [decide_eq_decide]; omega) | (congr 1; omega))

/-- Word 2 as `process` leaves it, DISP apart (10_state.md R73, 43_scanner_framer.md R296). -/
theorem UnitReport.join_fields (u : UnitReport) (w : Word) (vcl : Bool) (hn : u.nuh.vcl = BitVec.ofBool vcl) :
    (u.vclWritten = false → u.headerCopied = false → w = w.extractLsb' 24 8 ++ u.fields w) ∧
    (u.vclWritten = true → u.headerCopied = false → setVclBit w vcl = w.extractLsb' 24 8 ++ u.fields w) ∧
    (u.vclWritten = true → u.headerCopied = true →
      setHeaderBits (setVclBit w vcl) u.nuh = w.extractLsb' 24 8 ++ u.fields w) := by
  refine ⟨fun hv hh => ?_, fun hv hh => ?_, fun hv hh => ?_⟩ <;> apply BitVec.eq_of_getLsbD_eq <;> intro i hi <;>
    simp only [getLsbD_join, u.getLsbD_fields, hv, hh, hn, getLsbD_setHeaderBits, getLsbD_setVclBit,
      BitVec.getLsbD_extractLsb', Bool.false_eq_true, if_false, if_true] <;>
    split_ifs <;> first
      | omega
      | rfl
      | (rw [decide_eq_true hi, Bool.true_and, decide_eq_true (by omega), Bool.true_and]; congr 1; omega)
      | (rw [decide_eq_true hi, Bool.true_and, decide_eq_true (by omega), Bool.true_and])
      | (rw [decide_eq_true (by omega), Bool.true_and]; congr 1; omega)
      | (rw [decide_eq_true (by omega), Bool.true_and])
      | (subst_vars; simp)

/-! ### Processing one unit -/

/-- A state that differs in no part of the reader's invariant. -/
theorem State.ReaderInv.congr {s t : State} (h : s.ReaderInv) (hr : t.reader = s.reader) (hm : t.mem.rbsp = s.mem.rbsp)
    (hp : t.params = s.params) : t.ReaderInv := by
  obtain ⟨h1, h2, h3, h4, h5, h6, h7⟩ := h
  refine ⟨?_, ?_, ?_, ?_, ?_, ?_, ?_⟩
  · rw [hr, hp]; exact h1
  · unfold State.bitPos State.streamLen at *; rw [hr]; exact h2
  · rw [hr]; exact h3
  · rw [hr]; exact h4
  · unfold State.bitPos at *; rw [hr]; exact h5
  · unfold State.bitPos at *; rw [hr, hm]; exact h6
  · rw [hr]; exact h7

theorem State.ReaderInv.bounds {s : State} (h : s.ReaderInv) (hp : s.params.valid) : s.readerBounds := by
  refine ⟨h.bitPos_le, ?_⟩
  have := h.len_le
  have := hp.1.2
  unfold State.streamLen
  unfold Config.Params.rbspCap at *
  omega

/-- The unit's bytes fit RBSP when the unit lies in AU (20_memory.md R104, 43_scanner_framer.md R284). -/
theorem State.unitBytes_length (s : State) (k : Nat) :
    (s.unitBytes k).length = (s.unitEnd k).toNat - (s.unitStart k).toNat :=
  Bank.length_slice _ _ _

/-- The model's case of a unit that ends so. -/
def UnitEnd.step (e : UnitEnd) (t : State) : UnitStep :=
  match e with
  | .stub => .stub t
  | .outcome r => .ended r t
  | .sps => .sps t

/-- RBSP and BR_BITPOS are as a unit's report says. -/
structure Loaded (u : UnitReport) (t : State) : Prop where
  len : t.reader.rbspLen = word u.rbsp.length
  bitPos : t.bitPos = u.bitPos
  bytes : ∀ i (h : i < u.rbsp.length), t.mem.rbsp.read i = u.rbsp[i]

theorem Loaded.congr {u : UnitReport} {s t : State} (h : Loaded u s) (hr : t.reader = s.reader)
    (hm : t.mem.rbsp = s.mem.rbsp) : Loaded u t :=
  ⟨by rw [hr]; exact h.len, by unfold State.bitPos; rw [hr]; exact h.bitPos, fun i hi => by rw [hm]; exact h.bytes i hi⟩

/-- What `process(k)` leaves, by the unit's report (43_scanner_framer.md R296). -/
structure Reported (u : UnitReport) (k : Nat) (s t : State) : Prop where
  eq : t = { s with
    nuh := u.nuh, warn := headerWarn s.warn u.nuh, reader := t.reader, free := t.free,
    mem := { s.mem with rbsp := t.mem.rbsp, nalt := t.mem.nalt } }
  nalt_wf : s.mem.nalt.wf = true → t.mem.nalt.wf = true
  rbsp_wf : s.mem.rbsp.wf = true → t.mem.rbsp.wf = true
  word : ∀ j i, i < 4 → ¬ (j = k ∧ i = 2) → t.mem.naltWord j i = s.mem.naltWord j i
  word2 : s.mem.nalt.wf = true →
    t.mem.naltWord k 2 = (s.mem.naltWord k 2).extractLsb' 24 8 ++ u.fields (s.mem.naltWord k 2)
  loaded : Loaded u t
  reader : s.params.valid → (s.unitEnd k).toNat ≤ s.params.auCap → t.ReaderInv

theorem headerWarn_zero (w : BitVec 6) (vcl : BitVec 1) : headerWarn w { Nuh.zero with vcl := vcl } = w := by
  unfold headerWarn Nuh.zero
  simp

/-- The header part of `process(k)`: an underflow, or the header stored and copied, and its end (43_scanner_framer.md
R296, 44_nal_header.md R332, R340). -/
theorem State.processHeader_spec (s : State) (k : Nat) :
    (s.bitsLeft < 16 ∧ s.processHeader k =
      .ended { code := .eBrUnderflow, value := 16#32, max := Sys2Proof.word s.bitsLeft } (s.mapWord2 k (setHeaderBits · s.nuh))) ∨
    (16 ≤ s.bitsLeft ∧ ∃ h t, h = headerFields (Sys2Proof.word (stream s.mem.rbsp s.bitPos 16)) s.nuh.vcl ∧
      t = { s.moveReader (s.bitPos + 16) with nuh := h, warn := headerWarn s.warn h } ∧
      s.processHeader k = (headerEnd h).step (t.mapWord2 k (setHeaderBits · h))) := by
  unfold State.processHeader
  rcases s.parseHeader_cases with ⟨h, hr⟩ | ⟨h, t, ht, hp⟩
  · exact .inl ⟨h, by rw [hr]⟩
  · refine .inr ⟨h, t.nuh, t, ?_, ?_, ?_⟩
    · rw [ht, State.storeHeader_frame]; rfl
    · have hw := (s.moveReader (s.bitPos + 16)).storeHeader_warn (Sys2Proof.word (stream s.mem.rbsp s.bitPos 16))
      rw [ht, State.storeHeader_frame, hw]
      rfl
    · rw [headerEnd_eq]
      rcases hp with ⟨hn, hp⟩ | ⟨r, hn, hp⟩ <;> rw [hp, hn]
      · simp only
        show (match typeClass t.nuh.typ with
          | .sps => _ | .stub => _ | .reserved => _) = _
        cases typeClass t.nuh.typ <;> rfl
      · rfl

/-- A header read is of the first two bytes of the RBSP (44_nal_header.md R330). -/
theorem State.storeRbsp_header {s : State} {h0 h1 : Byte} {rest : List Byte} {vcl : Bool} :
    headerFields (Sys2Proof.word (stream (s.storeRbsp (h0 :: h1 :: rest) vcl).mem.rbsp 0 16)) (BitVec.ofBool vcl) =
      rawHeader h0 h1 (BitVec.ofBool vcl) := by
  rw [headerFields_bytes, State.storeRbsp_read (i := 0) s _ vcl (by simp), State.storeRbsp_read (i := 1) s _ vcl (by simp)]
  rfl

/-- `process(k)` is as the unit's report says (43_scanner_framer.md R296). -/
theorem State.process_spec (s : State) (k : Nat) :
    ∃ t, Reported (s.unitReport k) k s t ∧ s.process k = (s.unitReport k).ending.step t := by
  have hvcl : decide ((s.mem.au.read ((s.unitStart k).toNat + 1)).toNat / 8 ≤ 11) = s.unitVcl k := rfl
  have hbytes : s.mem.au.slice (s.unitStart k).toNat ((s.unitEnd k).toNat - (s.unitStart k).toNat) = s.unitBytes k := rfl
  have hlen := s.unitBytes_length k
  unfold State.process
  by_cases hs : s.unitTooShort k = true
  · have hn : (s.unitEnd k).toNat - (s.unitStart k).toNat < 2 := by
      unfold State.unitTooShort at hs
      rw [decide_eq_true_iff] at hs
      omega
    have hu : s.unitReport k =
        ⟨.outcome { code := .eNalTooShort, value := s.unitEnd k - s.unitStart k }, .zero, [], 0, false, false⟩ := by
      unfold State.unitReport
      exact if_pos hn
    rw [if_pos hs, hu]
    refine ⟨s.emptyRbsp .zero, ⟨?_, id, fun _ => Bank.wf_unspecified _, fun _ _ _ _ => rfl, fun _ => ?_,
      ⟨rfl, rfl, fun i h => absurd h (Nat.not_lt_zero i)⟩, fun _ _ => s.emptyRbsp_inv _⟩, rfl⟩
    · simp only [show headerWarn s.warn Nuh.zero = s.warn from headerWarn_zero s.warn 0#1]; rfl
    · exact (UnitReport.join_fields _ _ false rfl).1 rfl rfl
  · have hn : ¬ (s.unitEnd k).toNat - (s.unitStart k).toNat < 2 := by
      unfold State.unitTooShort at hs
      rw [decide_eq_true_iff] at hs
      omega
    rw [if_neg hs]
    simp only
    unfold State.unitReport
    rw [if_neg hn, hvcl, hbytes]
    generalize hm : s.mapWord2 k (setVclBit · (s.unitVcl k)) = m
    have self : s.mem.nalt.wf = true → m.mem.naltWord k 2 = setVclBit (s.mem.naltWord k 2) (s.unitVcl k) := by
      intro h
      rw [← hm]
      exact Memory.naltWord_setNaltWord h k 2 _
    have other : ∀ j i, i < 4 → ¬ (j = k ∧ i = 2) → m.mem.naltWord j i = s.mem.naltWord j i := by
      intro j i hi hj
      rw [← hm]
      exact Memory.naltWord_setNaltWord_of_ne (by omega) _
    have mwf : s.mem.nalt.wf = true → m.mem.nalt.wf = true := by
      intro h
      rw [← hm]
      exact Memory.nalt_wf_setNaltWord h k 2 _
    have meq : m = { s with mem := { s.mem with nalt := m.mem.nalt } } := by rw [← hm]; rfl
    have inv : ∀ out, out.length ≤ (s.unitBytes k).length → s.params.valid → (s.unitEnd k).toNat ≤ s.params.auCap →
        (m.storeRbsp out (s.unitVcl k)).ReaderInv := by
      intro out hout hp hk
      refine State.storeRbsp_inv _ ?_
      rw [meq]
      show _ ≤ s.params.auCap
      omega
    rcases m.convertBytes_cases (s.unitBytes k) (s.unitVcl k) with ⟨out, h1, h2⟩ | ⟨r, h1, h2⟩
    · rw [h1, h2]
      have hout := convert_length h1
      have hlt : out.length < 2 ^ 32 := by have := (s.unitEnd k).isLt; omega
      have hword : (Sys2Proof.word out.length).toNat = out.length :=
        (BitVec.toNat_ofNat _ _).trans (Nat.mod_eq_of_lt hlt)
      generalize hv : s.unitVcl k = vcl at *
      have bits : (m.storeRbsp out vcl).bitsLeft = 8 * out.length := by
        show 8 * (Sys2Proof.word out.length).toNat - 0 = _
        rw [hword]; omega
      simp only
      rcases (m.storeRbsp out vcl).processHeader_spec k with ⟨hb, hp⟩ | ⟨hb, h, t, hh, ht, hp⟩
      · rw [bits] at hb
        have report : convertedReport (BitVec.ofBool vcl) out =
            ⟨.outcome { code := .eBrUnderflow, value := 16#32, max := Sys2Proof.word (8 * out.length) },
              { Nuh.zero with vcl := BitVec.ofBool vcl }, out, 0, true, true⟩ := by
          match out, hb with
          | [], _ => rfl
          | [_], _ => rfl
          | _ :: _ :: _, hb => simp only [List.length_cons] at hb; omega
        rw [report, hp, bits]
        refine ⟨(m.storeRbsp out vcl).mapWord2 k (setHeaderBits · (m.storeRbsp out vcl).nuh), ⟨?_, fun w => Memory.nalt_wf_setNaltWord (mwf w) k 2 _, fun _ => Bank.wf_ofList _ _,
          fun j i hi hj => ?_, fun w => ?_, ⟨rfl, rfl, fun i h => m.storeRbsp_read out vcl h⟩, fun hp hk => ?_⟩, rfl⟩
        · simp only [headerWarn_zero]; rw [meq]; rfl
        · exact (Memory.naltWord_setNaltWord_of_ne (by omega) _).trans (other j i hi hj)
        · rw [← (UnitReport.join_fields _ _ vcl rfl).2.2 rfl rfl, ← self w]
          exact Memory.naltWord_setNaltWord (mwf w) k 2 _
        · exact (inv out hout hp hk).congr rfl rfl rfl
      · rw [bits] at hb
        match out, hb with
        | [], hb => simp at hb
        | [_], hb => simp at hb
        | h0 :: h1 :: rest, hb =>
          have hh' : h = rawHeader h0 h1 (BitVec.ofBool vcl) := hh.trans State.storeRbsp_header
          have report : convertedReport (BitVec.ofBool vcl) (h0 :: h1 :: rest) =
              ⟨headerEnd h, h, h0 :: h1 :: rest, 16, true, true⟩ := by rw [hh']; rfl
          rw [report, hp]
          refine ⟨t.mapWord2 k (setHeaderBits · h), ⟨?_, fun w => Memory.nalt_wf_setNaltWord (by rw [ht]; exact mwf w) k 2 _,
            fun _ => by rw [ht]; exact Bank.wf_ofList _ _,
            fun j i hi hj => ?_, fun w => ?_, ⟨?_, ?_, fun i h => ?_⟩, fun hp hk => ?_⟩, rfl⟩
          · rw [ht, meq]; rfl
          · rw [ht]
            exact (Memory.naltWord_setNaltWord_of_ne (by omega) _).trans (other j i hi hj)
          · rw [← (UnitReport.join_fields _ _ vcl (by rw [hh']; rfl)).2.2 rfl rfl, ← self w, ht]
            exact Memory.naltWord_setNaltWord (mwf w) k 2 _
          · rw [ht]; rfl
          · rw [ht]; rfl
          · rw [ht]; exact m.storeRbsp_read _ vcl h
          · have hi := inv _ hout hp hk
            have hp' : (m.storeRbsp (h0 :: h1 :: rest) vcl).params.valid := by rw [meq]; exact hp
            refine State.ReaderInv.congr (s := (m.storeRbsp (h0 :: h1 :: rest) vcl).moveReader 16)
              (State.moveReader_inv hi.len_le (hi.bounds hp').2 ?_) (by rw [ht]; rfl) (by rw [ht]; rfl) (by rw [ht]; rfl)
            unfold State.bitsLeft at bits
            simp only [List.length_cons] at bits
            omega
    · rw [h1, h2]
      refine ⟨m.emptyRbsp (.converted (s.unitVcl k)), ⟨?_, mwf, fun _ => Bank.wf_unspecified _, other, fun w => ?_,
        ⟨rfl, rfl, fun i h => absurd h (Nat.not_lt_zero i)⟩, fun _ _ => m.emptyRbsp_inv _⟩, rfl⟩
      · simp only [headerWarn_zero]; rw [meq]; rfl
      · rw [← (UnitReport.join_fields _ _ (s.unitVcl k) rfl).2.1 rfl rfl]
        exact self w

/-- The outcomes of a header are of class R, but for S_LAYER_ID (44_nal_header.md R334-R340). -/
theorem headerEnd_class {h : Nuh} {r : Raise} (hr : headerEnd h = .outcome r) :
    r.code = .sLayerId ∨ r.code.cls = .recoverable := by
  rw [headerEnd_eq] at hr
  split at hr
  · rename_i hc; cases hr; exact headerCheck_class hc
  · split at hr <;> cases hr
    exact .inr (by simp)

theorem headerEnd_sps {h : Nuh} (hr : headerEnd h = .sps) : h.typ = 15#5 := by
  rw [headerEnd_eq] at hr
  split at hr
  · cases hr
  · split at hr <;> cases hr
    rename_i hc
    exact typeClass_eq_sps hc

/-- The outcomes of a unit before its SPS parse (43_scanner_framer.md R297). -/
theorem State.unitReport_class {s : State} {k : Nat} {r : Raise} (h : (s.unitReport k).ending = .outcome r) :
    r.code = .sLayerId ∨ r.code.cls = .recoverable := by
  unfold State.unitReport at h
  simp only at h
  split at h
  · cases h; exact .inr (by simp)
  · split at h
    · rename_i r' hr
      cases h
      rcases convert_error hr with h | h | h <;> exact .inr (by rw [h]; simp)
    · unfold convertedReport at h
      split at h
      · exact headerEnd_class h
      · cases h; exact .inr (by simp)

/-- A unit whose SPS parse starts has type 15, and its header has been consumed (44_nal_header.md R341). -/
theorem State.unitReport_sps {s : State} {k : Nat} (h : (s.unitReport k).ending = .sps) :
    (s.unitReport k).nuh.typ = 15#5 ∧ (s.unitReport k).bitPos = 16 := by
  unfold State.unitReport at h ⊢
  simp only at h ⊢
  split at h
  · cases h
  · rename_i hn
    rw [if_neg hn]
    split at h
    · cases h
    · rename_i out ho
      unfold convertedReport at h ⊢
      split at h
      · exact ⟨headerEnd_sps h, rfl⟩
      · cases h

/-- A report rests on the unit's entry and on AU alone. -/
theorem State.unitReport_congr {s t : State} {k : Nat} (ha : t.mem.au = s.mem.au) (h0 : t.unitStart k = s.unitStart k)
    (h1 : t.unitEnd k = s.unitEnd k) : t.unitReport k = s.unitReport k := by
  unfold State.unitReport
  rw [ha, h0, h1]

/-! ### One turn of the unit loop -/

/-- One unit of the loop is done, or its SPS parse is about to start: the cursor moves on, and all else is as the unit's
report says (43_scanner_framer.md R296, R297). -/
structure UnitDone (s t : State) : Prop where
  eq : t = { s with
    nuh := (s.unitReport s.decNext.toNat).nuh, warn := headerWarn s.warn (s.unitReport s.decNext.toNat).nuh,
    reader := t.reader, free := t.free,
    error := (s.unitReport s.decNext.toNat).record s.error,
    errFlag := s.errFlag || (s.unitReport s.decNext.toNat).setsErr,
    curNal := s.decNext, decNext := s.decNext + 1#32,
    mem := { s.mem with rbsp := t.mem.rbsp, nalt := t.mem.nalt } }
  nalt_wf : s.mem.nalt.wf = true → t.mem.nalt.wf = true
  rbsp_wf : s.mem.rbsp.wf = true → t.mem.rbsp.wf = true
  word : ∀ j i, i < 4 → ¬ (j = s.decNext.toNat ∧ 2 ≤ i) → t.mem.naltWord j i = s.mem.naltWord j i
  entry : s.mem.nalt.wf = true →
    t.mem.naltWord s.decNext.toNat 2 = (s.unitReport s.decNext.toNat).word2 (s.mem.naltWord s.decNext.toNat 2) ∧
    t.mem.naltWord s.decNext.toNat 3 = (s.unitReport s.decNext.toNat).info (s.mem.naltWord s.decNext.toNat 3)
  loaded : Loaded (s.unitReport s.decNext.toNat) t
  reader : s.params.valid → (s.unitEnd s.decNext.toNat).toNat ≤ s.params.auCap → t.ReaderInv

/-- The loop's turn for one more unit. -/
theorem State.resumeLoop_turn (s : State) (n : Nat) :
    s.resumeLoop (n + 1) =
      match s.nextUnit.process s.decNext.toNat with
      | .sps t => t.startSps .decodeUnit
      | .stub t => (t.dispose s.decNext.toNat .oStub 0#32).resumeLoop n
      | .ended r t =>
        if r.code.cls = .fatal then (t.endUnit s.decNext.toNat r).haltUnits
        else (t.endUnit s.decNext.toNat r).resumeLoop n := rfl

/-- A unit disposed of with a code and INFO, by its report. -/
theorem UnitDone.ofReported {s t : State} {c : Code} {info : Word} {e : ErrRecord} {f : Bool}
    (h : Reported (s.unitReport s.decNext.toNat) s.decNext.toNat s.nextUnit t)
    (hc : ∀ x, (s.unitReport s.decNext.toNat).disp x = c.val) (hi : ∀ x, (s.unitReport s.decNext.toNat).info x = info)
    (he : e = (s.unitReport s.decNext.toNat).record s.error)
    (hf : f = (s.errFlag || (s.unitReport s.decNext.toNat).setsErr)) :
    UnitDone s { t.dispose s.decNext.toNat c info with error := e, errFlag := f } := by
  refine ⟨?_, fun w => State.dispose_nalt_wf (h.nalt_wf w) _ _ _, h.rbsp_wf, fun j i hi hj => ?_, fun w => ?_, ?_,
    fun hp hk => (h.reader hp hk).congr rfl rfl rfl⟩
  · rw [State.dispose_frame, h.eq, he, hf]; rfl
  · exact (t.dispose_naltWord_of_ne c info hi hj).trans (h.word j i hi (by omega))
  · obtain ⟨h2, h3, -⟩ := State.dispose_naltWord (h.nalt_wf w) s.decNext.toNat c info
    refine ⟨h2.trans ?_, h3.trans (hi _).symm⟩
    rw [h.word2 w, setDisp_join]
    unfold UnitReport.word2
    rw [hc]
    rfl
  · exact h.loaded.congr rfl rfl

/-- One turn of the unit loop: a unit done and the loop goes on, or a parse starts (43_scanner_framer.md R296, R299). -/
theorem State.resumeLoop_succ (s : State) (n : Nat) :
    ∃ t, UnitDone s t ∧
      (((s.unitReport s.decNext.toNat).ending ≠ .sps ∧ s.resumeLoop (n + 1) = t.resumeLoop n) ∨
        ((s.unitReport s.decNext.toNat).ending = .sps ∧ s.resumeLoop (n + 1) = t.startSps .decodeUnit)) := by
  rw [State.resumeLoop_turn]
  obtain ⟨t, ht, hp⟩ := s.nextUnit.process_spec s.decNext.toNat
  have hu : s.nextUnit.unitReport s.decNext.toNat = s.unitReport s.decNext.toNat :=
    State.unitReport_congr rfl rfl rfl
  rw [hu] at ht hp
  rw [hp]
  have herr : t.error = s.error := by rw [ht.eq]; rfl
  have hflag : t.errFlag = s.errFlag := by rw [ht.eq]; rfl
  cases he : (s.unitReport s.decNext.toNat).ending with
  | stub =>
    refine ⟨{ t.dispose s.decNext.toNat .oStub 0#32 with error := t.error, errFlag := t.errFlag },
      UnitDone.ofReported ht ?_ ?_ ?_ ?_, .inl ⟨nofun, rfl⟩⟩
    · intro x; unfold UnitReport.disp; rw [he]; rfl
    · intro x; unfold UnitReport.info; rw [he]
    · unfold UnitReport.record; rw [he, herr]
    · unfold UnitReport.setsErr; rw [he, hflag, Bool.or_false]
  | outcome r =>
    have hc := State.unitReport_class he
    have hnf : r.code.cls ≠ .fatal := by
      rcases hc with h | h <;> rw [h] <;> simp
    refine ⟨t.endUnit s.decNext.toNat r, UnitDone.ofReported ht ?_ ?_ ?_ ?_, .inl ⟨nofun, if_neg hnf⟩⟩
    · intro x; unfold UnitReport.disp; rw [he]
    · intro x; unfold UnitReport.info; rw [he]
    · unfold UnitReport.record; rw [he]; rfl
    · unfold UnitReport.setsErr Code.setsErr
      rw [he]
      show (t.errFlag || (r.code.cls == .rejected || r.code.cls == .recoverable)) =
        (s.errFlag || r.code.cls == .recoverable)
      rw [hflag]
      rcases hc with h | h <;> rw [h] <;> rfl
  | sps =>
    refine ⟨t, ⟨?_, ht.nalt_wf, ht.rbsp_wf, fun j i hi hj => ht.word j i hi (by omega), fun w => ⟨?_, ?_⟩,
      ht.loaded, ht.reader⟩, .inr ⟨rfl, rfl⟩⟩
    · unfold UnitReport.record UnitReport.setsErr
      rw [he, Bool.or_false]
      exact ht.eq
    · unfold UnitReport.word2 UnitReport.disp
      rw [he]
      exact ht.word2 w
    · unfold UnitReport.info
      rw [he]
      exact ht.word _ 3 (by omega) (by omega)

/-- The loop with no unit left: the access unit is done (43_scanner_framer.md R299). -/
theorem State.resumeLoop_zero (s : State) : s.resumeLoop 0 = { s with result := s.nalCount }.complete := rfl

/-- The unit loop, by what each turn keeps: it completes, or a parse starts (43_scanner_framer.md R296, R299). -/
theorem State.resumeLoop_induct {P : Nat → State → Prop} (turn : ∀ n s t, P (n + 1) s → UnitDone s t → P n t)
    {n : Nat} {s : State} (h : P n s) :
    (∃ u, P 0 u ∧ s.resumeLoop n = { u with result := u.nalCount }.complete) ∨
      ∃ m u t, P (m + 1) u ∧ UnitDone u t ∧ (u.unitReport u.decNext.toNat).ending = .sps ∧
        s.resumeLoop n = t.startSps .decodeUnit := by
  induction n generalizing s with
  | zero => exact .inl ⟨s, h, rfl⟩
  | succ n ih =>
    obtain ⟨t, h1, ⟨_, h2⟩ | ⟨he, h2⟩⟩ := s.resumeLoop_succ n
    · rw [h2]; exact ih (turn n s t h h1)
    · exact .inr ⟨n, s, t, h, h1, he, h2⟩

/-! ### The whole loop -/

theorem UnitDone.decNext {s t : State} (h : UnitDone s t) (hn : s.decNext.toNat < s.nalCount.toNat) :
    t.decNext.toNat = s.decNext.toNat + 1 := by
  have hd : t.decNext = s.decNext + 1#32 := by rw [h.eq]
  have := s.nalCount.isLt
  rw [hd, BitVec.toNat_add]
  simp only [BitVec.toNat_ofNat]
  omega

theorem UnitDone.unitReport {s t : State} (h : UnitDone s t) (k : Nat) : t.unitReport k = s.unitReport k :=
  State.unitReport_congr (by rw [h.eq]) (h.word k 0 (by omega) (by omega)) (h.word k 1 (by omega) (by omega))

theorem State.unitReports_succ {s t : State} (h : UnitDone s t) (hn : s.decNext.toNat < s.nalCount.toNat) (n : Nat) :
    s.unitReports (n + 1) = s.unitReport s.decNext.toNat :: t.unitReports n := by
  unfold State.unitReports
  rw [List.range'_succ, List.map_cons, h.decNext hn]
  congr 1
  exact List.map_congr_left fun k _ => (h.unitReport k).symm

/-- No unit done. -/
theorem UnitsDone.refl (s : State) : UnitsDone s s 0 :=
  ⟨Nat.zero_le _, by
    have : word (s.decNext.toNat + 0) = s.decNext := by simp [word]
    rw [this]
    simp [State.unitReports], fun k h1 h2 => by omega, fun _ _ _ _ => rfl, fun u hu => by simp [State.unitReports] at hu,
    fun _ => ⟨rfl, rfl, rfl⟩⟩

/-- One more unit, before the others. -/
theorem UnitsDone.cons {s t w : State} {n : Nat} (hw : s.mem.nalt.wf = true) (hn : s.decNext.toNat < s.nalCount.toNat)
    (h : UnitDone s t) (h' : UnitsDone t w n) : UnitsDone s w (n + 1) := by
  have hc : t.nalCount = s.nalCount := by rw [h.eq]
  have hd := h.decNext hn
  have hr := State.unitReports_succ h hn n
  have he := h'.within
  rw [hc, hd] at he
  refine ⟨by omega, ?_, fun k h1 h2 => ?_, fun k i hi hk => ?_, fun u hu => ?_, fun h0 => by omega⟩
  · have hcur : (if n = 0 then t.curNal else Sys2Proof.word (t.decNext.toNat + n - 1)) =
        if n + 1 = 0 then s.curNal else Sys2Proof.word (s.decNext.toNat + (n + 1) - 1) := by
      rw [if_neg (show ¬ n + 1 = 0 by omega), hd]
      split
      · rename_i h0
        subst h0
        rw [h.eq]
        simp [Sys2Proof.word]
      · congr 1
        omega
    have hdec : Sys2Proof.word (t.decNext.toNat + n) = Sys2Proof.word (s.decNext.toNat + (n + 1)) := by
      rw [hd]; congr 1; omega
    have herr : (t.unitReports n).foldl (fun e u => u.record e) t.error =
        (s.unitReports (n + 1)).foldl (fun e u => u.record e) s.error := by rw [hr, h.eq]; rfl
    have hflag : (t.errFlag || (t.unitReports n).any UnitReport.setsErr) =
        (s.errFlag || (s.unitReports (n + 1)).any UnitReport.setsErr) := by
      rw [hr, List.any_cons, ← Bool.or_assoc, show t.errFlag = _ by rw [h.eq]]
    have hwarn : (t.unitReports n).foldl (fun w u => headerWarn w u.nuh) t.warn =
        (s.unitReports (n + 1)).foldl (fun w u => headerWarn w u.nuh) s.warn := by rw [hr, h.eq]; rfl
    have hnuh : (t.unitReports n).foldl (fun _ u => u.nuh) t.nuh =
        (s.unitReports (n + 1)).foldl (fun _ u => u.nuh) s.nuh := by rw [hr, h.eq]; rfl
    have e := h'.eq
    rw [hcur, hdec, herr, hflag, hwarn, hnuh] at e
    generalize w.reader = a, w.free = b, w.mem.rbsp = c, w.mem.nalt = d at e ⊢
    rw [e, h.eq]
  · rcases Nat.eq_or_lt_of_le h1 with rfl | hlt
    · obtain ⟨e2, e3⟩ := h.entry hw
      rw [h'.other _ 2 (by omega) (by omega), h'.other _ 3 (by omega) (by omega)]
      exact ⟨e2, e3⟩
    · have := h'.entry k (by omega) (by omega)
      rw [h.unitReport, h.word k 2 (by omega) (by omega), h.word k 3 (by omega) (by omega)] at this
      exact this
  · rw [h'.other k i hi (by omega), h.word k i hi (by omega)]
  · rw [hr] at hu
    by_cases h0 : n = 0
    · subst h0
      obtain ⟨a, b, -⟩ := h'.nothing rfl
      have : (t.unitReports 0) = [] := rfl
      rw [this] at hu
      simp only [List.getLast?_singleton, Option.some.injEq] at hu
      subst hu
      have := h.loaded.congr a (by rw [b])
      exact ⟨this.len, this.bitPos, this.bytes⟩
    · refine h'.reader u ?_
      obtain ⟨m, rfl⟩ : ∃ m, n = m + 1 := ⟨n - 1, by omega⟩
      have hl : t.unitReports (m + 1) = t.unitReport t.decNext.toNat :: (List.range' (t.decNext.toNat + 1) m).map t.unitReport := by
        unfold State.unitReports
        rw [List.range'_succ, List.map_cons]
      rw [hl] at hu ⊢
      rw [← hu, List.getLast?_cons_cons]

/-- The loop from `n` units left on (43_scanner_framer.md R296, R299). -/
theorem State.resumeLoop_loopEnds {s : State} {n : Nat} (hw : s.mem.nalt.wf = true)
    (hn : n = s.nalCount.toNat - s.decNext.toNat) : LoopEnds s (s.resumeLoop n) := by
  induction n generalizing s with
  | zero =>
    refine ⟨0, s, UnitsDone.refl s, .inl ⟨hn, fun u hu => ?_, rfl⟩⟩
    simp [State.unitReports] at hu
  | succ n ih =>
    have hlt : s.decNext.toNat < s.nalCount.toNat := by omega
    obtain ⟨t, h, ⟨he, h2⟩ | ⟨he, h2⟩⟩ := s.resumeLoop_succ n
    · have hc : t.nalCount = s.nalCount := by rw [h.eq]
      obtain ⟨m, w, hd, hend⟩ := ih (h.nalt_wf hw) (by rw [hc, h.decNext hlt]; omega)
      have hr := State.unitReports_succ h hlt
      rw [h2]
      refine ⟨m + 1, w, UnitsDone.cons hw hlt h hd, ?_⟩
      rcases hend with ⟨e1, e2, e3⟩ | ⟨⟨k, rfl, e1, e2⟩, e3, e4⟩
      · refine .inl ⟨by rw [e1, hc, h.decNext hlt]; omega, fun u hu => ?_, ?_⟩
        · rw [hr] at hu
          rcases List.mem_cons.1 hu with rfl | hu
          · exact he
          · exact e2 u hu
        · rw [e3, h.eq]
      · refine .inr ⟨⟨k + 1, rfl, fun u hu => ?_, ?_⟩, ?_, e4⟩
        · rw [hr] at hu
          rcases List.mem_cons.1 hu with rfl | hu
          · exact he
          · exact e1 u hu
        · rw [h.unitReport, h.decNext hlt] at e2
          rw [show s.decNext.toNat + (k + 1) = s.decNext.toNat + 1 + k by omega]
          exact e2
        · have hl : t.latch = s.latch := by rw [h.eq]
          rw [← hl]
          exact e3
    · rw [h2]
      refine ⟨1, t, UnitsDone.cons hw hlt h (UnitsDone.refl t), .inr ⟨⟨0, rfl, fun u hu => ?_, he⟩, ?_, ?_, ?_, ?_⟩⟩
      · simp [State.unitReports] at hu
      · have hl : t.latch = s.latch := by rw [h.eq]
        rw [← hl]
        rfl
      · exact t.getV_startSps .decodeUnit
      · exact fun a => Bank.read_cleared a
      · exact fun a => Bank.read_cleared a

/-- `resume()` (43_scanner_framer.md R296, R299). -/
theorem State.resume_loopEnds {s : State} (hw : s.mem.nalt.wf = true) : LoopEnds s s.resume :=
  State.resumeLoop_loopEnds hw rfl

end Sys2Proof.Machine
end

