-- ==== Sys2Proof/Laws/Vlc.lean ====
section
/-!
SUPPORT. The VLC decoder: what the Exp-Golomb codes give (45_vlc.md R362-R365), the range checks (R366), more_rbsp_data
(R378) and the trailing bits (R381).
-/

namespace Sys2Proof.Machine

/-! ### Exp-Golomb codes -/

theorem leadingZeros_le (b : Bank 8) (k n : Nat) : leadingZeros b k n ≤ n := by
  induction n generalizing k with
  | zero => exact Nat.le_refl 0
  | succ n ih =>
    unfold leadingZeros
    split
    · omega
    · have := ih (k + 1); omega

theorem streamBit_of_lt_leadingZeros {b : Bank 8} {k n j : Nat} (h : j < leadingZeros b k n) :
    streamBit b (k + j) = false := by
  induction n generalizing k j with
  | zero => simp [leadingZeros] at h
  | succ n ih =>
    unfold leadingZeros at h
    split at h
    · omega
    · rename_i hb
      cases j with
      | zero => simpa using hb
      | succ j => rw [← ih (k := k + 1) (j := j) (by omega)]; congr 1; omega

theorem streamBit_leadingZeros {b : Bank 8} {k n : Nat} (h : leadingZeros b k n < n) :
    streamBit b (k + leadingZeros b k n) = true := by
  induction n generalizing k with
  | zero => omega
  | succ n ih =>
    unfold leadingZeros at h ⊢
    split
    · rename_i hb; exact hb
    · rename_i hb
      rw [if_neg hb] at h
      rw [← ih (k := k + 1) (by omega)]; congr 1; omega

/-- The count of leading zeros is where the first 1 bit lies, or the whole window. -/
theorem leadingZeros_eq {b : Bank 8} {k n l : Nat} (hl : l ≤ n) (hz : ∀ j < l, streamBit b (k + j) = false)
    (h1 : l < n → streamBit b (k + l) = true) : leadingZeros b k n = l := by
  rcases Nat.lt_trichotomy (leadingZeros b k n) l with h | h | h
  · have := streamBit_leadingZeros (b := b) (k := k) (n := n) (by omega)
    rw [hz _ h] at this
    cases this
  · exact h
  · have hn := leadingZeros_le b k n
    have := streamBit_of_lt_leadingZeros h
    rw [h1 (by omega)] at this
    cases this

/-- The bits of a code of `l` zeros are worth its suffix above `2^l`. -/
theorem CodeAt.stream_eq {s : State} {l : Nat} (h : CodeAt s l) :
    stream s.mem.rbsp s.bitPos (2 * l + 1) = 2 ^ l + stream s.mem.rbsp (s.bitPos + l + 1) l := by
  obtain ⟨_, _, hz, h1⟩ := h
  rw [show 2 * l + 1 = l + (l + 1) by omega, stream_add, stream_zeros hz, stream_succ', h1]
  simp

theorem CodeAt.codeNumber_eq {s : State} {l : Nat} (h : CodeAt s l) :
    codeNumber s l = 2 ^ l - 1 + stream s.mem.rbsp (s.bitPos + l + 1) l := by
  unfold codeNumber
  rw [h.stream_eq]
  have := Nat.two_pow_pos l
  omega

theorem CodeAt.codeNumber_lt {s : State} {l : Nat} (h : CodeAt s l) : codeNumber s l < 2 ^ 32 - 1 := by
  rw [h.codeNumber_eq]
  have h1 := stream_lt s.mem.rbsp (s.bitPos + l + 1) l
  have h2 : 2 ^ l ≤ 2 ^ 31 := Nat.pow_le_pow_right (by omega) (by have := h.1; omega)
  omega

theorem CodeAt.egZeros_eq {s : State} {l : Nat} (h : CodeAt s l) : s.egZeros = l := by
  obtain ⟨h1, h2, h3, h4⟩ := h
  exact leadingZeros_eq (by omega) h3 fun _ => h4

/-- `ue()` returns the number of the code at BR_BITPOS and consumes it (45_vlc.md R362). -/
theorem State.ue_ok {s : State} {l : Nat} (hb : s.readerBounds) (h : CodeAt s l) :
    ∃ t, s.ue = .ok (word (codeNumber s l)) t ∧ Consumed s t (2 * l + 1) := by
  have he := h.egZeros_eq
  obtain ⟨h1, h2, -, -⟩ := id h
  refine ⟨s.moveReader (s.bitPos + (2 * l + 1)), ?_, State.moveReader_consumed ?_⟩
  · unfold State.ue
    simp only
    rw [he, if_neg (by omega), if_neg (by omega), if_neg (by omega), h.codeNumber_eq]
  · have := hb.1
    have := hb.2
    unfold State.bitsLeft at h2
    omega

/-- Everything `ue()` can do: an outcome with nothing consumed, or a code's number with the code consumed. -/
theorem State.ue_cases (s : State) :
    (∃ r, s.ue = .raise r s ∧ (r.code = .eEgOverflow ∨ r.code = .eBrUnderflow)) ∨
      ∃ l, CodeAt s l ∧ s.ue = .ok (word (codeNumber s l)) (s.moveReader (s.bitPos + (2 * l + 1))) := by
  have hle := leadingZeros_le s.mem.rbsp s.bitPos (min 32 s.bitsLeft)
  rw [show leadingZeros s.mem.rbsp s.bitPos (min 32 s.bitsLeft) = s.egZeros from rfl] at hle
  by_cases h32 : s.egZeros = 32
  · exact .inl ⟨_, by unfold State.ue; simp only; rw [if_pos h32], .inl rfl⟩
  · by_cases hl : s.egZeros = s.bitsLeft
    · exact .inl ⟨_, by unfold State.ue; simp only; rw [if_neg h32, if_pos hl], .inr rfl⟩
    · by_cases hs : s.bitsLeft < 2 * s.egZeros + 1
      · exact .inl ⟨_, by unfold State.ue; simp only; rw [if_neg h32, if_neg hl, if_pos hs], .inr rfl⟩
      · have hc : CodeAt s s.egZeros := by
          refine ⟨by omega, by omega, fun j hj => streamBit_of_lt_leadingZeros hj, ?_⟩
          exact streamBit_leadingZeros (by rw [show leadingZeros _ _ _ = s.egZeros from rfl]; omega)
        refine .inr ⟨s.egZeros, hc, ?_⟩
        rw [hc.codeNumber_eq]
        unfold State.ue
        simp only
        rw [if_neg h32, if_neg hl, if_neg hs]

/-- The outcomes of `ue()` by the leading zeros (45_vlc.md R362, R364). -/
theorem State.ue_overflow {s : State} (h : 32 ≤ s.bitsLeft) (hz : ∀ j < 32, streamBit s.mem.rbsp (s.bitPos + j) = false) :
    s.ue = .raise { code := .eEgOverflow, value := 32#32 } s := by
  have he : s.egZeros = 32 := leadingZeros_eq (by omega) hz (by omega)
  unfold State.ue
  simp only
  rw [if_pos he]

theorem State.ue_noOne {s : State} (h : s.bitsLeft < 32)
    (hz : ∀ j < s.bitsLeft, streamBit s.mem.rbsp (s.bitPos + j) = false) :
    s.ue = .raise { code := .eBrUnderflow, value := word (s.bitsLeft + 1), max := word s.bitsLeft } s := by
  have he : s.egZeros = s.bitsLeft := leadingZeros_eq (by omega) hz (by omega)
  unfold State.ue
  simp only
  rw [he, if_neg (by omega), if_pos rfl]

theorem State.ue_short {s : State} {l : Nat} (h32 : l < 32) (h : l < s.bitsLeft) (hs : s.bitsLeft < 2 * l + 1)
    (hz : ∀ j < l, streamBit s.mem.rbsp (s.bitPos + j) = false) (h1 : streamBit s.mem.rbsp (s.bitPos + l) = true) :
    s.ue = .raise { code := .eBrUnderflow, value := word (2 * l + 1), max := word s.bitsLeft } s := by
  have he : s.egZeros = l := leadingZeros_eq (by omega) hz fun _ => h1
  unfold State.ue
  simp only
  rw [he, if_neg (by omega), if_neg (by omega), if_pos hs]

/-- The se(v) mapping is the signed number of the code number (45_vlc.md R365). -/
theorem seMap_word {k : Nat} (h : k < 2 ^ 32 - 1) : seMap (word k) = BitVec.ofInt 32 (signedNumber k) := by
  have hk : (word k).toNat = k := by rw [BitVec.toNat_ofNat, Nat.mod_eq_of_lt (by omega)]
  unfold seMap signedNumber
  rw [hk]
  split
  · rw [BitVec.ofInt_natCast]
  · rw [BitVec.ofInt_neg, BitVec.ofInt_natCast]

theorem toInt_signedNumber {k : Nat} (h : k < 2 ^ 32 - 1) : (BitVec.ofInt 32 (signedNumber k)).toInt = signedNumber k := by
  unfold signedNumber
  rw [BitVec.toInt_ofInt]
  split
  · exact Int.bmod_eq_of_le (by omega) (by omega)
  · exact Int.bmod_eq_of_le (by omega) (by omega)

/-! ### Range checks -/

theorem checkU_cases (lo hi v : Word) (s : State) :
    (lo.toNat ≤ v.toNat ∧ v.toNat ≤ hi.toNat ∧ checkU lo hi v s = .ok v s) ∨
      (¬ (lo.toNat ≤ v.toNat ∧ v.toNat ≤ hi.toNat) ∧ checkU lo hi v s = .raise (rangeRaise v lo hi) s) := by
  unfold checkU
  by_cases h : lo.toNat ≤ v.toNat ∧ v.toNat ≤ hi.toNat
  · exact .inl ⟨h.1, h.2, if_pos h⟩
  · exact .inr ⟨h, if_neg h⟩

theorem checkS_cases (lo hi v : Word) (s : State) :
    (lo.toInt ≤ v.toInt ∧ v.toInt ≤ hi.toInt ∧ checkS lo hi v s = .ok v s) ∨
      (¬ (lo.toInt ≤ v.toInt ∧ v.toInt ≤ hi.toInt) ∧ checkS lo hi v s = .raise (rangeRaise v lo hi) s) := by
  unfold checkS s32
  by_cases h : lo.toInt ≤ v.toInt ∧ v.toInt ≤ hi.toInt
  · exact .inl ⟨h.1, h.2, if_pos h⟩
  · exact .inr ⟨h, if_neg h⟩

/-! ### more_rbsp_data -/

theorem lastOne_eq_none {b : Bank 8} {base n : Nat} (h : lastOne b base n = none) {j : Nat} (hj : j < n) :
    streamBit b (base + j) = false := by
  induction n with
  | zero => omega
  | succ n ih =>
    unfold lastOne at h
    split at h
    · cases h
    · rename_i hb
      rcases Nat.lt_or_ge j n with hjn | hjn
      · exact ih h hjn
      · rw [show j = n by omega]; simpa using hb

theorem lastOne_eq_some {b : Bank 8} {base n t : Nat} (h : lastOne b base n = some t) :
    base ≤ t ∧ t < base + n ∧ streamBit b t = true ∧ ∀ j, t < base + j → j < n → streamBit b (base + j) = false := by
  induction n with
  | zero => cases h
  | succ n ih =>
    unfold lastOne at h
    split at h
    · rename_i hb
      cases h
      exact ⟨by omega, by omega, hb, fun j h1 h2 => by omega⟩
    · rename_i hb
      obtain ⟨h1, h2, h3, h4⟩ := ih h
      refine ⟨h1, by omega, h3, fun j hj hjn => ?_⟩
      rcases Nat.lt_or_ge j n with hjn' | hjn'
      · exact h4 j hj hjn'
      · rw [show j = n by omega]; simpa using hb

/-- more_rbsp_data() says whether a 1 bit lies after BR_BITPOS (45_vlc.md R378). -/
theorem State.moreRbspData_iff (s : State) : s.moreRbspData = true ↔ MoreData s := by
  unfold State.moreRbspData MoreData
  cases h : lastOne s.mem.rbsp s.bitPos s.bitsLeft with
  | none =>
    simp only [Bool.false_eq_true, false_iff]
    rintro ⟨k, h1, h2, h3⟩
    have := lastOne_eq_none h (j := k - s.bitPos) (by unfold State.bitsLeft; omega)
    rw [show s.bitPos + (k - s.bitPos) = k by omega, h3] at this
    cases this
  | some t =>
    obtain ⟨h1, h2, h3, h4⟩ := lastOne_eq_some h
    simp only [decide_eq_true_eq]
    constructor
    · intro hlt
      refine ⟨t, hlt, ?_, h3⟩
      unfold State.bitsLeft at h2
      omega
    · rintro ⟨k, k1, k2, k3⟩
      by_contra hc
      have := h4 (k - s.bitPos) (by omega) (by unfold State.bitsLeft; omega)
      rw [show s.bitPos + (k - s.bitPos) = k by omega, k3] at this
      cases this

/-! ### Trailing bits -/

/-- One bit read inside the RBSP. -/
theorem State.read_one {s : State} (hb : s.readerBounds) (h : s.bitPos < s.streamLen) :
    ∃ t, s.read 1 = .ok (word (streamBit s.mem.rbsp s.bitPos).toNat) t ∧ Consumed s t 1 := by
  obtain ⟨t, h1, h2⟩ := State.read_ok (n := 1) hb (by omega) (by unfold State.bitsLeft; omega)
  rw [stream_one] at h1
  exact ⟨t, h1, h2⟩

/-- The padding loop consumes the zeros it meets (45_vlc.md R381). -/
theorem trailPadding_ok {s : State} {n c : Nat} (hb : s.readerBounds) (h : s.bitPos + n ≤ s.streamLen)
    (hz : ∀ j < n, streamBit s.mem.rbsp (s.bitPos + j) = false) :
    ∃ t, trailPadding n c s = .ok (c + n) t ∧ Consumed s t n := by
  induction n generalizing s c with
  | zero => exact ⟨s, rfl, Consumed.refl s⟩
  | succ n ih =>
    obtain ⟨t, h1, h2⟩ := State.read_one hb (by omega)
    have hb' := h2.bounds hb (by unfold State.bitsLeft; omega)
    obtain ⟨u, h3, h4⟩ := ih (s := t) (c := c + 1) hb' (by rw [h2.2.2, h2.streamLen]; omega)
      (fun j hj => by rw [h2.mem, h2.2.2, Nat.add_assoc, Nat.add_comm 1 j]; exact hz (j + 1) (by omega))
    refine ⟨u, ?_, ?_⟩
    · unfold trailPadding
      rw [h1, Eff.bind_ok, hz 0 (by omega) |> fun e => (by rw [Nat.add_zero] at e; exact e : streamBit s.mem.rbsp s.bitPos = false)]
      rw [if_neg (by decide), h3]
      congr 1
      omega
    · rw [Nat.add_comm n 1]; exact h2.trans h4

/-- The padding loop stops at the first 1 bit, which it has consumed (45_vlc.md R381). -/
theorem trailPadding_align {s : State} {n c j : Nat} (hb : s.readerBounds) (h : s.bitPos + n ≤ s.streamLen) (hj : j < n)
    (hz : ∀ i < j, streamBit s.mem.rbsp (s.bitPos + i) = false) (h1 : streamBit s.mem.rbsp (s.bitPos + j) = true) :
    ∃ t, trailPadding n c s = .raise { code := .eTrailAlign, value := 1#32, min := word (s.bitPos + j) } t ∧
      Consumed s t (j + 1) := by
  induction n generalizing s c j with
  | zero => omega
  | succ n ih =>
    obtain ⟨t, h2, h3⟩ := State.read_one hb (by omega)
    have hb' := h3.bounds hb (by unfold State.bitsLeft; omega)
    cases j with
    | zero =>
      rw [Nat.add_zero] at h1
      refine ⟨t, ?_, h3⟩
      unfold trailPadding
      rw [h2, Eff.bind_ok, h1, if_pos (by decide), h3.2.2]
      rfl
    | succ j =>
      obtain ⟨u, h4, h5⟩ := ih (s := t) (c := c + 1) (j := j) hb' (by rw [h3.2.2, h3.streamLen]; omega) (by omega)
        (fun i hi => by rw [h3.mem, h3.2.2, Nat.add_assoc, Nat.add_comm 1 i]; exact hz (i + 1) (by omega))
        (by rw [h3.mem, h3.2.2, Nat.add_assoc, Nat.add_comm 1 j]; exact h1)
      refine ⟨u, ?_, by rw [Nat.add_comm]; exact h3.trans h5⟩
      unfold trailPadding
      rw [h2, Eff.bind_ok, hz 0 (by omega) |> fun e => (by rw [Nat.add_zero] at e; exact e : streamBit s.mem.rbsp s.bitPos = false)]
      rw [if_neg (by decide), h4, h3.2.2]
      congr 3
      omega

/-- Everything the padding loop can do inside the RBSP: it consumes bits, and ends normally or with E_TRAIL_ALIGN. -/
theorem trailPadding_cases {s : State} {n c : Nat} (hb : s.readerBounds) (h : s.bitPos + n ≤ s.streamLen) :
    (∃ t, trailPadding n c s = .ok (c + n) t ∧ Consumed s t n ∧ ∀ j < n, streamBit s.mem.rbsp (s.bitPos + j) = false) ∨
      ∃ t j r, j < n ∧ trailPadding n c s = .raise r t ∧ r.code = .eTrailAlign ∧ Consumed s t (j + 1) := by
  by_cases hz : ∀ j < n, streamBit s.mem.rbsp (s.bitPos + j) = false
  · obtain ⟨t, h1, h2⟩ := trailPadding_ok (c := c) hb h hz
    exact .inl ⟨t, h1, h2, hz⟩
  · have hex : ∃ j, j < n ∧ streamBit s.mem.rbsp (s.bitPos + j) = true := by
      by_contra hc
      exact hz fun j hj => by
        cases hv : streamBit s.mem.rbsp (s.bitPos + j) with
        | false => rfl
        | true => exact absurd ⟨j, hj, hv⟩ hc
    have hm := Nat.find_spec hex
    have hmin : ∀ i < Nat.find hex, streamBit s.mem.rbsp (s.bitPos + i) = false := by
      intro i hi
      cases hv : streamBit s.mem.rbsp (s.bitPos + i) with
      | false => rfl
      | true => exact absurd ⟨by omega, hv⟩ (Nat.find_min hex hi)
    obtain ⟨t, h1, h2⟩ := trailPadding_align (c := c) hb h hm.1 hmin hm.2
    exact .inr ⟨t, Nat.find hex, _, hm.1, h1, rfl, h2⟩

theorem State.bitsToAlign_le (s : State) : s.bitsToAlign ≤ 7 := by
  unfold State.bitsToAlign; omega

/-- After a bit inside the RBSP, the bits up to the byte boundary lie inside it too. -/
theorem Consumed.align_le {s t : State} (h : Consumed s t 1) (hlt : s.bitPos < s.streamLen) :
    t.bitPos + t.bitsToAlign ≤ t.streamLen ∧ t.bitsToAlign = 7 - s.bitPos % 8 := by
  unfold State.bitsToAlign
  rw [h.streamLen, h.2.2]
  unfold State.streamLen at *
  omega

/-- The trailing bits consumed: a 1, then zeros up to the byte boundary (45_vlc.md R381, R383). -/
theorem State.trailingBits_ok {s : State} {m : Nat} (hb : s.readerBounds) (h : TrailAt s m) :
    ∃ t, s.trailingBits = .ok m t ∧ Consumed s t m := by
  obtain ⟨hm, hlt, h1, hz⟩ := h
  obtain ⟨t, h2, h3⟩ := State.read_one hb hlt
  obtain ⟨ha, hn⟩ := h3.align_le hlt
  have hb' := h3.bounds hb (by unfold State.bitsLeft; omega)
  obtain ⟨u, h4, h5⟩ := trailPadding_ok (s := t) (n := t.bitsToAlign) (c := 1) hb' ha
    (fun j hj => by rw [h3.mem, h3.2.2, Nat.add_assoc]; exact hz (1 + j) (by omega) (by omega))
  refine ⟨u, ?_, ?_⟩
  · unfold State.trailingBits
    rw [h2, Eff.bind_ok, h1, if_neg (by decide), h4, Eff.bind_ok, if_neg (by omega)]
    congr 1
    omega
  · have := h3.trans h5
    rwa [show 1 + t.bitsToAlign = m by omega] at this

/-- Everything the trailing bits can do: an outcome after the bits up to it, or the bits up to the byte boundary. -/
theorem State.trailingBits_cases {s : State} (hb : s.readerBounds) :
    (∃ t n, n ≤ s.bitsLeft ∧ Consumed s t n ∧ ∃ r, s.trailingBits = .raise r t ∧
      (r.code = .eBrUnderflow ∨ r.code = .eTrailStop ∨ r.code = .eTrailAlign)) ∨
      ∃ t m, m ≤ s.bitsLeft ∧ TrailAt s m ∧ s.trailingBits = .ok m t ∧ Consumed s t m := by
  by_cases hlt : s.bitPos < s.streamLen
  · obtain ⟨t, h2, h3⟩ := State.read_one hb hlt
    obtain ⟨ha, hn⟩ := h3.align_le hlt
    have hb' := h3.bounds hb (by unfold State.bitsLeft; omega)
    have hle : 1 + t.bitsToAlign ≤ s.bitsLeft := by
      rw [h3.streamLen, h3.2.2] at ha
      unfold State.bitsLeft
      omega
    cases h1 : streamBit s.mem.rbsp s.bitPos with
    | false =>
      refine .inl ⟨t, 1, by omega, h3, { code := .eTrailStop, value := 0#32, min := word (t.bitPos - 1) }, ?_, .inr (.inl rfl)⟩
      unfold State.trailingBits
      rw [h2, Eff.bind_ok, h1, if_pos (by decide)]
      rfl
    | true =>
      rcases trailPadding_cases (s := t) (n := t.bitsToAlign) (c := 1) hb' ha with ⟨u, h4, h5, h6⟩ | ⟨u, j, r, hj, h4, h5, h6⟩
      · refine .inr ⟨u, 1 + t.bitsToAlign, hle, ⟨by omega, hlt, h1, ?_⟩, ?_, h3.trans h5⟩
        · intro j hj1 hj2
          have := h6 (j - 1) (by omega)
          rw [h3.mem, h3.2.2] at this
          rw [← this]; congr 1; omega
        · unfold State.trailingBits
          rw [h2, Eff.bind_ok, h1, if_neg (by decide), h4, Eff.bind_ok, if_neg (by omega)]
      · refine .inl ⟨u, 1 + (j + 1), by omega, h3.trans h6, r, ?_, .inr (.inr h5)⟩
        unfold State.trailingBits
        rw [h2, Eff.bind_ok, h1, if_neg (by decide), h4, Eff.bind_raise]
  · refine .inl ⟨s, 0, by omega, Consumed.refl s, { code := .eBrUnderflow, value := word 1, max := word s.bitsLeft }, ?_, .inl rfl⟩
    unfold State.trailingBits
    rw [State.read_underflow (by omega) (by unfold State.bitsLeft; omega), Eff.bind_raise]

end Sys2Proof.Machine
end

