-- ==== Sys2Proof/Laws/Engine.lean ====
section
/-!
SUPPORT. The SPS engine: how a µop ends (46_sps_engine.md R401-R405), and everything a µop can do.
-/

namespace Sys2Proof.Machine

/-! ### The end of a µop -/

/-- A next_pc inside USTORE moves SEQ_PC, another one ends the parse with F_UOP_PC (46_sps_engine.md R403). -/
theorem State.goto_cases (s : State) (n : Int) :
    (0 ≤ n ∧ n < s.params.ustoreCap ∧ s.goto n = { s with seqPc := BitVec.ofInt 32 n }) ∨
      (¬ (0 ≤ n ∧ n < s.params.ustoreCap) ∧ s.goto n = s.endParse (pcRaise n)) := by
  unfold State.goto
  by_cases h : n < 0 ∨ (s.params.ustoreCap : Int) ≤ n
  · exact .inr ⟨by omega, if_pos h⟩
  · exact .inl ⟨by omega, by omega, if_neg h⟩

theorem State.goto_nat {s : State} {n : Nat} (h : n < s.params.ustoreCap) : s.goto n = { s with seqPc := word n } := by
  rcases s.goto_cases n with ⟨_, _, h'⟩ | ⟨h', _⟩
  · rw [h', BitVec.ofInt_natCast]
  · omega

/-- A µop that gives SEQ_PC + 1 goes on when the next µop exists (46_sps_engine.md R403). -/
theorem State.advance_ok {s : State} (h : s.nextFits) : s.advance = { s with seqPc := s.seqPc + 1#32 } := by
  have hn : s.nextTarget = ((s.seqPc.toNat + 1 : Nat) : Int) := by unfold State.nextTarget; omega
  unfold State.advance
  rw [hn, State.goto_nat h]
  rw [word, BitVec.ofNat_add, BitVec.ofNat_toNat, BitVec.setWidth_eq]

/-- A µop that writes one variable (46_sps_engine.md R403, R404). -/
theorem State.writeBack_ok {s : State} (d : BitVec 8) (x : Word) (h : s.nextFits) : WritesV s (s.writeBack d x) d x := by
  unfold State.writeBack
  have h' : (s.setV d x).nextFits := h
  rw [State.advance_ok h']
  exact ⟨rfl, fun i => s.getV_setV d x i⟩

/-- A µop that writes what it has read (46_sps_engine.md R404). -/
theorem State.readBack_ok {s t : State} {n : Nat} (d : BitVec 8) (x : Word) (h : s.nextFits) (hc : Consumed s t n) :
    ReadsV s (State.readBack d (.ok x t)) d n x := by
  have hs : t.seqPc = s.seqPc := by rw [hc.1]
  have h' : t.nextFits := by
    unfold State.nextFits at *
    rw [hs, hc.params]; exact h
  obtain ⟨h1, h2⟩ := State.writeBack_ok d x h'
  have hv : ∀ i, t.getV i = s.getV i := fun i => State.getV_congr (by rw [hc.1]) i
  unfold ReadsV State.readBack
  simp only
  generalize t.writeBack d x = w at h1 h2
  refine ⟨?_, fun i => by rw [← hv]; exact h2 i, ?_, ?_⟩
  · rw [h1, hs, hc.1]
  · rw [h1]; exact hc.2.1
  · rw [← hc.2.2]
    unfold State.bitPos
    rw [h1]

/-- A parse of PARSE_SPS that ends with an outcome ends the command (46_sps_engine.md R401, R405). -/
theorem State.endParse_parseSps {s : State} (h : s.engine = .parseSps) (r : Raise) : s.endParse r = s.endWith r s.seqPc := by
  unfold State.endParse
  rw [h]

theorem State.endParse_decodeUnit {s : State} (h : s.engine = .decodeUnit) (r : Raise) : s.endParse r = s.endUnitParse r := by
  unfold State.endParse
  rw [h]

/-- A parse inside DECODE_AU that ends with an outcome: the unit CUR_NAL gets it, and the block halts or the loop goes on
(43_scanner_framer.md R296-R298). -/
theorem State.endUnitParse_cases (s : State) (r : Raise) :
    ∃ u, u = { (s.dispose s.curNal.toNat r.code s.seqPc).recordOutcome r s.seqPc with engine := .off } ∧
      ((r.code.cls = .fatal ∧ s.endUnitParse r = u.haltUnits) ∨ (r.code.cls ≠ .fatal ∧ s.endUnitParse r = u.resume)) := by
  refine ⟨_, rfl, ?_⟩
  unfold State.endUnitParse
  by_cases h : r.code.cls = .fatal
  · exact .inl ⟨h, if_pos h⟩
  · exact .inr ⟨h, if_neg h⟩

/-- A class F disposition in the statements' terms (43_scanner_framer.md R296, R298). -/
theorem State.haltUnits_unitsAborted {s : State} (h : s.mem.nalt.wf = true) : UnitsAborted s s.haltUnits := by
  obtain ⟨h1, -, h3, h4⟩ := State.haltUnits_spec h
  refine ⟨h1, fun k i hi => ?_⟩
  split
  · rename_i hk
    obtain ⟨rfl, hk⟩ := hk
    rw [h3 k hk.1 hk.2]
    rfl
  · rename_i hk
    exact h4 k i hi hk

/-- A parse that ends with an outcome of class R or F ends as the statements say (46_sps_engine.md R401, R405;
43_scanner_framer.md R296-R298). -/
theorem State.endParse_parseEnds {s : State} {r : Raise} (h : s.parsing)
    (hc : r.code.cls = .recoverable ∨ r.code.cls = .fatal) : ParseEnds s (s.endParse r) r := by
  have hset : r.code.setsErr = (r.code.cls == .recoverable) := by
    unfold Code.setsErr
    rcases hc with h | h <;> rw [h] <;> rfl
  unfold ParseEnds
  cases he : s.engine with
  | off => exact absurd he h.1
  | parseSps =>
    rw [State.endParse_parseSps he]
    simp only
    unfold State.endWith State.endByClass State.recordOutcome
    rcases hc with hc | hc <;> simp only [hset, hc, reduceCtorEq, if_false, if_true]
    · unfold FailsIdle State.complete
      rw [show (Cls.recoverable == .recoverable) = true from rfl, Bool.or_true]
      rfl
    · unfold FailsHalted State.halt
      rw [show (Cls.fatal == .recoverable) = false from rfl, Bool.or_false]
      rfl
  | decodeUnit =>
    rw [State.endParse_decodeUnit he]
    obtain ⟨u, hu, hend⟩ := s.endUnitParse_cases r
    obtain ⟨h2, h3, -⟩ := State.dispose_naltWord h.2 s.curNal.toNat r.code s.seqPc
    have hm : u.mem.nalt = (s.dispose s.curNal.toNat r.code s.seqPc).mem.nalt := by rw [hu]; rfl
    have hw : u.mem.nalt.wf = true := by rw [hm]; exact State.dispose_nalt_wf h.2 _ _ _
    have word : ∀ k i, u.mem.naltWord k i = (s.dispose s.curNal.toNat r.code s.seqPc).mem.naltWord k i := by
      intro k i
      unfold Memory.naltWord
      rw [hm]
    refine ⟨u, ?_, (word _ _).trans h2, (word _ _).trans h3, fun k i hi hk => (word k i).trans ?_, ?_⟩
    · rw [hu, ← hset]; rfl
    · exact s.dispose_naltWord_of_ne r.code s.seqPc hi (by omega)
    · rcases hend with ⟨hf, e⟩ | ⟨hf, e⟩ <;> rw [e]
      · rw [if_pos hf]; exact State.haltUnits_unitsAborted hw
      · rw [if_neg hf]; exact State.resume_loopEnds hw

/-! ### Reading -/

/-- The reader moved forward inside the RBSP, nothing else changed. -/
structure Moved (s t : State) : Prop where
  eq : t = { s with reader := t.reader, free := t.free }
  len : t.reader.rbspLen = s.reader.rbspLen
  forward : s.readerBounds → s.bitPos ≤ t.bitPos ∧ t.bitPos ≤ s.streamLen
  inv : s.params.valid → s.ReaderInv → t.ReaderInv

theorem Moved.refl (s : State) : Moved s s := ⟨rfl, rfl, fun h => ⟨Nat.le_refl _, h.1⟩, fun _ h => h⟩

theorem Moved.streamLen {s t : State} (h : Moved s t) : t.streamLen = s.streamLen := by
  unfold State.streamLen; rw [h.len]

theorem Moved.trans {s t u : State} (h : Moved s t) (h' : Moved t u) : Moved s u := by
  refine ⟨?_, h'.len.trans h.len, fun hb => ?_, fun hp hi => ?_⟩
  · rw [h'.eq, h.eq]
  · obtain ⟨h1, h2⟩ := h.forward hb
    obtain ⟨h3, h4⟩ := h'.forward ⟨by rw [h.streamLen]; exact h2, by rw [h.streamLen]; exact hb.2⟩
    rw [h.streamLen] at h4
    exact ⟨by omega, h4⟩
  · have hp' : t.params.valid := by rw [h.eq]; exact hp
    exact h'.inv hp' (h.inv hp hi)

theorem Moved.moveReader {s : State} {n : Nat} (hn : n ≤ s.bitsLeft) : Moved s (s.moveReader (s.bitPos + n)) := by
  refine ⟨rfl, rfl, fun hb => ?_, fun hp hi => ?_⟩
  · have h1 := hb.1
    have h2 := hb.2
    unfold State.bitsLeft at hn
    rw [State.bitPos_moveReader s (by omega)]
    omega
  · have hb := hi.bounds hp
    have := hb.1
    unfold State.bitsLeft at hn
    exact State.moveReader_inv hi.len_le hb.2 (by omega)

/-- A function of the bit reader: it leaves a state where the reader has moved forward, in every case. -/
def MovesEff {α : Type} (s : State) (e : Eff α) : Prop :=
  match e with
  | .ok _ t => Moved s t
  | .raise _ t => Moved s t

theorem MovesEff.bind {α β : Type} {s : State} {e : Eff α} {f : α → State → Eff β} (h : MovesEff s e)
    (hf : ∀ a t, MovesEff t (f a t)) : MovesEff s (e.bind f) := by
  cases e with
  | raise r t => exact h
  | ok a t =>
    have h1 := hf a t
    simp only [Eff.bind_ok]
    cases hft : f a t with
    | ok b u => rw [hft] at h1; exact Moved.trans h h1
    | raise r u => rw [hft] at h1; exact Moved.trans h h1

theorem State.read_moves (s : State) (n : Nat) : MovesEff s (s.read n) := by
  rcases s.read_cases n with ⟨r, h, _⟩ | ⟨_, hn, t, h, ⟨rfl, _⟩ | rfl⟩
  · rw [h]; exact Moved.refl s
  · rw [h]; exact Moved.refl t
  · rw [h]; exact Moved.moveReader hn

theorem State.ue_moves (s : State) : MovesEff s s.ue := by
  rcases s.ue_cases with ⟨r, h, _⟩ | ⟨l, hc, h⟩
  · rw [h]; exact Moved.refl s
  · rw [h]; exact Moved.moveReader hc.2.1

theorem State.se_moves (s : State) : MovesEff s s.se := s.ue_moves.bind fun _ t => Moved.refl t

theorem checkU_moves (lo hi v : Word) (s : State) : MovesEff s (checkU lo hi v s) := by
  rcases checkU_cases lo hi v s with ⟨_, _, h⟩ | ⟨_, h⟩ <;> rw [h] <;> exact Moved.refl s

theorem checkS_moves (lo hi v : Word) (s : State) : MovesEff s (checkS lo hi v s) := by
  rcases checkS_cases lo hi v s with ⟨_, _, h⟩ | ⟨_, h⟩ <;> rw [h] <;> exact Moved.refl s

theorem trailPadding_moves (n c : Nat) (s : State) : MovesEff s (trailPadding n c s) := by
  induction n generalizing c s with
  | zero => exact Moved.refl s
  | succ n ih =>
    refine (s.read_moves 1).bind fun b t => ?_
    split
    · exact Moved.refl t
    · exact ih (c + 1) t

theorem State.trailingBits_moves (s : State) : MovesEff s s.trailingBits := by
  refine (s.read_moves 1).bind fun b t => ?_
  split
  · exact Moved.refl t
  · refine (trailPadding_moves _ 1 t).bind fun c u => ?_
    split <;> exact Moved.refl u

/-! ### Everything a µop can do -/

/-- What a µop changes before it ends: V, the reader, the record, and the check warning. -/
structure UopFrame (s u : State) : Prop where
  eq : u = { s with
    v := u.v, reader := u.reader, free := u.free, warn := u.warn, warnTag := u.warnTag,
    mem := { s.mem with record := u.mem.record, recordWr := u.mem.recordWr } }
  record_wf : s.mem.record.wf = true → u.mem.record.wf = true
  recordWr_wf : s.mem.recordWr.wf = true → u.mem.recordWr.wf = true
  len : u.reader.rbspLen = s.reader.rbspLen
  forward : s.readerBounds → s.bitPos ≤ u.bitPos ∧ u.bitPos ≤ s.streamLen
  inv : s.params.valid → s.ReaderInv → u.ReaderInv

theorem UopFrame.refl (s : State) : UopFrame s s :=
  ⟨rfl, id, id, rfl, fun h => ⟨Nat.le_refl _, h.1⟩, fun _ h => h⟩

theorem UopFrame.setV (s : State) (d : BitVec 8) (x : Word) : UopFrame s (s.setV d x) :=
  ⟨rfl, id, id, rfl, fun h => ⟨Nat.le_refl _, h.1⟩, fun _ h => h.congr rfl rfl rfl⟩

theorem UopFrame.moved {s t : State} (h : Moved s t) : UopFrame s t := by
  have hm : t.mem = s.mem := by rw [h.eq]
  exact ⟨by rw [h.eq], fun w => by rw [hm]; exact w, fun w => by rw [hm]; exact w, h.len, h.forward, h.inv⟩

theorem UopFrame.movedSetV {s t : State} (h : Moved s t) (d : BitVec 8) (x : Word) : UopFrame s (t.setV d x) := by
  have hm : t.mem = s.mem := by rw [h.eq]
  refine ⟨by rw [h.eq]; rfl, fun w => by show t.mem.record.wf = true; rw [hm]; exact w,
    fun w => by show t.mem.recordWr.wf = true; rw [hm]; exact w, h.len, h.forward, fun hp hi => ?_⟩
  exact (h.inv hp hi).congr rfl rfl rfl

/-- How a µop ends, from the state its own effects leave (46_sps_engine.md R401). -/
def UopEnds (s t : State) : Prop :=
  ∃ u, UopFrame s u ∧ ((∃ n, t = u.goto n) ∨ (∃ r, t = u.endParse r) ∨ t = u.finishParse)

theorem UopEnds.goto (s : State) (n : Int) : UopEnds s (s.goto n) := ⟨s, UopFrame.refl s, .inl ⟨n, rfl⟩⟩

theorem UopEnds.endParse (s : State) (r : Raise) : UopEnds s (s.endParse r) := ⟨s, UopFrame.refl s, .inr (.inl ⟨r, rfl⟩)⟩

theorem UopEnds.writeBack (s : State) (d : BitVec 8) (x : Word) : UopEnds s (s.writeBack d x) :=
  ⟨s.setV d x, UopFrame.setV s d x, .inl ⟨_, rfl⟩⟩

theorem UopEnds.divideBack (s : State) (d a b : BitVec 8) (f : Nat → Nat → Nat) : UopEnds s (s.divideBack d a b f) := by
  unfold State.divideBack
  split
  · exact UopEnds.endParse s _
  · exact UopEnds.writeBack s _ _

theorem UopEnds.readBack {s : State} {e : Eff Word} (d : BitVec 8) (h : MovesEff s e) : UopEnds s (State.readBack d e) := by
  cases e with
  | ok x t => exact ⟨t.setV d x, UopFrame.movedSetV h d x, .inl ⟨_, rfl⟩⟩
  | raise r t => exact ⟨t, UopFrame.moved h, .inr (.inl ⟨r, rfl⟩)⟩

/-- The instructions that are µops (30_encoding.md R162). -/
def isUop (i : Instr) : Bool :=
  match encode i with
  | .command _ => false
  | .uop _ => true

theorem isUop_of_decodeUop {w : UopWord} {i : Instr} (h : decodeUop w = .ok i) : isUop i = true := by
  unfold decodeUop decodeOp at h
  split at h <;> cases h <;> rfl

theorem isUop_of_decodeCmd {w : Word} {i : Instr} (h : decodeCmd w = .ok i) : isUop i = false := by
  have hz : ∀ {n : BitVec 6} {j : Instr}, formZ n j = .ok i → i = j := by
    intro n j hj
    unfold formZ at hj
    split at hj
    · cases hj; rfl
    · cases hj
  unfold decodeCmd at h
  split at h
  · unfold decodeOpc at h
    split at h
    all_goals first
      | (rw [hz h]; rfl)
      | (cases h; rfl)
      | (unfold formV at h; split at h <;> [skip; split at h] <;> cases h <;> rfl)
      | cases h
  · cases h

/-- Everything a µop can do: it goes on at some next_pc, ends the parse with an outcome, or completes it (46_sps_engine.md
R401, R403-R405). -/
theorem exec_uop {i : Instr} (h : isUop i = true) (s : State) : ∃ t, exec i s = .next t ∧ UopEnds s t := by
  cases i
  case rdf d => exact ⟨_, rfl, UopEnds.readBack d (s.read_moves 1)⟩
  case rdu d imm => exact ⟨_, rfl, UopEnds.readBack d (s.read_moves _)⟩
  case rduv d a => exact ⟨_, rfl, UopEnds.readBack d (s.read_moves _)⟩
  case rdue d => exact ⟨_, rfl, UopEnds.readBack d s.ue_moves⟩
  case rdse d => exact ⟨_, rfl, UopEnds.readBack d s.se_moves⟩
  case rdur d a b imm => exact ⟨_, rfl, UopEnds.readBack d ((s.read_moves _).bind (checkU_moves _ _))⟩
  case rduer d a b => exact ⟨_, rfl, UopEnds.readBack d (s.ue_moves.bind (checkU_moves _ _))⟩
  case rdser d a b => exact ⟨_, rfl, UopEnds.readBack d (s.se_moves.bind (checkS_moves _ _))⟩
  case rduvr d a b w => exact ⟨_, rfl, UopEnds.readBack d ((s.read_moves _).bind (checkU_moves _ _))⟩
  case divu | remu | cdivu => exact ⟨_, rfl, UopEnds.divideBack s _ _ _ _⟩
  case bz | bnz | jmp => exact ⟨_, rfl, UopEnds.goto s _⟩
  case loop a b imm => exact ⟨_, rfl, s.setV a _, UopFrame.setV s a _, .inl ⟨_, rfl⟩⟩
  case str a b imm =>
    refine ⟨_, rfl, ?_⟩
    split
    · exact UopEnds.endParse s _
    · refine ⟨{ s with mem := s.mem.setRecord (s.recordAddr b imm) (s.getV a) }, ⟨rfl, fun w => Bank.write_wf w _ _,
        fun w => Bank.write_wf w _ _, rfl, fun h => ⟨Nat.le_refl _, h.1⟩, fun _ h => h.congr rfl rfl rfl⟩, .inl ⟨_, rfl⟩⟩
  case ldr d b imm =>
    refine ⟨_, rfl, ?_⟩
    split
    · exact UopEnds.endParse s _
    · exact UopEnds.writeBack s _ _
  case chk a imm =>
    refine ⟨_, rfl, ?_⟩
    split
    · exact UopEnds.endParse s _
    · exact UopEnds.goto s _
  case chkw a imm =>
    refine ⟨_, rfl, ?_⟩
    split
    · exact ⟨{ s.warnBit .spsCheck with warnTag := imm },
        ⟨rfl, id, id, rfl, fun h => ⟨Nat.le_refl _, h.1⟩, fun _ h => h.congr rfl rfl rfl⟩, .inl ⟨_, rfl⟩⟩
    · exact UopEnds.goto s _
  case trail =>
    refine ⟨_, rfl, ?_⟩
    have h := s.trailingBits_moves
    split
    · rename_i hc; rw [hc] at h; exact ⟨_, UopFrame.moved h, .inl ⟨_, rfl⟩⟩
    · rename_i hc; rw [hc] at h; exact ⟨_, UopFrame.moved h, .inr (.inl ⟨_, rfl⟩)⟩
  case endSps => exact ⟨_, rfl, s, UopFrame.refl s, .inr (.inr rfl)⟩
  all_goals first
    | exact ⟨_, rfl, UopEnds.writeBack s _ _⟩
    | exact absurd h (by decide)
    | (simp [isUop, encode] at h)

end Sys2Proof.Machine
end

