-- ==== Sys2Proof/Laws/Commands.lean ====
section
/-!
SUPPORT. Everything a command can do (47_control.md R501-R503; 43_scanner_framer.md R281-R302; 42_rbsp_converter.md R260;
44_nal_header.md R332): each lemma names the state a command ends in.
-/

namespace Sys2Proof.Machine

open Host (Outcome)

/-! ### Scanning -/

/-- A scanned state: the table of `us` written, nothing else but NAL_COUNT and the warning (43_scanner_framer.md R284,
R285). -/
structure Scanned (us : List NalUnit) (s t : State) : Prop where
  eq : t = { s with
    nalCount := word us.length, mem := { s.mem with nalt := t.mem.nalt }, free := t.free, warn := t.warn }
  warn : t.warn = if us = [] then s.warn ||| 0b001000#6 else s.warn
  wf : t.mem.nalt.wf = true
  word : ∀ k (h : k < us.length), t.mem.naltWord k 0 = word us[k].start ∧ t.mem.naltWord k 1 = word us[k].stop ∧
    t.mem.naltWord k 2 = entryWord2 us[k].scLen ∧ t.mem.naltWord k 3 = 0#32

/-- A table that was cut off at NALT_CAP entries (43_scanner_framer.md R286). -/
structure CutOff (us : List NalUnit) (s t : State) : Prop where
  eq : t = { s with nalCount := word s.params.naltCap, mem := { s.mem with nalt := t.mem.nalt }, free := t.free }
  wf : t.mem.nalt.wf = true
  word : ∀ k (h : k < us.length), k < s.params.naltCap →
    t.mem.naltWord k 0 = word us[k].start ∧ t.mem.naltWord k 1 = word us[k].stop ∧
    t.mem.naltWord k 2 = entryWord2 us[k].scLen ∧ t.mem.naltWord k 3 = 0#32

/-- Everything `scan()` can do, by the state it leaves (43_scanner_framer.md R283-R286). -/
theorem State.scan_spec (s : State) :
    (s.params.naltCap < (nalUnits s.auBytes).length ∧ ∃ t, CutOff (nalUnits s.auBytes) s t ∧
      s.scan = .raise { code := .eNaltFull, value := word s.params.naltCap } t) ∨
    ((nalUnits s.auBytes).length ≤ s.params.naltCap ∧ ∃ t, Scanned (nalUnits s.auBytes) s t ∧
      s.scan = .ok (word (nalUnits s.auBytes).length) t) := by
  rcases s.scan_cases with ⟨h, h3⟩ | ⟨h, h2, h3⟩ | ⟨h, h3⟩
  · refine .inl ⟨h, _, ⟨?_, Bank.wf_ofList _ _, fun k hk hk' => ?_⟩, h3⟩
    · unfold State.writeTable
      rw [List.length_take, Nat.min_eq_left (Nat.le_of_lt h)]
    · have := s.writeTable_naltWord ((nalUnits s.auBytes).take s.params.naltCap) (k := k)
        (by rw [List.length_take]; omega)
      simp only [List.getElem_take] at this
      exact this
  · refine .inr ⟨h, _, ⟨rfl, ?_, Bank.wf_ofList _ _, fun k hk => s.writeTable_naltWord _ hk⟩, h3⟩
    rw [if_neg h2]; rfl
  · rw [h]
    exact .inr ⟨Nat.zero_le _, (s.writeTable []).warnBit .noStartCode,
      ⟨rfl, rfl, Bank.wf_ofList _ _, fun k hk => s.writeTable_naltWord _ hk⟩, h3⟩

theorem State.auTooLong_false {s : State} (h : s.latch.auLen.toNat ≤ s.params.auCap) : s.auTooLong = false := by
  unfold State.auTooLong
  rw [decide_eq_false_iff_not]
  omega

theorem State.auTooLong_true {s : State} (h : s.params.auCap < s.latch.auLen.toNat) : s.auTooLong = true := by
  unfold State.auTooLong
  rw [decide_eq_true_iff]
  exact h

/-- SCAN_AU (43_scanner_framer.md R282-R286). -/
theorem execScanAu_cases (s : State) :
    (s.params.auCap < s.latch.auLen.toNat ∧ execScanAu s = .next (s.endWith s.auTooLongRaise noPc)) ∨
    (s.latch.auLen.toNat ≤ s.params.auCap ∧ s.params.naltCap < (nalUnits s.auBytes).length ∧
      ∃ t, CutOff (nalUnits s.auBytes) s t ∧
        execScanAu s = .next (t.endWith { code := .eNaltFull, value := word s.params.naltCap } noPc)) ∨
    (s.latch.auLen.toNat ≤ s.params.auCap ∧ (nalUnits s.auBytes).length ≤ s.params.naltCap ∧
      ∃ t, Scanned (nalUnits s.auBytes) s t ∧
        execScanAu s = .next { t with result := word (nalUnits s.auBytes).length }.complete) := by
  unfold execScanAu
  by_cases h : s.params.auCap < s.latch.auLen.toNat
  · exact .inl ⟨h, by rw [if_pos (State.auTooLong_true h)]⟩
  · rw [State.auTooLong_false (by omega), if_neg Bool.false_ne_true]
    rcases s.scan_spec with ⟨h1, t, h2, h3⟩ | ⟨h1, t, h2, h3⟩ <;> rw [h3]
    · exact .inr (.inl ⟨by omega, h1, t, h2, rfl⟩)
    · exact .inr (.inr ⟨by omega, h1, t, h2, rfl⟩)

/-- DECODE_AU (43_scanner_framer.md R295, R296). -/
theorem execDecodeAu_cases (s : State) :
    (s.params.auCap < s.latch.auLen.toNat ∧ execDecodeAu s = .next (s.endWith s.auTooLongRaise noPc)) ∨
    (s.latch.auLen.toNat ≤ s.params.auCap ∧ s.params.naltCap < (nalUnits s.auBytes).length ∧
      ∃ t, CutOff (nalUnits s.auBytes) { s with spsValid := false } t ∧
        execDecodeAu s = .next (t.endWith { code := .eNaltFull, value := word s.params.naltCap } noPc)) ∨
    (s.latch.auLen.toNat ≤ s.params.auCap ∧ (nalUnits s.auBytes).length ≤ s.params.naltCap ∧
      ∃ t u, Scanned (nalUnits s.auBytes) { s with spsValid := false } t ∧ u = { t with decNext := 0#32 } ∧
        execDecodeAu s = .next u.resume) := by
  unfold execDecodeAu
  by_cases h : s.params.auCap < s.latch.auLen.toNat
  · exact .inl ⟨h, by rw [if_pos (State.auTooLong_true h)]⟩
  · rw [State.auTooLong_false (by omega), if_neg Bool.false_ne_true]
    have hb : State.auBytes { s with spsValid := false } = s.auBytes := rfl
    rcases State.scan_spec { s with spsValid := false } with ⟨h1, t, h2, h3⟩ | ⟨h1, t, h2, h3⟩ <;>
      rw [hb] at h1 h2 <;> rw [h3]
    · exact .inr (.inl ⟨by omega, h1, t, h2, rfl⟩)
    · exact .inr (.inr ⟨by omega, h1, t, _, h2, rfl, rfl⟩)

/-! ### Loading and converting -/

/-- LOAD_NAL (43_scanner_framer.md R292-R294). -/
theorem execLoadNal_cases (s : State) :
    (s.nalCount.toNat ≤ s.latch.arg0.toNat ∧
      execLoadNal s = .next (s.endWith { code := .eNalIndex, value := s.latch.arg0 } noPc)) ∨
    (s.latch.arg0.toNat < s.nalCount.toNat ∧ ∃ u, u = { s with curNal := s.latch.arg0 } ∧
      ((u.unitTooShort s.latch.arg0.toNat = true ∧
          execLoadNal s = .next ((u.emptyRbsp .zero).endWith (u.tooShortRaise s.latch.arg0.toNat) noPc)) ∨
        (u.unitTooShort s.latch.arg0.toNat = false ∧
          execLoadNal s = .next (State.finishResult
            (u.convertBytes (u.unitBytes s.latch.arg0.toNat) (u.unitVcl s.latch.arg0.toNat)))))) := by
  unfold execLoadNal
  by_cases h : s.nalCount.toNat ≤ s.latch.arg0.toNat
  · exact .inl ⟨h, by simp only; rw [if_pos h]⟩
  · refine .inr ⟨by omega, _, rfl, ?_⟩
    simp only
    rw [if_neg h]
    unfold State.loadUnit
    cases hs : State.unitTooShort { s with curNal := s.latch.arg0 } s.latch.arg0.toNat with
    | true => exact .inl ⟨rfl, by rw [if_pos rfl]; rfl⟩
    | false => exact .inr ⟨rfl, by rw [if_neg Bool.false_ne_true]⟩

/-- CONVERT_RANGE (42_rbsp_converter.md R260). -/
theorem execConvertRange_cases (vcl : Bool) (s : State) :
    (s.params.auCap < s.latch.auLen.toNat ∧ execConvertRange vcl s = .next (s.endWith s.auTooLongRaise noPc)) ∨
    (s.latch.auLen.toNat ≤ s.params.auCap ∧ s.latch.auLen.toNat < s.latch.arg0.toNat + s.latch.arg1.toNat ∧
      execConvertRange vcl s =
        .next (s.endWith { code := .eRangeArgs, value := s.latch.arg0, min := s.latch.arg1 } noPc)) ∨
    (s.latch.auLen.toNat ≤ s.params.auCap ∧ s.latch.arg0.toNat + s.latch.arg1.toNat ≤ s.latch.auLen.toNat ∧
      execConvertRange vcl s = .next (State.finishResult
        (s.convertBytes (s.mem.au.slice s.latch.arg0.toNat s.latch.arg1.toNat) vcl))) := by
  unfold execConvertRange
  by_cases h : s.params.auCap < s.latch.auLen.toNat
  · exact .inl ⟨h, by simp only; rw [if_pos (State.auTooLong_true h)]⟩
  · simp only
    rw [State.auTooLong_false (by omega), if_neg Bool.false_ne_true]
    by_cases h' : s.latch.auLen.toNat < s.latch.arg0.toNat + s.latch.arg1.toNat
    · exact .inr (.inl ⟨by omega, h', by rw [if_pos h']⟩)
    · exact .inr (.inr ⟨by omega, by omega, by rw [if_neg h']⟩)

/-- A conversion as a command (42_rbsp_converter.md R251, R257). -/
theorem State.finishResult_convertBytes (s : State) (src : List Byte) (vcl : Bool) :
    (∃ out u, convert src vcl = .ok out ∧ u = s.storeRbsp out vcl ∧
      State.finishResult (s.convertBytes src vcl) = { u with result := word out.length }.complete) ∨
    ∃ r u, convert src vcl = .error r ∧ u = s.emptyRbsp (.converted vcl) ∧
      State.finishResult (s.convertBytes src vcl) = u.endWith r noPc := by
  rcases s.convertBytes_cases src vcl with ⟨out, h1, h2⟩ | ⟨r, h1, h2⟩
  · exact .inl ⟨out, _, h1, rfl, by rw [h2]; rfl⟩
  · exact .inr ⟨r, _, h1, rfl, by rw [h2]; rfl⟩

/-! ### Control -/

/-- ABORT (43_scanner_framer.md R302). -/
theorem execAbortAu_spec (s : State) :
    ∃ u, u = s.abortUnitsInfo s.decNext.toNat s.unitsLeft ∧
      execAbortAu s = .next { u with decNext := s.nalCount }.complete :=
  ⟨_, rfl, rfl⟩

/-! ### The header -/

/-- PARSE_NAL_HEADER (44_nal_header.md R332, R338; 60_exceptions.md R605). -/
theorem execParseNalHeader_cases (s : State) :
    (s.bitsLeft < 16 ∧ execParseNalHeader s =
      .next (s.endWith { code := .eBrUnderflow, value := 16#32, max := word s.bitsLeft } noPc)) ∨
    (16 ≤ s.bitsLeft ∧ ∃ t, t = (s.moveReader (s.bitPos + 16)).storeHeader (word (stream s.mem.rbsp s.bitPos 16)) ∧
      ((headerCheck t.nuh = none ∧ execParseNalHeader s = .next { t with result := t.nuh.pack }.complete) ∨
        ∃ r, headerCheck t.nuh = some r ∧ execParseNalHeader s = .next
          (if r.code = .sLayerId then { t with result := t.nuh.pack }.endWith r noPc else t.endWith r noPc))) := by
  unfold execParseNalHeader
  rcases s.parseHeader_cases with ⟨h, hr⟩ | ⟨h, t, ht, ⟨hn, hp⟩ | ⟨r, hc, hp⟩⟩
  · refine .inl ⟨h, ?_⟩
    rw [hr]
    simp only
    rw [if_neg (by decide)]
  · exact .inr ⟨h, t, ht, .inl ⟨hn, by rw [hp]⟩⟩
  · exact .inr ⟨h, t, ht, .inr ⟨r, hc, by rw [hp]⟩⟩

/-! ### Commands of the bit reader -/

/-- A command that is one function of the bit reader: the reader moves forward, then the command completes with the value or
ends with the outcome (41_bit_reader.md R202, 45_vlc.md R370-R382). -/
def ReaderCommand (s t : State) : Prop :=
  ∃ u, Moved s u ∧ ((∃ x, t = { u with result := x }.complete) ∨ ∃ r, t = u.endWith r noPc)

theorem ReaderCommand.ofMoves {s : State} {e : Eff Word} (h : MovesEff s e) : ReaderCommand s (State.finishResult e) := by
  cases e with
  | ok x u => exact ⟨u, h, .inl ⟨x, rfl⟩⟩
  | raise r u => exact ⟨u, h, .inr ⟨r, rfl⟩⟩

theorem peek_moves (s : State) (n : Nat) : MovesEff s (s.peek n) := by
  rcases s.peek_cases n with ⟨_, h⟩ | ⟨_, x, h⟩ <;> rw [h] <;> exact Moved.refl s

/-- The commands of the bit reader and the VLC decoder. -/
def isReaderCommand : Instr → Bool
  | .brRead _ | .brPeek _ | .brBitsLeft | .brBitsToAlign | .readFlag | .readCode _ | .readUvlc | .readSvlc
  | .readCodeR _ | .readUvlcR | .readSvlcR | .moreRbspData | .rbspTrailingBits => true
  | _ => false

theorem exec_readerCommand {i : Instr} (h : isReaderCommand i = true) (s : State) :
    ∃ t, exec i s = .next t ∧ ReaderCommand s t := by
  cases i
  case brRead n => exact ⟨_, rfl, .ofMoves (s.read_moves n)⟩
  case brPeek n => exact ⟨_, rfl, .ofMoves (peek_moves s n)⟩
  case brBitsLeft => exact ⟨_, rfl, s, .refl s, .inl ⟨_, rfl⟩⟩
  case brBitsToAlign => exact ⟨_, rfl, s, .refl s, .inl ⟨_, rfl⟩⟩
  case readFlag => exact ⟨_, rfl, .ofMoves (s.read_moves 1)⟩
  case readCode n => exact ⟨_, rfl, .ofMoves (s.read_moves n)⟩
  case readUvlc => exact ⟨_, rfl, .ofMoves s.ue_moves⟩
  case readSvlc => exact ⟨_, rfl, .ofMoves s.se_moves⟩
  case readCodeR n => exact ⟨_, rfl, .ofMoves ((s.read_moves n).bind (checkU_moves _ _))⟩
  case readUvlcR => exact ⟨_, rfl, .ofMoves (s.ue_moves.bind (checkU_moves _ _))⟩
  case readSvlcR => exact ⟨_, rfl, .ofMoves (s.se_moves.bind (checkS_moves _ _))⟩
  case moreRbspData => exact ⟨_, rfl, s, .refl s, .inl ⟨_, rfl⟩⟩
  case rbspTrailingBits => exact ⟨_, rfl, .ofMoves (s.trailingBits_moves.bind fun _ t => Moved.refl t)⟩
  all_goals exact absurd h (by simp [isReaderCommand])

/-- A command is of the bit reader, or is one of the other eleven. -/
theorem command_cases {i : Instr} (h : isUop i = false) : isReaderCommand i = true ∨
    i ∈ [Instr.nop, .reset, .continueAu, .abortAu, .scanAu, .peekAuType, .decodeAu, .loadNal, .convertRange false,
      .convertRange true, .parseNalHeader, .parseSps] := by
  cases i
  case convertRange v => cases v <;> simp
  all_goals first
    | exact .inl rfl
    | (simp; done)
    | (simp [isUop, encode] at h)

end Sys2Proof.Machine
end

