-- ==== Sys2Proof/Laws/Encoding.lean ====
section
/-!
SUPPORT. The fields of command words and µop words, and the words their fields make (30_encoding.md R150, R160).
-/

namespace Sys2Proof

/-! ### Fields of appended bits -/

theorem extractLsb'_append_high {n m : Nat} (x : BitVec n) (y : BitVec m) (k l : Nat) :
    (x ++ y).extractLsb' (m + k) l = x.extractLsb' k l := by
  ext i hi
  simp only [BitVec.getElem_extractLsb', BitVec.getLsbD_append]
  rw [if_neg (by omega), show m + k + i - m = k + i by omega]

theorem extractLsb'_append_low {n m : Nat} (x : BitVec n) (y : BitVec m) {k l : Nat} (h : k + l ≤ m) :
    (x ++ y).extractLsb' k l = y.extractLsb' k l := by
  ext i hi
  simp only [BitVec.getElem_extractLsb', BitVec.getLsbD_append]
  rw [if_pos (by omega)]

theorem extractLsb'_whole {n : Nat} (x : BitVec n) : x.extractLsb' 0 n = x := by
  ext i hi
  simp only [BitVec.getElem_extractLsb', Nat.zero_add, BitVec.getLsbD_eq_getElem hi]

/-! ### Command words -/

theorem cmdOpc_cmdWord (opc : BitVec 8) (n : BitVec 6) : cmdOpc (cmdWord opc n) = opc := by
  exact (extractLsb'_append_high (opc ++ 0#18) n 18 8).trans
    ((extractLsb'_append_high opc 0#18 0 8).trans (extractLsb'_whole opc))

theorem cmdRsv_cmdWord (opc : BitVec 8) (n : BitVec 6) : cmdRsv (cmdWord opc n) = 0#18 := by
  exact (extractLsb'_append_high (opc ++ 0#18) n 0 18).trans
    ((extractLsb'_append_low opc 0#18 (by omega)).trans (extractLsb'_whole 0#18))

theorem cmdN_cmdWord (opc : BitVec 8) (n : BitVec 6) : cmdN (cmdWord opc n) = n := by
  exact (extractLsb'_append_low (opc ++ 0#18) n (by omega)).trans (extractLsb'_whole n)

/-- A command word is decoded by its fields. -/
theorem decodeCmd_cmdWord (opc : BitVec 8) (n : BitVec 6) : decodeCmd (cmdWord opc n) = decodeOpc opc n := by
  unfold decodeCmd
  rw [cmdRsv_cmdWord, cmdOpc_cmdWord, cmdN_cmdWord, if_pos rfl]

/-- A word whose RSV is 0 is the word of its other two fields. -/
theorem cmdWord_fields {w : Word} (h : cmdRsv w = 0#18) : cmdWord (cmdOpc w) (cmdN w) = w := by
  have h' : ∀ i (hi : i < 18), w.getLsbD (6 + i) = false := by
    intro i hi
    have := congrArg (fun x => x.getLsbD i) h
    simpa [cmdRsv, BitVec.getLsbD_extractLsb', hi] using this
  unfold cmdWord cmdOpc cmdN
  ext i hi
  simp only [BitVec.getElem_append, BitVec.getElem_extractLsb']
  split
  · simp [BitVec.getLsbD_eq_getElem hi]
  · split
    · have := h' (i - 6) (by omega)
      rw [show 6 + (i - 6) = i by omega, BitVec.getLsbD_eq_getElem hi] at this
      simp [this]
    · rw [show 24 + (i - 6 - 18) = i by omega, BitVec.getLsbD_eq_getElem hi]

/-! ### µop words -/

theorem uopOp_uopWord (op d a b : BitVec 8) (imm : Word) : uopOp (uopWord op d a b imm) = op := by
  exact (extractLsb'_append_high _ imm 24 8).trans ((extractLsb'_append_high _ b 16 8).trans
    ((extractLsb'_append_high _ a 8 8).trans ((extractLsb'_append_high op d 0 8).trans (extractLsb'_whole op))))

theorem uopD_uopWord (op d a b : BitVec 8) (imm : Word) : uopD (uopWord op d a b imm) = d := by
  exact (extractLsb'_append_high _ imm 16 8).trans ((extractLsb'_append_high _ b 8 8).trans
    ((extractLsb'_append_high _ a 0 8).trans ((extractLsb'_append_low _ d (by omega)).trans (extractLsb'_whole d))))

theorem uopA_uopWord (op d a b : BitVec 8) (imm : Word) : uopA (uopWord op d a b imm) = a := by
  exact (extractLsb'_append_high _ imm 8 8).trans ((extractLsb'_append_high _ b 0 8).trans
    ((extractLsb'_append_low _ a (by omega)).trans (extractLsb'_whole a)))

theorem uopB_uopWord (op d a b : BitVec 8) (imm : Word) : uopB (uopWord op d a b imm) = b := by
  exact (extractLsb'_append_high _ imm 0 8).trans ((extractLsb'_append_low _ b (by omega)).trans (extractLsb'_whole b))

theorem uopImm_uopWord (op d a b : BitVec 8) (imm : Word) : uopImm (uopWord op d a b imm) = imm := by
  exact (extractLsb'_append_low _ imm (by omega)).trans (extractLsb'_whole imm)

/-- A µop word is decoded by its fields. -/
theorem decodeUop_uopWord (op d a b : BitVec 8) (imm : Word) :
    decodeUop (uopWord op d a b imm) = decodeOp op d a b imm := by
  unfold decodeUop
  rw [uopOp_uopWord, uopD_uopWord, uopA_uopWord, uopB_uopWord, uopImm_uopWord]

/-- A µop word is the word of its five fields. -/
theorem uopWord_fields (w : UopWord) : uopWord (uopOp w) (uopD w) (uopA w) (uopB w) (uopImm w) = w := by
  unfold uopWord uopOp uopD uopA uopB uopImm
  ext i hi
  simp only [BitVec.getElem_append, BitVec.getElem_extractLsb']
  repeat' split
  all_goals
    rw [BitVec.getLsbD_eq_getElem (by omega)]
    congr 1
    omega

/-- The width variable of RDUVR is read back from the IMM field that carries it (30_encoding.md R164). -/
theorem immVar_setWidth (w : BitVec 8) : immVar (w.setWidth 32) = w := by
  unfold immVar
  ext i hi
  simp [BitVec.getLsbD_eq_getElem hi, Nat.lt_trans hi]

end Sys2Proof
end

