-- ==== Sys2Proof/Laws/PerInstr.lean ====
section
/-!
SUPPORT. The per-instruction family Fields: the word of an instruction is made of the fields of its format, RSV 0 in a
command word (30_encoding.md R150, R160).
-/

namespace Sys2Proof.Laws

/-- The word of an instruction is the word of its own fields; RSV is 0 in a command word. -/
def Fields.Statement (i : Instr) : Prop :=
  match encode i with
  | .command w => cmdRsv w = 0#18 ∧ cmdWord (cmdOpc w) (cmdN w) = w
  | .uop w => uopWord (uopOp w) (uopD w) (uopA w) (uopB w) (uopImm w) = w

theorem Fields.ofCommand {i : Instr} {opc : BitVec 8} {n : BitVec 6} (h : encode i = .command (cmdWord opc n)) :
    Fields.Statement i := by
  unfold Fields.Statement
  rw [h]
  exact ⟨cmdRsv_cmdWord opc n, cmdWord_fields (cmdRsv_cmdWord opc n)⟩

theorem Fields.ofUop {i : Instr} {w : UopWord} (h : encode i = .uop w) : Fields.Statement i := by
  unfold Fields.Statement
  rw [h]
  exact uopWord_fields w

theorem Fields.nop : Fields.Statement .nop := Fields.ofCommand rfl
theorem Fields.reset : Fields.Statement .reset := Fields.ofCommand rfl
theorem Fields.continueAu : Fields.Statement .continueAu := Fields.ofCommand rfl
theorem Fields.abortAu : Fields.Statement .abortAu := Fields.ofCommand rfl
theorem Fields.scanAu : Fields.Statement .scanAu := Fields.ofCommand rfl
theorem Fields.peekAuType : Fields.Statement .peekAuType := Fields.ofCommand rfl
theorem Fields.decodeAu : Fields.Statement .decodeAu := Fields.ofCommand rfl
theorem Fields.loadNal : Fields.Statement .loadNal := Fields.ofCommand rfl
theorem Fields.convertRange (vcl : Bool) : Fields.Statement (.convertRange vcl) := Fields.ofCommand rfl
theorem Fields.parseNalHeader : Fields.Statement .parseNalHeader := Fields.ofCommand rfl
theorem Fields.brRead (n : Nat) : Fields.Statement (.brRead n) := Fields.ofCommand rfl
theorem Fields.brPeek (n : Nat) : Fields.Statement (.brPeek n) := Fields.ofCommand rfl
theorem Fields.brBitsLeft : Fields.Statement .brBitsLeft := Fields.ofCommand rfl
theorem Fields.brBitsToAlign : Fields.Statement .brBitsToAlign := Fields.ofCommand rfl
theorem Fields.readFlag : Fields.Statement .readFlag := Fields.ofCommand rfl
theorem Fields.readCode (n : Nat) : Fields.Statement (.readCode n) := Fields.ofCommand rfl
theorem Fields.readUvlc : Fields.Statement .readUvlc := Fields.ofCommand rfl
theorem Fields.readSvlc : Fields.Statement .readSvlc := Fields.ofCommand rfl
theorem Fields.readCodeR (n : Nat) : Fields.Statement (.readCodeR n) := Fields.ofCommand rfl
theorem Fields.readUvlcR : Fields.Statement .readUvlcR := Fields.ofCommand rfl
theorem Fields.readSvlcR : Fields.Statement .readSvlcR := Fields.ofCommand rfl
theorem Fields.moreRbspData : Fields.Statement .moreRbspData := Fields.ofCommand rfl
theorem Fields.rbspTrailingBits : Fields.Statement .rbspTrailingBits := Fields.ofCommand rfl
theorem Fields.parseSps : Fields.Statement .parseSps := Fields.ofCommand rfl
theorem Fields.rdf (d : BitVec 8) : Fields.Statement (.rdf d) := Fields.ofUop rfl
theorem Fields.rdu (d : BitVec 8) (imm : Word) : Fields.Statement (.rdu d imm) := Fields.ofUop rfl
theorem Fields.rduv (d a : BitVec 8) : Fields.Statement (.rduv d a) := Fields.ofUop rfl
theorem Fields.rdue (d : BitVec 8) : Fields.Statement (.rdue d) := Fields.ofUop rfl
theorem Fields.rdse (d : BitVec 8) : Fields.Statement (.rdse d) := Fields.ofUop rfl
theorem Fields.rdur (d a b : BitVec 8) (imm : Word) : Fields.Statement (.rdur d a b imm) := Fields.ofUop rfl
theorem Fields.rduer (d a b : BitVec 8) : Fields.Statement (.rduer d a b) := Fields.ofUop rfl
theorem Fields.rdser (d a b : BitVec 8) : Fields.Statement (.rdser d a b) := Fields.ofUop rfl
theorem Fields.rduvr (d a b w : BitVec 8) : Fields.Statement (.rduvr d a b w) := Fields.ofUop rfl
theorem Fields.ldi (d : BitVec 8) (imm : Word) : Fields.Statement (.ldi d imm) := Fields.ofUop rfl
theorem Fields.mov (d a : BitVec 8) : Fields.Statement (.mov d a) := Fields.ofUop rfl
theorem Fields.add (d a b : BitVec 8) : Fields.Statement (.add d a b) := Fields.ofUop rfl
theorem Fields.sub (d a b : BitVec 8) : Fields.Statement (.sub d a b) := Fields.ofUop rfl
theorem Fields.addi (d a : BitVec 8) (imm : Word) : Fields.Statement (.addi d a imm) := Fields.ofUop rfl
theorem Fields.mul (d a b : BitVec 8) : Fields.Statement (.mul d a b) := Fields.ofUop rfl
theorem Fields.divu (d a b : BitVec 8) : Fields.Statement (.divu d a b) := Fields.ofUop rfl
theorem Fields.remu (d a b : BitVec 8) : Fields.Statement (.remu d a b) := Fields.ofUop rfl
theorem Fields.cdivu (d a b : BitVec 8) : Fields.Statement (.cdivu d a b) := Fields.ofUop rfl
theorem Fields.shl (d a b : BitVec 8) : Fields.Statement (.shl d a b) := Fields.ofUop rfl
theorem Fields.shr (d a b : BitVec 8) : Fields.Statement (.shr d a b) := Fields.ofUop rfl
theorem Fields.and (d a b : BitVec 8) : Fields.Statement (.and d a b) := Fields.ofUop rfl
theorem Fields.or (d a b : BitVec 8) : Fields.Statement (.or d a b) := Fields.ofUop rfl
theorem Fields.xor (d a b : BitVec 8) : Fields.Statement (.xor d a b) := Fields.ofUop rfl
theorem Fields.maxu (d a b : BitVec 8) : Fields.Statement (.maxu d a b) := Fields.ofUop rfl
theorem Fields.minu (d a b : BitVec 8) : Fields.Statement (.minu d a b) := Fields.ofUop rfl
theorem Fields.clog2 (d a : BitVec 8) : Fields.Statement (.clog2 d a) := Fields.ofUop rfl
theorem Fields.seteq (d a b : BitVec 8) : Fields.Statement (.seteq d a b) := Fields.ofUop rfl
theorem Fields.setne (d a b : BitVec 8) : Fields.Statement (.setne d a b) := Fields.ofUop rfl
theorem Fields.setltu (d a b : BitVec 8) : Fields.Statement (.setltu d a b) := Fields.ofUop rfl
theorem Fields.setleu (d a b : BitVec 8) : Fields.Statement (.setleu d a b) := Fields.ofUop rfl
theorem Fields.setlt (d a b : BitVec 8) : Fields.Statement (.setlt d a b) := Fields.ofUop rfl
theorem Fields.setle (d a b : BitVec 8) : Fields.Statement (.setle d a b) := Fields.ofUop rfl
theorem Fields.lnot (d a : BitVec 8) : Fields.Statement (.lnot d a) := Fields.ofUop rfl
theorem Fields.bz (a : BitVec 8) (imm : Word) : Fields.Statement (.bz a imm) := Fields.ofUop rfl
theorem Fields.bnz (a : BitVec 8) (imm : Word) : Fields.Statement (.bnz a imm) := Fields.ofUop rfl
theorem Fields.jmp (imm : Word) : Fields.Statement (.jmp imm) := Fields.ofUop rfl
theorem Fields.loop (a b : BitVec 8) (imm : Word) : Fields.Statement (.loop a b imm) := Fields.ofUop rfl
theorem Fields.str (a b : BitVec 8) (imm : Word) : Fields.Statement (.str a b imm) := Fields.ofUop rfl
theorem Fields.ldr (d b : BitVec 8) (imm : Word) : Fields.Statement (.ldr d b imm) := Fields.ofUop rfl
theorem Fields.chk (a : BitVec 8) (imm : Word) : Fields.Statement (.chk a imm) := Fields.ofUop rfl
theorem Fields.chkw (a : BitVec 8) (imm : Word) : Fields.Statement (.chkw a imm) := Fields.ofUop rfl
theorem Fields.mrd (d : BitVec 8) : Fields.Statement (.mrd d) := Fields.ofUop rfl
theorem Fields.trail : Fields.Statement .trail := Fields.ofUop rfl
theorem Fields.bta (d : BitVec 8) : Fields.Statement (.bta d) := Fields.ofUop rfl
theorem Fields.bleft (d : BitVec 8) : Fields.Statement (.bleft d) := Fields.ofUop rfl
theorem Fields.endSps : Fields.Statement .endSps := Fields.ofUop rfl

end Sys2Proof.Laws
end

