-- ==== Sys2Proof/Laws/Step.lean ====
section
/-!
SUPPORT. Everything a step can do (47_control.md R500, 46_sps_engine.md R401, log entries 1 and 3).
-/

namespace Sys2Proof.Machine

open Host (Outcome)

/-- The block's step: nothing without an accepted command, E_CMD_ILLEGAL for an illegal word, else the command's own
effect (47_control.md R500). -/
inductive CommandStep (s : State) : State → Prop where
  | idle (h : s.block ≠ .busy) : CommandStep s s
  | illegal (h : s.block = .busy) (e : Reject) (hd : decodeCmd s.cmd = .error e) :
      CommandStep s (s.endWith (illegalCmdRaise s.cmd) noPc)
  | run (h : s.block = .busy) (i : Instr) (hd : decodeCmd s.cmd = .ok i) (t : State) (ht : exec i s = .next t) :
      CommandStep s t

/-- One turn of the engine's loop: an outcome of the loop itself, or one µop, counted (46_sps_engine.md R401). -/
inductive EngineStep (s : State) : State → Prop where
  | budget (h : s.stepCount.toNat = s.params.maxSteps) : EngineStep s (s.endParse s.budgetRaise)
  | entry (h : s.stepCount.toNat ≠ s.params.maxSteps) (h' : s.params.ustoreCap ≤ s.seqPc.toNat) :
      EngineStep s (s.endParse s.entryRaise)
  | illegal (h : s.stepCount.toNat ≠ s.params.maxSteps) (h' : s.seqPc.toNat < s.params.ustoreCap)
      (e : Reject) (hd : decodeUop (s.mem.uop s.seqPc.toNat) = .error e) :
      EngineStep s (State.endParse { s with stepCount := s.stepCount + 1#32 }
        (illegalUopRaise (s.mem.uop s.seqPc.toNat)))
  | run (h : s.stepCount.toNat ≠ s.params.maxSteps) (h' : s.seqPc.toNat < s.params.ustoreCap)
      (i : Instr) (hd : decodeUop (s.mem.uop s.seqPc.toNat) = .ok i) (t : State)
      (ht : UopEnds { s with stepCount := s.stepCount + 1#32 } t) : EngineStep s t

/-- Everything a step can do. -/
inductive StepTo (s : State) : State → Prop where
  | engine (h : s.engine ≠ .off) (t : State) (ht : EngineStep s t) : StepTo s t
  | settle (h : s.engine = .off) (hi : s.inputs = []) (t : State) (ht : CommandStep s t) : StepTo s t
  | turn (h : s.engine = .off) (rest : List HostEvent) (hi : s.inputs = .blockTurn :: rest) (t : State)
      (ht : CommandStep { s with inputs := rest } t) : StepTo s t
  | read (h : s.engine = .off) (a : Word) (w : Width) (rest : List HostEvent) (hi : s.inputs = .read a w :: rest) :
      StepTo s (State.hostRead { s with inputs := rest } a w)
  | write (h : s.engine = .off) (a : Word) (w : Width) (d : Word) (rest : List HostEvent)
      (hi : s.inputs = .write a w d :: rest) : StepTo s (State.hostWrite { s with inputs := rest } a w d)
  | powerOn (h : s.engine = .off) (rest : List HostEvent) (hi : s.inputs = .powerOn :: rest) :
      StepTo s (State.powerOn { s with inputs := rest })

/-- Every instruction answers a next state: the machine has no fault and refuses nothing (60_exceptions.md R600). -/
theorem exec_next (i : Instr) (s : State) : ∃ t, exec i s = .next t := by
  cases i <;> exact ⟨_, rfl⟩

theorem fetchUop_next (s : State) : ∃ t, EngineStep s t ∧
    (match s.fetchUop with
      | .run i u => exec i u
      | .settled u => Outcome.next u) = .next t := by
  unfold State.fetchUop
  by_cases h : s.stepCount.toNat = s.params.maxSteps
  · rw [if_pos h]
    exact ⟨_, .budget h, rfl⟩
  · rw [if_neg h]
    by_cases h' : s.params.ustoreCap ≤ s.seqPc.toNat
    · rw [if_pos h']
      exact ⟨_, .entry h h', rfl⟩
    · rw [if_neg h']
      cases hd : decodeUop (s.mem.uop s.seqPc.toNat) with
      | error e =>
        simp only
        rw [hd]
        exact ⟨_, .illegal h (by omega) e hd, rfl⟩
      | ok i =>
        simp only
        rw [hd]
        obtain ⟨t, h1, h2⟩ := exec_uop (isUop_of_decodeUop hd) { s with stepCount := s.stepCount + 1#32 }
        exact ⟨t, .run h (by omega) i hd t h2, h1⟩

theorem fetchCmd_next (s : State) : ∃ t, CommandStep s t ∧
    (match s.fetchCmd with
      | .run i u => exec i u
      | .settled u => Outcome.next u) = .next t := by
  unfold State.fetchCmd
  by_cases h : s.block = .busy
  · rw [if_pos h]
    cases hd : decodeCmd s.cmd with
    | error e => exact ⟨_, .illegal h e hd, rfl⟩
    | ok i =>
      obtain ⟨t, ht⟩ := exec_next i s
      exact ⟨t, .run h i hd t ht, ht⟩
  · rw [if_neg h]
    exact ⟨s, .idle h, rfl⟩

theorem State.fetch_engine {s : State} (h : s.engine ≠ .off) : s.fetch = s.fetchUop := by
  unfold State.fetch
  split
  · rfl
  · rfl
  · rename_i he; exact absurd he h

theorem State.fetch_settle {s : State} (h : s.engine = .off) (hi : s.inputs = []) : s.fetch = s.fetchCmd := by
  unfold State.fetch
  split
  · rename_i he; rw [h] at he; cases he
  · rename_i he; rw [h] at he; cases he
  · split
    · rfl
    · rename_i hi'; rw [hi] at hi'; cases hi'

theorem State.fetch_event {s : State} (h : s.engine = .off) {e : HostEvent} {rest : List HostEvent}
    (hi : s.inputs = e :: rest) : s.fetch = State.takeEvent { s with inputs := rest } e := by
  unfold State.fetch
  split
  · rename_i he; rw [h] at he; cases he
  · rename_i he; rw [h] at he; cases he
  · split
    · rename_i hi'; rw [hi] at hi'; cases hi'
    · rename_i hi'; rw [hi] at hi'; cases hi'; rfl

/-- A step always answers a next state, one of those `StepTo` lists. -/
theorem step_next (s : State) : ∃ t, step s = .next t ∧ StepTo s t := by
  unfold step
  by_cases he : s.engine = .off
  · cases hi : s.inputs with
    | nil =>
      rw [State.fetch_settle he hi]
      obtain ⟨t, h1, h2⟩ := fetchCmd_next s
      exact ⟨t, h2, .settle he hi t h1⟩
    | cons e rest =>
      rw [State.fetch_event he hi]
      cases e with
      | read a w => exact ⟨_, rfl, .read he a w rest hi⟩
      | write a w d => exact ⟨_, rfl, .write he a w d rest hi⟩
      | blockTurn =>
        obtain ⟨t, h1, h2⟩ := fetchCmd_next { s with inputs := rest }
        exact ⟨t, h2, .turn he rest hi t h1⟩
      | powerOn => exact ⟨_, rfl, .powerOn he rest hi⟩
  · rw [State.fetch_engine he]
    obtain ⟨t, h1, h2⟩ := fetchUop_next s
    exact ⟨t, h2, .engine he t h1⟩

theorem step_cases {s t : State} (h : step s = .next t) : StepTo s t := by
  obtain ⟨u, h1, h2⟩ := step_next s
  rw [h1] at h
  cases h
  exact h2

end Sys2Proof.Machine
end

