-- ==== Sys2Proof/Tests/Slice0.lean ====
section
/-!
SUPPORT. Tests of the model on fixed values: ill-formed terms, the decoding of every constructor, one step of each
command and µop, the host interface, and for each obligation with hypotheses a state and operands that meet them. Words
and expected values are those of 95_test_vectors.md, or worked by hand from the rule cited.
-/

namespace Sys2Proof.Tests

open Sys2Proof Sys2Proof.Machine

/-! ### Helpers -/

/-- A byte memory that holds these bytes from index 0 on. -/
def bytes (l : List Nat) : Bank 8 := .ofList 0 (l.map (BitVec.ofNat 8))

/-- BUSY after reset, the RBSP loaded and the reader at a bit position, with BR_POS, BR_NHB and BR_HELD of 10_state.md
R58. -/
def reading (l : List Nat) (p : Nat) : State :=
  { State.reset with
    block := .busy
    mem := { State.reset.mem with rbsp := bytes l }
    reader := ⟨word l.length, word p, word ((p + 7) / 8), word (8 * ((p + 7) / 8) - p),
      heldBits (bytes l) p (8 * ((p + 7) / 8) - p)⟩ }

/-- As `reading`, with ARG0 and ARG1. -/
def checking (l : List Nat) (arg0 arg1 : Nat) : State :=
  { reading l 0 with ops := ⟨word arg0, word arg1, 0#32, 0#32⟩, latch := ⟨word arg0, word arg1, 0#32, 0#32⟩ }

/-- BUSY after reset, the AU buffer and AU_LEN loaded, with ARG0 and ARG1. -/
def framing (l : List Nat) (arg0 arg1 : Nat) : State :=
  let o : Operands := ⟨word arg0, word arg1, word l.length, 0#32⟩
  { State.reset with block := .busy, mem := { State.reset.mem with au := bytes l }, ops := o, latch := o }

/-- A PARSE_SPS in progress at µop 10, with variables preset, over an RBSP and a bit position. -/
def parsing (vs : List (Nat × Nat)) (l : List Nat) (p : Nat) : State :=
  vs.foldl (fun s x => s.setV (BitVec.ofNat 8 x.1) (word x.2))
    { reading l p with
      engine := .parseSps
      seqPc := 10#32
      mem := { (reading l p).mem with record := .cleared, recordWr := .cleared } }

/-- A parse inside DECODE_AU: the unit 0 of a table of two is being parsed. -/
def parsingUnit : State :=
  { parsing [(1, 7)] [0x80] 0 with
    engine := .decodeUnit
    nalCount := 2#32
    decNext := 1#32
    mem := { (parsing [] [0x80] 0).mem with nalt := .ofList 0 (tableWords [⟨3, 5, 3⟩, ⟨8, 10, 3⟩]) } }

/-- BUSY with the unit 1 of a table of two still to be processed. -/
def continuing : State :=
  { framing [0, 0, 1, 0x40, 0x01, 0, 0, 1, 0x00, 0x01, 0x84] 0 0 with
    nalCount := 2#32
    decNext := 1#32
    mem := { (framing [0, 0, 1, 0x40, 0x01, 0, 0, 1, 0x00, 0x01, 0x84] 0 0).mem with
      nalt := .ofList 0 (tableWords [⟨3, 5, 3⟩, ⟨8, 11, 3⟩]) } }

/-- One field of the state after the step of an accepted command word. -/
def cmd {α : Type} (s : State) (w : Word) (f : State → α) : Option α :=
  match step (s.placeCmd w) with
  | .next t => some (f t)
  | .fault _ => none
  | .refused _ => none

/-- One field of the state after the step that fetches and runs a µop word. -/
def uop {α : Type} (s : State) (w : UopWord) (f : State → α) : Option α :=
  match step (s.placeUop w) with
  | .next t => some (f t)
  | .fault _ => none
  | .refused _ => none

/-- RESULT, BR_BITPOS and STATUS. -/
def report (t : State) : Word × Nat × Word := (t.result, t.bitPos, statusWord t)

/-- The error record and STATUS. -/
def failure (t : State) : ErrRecord × Word := (t.error, statusWord t)

/-- Two variables and BR_BITPOS. -/
def vars (i j : Nat) (t : State) : Word × Word × Nat := (t.getV (BitVec.ofNat 8 i), t.getV (BitVec.ofNat 8 j), t.bitPos)

/-- One variable and SEQ_PC. -/
def varPc (i : Nat) (t : State) : Word × Word := (t.getV (BitVec.ofNat 8 i), t.seqPc)

/-- Every step answers a next state. -/
theorem step_answers (s : State) : ∃ t, step s = .next t := (step_next s).imp fun _ h => h.1

/-! ### Well-formedness -/

theorem test_wellFormed_brRead : (Instr.brRead 64).wellFormed = false := by decide
theorem test_wellFormed_brPeek : (Instr.brPeek 64).wellFormed = false := by decide
theorem test_wellFormed_readCode : (Instr.readCode 64).wellFormed = false := by decide
theorem test_wellFormed_readCodeR : (Instr.readCodeR 64).wellFormed = false := by decide

/-! ### Decoding: words written out field by field from 30_encoding.md R150-R152 and R160-R164 -/

theorem test_decode_control :
    decodeCmd 0x00000000#32 = .ok .nop ∧
    decodeCmd 0x01000000#32 = .ok .reset ∧
    decodeCmd 0x02000000#32 = .ok .continueAu ∧
    decodeCmd 0x03000000#32 = .ok .abortAu := by
  decide

theorem test_decode_framer :
    decodeCmd 0x10000000#32 = .ok .scanAu ∧
    decodeCmd 0x11000000#32 = .ok .peekAuType ∧
    decodeCmd 0x12000000#32 = .ok .decodeAu ∧
    decodeCmd 0x20000000#32 = .ok .loadNal ∧
    decodeCmd 0x21000000#32 = .ok (.convertRange false) ∧
    decodeCmd 0x21000001#32 = .ok (.convertRange true) ∧
    decodeCmd 0x28000000#32 = .ok .parseNalHeader := by
  decide

theorem test_decode_reader :
    decodeCmd 0x30000020#32 = .ok (.brRead 32) ∧
    decodeCmd 0x3000003F#32 = .ok (.brRead 63) ∧
    decodeCmd 0x3100000C#32 = .ok (.brPeek 12) ∧
    decodeCmd 0x32000000#32 = .ok .brBitsLeft ∧
    decodeCmd 0x33000000#32 = .ok .brBitsToAlign := by
  decide

theorem test_decode_vlc :
    decodeCmd 0x38000000#32 = .ok .readFlag ∧
    decodeCmd 0x39000018#32 = .ok (.readCode 24) ∧
    decodeCmd 0x3A000000#32 = .ok .readUvlc ∧
    decodeCmd 0x3B000000#32 = .ok .readSvlc ∧
    decodeCmd 0x3C000003#32 = .ok (.readCodeR 3) ∧
    decodeCmd 0x3D000000#32 = .ok .readUvlcR ∧
    decodeCmd 0x3E000000#32 = .ok .readSvlcR ∧
    decodeCmd 0x40000000#32 = .ok .moreRbspData ∧
    decodeCmd 0x41000000#32 = .ok .rbspTrailingBits ∧
    decodeCmd 0x50000000#32 = .ok .parseSps := by
  decide

theorem test_decode_reads :
    decodeUop 0x0110000000000000#64 = .ok (.rdf 16#8) ∧
    decodeUop 0x0201000000000004#64 = .ok (.rdu 1#8 4#32) ∧
    decodeUop 0x0303020000000000#64 = .ok (.rduv 3#8 2#8) ∧
    decodeUop 0x0411000000000000#64 = .ok (.rdue 17#8) ∧
    decodeUop 0x0501000000000000#64 = .ok (.rdse 1#8) ∧
    decodeUop 0x0603010200000003#64 = .ok (.rdur 3#8 1#8 2#8 3#32) ∧
    decodeUop 0x0705FEFF00000000#64 = .ok (.rduer 5#8 254#8 255#8) ∧
    decodeUop 0x0812FEFF00000000#64 = .ok (.rdser 18#8 254#8 255#8) ∧
    decodeUop 0x0903010200000105#64 = .ok (.rduvr 3#8 1#8 2#8 5#8) := by
  decide

theorem test_decode_arithmetic :
    decodeUop 0x10FE0000FFFFFFFC#64 = .ok (.ldi 254#8 0xFFFFFFFC#32) ∧
    decodeUop 0x1102010000000000#64 = .ok (.mov 2#8 1#8) ∧
    decodeUop 0x1203010200000000#64 = .ok (.add 3#8 1#8 2#8) ∧
    decodeUop 0x1303010200000000#64 = .ok (.sub 3#8 1#8 2#8) ∧
    decodeUop 0x1404030000000005#64 = .ok (.addi 4#8 3#8 5#32) ∧
    decodeUop 0x150E0C0D00000000#64 = .ok (.mul 14#8 12#8 13#8) ∧
    decodeUop 0x1602010000000000#64 = .ok (.divu 2#8 1#8 0#8) ∧
    decodeUop 0x17FE080A00000000#64 = .ok (.remu 254#8 8#8 10#8) ∧
    decodeUop 0x180C080B00000000#64 = .ok (.cdivu 12#8 8#8 11#8) := by
  decide

theorem test_decode_logic :
    decodeUop 0x190B0B0400000000#64 = .ok (.shl 11#8 11#8 4#8) ∧
    decodeUop 0x1A03010200000000#64 = .ok (.shr 3#8 1#8 2#8) ∧
    decodeUop 0x1B03010200000000#64 = .ok (.and 3#8 1#8 2#8) ∧
    decodeUop 0x1C03010200000000#64 = .ok (.or 3#8 1#8 2#8) ∧
    decodeUop 0x1D03010200000000#64 = .ok (.xor 3#8 1#8 2#8) ∧
    decodeUop 0x1E0A0A0700000000#64 = .ok (.maxu 10#8 10#8 7#8) ∧
    decodeUop 0x1F03010200000000#64 = .ok (.minu 3#8 1#8 2#8) ∧
    decodeUop 0x200F0E0000000000#64 = .ok (.clog2 15#8 14#8) := by
  decide

theorem test_decode_compares :
    decodeUop 0x2103010200000000#64 = .ok (.seteq 3#8 1#8 2#8) ∧
    decodeUop 0x2203010200000000#64 = .ok (.setne 3#8 1#8 2#8) ∧
    decodeUop 0x2303010200000000#64 = .ok (.setltu 3#8 1#8 2#8) ∧
    decodeUop 0x2403010200000000#64 = .ok (.setleu 3#8 1#8 2#8) ∧
    decodeUop 0x2503010200000000#64 = .ok (.setlt 3#8 1#8 2#8) ∧
    decodeUop 0x2603010200000000#64 = .ok (.setle 3#8 1#8 2#8) ∧
    decodeUop 0x2717170000000000#64 = .ok (.lnot 23#8 23#8) := by
  decide

theorem test_decode_branches :
    decodeUop 0x3000100000000003#64 = .ok (.bz 16#8 3#32) ∧
    decodeUop 0x3100040000000003#64 = .ok (.bnz 4#8 3#32) ∧
    decodeUop 0x32000000000007D0#64 = .ok (.jmp 2000#32) ∧
    decodeUop 0x3300141300000002#64 = .ok (.loop 20#8 19#8 2#32) := by
  decide

theorem test_decode_records :
    decodeUop 0x4000151400000010#64 = .ok (.str 21#8 20#8 16#32) ∧
    decodeUop 0x41040001FFFFFFFF#64 = .ok (.ldr 4#8 1#8 0xFFFFFFFF#32) ∧
    decodeUop 0x500017005441494C#64 = .ok (.chk 23#8 0x5441494C#32) ∧
    decodeUop 0x5100FE0048435455#64 = .ok (.chkw 254#8 0x48435455#32) := by
  decide

theorem test_decode_queries :
    decodeUop 0x6016000000000000#64 = .ok (.mrd 22#8) ∧
    decodeUop 0x6100000000000000#64 = .ok .trail ∧
    decodeUop 0x6201000000000000#64 = .ok (.bta 1#8) ∧
    decodeUop 0x6317000000000000#64 = .ok (.bleft 23#8) ∧
    decodeUop 0x7F00000000000000#64 = .ok .endSps := by
  decide

/-- 95_test_vectors.md 2.2: a form Z word with N bits, an unlisted OPC, CMD[5:1] in form V, a reserved bit; 2.8:
words of unlisted OP. -/
theorem test_decode_illegal :
    decodeCmd 0x00000001#32 = .error (.formZBits 1#6) ∧
    decodeCmd 0x0F000000#32 = .error (.unlistedOpc 0x0F#8) ∧
    decodeCmd 0x21000002#32 = .error (.formVBits 2#6) ∧
    decodeCmd 0x30000040#32 = .error .reservedBits ∧
    decodeUop 0x0000000000000000#64 = .error (.unlistedOp 0x00#8) ∧
    decodeUop 0x7E00000000000000#64 = .error (.unlistedOp 0x7E#8) ∧
    decodeUop 0x0A01020300000004#64 = .error (.unlistedOp 0x0A#8) := by
  decide

theorem test_decode_table_word :
    decodeTableWord 32 0x30000011 = some (.brRead 17) ∧
    decodeTableWord 64 0x1404030000000005 = some (.addi 4#8 3#8 5#32) ∧
    decodeTableWord 64 0x7E00000000000000 = none := by
  decide

/-! ### Commands (95_test_vectors.md 2.2-2.7) -/

theorem test_nop :
    cmd { reading [0xA5] 3 with result := 7#32 } 0x00000000#32 report =
      some (0x7#32, 3, 0x4#32) := by
  decide

theorem test_reset :
    cmd { reading [0xA5] 3 with result := 7#32, irqEn := 7#3 } 0x01000000#32
      (fun t => (report t, t.irqEn, t.error.pc, t.mem.rbsp.read 0)) =
      some ((0x0#32, 0, 0x0#32), 0#3, 0xFFFFFFFF#32, 0xA5#8) := by
  decide

theorem test_brRead :
    cmd (reading [0x12, 0x34, 0x56, 0x78] 0) 0x30000020#32 report =
      some (0x12345678#32, 32, 0x4#32) := by
  decide

theorem test_brRead_width :
    cmd (reading [0xA5, 0x0F] 0) 0x3000003F#32 failure =
      some (⟨.fBrWidth, 0xFFFFFFFF#32, 0x3F#32, 0x0#32, 0x0#32, 0x0#32⟩, 0x17#32) := by
  decide

theorem test_brPeek :
    cmd (reading [0xA5, 0x0F] 0) 0x31000014#32 report =
      some (0xA50F0#32, 0, 0x4#32) := by
  decide

theorem test_brBitsLeft :
    cmd (reading [0xA5, 0x0F] 3) 0x32000000#32 report =
      some (0xD#32, 3, 0x4#32) := by
  decide

theorem test_brBitsToAlign :
    cmd (reading [0xA5, 0x0F] 3) 0x33000000#32 report =
      some (0x5#32, 3, 0x4#32) := by
  decide

theorem test_readFlag :
    cmd (reading [0xA5, 0x0F] 0) 0x38000000#32 report =
      some (0x1#32, 1, 0x4#32) := by
  decide

theorem test_readFlag_underflow :
    cmd (reading [0xA5, 0x0F] 16) 0x38000000#32 failure =
      some (⟨.eBrUnderflow, 0xFFFFFFFF#32, 0x1#32, 0x0#32, 0x0#32, 0x0#32⟩, 0xC#32) := by
  decide

theorem test_readCode :
    cmd (reading [0xA5, 0x0F] 6) 0x39000005#32 report =
      some (0x8#32, 11, 0x4#32) := by
  decide

theorem test_readUvlc :
    cmd (reading [0x00, 0x00, 0x00, 0x01, 0xFF, 0xFF, 0xFF, 0xFF] 0) 0x3A000000#32 report =
      some (0xFFFFFFFE#32, 63, 0x4#32) := by
  decide

theorem test_readUvlc_overflow :
    cmd (reading [0x00, 0x00, 0x00, 0x00, 0x80] 0) 0x3A000000#32 failure =
      some (⟨.eEgOverflow, 0xFFFFFFFF#32, 0x20#32, 0x0#32, 0x0#32, 0x0#32⟩, 0xC#32) := by
  decide

theorem test_readSvlc :
    cmd (reading [0x00, 0x00, 0x00, 0x01, 0xFF, 0xFF, 0xFF, 0xFF] 0) 0x3B000000#32 report =
      some (0x80000001#32, 63, 0x4#32) := by
  decide

theorem test_readSvlc_underflow :
    cmd (reading [0x00] 0) 0x3B000000#32 failure =
      some (⟨.eBrUnderflow, 0xFFFFFFFF#32, 0x9#32, 0x0#32, 0x8#32, 0x0#32⟩, 0xC#32) := by
  decide

theorem test_readCodeR :
    cmd (checking [0xE0] 7 7) 0x3C000003#32 report =
      some (0x7#32, 3, 0x4#32) := by
  decide

theorem test_readUvlcR_range :
    cmd (checking [0x20] 4 3) 0x3D000000#32 (fun t => (failure t, t.bitPos)) =
      some ((⟨.eRange, 0xFFFFFFFF#32, 0x3#32, 0x4#32, 0x3#32, 0x0#32⟩, 0xC#32), 5) := by
  decide

theorem test_readSvlcR :
    cmd (checking [0x28] 0xFFFFFFFE 0xFFFFFFFF) 0x3E000000#32 report =
      some (0xFFFFFFFE#32, 5, 0x4#32) := by
  decide

theorem test_readSvlcR_range :
    cmd (checking [0x28] 0 5) 0x3E000000#32 failure =
      some (⟨.eRange, 0xFFFFFFFF#32, 0xFFFFFFFE#32, 0x0#32, 0x5#32, 0x0#32⟩, 0xC#32) := by
  decide

theorem test_moreRbspData :
    cmd (reading [0xC0] 0) 0x40000000#32 report =
      some (0x1#32, 0, 0x4#32) := by
  decide

theorem test_moreRbspData_none :
    cmd (reading [0xC0] 1) 0x40000000#32 report =
      some (0x0#32, 1, 0x4#32) := by
  decide

theorem test_rbspTrailingBits :
    cmd (reading [0xA5, 0x80, 0x01] 8) 0x41000000#32 report =
      some (0x8#32, 16, 0x4#32) := by
  decide

theorem test_rbspTrailingBits_align :
    cmd (reading [0xA5, 0x0F] 12) 0x41000000#32 (fun t => (failure t, t.bitPos)) =
      some ((⟨.eTrailAlign, 0xFFFFFFFF#32, 0x1#32, 0xD#32, 0x0#32, 0x0#32⟩, 0xC#32), 14) := by
  decide

theorem test_convertRange :
    cmd (framing [0x40, 0x01, 0x00, 0x00, 0x03, 0x01, 0x80] 0 7) 0x21000000#32
      (fun t => (report t, t.nuh.pack, t.mem.rbsp.slice 0 6)) =
      some ((0x6#32, 0, 0x4#32), 0#32, [0x40#8, 0x01#8, 0x00#8, 0x00#8, 0x01#8, 0x80#8]) := by
  decide

theorem test_convertRange_vcl :
    cmd (framing [0x26, 0x01, 0x80, 0x00, 0x00, 0x00] 0 6) 0x21000001#32
      (fun t => (failure t, t.nuh.pack)) =
      some ((⟨.eEpbSmall, 0xFFFFFFFF#32, 0x0#32, 0x5#32, 0x0#32, 0x0#32⟩, 0xC#32), 0x80000#32) := by
  decide

theorem test_scanAu :
    cmd (framing [0x00, 0x00, 0x01, 0x00, 0x81, 0x00, 0x00, 0x00, 0x00, 0x01, 0x00, 0x01, 0x80] 0 0) 0x10000000#32
      (fun t => (report t, t.nalCount, t.mem.nalt.slice 0 8)) =
      some ((0x2#32, 0, 0x4#32), 2#32, [3#32, 6#32, 0x42000003#32, 0#32, 10#32, 13#32, 0x42000004#32, 0#32]) := by
  decide

theorem test_scanAu_full :
    cmd { framing [0x00, 0x00, 0x01, 0x40, 0x01, 0x00, 0x00, 0x01, 0x42, 0x01, 0x00, 0x00, 0x01, 0x44, 0x01] 0 0 with
        params := { Config.defaults with naltCap := 2 } } 0x10000000#32
      (fun t => (failure t, t.nalCount, t.unitEnd 1)) =
      some ((⟨.eNaltFull, 0xFFFFFFFF#32, 0x2#32, 0x0#32, 0x0#32, 0x0#32⟩, 0xC#32), 2#32, 10#32) := by
  decide

theorem test_peekAuType :
    cmd (framing [0x00, 0x00, 0x00, 0x00, 0x01, 0xAA, 0xBB] 0 0) 0x11000000#32 report =
      some (0x17#32, 0, 0x4#32) := by
  decide

theorem test_decodeAu :
    cmd (framing [0x00, 0x00, 0x01, 0x00, 0x01, 0x84, 0x00, 0x00, 0x01, 0x00, 0xD1, 0x77] 0 0) 0x12000000#32
      (fun t => (report t, t.error.value, t.mem.naltWord 0 2, t.mem.naltWord 1 2, t.mem.naltWord 1 3)) =
      some ((0x2#32, 16, 0xC#32), 0x1A#32, 0x41040013#32, 0x1F074003#32, 0x1A#32) := by
  decide

theorem test_loadNal :
    cmd { framing [0x00, 0x00, 0x01, 0x00, 0x81, 0x00, 0x00, 0x00, 0x00, 0x01, 0x00, 0x01, 0x80] 1 0 with
        nalCount := 2#32
        mem := { (framing [0x00, 0x00, 0x01, 0x00, 0x81, 0x00, 0x00, 0x00, 0x00, 0x01, 0x00, 0x01, 0x80] 1 0).mem with
          nalt := .ofList 0 (tableWords [⟨3, 6, 3⟩, ⟨10, 13, 4⟩]) } } 0x20000000#32
      (fun t => (report t, t.nuh.pack, t.curNal, t.mem.rbsp.slice 0 3)) =
      some ((0x3#32, 0, 0x4#32), 0x80000#32, 1#32, [0x00#8, 0x01#8, 0x80#8]) := by
  decide

theorem test_continueAu :
    cmd continuing 0x02000000#32 (fun t => (report t, t.decNext, t.mem.naltWord 1 2)) =
      some ((0x2#32, 16, 0x4#32), 2#32, 0x41040013#32) := by
  decide

theorem test_abortAu :
    cmd continuing 0x03000000#32 (fun t => (t.block, t.decNext, t.mem.naltWord 0 2, t.mem.naltWord 1 2)) =
      some (.idle, 2#32, 0x42000003#32, 0x43000003#32) := by
  decide

theorem test_parseNalHeader :
    cmd (reading [0x00, 0x79] 0) 0x28000000#32 (fun t => (report t, t.nuh.pack)) =
      some ((0x2F00#32, 16, 0x4#32), 0x2F00#32) := by
  decide

theorem test_parseNalHeader_layer :
    cmd (reading [0xFF, 0xF8] 0) 0x28000000#32 (fun t => (report t, t.error.code, t.error.value, t.warn)) =
      some ((0x71FFF#32, 16, 0x44#32), .sLayerId, 0x3F#32, 3#6) := by
  decide

theorem test_parseSps :
    cmd { framing [] 0 0 with stepCount := 9#32, latch := ⟨0#32, 0#32, 0#32, 5#32⟩, ops := ⟨0#32, 0#32, 0#32, 5#32⟩ }
      0x50000000#32 (fun t => (t.engine, t.seqPc, t.stepCount, t.mem.record.read 7)) =
      some (.parseSps, 5#32, 0#32, 0#32) := by
  decide

theorem test_illegal_command :
    cmd (reading [0xA5] 0) 0x0F000000#32 failure =
      some (⟨.eCmdIllegal, 0xFFFFFFFF#32, 0xF000000#32, 0x0#32, 0x0#32, 0x0#32⟩, 0xC#32) := by
  decide

/-! ### µops (95_test_vectors.md 2.8) -/

theorem test_rdf :
    uop (parsing [] [0x80] 0) 0x0101000000000000#64 (vars 1 0) =
      some (0x1#32, 0x0#32, 1) := by
  decide

theorem test_rdf_underflow :
    uop (parsing [] [0x80] 8) 0x0101000000000000#64 failure =
      some (⟨.eBrUnderflow, 0xA#32, 0x1#32, 0x0#32, 0x0#32, 0x0#32⟩, 0xC#32) := by
  decide

theorem test_rdu :
    uop (parsing [] [0xDE, 0xAD, 0xBE, 0xEF] 0) 0x0201000000000020#64 (vars 1 0) =
      some (0xDEADBEEF#32, 0x0#32, 32) := by
  decide

theorem test_rdu_width :
    uop (parsing [] [0x80] 0) 0x0201000000000021#64 failure =
      some (⟨.fBrWidth, 0xA#32, 0x21#32, 0x0#32, 0x0#32, 0x0#32⟩, 0x17#32) := by
  decide

theorem test_rduv :
    uop (parsing [(2, 0x3)] [0xA0] 0) 0x0303020000000000#64 (vars 3 0) =
      some (0x5#32, 0x0#32, 3) := by
  decide

theorem test_rdue :
    uop (parsing [] [0x38] 0) 0x0401000000000000#64 (vars 1 0) =
      some (0x6#32, 0x0#32, 5) := by
  decide

theorem test_rdse :
    uop (parsing [] [0x60] 0) 0x0501000000000000#64 (vars 1 0) =
      some (0xFFFFFFFF#32, 0x0#32, 3) := by
  decide

theorem test_rdur :
    uop (parsing [(1, 0x2), (2, 0x6)] [0xA0] 0) 0x0603010200000003#64 (vars 3 0) =
      some (0x5#32, 0x0#32, 3) := by
  decide

theorem test_rdur_range :
    uop (parsing [(1, 0x0), (2, 0x6)] [0xE0] 0) 0x0603010200000003#64 (fun t => (failure t, t.bitPos, t.getV 3#8)) =
      some ((⟨.eRange, 0xA#32, 0x7#32, 0x0#32, 0x6#32, 0x0#32⟩, 0xC#32), 3, 0#32) := by
  decide

theorem test_rduer :
    uop (parsing [(1, 0x1), (2, 0xFFFFFFFF)] [0x40] 0) 0x0703010200000000#64 (vars 3 0) =
      some (0x1#32, 0x0#32, 3) := by
  decide

theorem test_rdser :
    uop (parsing [(1, 0xFFFFFFF4), (2, 0xC)] [0x28] 0) 0x0803010200000000#64 (vars 3 0) =
      some (0xFFFFFFFE#32, 0x0#32, 5) := by
  decide

theorem test_rduvr :
    uop (parsing [(5, 0x2), (1, 0x0), (2, 0x2)] [0x80] 0) 0x0903010200000105#64 (vars 3 0) =
      some (0x2#32, 0x0#32, 2) := by
  decide

theorem test_ldi :
    uop (parsing [(1, 0x0)] [] 0) 0x1001000000000040#64 (varPc 1) =
      some (0x40#32, 11#32) := by
  decide

theorem test_ldi_v0 :
    uop (parsing [] [] 0) 0x1000000000000040#64 (varPc 0) =
      some (0#32, 11#32) := by
  decide

theorem test_mov :
    uop (parsing [(1, 0x1234)] [] 0) 0x1102010000000000#64 (varPc 2) =
      some (0x1234#32, 11#32) := by
  decide

theorem test_mov_run_off :
    uop { parsing [(1, 5)] [] 0 with seqPc := 1023#32 } 0x1102010000000000#64 (fun t => (failure t, t.getV 2#8)) =
      some ((⟨.fUopPc, 0x3FF#32, 0x400#32, 0x0#32, 0x0#32, 0x0#32⟩, 0x17#32), 5#32) := by
  decide

theorem test_add :
    uop (parsing [(1, 0xFFFFFFFF), (2, 0x1)] [] 0) 0x1203010200000000#64 (varPc 3) =
      some (0x0#32, 11#32) := by
  decide

theorem test_sub :
    uop (parsing [(1, 0x0), (2, 0x1)] [] 0) 0x1303010200000000#64 (varPc 3) =
      some (0xFFFFFFFF#32, 11#32) := by
  decide

theorem test_addi :
    uop (parsing [(1, 0x5)] [] 0) 0x14020100FFFFFFFF#64 (varPc 2) =
      some (0x4#32, 11#32) := by
  decide

theorem test_mul :
    uop (parsing [(1, 0x1E), (2, 0x11)] [] 0) 0x1503010200000000#64 (varPc 3) =
      some (0x1FE#32, 11#32) := by
  decide

theorem test_divu :
    uop (parsing [(1, 0x780), (2, 0x40)] [] 0) 0x1603010200000000#64 (varPc 3) =
      some (0x1E#32, 11#32) := by
  decide

theorem test_divu_zero :
    uop (parsing [(1, 0x7)] [] 0) 0x1603010200000000#64 failure =
      some (⟨.fUopDiv0, 0xA#32, 0x7#32, 0x0#32, 0x0#32, 0x0#32⟩, 0x17#32) := by
  decide

theorem test_remu :
    uop (parsing [(1, 0x3E8), (2, 0x10)] [] 0) 0x1703010200000000#64 (varPc 3) =
      some (0x8#32, 11#32) := by
  decide

theorem test_cdivu :
    uop (parsing [(1, 0xFFFFFFFF), (2, 0x2)] [] 0) 0x1803010200000000#64 (varPc 3) =
      some (0x80000000#32, 11#32) := by
  decide

theorem test_shl :
    uop (parsing [(1, 0x80000001), (2, 0x1)] [] 0) 0x1903010200000000#64 (varPc 3) =
      some (0x2#32, 11#32) := by
  decide

theorem test_shl_width :
    uop (parsing [(1, 0x1), (2, 0x20)] [] 0) 0x1903010200000000#64 (varPc 3) =
      some (0x0#32, 11#32) := by
  decide

theorem test_shr :
    uop (parsing [(1, 0x80000000), (2, 0x1F)] [] 0) 0x1A03010200000000#64 (varPc 3) =
      some (0x1#32, 11#32) := by
  decide

theorem test_and :
    uop (parsing [(1, 0xF0F0), (2, 0xFF00)] [] 0) 0x1B03010200000000#64 (varPc 3) =
      some (0xF000#32, 11#32) := by
  decide

theorem test_or :
    uop (parsing [(1, 0xF0F0), (2, 0xFF00)] [] 0) 0x1C03010200000000#64 (varPc 3) =
      some (0xFFF0#32, 11#32) := by
  decide

theorem test_xor :
    uop (parsing [(1, 0xF0F0), (2, 0xFF00)] [] 0) 0x1D03010200000000#64 (varPc 3) =
      some (0xFF0#32, 11#32) := by
  decide

theorem test_maxu :
    uop (parsing [(1, 0x8), (2, 0xFFFFFFFF)] [] 0) 0x1E03010200000000#64 (varPc 3) =
      some (0xFFFFFFFF#32, 11#32) := by
  decide

theorem test_minu :
    uop (parsing [(1, 0x8), (2, 0xFFFFFFFF)] [] 0) 0x1F03010200000000#64 (varPc 3) =
      some (0x8#32, 11#32) := by
  decide

theorem test_clog2 :
    uop (parsing [(1, 0x1E)] [] 0) 0x2003010000000000#64 (varPc 3) =
      some (0x5#32, 11#32) := by
  decide

theorem test_clog2_large :
    uop (parsing [(1, 0x80000001)] [] 0) 0x2003010000000000#64 (varPc 3) =
      some (0x20#32, 11#32) := by
  decide

theorem test_seteq :
    uop (parsing [(1, 0x5), (2, 0x5)] [] 0) 0x2103010200000000#64 (varPc 3) =
      some (0x1#32, 11#32) := by
  decide

theorem test_setne :
    uop (parsing [(1, 0x5), (2, 0x5)] [] 0) 0x2203010200000000#64 (varPc 3) =
      some (0x0#32, 11#32) := by
  decide

theorem test_setltu :
    uop (parsing [(1, 0xFFFFFFFF), (2, 0x1)] [] 0) 0x2303010200000000#64 (varPc 3) =
      some (0x0#32, 11#32) := by
  decide

theorem test_setleu :
    uop (parsing [(1, 0x1), (2, 0x1)] [] 0) 0x2403010200000000#64 (varPc 3) =
      some (0x1#32, 11#32) := by
  decide

theorem test_setlt :
    uop (parsing [(1, 0xFFFFFFFF), (2, 0x1)] [] 0) 0x2503010200000000#64 (varPc 3) =
      some (0x1#32, 11#32) := by
  decide

theorem test_setle :
    uop (parsing [(1, 0x80000000), (2, 0x7FFFFFFF)] [] 0) 0x2603010200000000#64 (varPc 3) =
      some (0x1#32, 11#32) := by
  decide

theorem test_lnot :
    uop (parsing [(1, 0x7)] [] 0) 0x2703010000000000#64 (varPc 3) =
      some (0x0#32, 11#32) := by
  decide

theorem test_bz :
    uop (parsing [(4, 0x0)] [] 0) 0x3000040000000003#64 State.seqPc =
      some 14#32 := by
  decide

theorem test_bz_not_taken :
    uop (parsing [(4, 0x1)] [] 0) 0x3000040000000003#64 State.seqPc =
      some 11#32 := by
  decide

theorem test_bnz :
    uop (parsing [(4, 0x1)] [] 0) 0x3100040000000003#64 State.seqPc =
      some 14#32 := by
  decide

theorem test_jmp :
    uop (parsing [] [] 0) 0x3200000000000000#64 State.seqPc =
      some 11#32 := by
  decide

theorem test_jmp_range :
    uop (parsing [] [] 0) 0x32000000000007D0#64 failure =
      some (⟨.fUopPc, 0xA#32, 0x7DB#32, 0x0#32, 0x0#32, 0x0#32⟩, 0x17#32) := by
  decide

theorem test_loop :
    uop (parsing [(20, 0x0), (19, 0x2)] [] 0) 0x3300141300000002#64 (varPc 20) =
      some (1#32, 8#32) := by
  decide

theorem test_loop_same_variable :
    uop (parsing [(20, 0x3)] [] 0) 0x3300141400000000#64 (varPc 20) =
      some (4#32, 11#32) := by
  decide

theorem test_str :
    uop (parsing [(3, 0xABCD), (20, 0x2)] [] 0) 0x4000031400000010#64
      (fun t => (t.mem.record.read 18, t.mem.recordWrWord 0)) =
      some (0xABCD#32, 0x40000#32) := by
  decide

theorem test_str_range :
    uop (parsing [(20, 0x18)] [] 0) 0x40000314000003E8#64 failure =
      some (⟨.fRecRange, 0xA#32, 0x400#32, 0x0#32, 0x0#32, 0x0#32⟩, 0x17#32) := by
  decide

theorem test_ldr :
    uop { parsing [] [] 0 with mem := (parsing [] [] 0).mem.setRecord 12 0xABCD#32 } 0x410400000000000C#64 (varPc 4) =
      some (0xABCD#32, 11#32) := by
  decide

theorem test_ldr_range :
    uop (parsing [(1, 0x1)] [] 0) 0x41040001FFFFFFFF#64 failure =
      some (⟨.fRecRange, 0xA#32, 0x0#32, 0x0#32, 0x0#32, 0x0#32⟩, 0x17#32) := by
  decide

theorem test_chk :
    uop (parsing [(1, 0x1)] [] 0) 0x5000010057494454#64 State.seqPc =
      some 11#32 := by
  decide

theorem test_chk_fails :
    uop (parsing [(1, 0x0)] [] 0) 0x5000010057494454#64 failure =
      some (⟨.eSpsCheck, 0xA#32, 0x0#32, 0x0#32, 0x0#32, 0x57494454#32⟩, 0xC#32) := by
  decide

theorem test_chkw :
    uop (parsing [(1, 0x0)] [] 0) 0x5100010048435455#64 (fun t => (t.warn, t.warnTag, t.seqPc)) =
      some (4#6, 0x48435455#32, 11#32) := by
  decide

theorem test_mrd :
    uop (parsing [] [0xA5, 0x80] 7) 0x6001000000000000#64 (vars 1 0) =
      some (0x1#32, 0x0#32, 7) := by
  decide

theorem test_trail :
    uop (parsing [] [0xA5, 0x80] 8) 0x6100000000000000#64 (vars 1 0) =
      some (0x0#32, 0x0#32, 16) := by
  decide

theorem test_trail_stop :
    uop (parsing [] [0xA5, 0x40] 8) 0x6100000000000000#64 (fun t => (failure t, t.bitPos)) =
      some ((⟨.eTrailStop, 0xA#32, 0x0#32, 0x8#32, 0x0#32, 0x0#32⟩, 0xC#32), 9) := by
  decide

theorem test_bta :
    uop (parsing [] [0xA5, 0x0F] 3) 0x6201000000000000#64 (vars 1 0) =
      some (0x5#32, 0x0#32, 3) := by
  decide

theorem test_bleft :
    uop (parsing [] [0xA5, 0x0F] 3) 0x6301000000000000#64 (vars 1 0) =
      some (0xD#32, 0x0#32, 3) := by
  decide

theorem test_endSps :
    uop (parsing [] [0xA5] 0) 0x7F00000000000000#64 report =
      some (0x1#32, 0, 0x24#32) := by
  decide

theorem test_illegal_uop :
    uop (parsing [] [] 0) 0x0A01020300000004#64 failure =
      some (⟨.fUopIllegal, 0xA#32, 0xA010203#32, 0x4#32, 0x0#32, 0x0#32⟩, 0x17#32) := by
  decide

/-! ### The host interface (95_test_vectors.md 2.9) -/

theorem test_host_id : (State.reset.hostRead 0x000#32 .word).readData = 0x57323636#32 := by decide

theorem test_host_caps :
    [0x08C#32, 0x090#32, 0x094#32, 0x098#32, 0x09C#32].map (fun a => (State.reset.hostRead a .word).readData) =
      [0x00100000#32, 0x100#32, 0x400#32, 0x400#32, 0x00100000#32] := by
  decide

theorem test_host_au :
    (State.reset.hostWrite 0x01000000#32 .word 0x01000000#32).mem.au.slice 0 4 = [0#8, 0#8, 0#8, 1#8] := by
  decide

theorem test_host_misaligned :
    (State.reset.hostRead 0x01000002#32 .word).readData = 0#32 ∧
      (State.reset.hostRead 0x01000002#32 .word).warn = 0b100000#6 := by
  decide

theorem test_host_ustore :
    ((State.reset.hostWrite 0x00010000#32 .word 7#32).hostWrite 0x00010004#32 .word 0x10010000#32).mem.uop 0 =
      0x1001000000000007#64 := by
  decide

/-- 95_test_vectors.md 2.2: CONTINUE in IDLE is ignored; 10_state.md R52: a reserved offset takes no write. -/
theorem test_host_ignored :
    State.reset.hostWrite 0x008#32 .word 0x02000000#32 = { State.reset with warn := 0b010000#6 } ∧
      State.reset.hostWrite 0x0A0#32 .word 5#32 = State.reset := by
  exact ⟨rfl, rfl⟩

/-- The reset state after the host writes CMD = NOP: the next step runs it (95_test_vectors.md 2.2). -/
theorem test_host_command :
    cmd State.reset 0#32 (fun t => (report t, t.irqPend)) = some ((0#32, 0, 4#32), 1#3) := by
  decide

/-! ### The hypotheses of the obligations hold somewhere: encodings, reset, the step -/

theorem test_witness_DecodeEncode :
    (Instr.brRead 63).wellFormed = true := by
  decide

theorem test_witness_ResetValues :
    let s : State := { State.reset with inputs := [.powerOn, .blockTurn] }
    s.engine = .off ∧ s.inputs = .powerOn :: [.blockTurn] := by
  decide

theorem test_witness_StepRunsInstruction :
    let s : State := { reading [0xA5] 0 with cmd := 0x30000008#32 }
    s.engine = .off ∧ s.block = .busy ∧ decodeCmd s.cmd = .ok (.brRead 8) ∧ s.inputs = [] := by
  decide

theorem test_witness_StepRunsInstruction_turn :
    let s : State := { reading [0xA5] 0 with cmd := 0x30000008#32, inputs := [.blockTurn, .powerOn] }
    s.engine = .off ∧ s.block = .busy ∧ decodeCmd s.cmd = .ok (.brRead 8) ∧ s.inputs = .blockTurn :: [.powerOn] := by
  decide

theorem test_witness_StepRunsInstruction_uop :
    let m := (parsing [] [] 0).mem.setUop 1023 0x1203010200000000#64
    let s : State := { parsing [] [] 0 with mem := m, seqPc := 1023#32, stepCount := 1048575#32 }
    s.engine ≠ .off ∧ s.stepCount.toNat ≠ s.params.maxSteps ∧ s.seqPc.toNat < s.params.ustoreCap ∧
      decodeUop (s.mem.ustore.read (2 * s.seqPc.toNat + 1) ++ s.mem.ustore.read (2 * s.seqPc.toNat)) =
        .ok (.add 3#8 1#8 2#8) := by
  decide

theorem test_witness_StepRunsInstruction_events :
    (∀ e ∈ [HostEvent.read 0#32 .word, .write 0x008#32 .word 0x01000000#32, .powerOn],
      let s : State := { reading [0xA5] 0 with inputs := [e, .blockTurn] }
      s.engine = .off ∧ s.inputs = e :: [.blockTurn]) ∧
    (let s : State := { State.reset with inputs := [.blockTurn, .powerOn] }
     s.engine = .off ∧ s.block ≠ .busy ∧ s.inputs = .blockTurn :: [.powerOn]) ∧
    State.reset.engine = .off ∧ State.reset.block ≠ .busy ∧ State.reset.inputs = [] := by
  decide

theorem test_witness_StepOutcomes_budget :
    let s : State := { parsing [] [] 0 with stepCount := 1048576#32 }
    let u : State := { parsingUnit with stepCount := 1048576#32 }
    (s.parsing ∧ s.stepCount.toNat = s.params.maxSteps) ∧
      u.engine = .decodeUnit ∧ u.parsing ∧ u.stepCount.toNat = u.params.maxSteps := by
  decide

theorem test_witness_StepOutcomes_entry :
    let s : State := { parsing [] [] 0 with stepCount := 1048575#32, seqPc := 1024#32 }
    s.parsing ∧ s.stepCount.toNat ≠ s.params.maxSteps ∧ s.params.ustoreCap ≤ s.seqPc.toNat := by
  decide

theorem test_witness_StepOutcomes_illegal :
    let m := (parsing [] [] 0).mem.setUop 1023 0x7E00000000000000#64
    let s : State := { parsing [] [] 0 with mem := m, seqPc := 1023#32 }
    s.parsing ∧ s.stepCount.toNat ≠ s.params.maxSteps ∧ s.seqPc.toNat < s.params.ustoreCap ∧
      decodeUop (s.mem.uop s.seqPc.toNat) = .error (.unlistedOp 0x7E#8) := by
  decide

theorem test_witness_StepOutcomes_command :
    let s : State := { reading [] 0 with cmd := 0x21000002#32 }
    let u : State := { s with inputs := [.blockTurn, .powerOn] }
    (s.engine = .off ∧ s.block = .busy ∧ s.inputs = [] ∧ decodeCmd s.cmd = .error (.formVBits 2#6)) ∧
      u.engine = .off ∧ u.block = .busy ∧ u.inputs = .blockTurn :: [.powerOn] ∧
      decodeCmd u.cmd = .error (.formVBits 2#6) := by
  decide

/-! ### The host interface and the outcomes -/

theorem test_witness_CommandWrites_ignored :
    (reading [] 0).block = .busy ∧
    (let s : State := { State.reset with block := .paused }
     s.block = .paused ∧ ¬ decodeCmd 0#32 = .ok .continueAu ∧ ¬ decodeCmd 0#32 = .ok .abortAu ∧
        ¬ decodeCmd 0#32 = .ok .reset) ∧
    (let s : State := { State.reset with block := .halted }
     s.block = .halted ∧ ¬ decodeCmd 0x01000001#32 = .ok .reset) ∧
    State.reset.block = .idle ∧
    (decodeCmd 0x02000000#32 = .ok .continueAu ∨ decodeCmd 0x02000000#32 = .ok .abortAu) := by
  decide

theorem test_witness_CommandWrites_accepted :
    ¬ decodeCmd 0x02000001#32 = .ok .reset ∧ State.reset.block = .idle ∧ ¬ decodeCmd 0x02000001#32 = .ok .continueAu ∧
      ¬ decodeCmd 0x02000001#32 = .ok .abortAu ∧ ¬ decodeCmd 0x50000000#32 = .ok .reset ∧
      ¬ decodeCmd 0x50000000#32 = .ok .continueAu ∧ ¬ decodeCmd 0x50000000#32 = .ok .abortAu := by
  decide

theorem test_witness_CommandWrites_paused :
    let s : State := { State.reset with block := .paused }
    ¬ decodeCmd 0x03000000#32 = .ok .reset ∧ s.block = .paused ∧ decodeCmd 0x03000000#32 = .ok .abortAu ∧
      decodeCmd 0x02000000#32 = .ok .continueAu := by
  decide

theorem test_witness_CommandWrites_reset :
    (∀ b ∈ [BlockState.idle, .paused, .halted],
      let s : State := { State.reset with block := b }
      s.block ≠ .busy ∧ s.engine = .off ∧ s.inputs = []) ∧ decodeCmd 0x01000000#32 = .ok .reset := by
  decide

/-- The first two ranges of `Obligations.IgnoredAccesses`, at their bounds. -/
theorem test_witness_IgnoredAccesses_window :
    State.reset.params.valid ∧
    (∀ x ∈ [(0x000, Width.byte), (0x09F, .word), (0x1001, .word), (0x00FFFFFF, .byte)],
      (x.1 < 0x0A0 ∨ 0x1000 ≤ x.1) ∧ x.1 < 0x01000000 ∧ (x.2 = .byte ∨ x.1 % 4 ≠ 0)) ∧
    (∀ a ∈ [0x01000001, 0x02FFFFFF], 0x01000000 ≤ a ∧ a < 0x03000000 ∧ a % 4 ≠ 0) := by
  decide

/-- The ranges beyond the used size of a window, at their bounds. -/
theorem test_witness_IgnoredAccesses_unused :
    let p := State.reset.params
    p.valid ∧ (∀ a ∈ [0x2000, 0xFFFC], 0x1000 + 16 * p.naltCap ≤ a ∧ a < 0x10000) ∧
    (∀ a ∈ [0x12000, 0x1FFFC], 0x10000 + 8 * p.ustoreCap ≤ a ∧ a < 0x20000) ∧
    (∀ a ∈ [0x21000, 0x2FFFC], 0x20000 + 4 * p.recCap ≤ a ∧ a < 0x30000) ∧
    (∀ a ∈ [0x30080, 0x00FFFFFC], 0x30000 + 4 * (p.recCap / 32) ≤ a ∧ a < 0x01000000) ∧
    (∀ a ∈ [0x01100000, 0x01FFFFFF], 0x01000000 + p.auCap ≤ a ∧ a < 0x02000000) ∧
    (∀ a ∈ [0x02100000, 0xFFFFFFFF], 0x02000000 + p.rbspCap ≤ a) := by
  decide

theorem test_witness_IgnoredAccesses_frozen :
    (reading [] 0).params.valid ∧ (reading [] 0).block = .busy ∧
    (∀ a ∈ [0x10000, 0x1FFFF], 0x10000 ≤ a ∧ a < 0x20000) ∧
    (∀ a ∈ [0x01000000, 0x01FFFFFF], 0x01000000 ≤ a ∧ a < 0x02000000) ∧
    (∀ a ∈ [0x1000, 0xFFFF], 0x1000 ≤ a ∧ a < 0x10000) ∧
    (∀ a ∈ [0x20000, 0x307FF], 0x20000 ≤ a ∧ a < 0x30800) ∧
    (∀ a ∈ [0x02000000, 0x02FFFFFF], 0x02000000 ≤ a ∧ a < 0x03000000) := by
  decide

theorem test_witness_WindowAccesses :
    let s : State := State.reset
    s.params.valid ∧ s.mem.au.wf = true ∧ s.mem.ustore.wf = true ∧ s.block = .idle ∧
      (∀ a ∈ [0, 1048572], a % 4 = 0 ∧ a + 4 ≤ s.params.auCap ∧ a + 4 ≤ s.params.rbspCap) ∧
      (∀ a ∈ [0, 1048575], a < s.params.auCap ∧ a < s.params.rbspCap) ∧ (∀ j ∈ [0, 1023], j < s.params.ustoreCap) := by
  decide

theorem test_witness_WindowAccesses_owned :
    let s : State := { State.reset with block := .halted }
    s.params.valid ∧ s.block ≠ .busy ∧ (∀ k ∈ [0, 255], k < s.params.naltCap) ∧ (∀ i ∈ [0, 3], i < 4) ∧
      (∀ i ∈ [0, 1023], i < s.params.recCap) ∧ (∀ m ∈ [0, 31], m < s.params.recCap / 32) ∧ ∀ b ∈ [0, 31], b < 32 := by
  decide

/-- ID and VERSION read their constants while BUSY too (10_state.md R33). -/
theorem test_host_hardwired :
    (reading [] 0).block = .busy ∧ ((reading [] 0).hostRead 0x000#32 .word).readData = 0x57323636#32 ∧
      ((reading [] 0).hostRead 0x004#32 .word).readData = 0x00010001#32 := by
  decide

theorem test_witness_HostReads :
    State.reset.block ≠ .busy ∧ (∀ a ∈ [0x0A0, 0xFFC], 0x0A0 ≤ a ∧ a < 0x1000 ∧ a % 4 = 0) := by
  decide

theorem test_witness_RegisterWrites :
    ∀ a ∈ [0x0A0, 0xFFC], 0x0A0 ≤ a ∧ a < 0x1000 ∧ a % 4 = 0 := by
  decide

theorem test_witness_LeavingHalted_powerOn :
    let s : State := { State.reset with block := .halted, inputs := [.powerOn] }
    s.block = .halted ∧ s.engine = .off ∧ ∃ t, step s = .next t ∧ t.block ≠ .halted := by
  exact ⟨rfl, rfl, _, rfl, by decide⟩

theorem test_witness_LeavingHalted_reset :
    let s : State := { State.reset with block := .halted, inputs := [.write 0x008#32 .word 0x01000000#32] }
    s.block = .halted ∧ s.engine = .off ∧ ∃ t, step s = .next t ∧ t.block ≠ .halted := by
  exact ⟨rfl, rfl, _, rfl, by decide⟩

/-! ### The bit reader and the VLC decoder -/

theorem test_witness_ReportCommands :
    32 ≤ 32 ∧ MoreData (reading [0xC0] 0) ∧ ¬ MoreData (reading [0xC0] 1) := by
  refine ⟨le_refl _, ⟨1, by decide, by decide, by decide⟩, fun h => ?_⟩
  obtain ⟨k, h1, h2, h3⟩ := h
  have hk : ∀ k < 8, 1 < k → streamBit (reading [0xC0] 1).mem.rbsp k = false := by decide
  have h2' : k < 8 := h2
  have h1' : 1 < k := h1
  rw [hk k h2' h1'] at h3
  exact absurd h3 (by decide)

theorem test_witness_ReadCommands :
    (∀ n ∈ [0, 32], (reading [0x12, 0x34, 0x56, 0x78] 0).readerBounds ∧ n ≤ 32 ∧
        n ≤ (reading [0x12, 0x34, 0x56, 0x78] 0).streamLen - (reading [0x12, 0x34, 0x56, 0x78] 0).bitPos) ∧
    ((reading [0xA5] 7).readerBounds ∧ 1 ≤ (reading [0xA5] 7).streamLen - (reading [0xA5] 7).bitPos) := by
  decide

theorem test_witness_ReadCommands_code :
    (reading [0xC0] 0).readerBounds ∧ CodeAt (reading [0xC0] 0) 0 ∧
    (reading [0, 0, 0, 1, 0xFF, 0xFF, 0xFF, 0xFF] 0).readerBounds ∧
    CodeAt (reading [0, 0, 0, 1, 0xFF, 0xFF, 0xFF, 0xFF] 0) 31 := by
  unfold CodeAt
  decide

theorem test_witness_ReadOutcomes_width :
    32 < 33 ∧ 32 ≤ 32 ∧ (reading [1, 2, 3] 0).streamLen - (reading [1, 2, 3] 0).bitPos < 32 := by
  decide

theorem test_witness_ReadOutcomes_flag :
    (reading [0xA5] 8).streamLen - (reading [0xA5] 8).bitPos = 0 := by
  decide

theorem test_witness_ReadOutcomes_overflow :
    let s := reading [0, 0, 0, 0] 0
    32 ≤ s.bitsLeft ∧ ∀ j < 32, streamBit s.mem.rbsp (s.bitPos + j) = false := by
  decide

theorem test_witness_ReadOutcomes_zeros :
    let s := reading [0, 0, 0, 0] 1
    s.bitsLeft < 32 ∧ ∀ j < s.bitsLeft, streamBit s.mem.rbsp (s.bitPos + j) = false := by
  decide

theorem test_witness_ReadOutcomes_suffix :
    let s := reading [0, 0, 0, 1] 0
    31 < 32 ∧ 31 < s.bitsLeft ∧ s.bitsLeft < 2 * 31 + 1 ∧
      (∀ j < 31, streamBit s.mem.rbsp (s.bitPos + j) = false) ∧ streamBit s.mem.rbsp (s.bitPos + 31) = true := by
  decide

theorem test_witness_BitExactness :
    let s := reading [0x12, 0x34, 0x56, 0x78] 0
    s.bitPos = 0 ∧ s.streamLen < 2 ^ 32 ∧ (∀ n ∈ [1, 7, 8, 16], n ≤ 32) ∧ [1, 7, 8, 16].sum = s.streamLen := by
  decide

theorem test_witness_PathEquivalence :
    let s := reading [0x12, 0x34, 0x56, 0x78, 0x9A, 0xBC, 0xDE, 0xF0, 0x11] 3
    s.params.valid ∧ s.ReaderInv ∧ (5 ≤ 32 ∧ 5 ≤ s.streamLen - s.bitPos ∧ 5 - s.reader.nhb.toNat ≤ 8 * 0 ∧ 0 ≤ 8 ∧
        s.reader.pos.toNat + 0 ≤ s.reader.rbspLen.toNat) ∧
      (32 ≤ 32 ∧ 32 ≤ s.streamLen - s.bitPos ∧ 32 - s.reader.nhb.toNat ≤ 8 * 8 ∧ 8 ≤ 8 ∧
        s.reader.pos.toNat + 8 ≤ s.reader.rbspLen.toNat) := by
  exact ⟨by decide, ⟨by decide, by decide, by decide, by decide, by decide, by decide, by decide⟩, by decide, by decide⟩

/-- The code of 2^32 − 2 (95_test_vectors.md 1.4). -/
theorem test_witness_ExpGolombRoundTrip :
    let s := reading [0, 0, 0, 1, 0xFF, 0xFF, 0xFF, 0xFE] 0
    4294967294 < 2 ^ 32 - 1 ∧ 2 * Nat.log 2 (4294967294 + 1) + 1 ≤ s.bitsLeft ∧
      stream s.mem.rbsp s.bitPos (2 * Nat.log 2 (4294967294 + 1) + 1) = 4294967294 + 1 ∧ s.readerBounds := by
  have h : Nat.log 2 (4294967294 + 1) = 31 := by norm_num
  rw [h]
  decide

theorem test_witness_RangeCheckedCommands_code :
    let s := checking [0xE0] 7 7
    let t := checking [0xE0] 0 6
    s.readerBounds ∧ t.readerBounds ∧ 3 ≤ 32 ∧ 3 ≤ s.bitsLeft ∧ 3 ≤ t.bitsLeft ∧
      (s.latch.arg0.toNat ≤ stream s.mem.rbsp s.bitPos 3 ∧ stream s.mem.rbsp s.bitPos 3 ≤ s.latch.arg1.toNat) ∧
      ¬ (t.latch.arg0.toNat ≤ stream t.mem.rbsp t.bitPos 3 ∧ stream t.mem.rbsp t.bitPos 3 ≤ t.latch.arg1.toNat) := by
  decide

theorem test_witness_RangeCheckedCommands_uvlc :
    let s := checking [0x20] 0 3
    let t := checking [0x20] 4 3
    (s.readerBounds ∧ CodeAt s 2 ∧ t.readerBounds ∧ CodeAt t 2) ∧
      (s.latch.arg0.toNat ≤ codeNumber s 2 ∧ codeNumber s 2 ≤ s.latch.arg1.toNat) ∧
      ¬ (t.latch.arg0.toNat ≤ codeNumber t 2 ∧ codeNumber t 2 ≤ t.latch.arg1.toNat) := by
  unfold CodeAt
  decide

theorem test_witness_RangeCheckedCommands_svlc :
    let s := checking [0x28] 0xFFFFFFFE 0xFFFFFFFF
    let t := checking [0x28] 0 5
    (s.readerBounds ∧ CodeAt s 2 ∧ t.readerBounds ∧ CodeAt t 2) ∧
      (s.latch.arg0.toInt ≤ signedNumber (codeNumber s 2) ∧ signedNumber (codeNumber s 2) ≤ s.latch.arg1.toInt) ∧
      ¬ (t.latch.arg0.toInt ≤ signedNumber (codeNumber t 2) ∧ signedNumber (codeNumber t 2) ≤ t.latch.arg1.toInt) := by
  unfold CodeAt
  decide

theorem test_witness_TrailingBitsCommand :
    (reading [0xA5, 0x80] 8).readerBounds ∧ TrailAt (reading [0xA5, 0x80] 8) 8 ∧
    TrailAt (reading [0xA5, 0x0F] 15) 1 := by
  refine ⟨by decide, ⟨by decide, by decide, by decide, fun j h1 h2 => ?_⟩,
    ⟨by decide, by decide, by decide, fun j h1 h2 => ?_⟩⟩
  · have h : ∀ j < 8, 1 ≤ j →
        streamBit (reading [0xA5, 0x80] 8).mem.rbsp ((reading [0xA5, 0x80] 8).bitPos + j) = false := by
      decide
    exact h j h2 h1
  · omega

theorem test_witness_TrailingBitsCommand_empty :
    let s := reading [0xA5, 0x0F] 16
    s.readerBounds ∧ s.bitPos = s.streamLen := by
  decide

theorem test_witness_TrailingBitsCommand_stop :
    let s := reading [0xA5, 0x40] 8
    s.readerBounds ∧ s.bitPos < s.streamLen ∧ streamBit s.mem.rbsp s.bitPos = false := by
  decide

theorem test_witness_TrailingBitsCommand_align :
    let s := reading [0xA5, 0x81] 8
    s.readerBounds ∧ s.bitPos < s.streamLen ∧ 1 ≤ 7 ∧ 7 < 8 - s.bitPos % 8 ∧ streamBit s.mem.rbsp s.bitPos = true ∧
      (∀ i < 7, 1 ≤ i → streamBit s.mem.rbsp (s.bitPos + i) = false) ∧ streamBit s.mem.rbsp (s.bitPos + 7) = true := by
  decide

/-! ### The converter, the scanner, the framer -/

theorem test_witness_ConvertRangeCommand :
    let s := framing [0x40, 0x01, 0x00, 0x00, 0x03, 0x01, 0x80] 0 7
    s.latch.auLen.toNat ≤ s.params.auCap ∧ s.latch.arg0.toNat + s.latch.arg1.toNat ≤ s.latch.auLen.toNat ∧
      convert (s.mem.au.slice s.latch.arg0.toNat s.latch.arg1.toNat) false =
        .ok [0x40#8, 0x01#8, 0x00#8, 0x00#8, 0x01#8, 0x80#8] := by
  decide

theorem test_witness_ConvertRangeCommand_args :
    let s := framing [0x40, 0x01, 0x80] 2 2
    s.latch.auLen.toNat ≤ s.params.auCap ∧ s.latch.auLen.toNat < s.latch.arg0.toNat + s.latch.arg1.toNat := by
  decide

theorem test_witness_ConvertRangeCommand_error :
    let s := framing [0x26, 0x01, 0x00, 0x00, 0x03] 0 5
    s.latch.auLen.toNat ≤ s.params.auCap ∧ s.latch.arg0.toNat + s.latch.arg1.toNat ≤ s.latch.auLen.toNat ∧
      convert (s.mem.au.slice s.latch.arg0.toNat s.latch.arg1.toNat) false =
        .error { code := .eTrailingZero, value := 4#32 } := by
  decide

/-- The example of 95_test_vectors.md 1.4. -/
theorem test_witness_EmulationRoundTrip :
    [0#8, 0#8, 0#8, 1#8, 0#8, 0#8, 2#8, 0#8, 0#8, 3#8, 0x80#8].getLast? ≠ some 0#8 ∧
    escape 0 [0#8, 0#8, 0#8, 1#8, 0#8, 0#8, 2#8, 0#8, 0#8, 3#8, 0x80#8] =
      [0#8, 0#8, 3#8, 0#8, 1#8, 0#8, 0#8, 3#8, 2#8, 0#8, 0#8, 3#8, 3#8, 0x80#8] := by
  decide

/-- The conditions on a first byte after `00 00`, with the forms of 42_rbsp_converter.md R253-R256. -/
theorem test_witness_ConversionOutcomes :
    zeroRun 0 [0x26#8, 0#8, 0#8] = 2 ∧ escape 0 [0x26#8, 0#8, 0#8] = [0x26#8, 0#8, 0#8] ∧ (2#8).toNat < 3 ∧
      3 < (4#8).toNat ∧
      ([0x26#8, 0#8, 0#8] = [0x26#8] ++ List.replicate 2 0#8 ∧ [0x26#8].getLast? ≠ some 0#8) ∧
      ([0x26#8].getLast? ≠ some 0#8 ∧ [0x26#8, 0#8, 0#8].getLast? = some 0#8) := by
  decide

/-- Bytes of each of the three forms of `Obligations.ConversionOutcomes`. -/
theorem test_conversionOutcomes :
    convert [0x26#8, 0#8, 0#8, 2#8, 0x80#8] true = .error { code := .eEpbSmall, value := 2#32, min := 3#32 } ∧
    convert [0x26#8, 0#8, 0#8, 3#8, 4#8] true = .error { code := .eEpbLarge, value := 4#32, min := 4#32 } ∧
    convert [0x26#8, 0#8, 0#8, 3#8] false = .error { code := .eTrailingZero, value := 3#32 } := by
  decide

theorem test_witness_ConvertedLength :
    convert [0x26#8, 0x01#8, 0#8, 0#8, 3#8] true = .ok [0x26#8, 0x01#8] ∧ 2 ≤ [0x26#8, 0x01#8].length := by
  decide

theorem test_witness_ScanCommand :
    let s := framing [0, 0, 1, 0, 0, 1] 0 0
    s.latch.auLen.toNat ≤ s.params.auCap ∧
      [⟨3, 3, 3⟩, ⟨6, 6, 3⟩] = nalUnits (s.mem.au.slice 0 s.latch.auLen.toNat) ∧
      ([⟨3, 3, 3⟩, ⟨6, 6, 3⟩] : List NalUnit).length ≤ s.params.naltCap := by
  decide

theorem test_witness_TableFull :
    let s := { framing [0, 0, 1, 0, 0, 1] 0 0 with params := { Config.defaults with naltCap := 1 } }
    s.latch.auLen.toNat ≤ s.params.auCap ∧
      [⟨3, 3, 3⟩, ⟨6, 6, 3⟩] = nalUnits (s.mem.au.slice 0 s.latch.auLen.toNat) ∧
      s.params.naltCap < ([⟨3, 3, 3⟩, ⟨6, 6, 3⟩] : List NalUnit).length := by
  decide

theorem test_witness_AuTooLong :
    let s := { framing [0x40, 0x01, 0x80] 0 3 with params := { Config.defaults with auCap := 2 } }
    s.params.auCap < s.latch.auLen.toNat := by
  decide

theorem test_witness_PeekTypeCommand :
    nalUnits ((framing [0xAA] 0 0).mem.au.slice 0 1) = [] ∧
    nalUnits ((framing [0, 0, 1, 0x40] 0 0).mem.au.slice 0 4) = ⟨3, 4, 3⟩ :: [] ∧ 4 < 3 + 2 ∧
    nalUnits ((framing [0, 0, 1, 0x40, 0x01] 0 0).mem.au.slice 0 5) = ⟨3, 5, 3⟩ :: [] ∧ 3 + 2 ≤ 5 ∧
    (framing [0, 0, 1, 0x40, 0x01] 0 0).latch.auLen.toNat ≤ (framing [0, 0, 1, 0x40, 0x01] 0 0).params.auCap := by
  decide

theorem test_witness_StartCodeSplitting :
    let ps := [(true, [0x40#8, 0x01#8, 0xAA#8]), (false, [0x42#8, 0x01#8, 0x00#8, 0xBB#8])]
    let s := framing [0, 0, 0, 1, 0x40, 0x01, 0xAA, 0, 0, 1, 0x42, 0x01, 0x00, 0xBB] 0 0
    (∀ p ∈ ps, cleanPayload p.2) ∧ ps.length ≤ s.params.naltCap ∧ s.latch.auLen.toNat ≤ s.params.auCap ∧
      s.mem.au.slice 0 s.latch.auLen.toNat = joinUnits ps := by
  unfold cleanPayload
  decide

theorem test_witness_TableOrder :
    let b := [0#8, 0#8, 1#8, 0x40#8, 0#8, 0#8, 0#8, 0#8, 1#8, 0#8, 0#8]
    (nalUnits b).length = 2 ∧ (⟨3, 5, 3⟩ : NalUnit) ∈ nalUnits b ∧ (b.drop 6).take 3 = startCode false ∧
      (nalUnits b).getLast? = some ⟨9, 9, 4⟩ := by
  decide

theorem test_witness_LoadNalCommand :
    let s : State :=
      { framing [0, 0, 1, 0x02, 0x00, 0x00, 0x03, 0x01] 0 0 with
        nalCount := 1#32
        mem := { (framing [0, 0, 1, 0x02, 0x00, 0x00, 0x03, 0x01] 0 0).mem with
          nalt := .ofList 0 (tableWords [⟨3, 8, 3⟩]) } }
    s.latch.arg0.toNat = 0 ∧ 0 < s.nalCount.toNat ∧ (s.mem.naltWord 0 0).toNat = 3 ∧ (s.mem.naltWord 0 1).toNat = 8 ∧
      3 + 2 ≤ 8 ∧ decide ((s.mem.au.read (3 + 1)).toNat / 8 ≤ 11) = true ∧
      convert (s.mem.au.slice 3 (8 - 3)) true = .ok [0x02#8, 0x00#8, 0x00#8, 0x01#8] := by
  decide

theorem test_witness_LoadNalCommand_outcomes :
    (let s : State :=
      { framing [0, 0, 1, 0x40] 1 0 with
        nalCount := 1#32
        mem := { (framing [0, 0, 1, 0x40] 0 0).mem with
          nalt := .ofList 0 (tableWords [⟨3, 4, 3⟩]) } }
     s.latch.arg0.toNat = 1 ∧ s.nalCount.toNat ≤ 1) ∧
    (let s : State :=
      { framing [0, 0, 1, 0x40] 0 0 with
        nalCount := 1#32
        mem := { (framing [0, 0, 1, 0x40] 0 0).mem with
          nalt := .ofList 0 (tableWords [⟨3, 4, 3⟩]) } }
     s.latch.arg0.toNat = 0 ∧ 0 < s.nalCount.toNat ∧
      (s.mem.naltWord 0 1).toNat < (s.mem.naltWord 0 0).toNat + 2) := by
  decide

theorem test_witness_LoadNalCommand_conversion :
    let s : State :=
      { framing [0, 0, 1, 0x40, 0x01, 0x00, 0x00, 0x02] 0 0 with
        nalCount := 1#32
        mem := { (framing [0, 0, 1, 0x40, 0x01, 0x00, 0x00, 0x02] 0 0).mem with
          nalt := .ofList 0 (tableWords [⟨3, 8, 3⟩]) } }
    s.latch.arg0.toNat = 0 ∧ 0 < s.nalCount.toNat ∧ (s.mem.naltWord 0 0).toNat = 3 ∧ (s.mem.naltWord 0 1).toNat = 8 ∧
      decide ((s.mem.au.read (3 + 1)).toNat / 8 ≤ 11) = true ∧
      convert (s.mem.au.slice 3 (8 - 3)) true = .error { code := .eEpbSmall, value := 2#32, min := 4#32 } := by
  decide

theorem test_witness_DecodeAuCommand :
    let s := framing [0, 0, 1, 0x00, 0x01, 0x84] 0 0
    s.latch.auLen.toNat ≤ s.params.auCap ∧ [⟨3, 6, 3⟩] = nalUnits (s.mem.au.slice 0 s.latch.auLen.toNat) ∧
      ([⟨3, 6, 3⟩] : List NalUnit).length ≤ s.params.naltCap := by
  decide

theorem test_witness_ContinueCommand :
    continuing.mem.nalt.wf = true ∧
    (let s : State := { continuing with decNext := 2#32 }
     s.mem.nalt.wf = true ∧ s.nalCount.toNat ≤ s.decNext.toNat) := by
  decide

theorem test_witness_AbortCommand :
    continuing.mem.nalt.wf = true ∧ continuing.decNext.toNat ≤ 1 ∧ 1 < continuing.nalCount.toNat ∧
    0 < continuing.decNext.toNat ∧ continuing.nalCount.toNat ≤ 2 := by
  decide

/-- The reports of two units that `test_decodeAu` decodes: a stub, and a type that is reserved (43_scanner_framer.md
R296). -/
theorem test_unitReport :
    let s : State :=
      { framing [0x00, 0x00, 0x01, 0x00, 0x01, 0x84, 0x00, 0x00, 0x01, 0x00, 0xD1, 0x77] 0 0 with
        nalCount := 2#32
        mem := { (framing [0x00, 0x00, 0x01, 0x00, 0x01, 0x84, 0x00, 0x00, 0x01, 0x00, 0xD1, 0x77] 0 0).mem with
          nalt := .ofList 0 (tableWords [⟨3, 6, 3⟩, ⟨9, 12, 3⟩]) } }
    (s.unitReport 0).ending = .stub ∧ (s.unitReport 0).word2 (s.mem.naltWord 0 2) = 0x41040013#32 ∧
      (s.unitReport 1).ending = .outcome { code := .eNalTypeReserved, value := 26#32 } ∧
      (s.unitReport 1).word2 (s.mem.naltWord 1 2) = 0x1F074003#32 ∧ (s.unitReport 1).info 0#32 = 26#32 ∧
      ((s.unitReports 2).any UnitReport.setsErr) = true := by
  decide

theorem test_witness_HeaderCommand_underflow :
    (reading [0x00, 0x79] 1).streamLen - (reading [0x00, 0x79] 1).bitPos < 16 := by
  decide

/-- A header without an outcome, and one for each of the outcomes (95_test_vectors.md 2.7). -/
theorem test_witness_HeaderCommand :
    ∀ l ∈ [[0x00, 0x79], [0x38, 0x01], [0x00, 0x78], [0x00, 0x3A], [0x00, 0x09]],
      (reading l 0).readerBounds ∧ 16 ≤ (reading l 0).streamLen - (reading l 0).bitPos := by
  decide

/-! ### The SPS engine -/

theorem test_witness_ReadUops :
    let s := parsing [(1, 32)] [1, 2, 3, 4] 0
    s.readerBounds ∧ s.nextFits ∧ 1 ≤ s.bitsLeft ∧ (32#32).toNat ≤ 32 ∧ (32#32).toNat ≤ s.bitsLeft ∧
      32 = (s.getV 1#8).toNat ∧ 32 ≤ s.bitsLeft ∧ (0#32).toNat ≤ s.bitsLeft := by
  decide

theorem test_witness_ReadUops_code :
    let s : State := { parsing [] [0, 0, 0, 1, 0xFF, 0xFF, 0xFF, 0xFF] 0 with seqPc := 1022#32 }
    s.readerBounds ∧ s.nextFits ∧ CodeAt s 31 := by
  unfold CodeAt
  decide

theorem test_witness_CheckedReadUops :
    let s := parsing [(1, 5), (2, 5), (4, 3)] [0xA0] 0
    (s.readerBounds ∧ s.nextFits ∧ 3 ≤ 32 ∧ 3 ≤ s.bitsLeft ∧ 5 = stream s.mem.rbsp s.bitPos 3) ∧
      (s.getV 1#8).toNat ≤ 5 ∧ 5 ≤ (s.getV 2#8).toNat ∧ 3 = (3#32).toNat ∧ 3 = (s.getV 4#8).toNat := by
  decide

theorem test_witness_CheckedReadUops_code :
    let s := parsing [(1, 4), (2, 4)] [0x28] 0
    let t := parsing [(1, 0xFFFFFFFE), (2, 0xFFFFFFFE)] [0x28] 0
    (s.readerBounds ∧ s.nextFits ∧ CodeAt s 2 ∧ t.readerBounds ∧ t.nextFits ∧ CodeAt t 2) ∧
      ((s.getV 1#8).toNat ≤ codeNumber s 2 ∧ codeNumber s 2 ≤ (s.getV 2#8).toNat) ∧
      (t.getV 1#8).toInt ≤ signedNumber (codeNumber t 2) ∧ signedNumber (codeNumber t 2) ≤ (t.getV 2#8).toInt := by
  unfold CodeAt
  decide

theorem test_witness_ReadUopOutcomes :
    let s := parsing [(1, 0), (2, 6), (4, 33), (5, 9), (6, 3)] [0xE0] 0
    let t := parsing [] [0xE0] 8
    (s.readerBounds ∧ s.parsing ∧ parsingUnit.parsing) ∧ (32 < (33#32).toNat ∧ 32 < (s.getV 4#8).toNat) ∧
      ((9#32).toNat ≤ 32 ∧ s.bitsLeft < (9#32).toNat ∧ (s.getV 5#8).toNat ≤ 32 ∧ s.bitsLeft < (s.getV 5#8).toNat) ∧
      (t.parsing ∧ (1#32).toNat ≤ 32 ∧ t.bitsLeft < (1#32).toNat) ∧
      (3 ≤ 32 ∧ 3 ≤ s.bitsLeft ∧ 7 = stream s.mem.rbsp s.bitPos 3 ∧
        ¬ ((s.getV 1#8).toNat ≤ 7 ∧ 7 ≤ (s.getV 2#8).toNat) ∧ 3 = (3#32).toNat ∧ 3 = (s.getV 6#8).toNat) := by
  decide

theorem test_witness_ReadUopOutcomes_code :
    let s := parsing [] [0, 0, 0, 0] 0
    let t := parsing [] [0, 0, 0, 0] 1
    let u := parsing [] [0, 0, 0, 1] 0
    (s.parsing ∧ 32 ≤ s.bitsLeft ∧ ∀ j < 32, streamBit s.mem.rbsp (s.bitPos + j) = false) ∧
      (t.parsing ∧ t.bitsLeft < 32 ∧ ∀ j < t.bitsLeft, streamBit t.mem.rbsp (t.bitPos + j) = false) ∧
      u.parsing ∧ 31 < 32 ∧ 31 < u.bitsLeft ∧ u.bitsLeft < 2 * 31 + 1 ∧
      (∀ j < 31, streamBit u.mem.rbsp (u.bitPos + j) = false) ∧ streamBit u.mem.rbsp (u.bitPos + 31) = true := by
  decide

theorem test_witness_ReadUopOutcomes_range :
    let s := parsing [(1, 5), (2, 9)] [0x28] 0
    s.readerBounds ∧ s.parsing ∧ CodeAt s 2 ∧
      ¬ ((s.getV 1#8).toNat ≤ codeNumber s 2 ∧ codeNumber s 2 ≤ (s.getV 2#8).toNat) ∧
      ¬ ((s.getV 1#8).toInt ≤ signedNumber (codeNumber s 2) ∧ signedNumber (codeNumber s 2) ≤ (s.getV 2#8).toInt) := by
  unfold CodeAt
  decide

theorem test_witness_ReadUopOutcomes_trail :
    let s := parsing [] [0xA5, 0x0F] 16
    let t := parsing [] [0xA5, 0x40] 8
    let u := parsing [] [0xA5, 0x81] 8
    (s.readerBounds ∧ s.parsing ∧ s.bitPos = s.streamLen) ∧
      (t.readerBounds ∧ t.parsing ∧ t.bitPos < t.streamLen ∧ streamBit t.mem.rbsp t.bitPos = false) ∧
      (u.readerBounds ∧ u.parsing ∧ u.bitPos < u.streamLen ∧ 1 ≤ 7 ∧ 7 < 8 - u.bitPos % 8 ∧
        streamBit u.mem.rbsp u.bitPos = true) ∧
      (∀ i < 7, 1 ≤ i → streamBit u.mem.rbsp (u.bitPos + i) = false) ∧
      streamBit u.mem.rbsp (u.bitPos + 7) = true := by
  decide

/-- The hypothesis of ArithmeticUops, LogicUops and CompareUops, at the last µop that has a next one. -/
theorem test_witness_ArithmeticUops :
    State.nextFits { parsing [(1, 5)] [] 0 with seqPc := 1022#32 } := by
  decide

theorem test_witness_DivisionUops :
    let s := parsing [(1, 7), (2, 1)] [] 0
    (s.getV 2#8 ≠ 0#32 ∧ s.nextFits) ∧ s.getV 0#8 = 0#32 ∧ s.parsing := by
  decide

theorem test_witness_LogicUops :
    (parsing [(1, 1), (2, 32)] [] 0).nextFits := by
  decide

theorem test_witness_CompareUops :
    (parsing [(1, 0xFFFFFFFF), (2, 1)] [] 0).nextFits := by
  decide

theorem test_witness_BranchUops :
    let s := parsing [(1, 0), (2, 1), (19, 2)] [] 0
    (1023 < s.params.ustoreCap ∧ 11 < s.params.ustoreCap ∧ 0 < s.params.ustoreCap) ∧
      1023 = (if s.getV 1#8 = 0#32 then s.seqPc.toNat + 1 + (1012#32).toNat else s.seqPc.toNat + 1) ∧
      11 = (if s.getV 2#8 = 0#32 then s.seqPc.toNat + 1 + (1012#32).toNat else s.seqPc.toNat + 1) ∧
      1023 = (if s.getV 2#8 ≠ 0#32 then s.seqPc.toNat + 1 + (1012#32).toNat else s.seqPc.toNat + 1) ∧
      1023 = s.seqPc.toNat + 1 + (1012#32).toNat ∧
      ((0 : Nat) : Int) = (if (s.getV 1#8 + 1#32).toNat < (s.getV 19#8).toNat then
        (s.seqPc.toNat : Int) - (10#32).toNat else s.seqPc.toNat + 1) ∧
      ((11 : Nat) : Int) = (if (s.getV 2#8 + 1#32).toNat < (s.getV 19#8).toNat then
        (s.seqPc.toNat : Int) - (10#32).toNat else s.seqPc.toNat + 1) := by
  decide

theorem test_witness_NextPcOutOfRange :
    let s := parsing [(1, 0), (2, 2)] [] 0
    let t : State := { parsing [(1, 0), (2, 2)] [] 0 with seqPc := 1023#32 }
    (s.parsing ∧ t.parsing ∧ s.params.ustoreCap ≤ 1024 ∧ t.params.ustoreCap ≤ 1024) ∧
      1024 = s.seqPc.toNat + 1 + (1013#32).toNat ∧
      1024 = (if s.getV 1#8 = 0#32 then s.seqPc.toNat + 1 + (1013#32).toNat else s.seqPc.toNat + 1) ∧
      1024 = (if t.getV 2#8 = 0#32 then t.seqPc.toNat + 1 + (1013#32).toNat else t.seqPc.toNat + 1) ∧
      1024 = (if s.getV 2#8 ≠ 0#32 then s.seqPc.toNat + 1 + (1013#32).toNat else s.seqPc.toNat + 1) ∧
      1024 = (if t.getV 1#8 ≠ 0#32 then t.seqPc.toNat + 1 + (1013#32).toNat else t.seqPc.toNat + 1) := by
  decide

theorem test_witness_NextPcOutOfRange_loop :
    let s := parsing [(1, 0), (2, 2)] [] 0
    let t : State := { parsing [(1, 0), (2, 2)] [] 0 with seqPc := 1023#32 }
    s.parsing ∧ t.parsing ∧
      (-1 : Int) = (if (s.getV 1#8 + 1#32).toNat < (s.getV 2#8).toNat then (s.seqPc.toNat : Int) - (11#32).toNat
        else s.seqPc.toNat + 1) ∧
      (1024 : Int) = (if (t.getV 2#8 + 1#32).toNat < (t.getV 2#8).toNat then (t.seqPc.toNat : Int) - (11#32).toNat
        else t.seqPc.toNat + 1) ∧ (t.params.ustoreCap : Int) ≤ 1024 := by
  decide

/-- STR at the last µop: not a branch, and it goes on where the next µop exists. -/
theorem test_witness_NextPcOutOfRange_sequential :
    let t : State := { parsing [(3, 7)] [] 0 with seqPc := 1023#32 }
    let r : State := { t with params := { t.params with ustoreCap := t.seqPc.toNat + 2 }, engine := .parseSps }
    t.parsing ∧ t.params.ustoreCap ≤ t.seqPc.toNat + 1 ∧
      (match encode (.str 3#8 0#8 5#32) with
        | .command _ => False
        | .uop w => (w.extractLsb' 56 8).toNat ∉ [0x30, 0x31, 0x32, 0x33, 0x7F]) ∧
      ∃ w, exec (.str 3#8 0#8 5#32) r = .next w ∧ w.engine = .parseSps := by
  refine ⟨by decide, by decide, ?_, _, rfl, by decide⟩
  show ((uopWord 0x40#8 0#8 3#8 0#8 5#32).extractLsb' 56 8).toNat ∉ _
  decide

theorem test_witness_RecordUops :
    let s := parsing [(1, 23), (2, 24)] [] 0
    (1023 = (1000#32).toNat + (s.getV 1#8).toNat ∧ 1023 < s.params.recCap ∧ s.nextFits ∧
        s.mem.record.wf = true ∧ s.mem.recordWr.wf = true) ∧
      s.parsing ∧ s.params.recCap ≤ (1000#32).toNat + (s.getV 2#8).toNat := by
  decide

theorem test_witness_CheckUops :
    let s := parsing [(1, 1)] [] 0
    s.nextFits ∧ s.getV 1#8 ≠ 0#32 ∧ s.parsing ∧ s.getV 2#8 = 0#32 := by
  decide

theorem test_witness_QueryUops :
    let s := parsing [] [0xA5, 0x80] 8
    s.nextFits ∧ s.readerBounds ∧ MoreData (parsing [] [0xA5, 0x80] 7) ∧ ¬ MoreData s ∧ TrailAt s 8 := by
  have hz : ∀ k < 16, 8 < k → streamBit (parsing [] [0xA5, 0x80] 8).mem.rbsp k = false := by decide
  have hb : (parsing [] [0xA5, 0x80] 8).bitPos = 8 := by decide
  refine ⟨by decide, by decide, ⟨8, by decide, by decide, by decide⟩, ?_, by decide, by decide, by decide,
    fun j h1 h2 => ?_⟩
  · rintro ⟨k, h1, h2, h3⟩
    rw [hb] at h1
    rw [hz k h2 h1] at h3
    exact absurd h3 (by decide)
  · rw [hb]
    exact hz _ (by omega) (by omega)

theorem test_witness_EndUop :
    (parsing [] [] 0).engine = .parseSps ∧ parsingUnit.engine = .decodeUnit ∧ parsingUnit.mem.nalt.wf = true ∧
    0 = parsingUnit.curNal.toNat := by
  decide

theorem test_witness_UnitOutcomes :
    parsingUnit.engine = .decodeUnit ∧ parsingUnit.mem.nalt.wf = true ∧ parsingUnit.CursorInv ∧
    0 = parsingUnit.curNal.toNat ∧ parsingUnit.getV 0#8 = 0#32 ∧ 0 < 1 ∧ 1 < parsingUnit.nalCount.toNat := by
  exact ⟨by decide, by decide, fun _ => by decide, by decide, by decide, by decide, by decide⟩

/-- A failed CHK inside DECODE_AU: the unit 0 gets E_SPS_CHECK with the µop's index, and the loop goes on with the unit 1,
a stub (43_scanner_framer.md R296). -/
theorem test_unit_check_fails :
    let s : State := { parsingUnit with
      mem := { parsingUnit.mem with au := bytes [0, 0, 1, 0x00, 0x79, 0, 0, 1, 0x00, 0x01] } }
    ∃ t, exec (.chk 2#8 0x57494454#32) s = .next t ∧
      (t.block, t.errFlag, t.decNext) = (.idle, true, 2#32) ∧
      (t.mem.naltWord 0 2, t.mem.naltWord 0 3) = (0x1D000003#32, 10#32) ∧
      (t.mem.naltWord 1 2, t.mem.naltWord 1 3) = (0x41040013#32, 0#32) := by
  exact ⟨_, rfl, by decide, by decide, by decide⟩

/-! ### The rules over the whole machine -/

theorem test_witness_ParametersFixed :
    ∃ t, step (parsing [] [] 0) = .next t := by
  exact step_answers _

theorem test_witness_BlockLeavesInputs :
    ∃ t, exec .scanAu (framing [0, 0, 1, 0x40] 0 0) = .next t ∧ Instr.scanAu ≠ .reset := by
  exact ⟨_, rfl, by decide⟩

theorem test_witness_ForwardPass :
    let s : State := (parsing [] [0xA5] 8).placeUop 0x0101000000000000#64
    s.engine = .parseSps ∧ s.readerBounds ∧ ∃ t, step s = .next t := by
  exact ⟨rfl, by decide, step_answers _⟩

theorem test_witness_ParseTerminates :
    let s : State := { parsing [] [0xA5] 8 with stepCount := 1048576#32 }
    s.ControlInv ∧ s.engine = .parseSps := by
  exact ⟨⟨by decide, fun _ => rfl, by decide⟩, rfl⟩

theorem test_witness_DecodeTerminates :
    parsingUnit.ControlInv ∧ parsingUnit.engine = .decodeUnit := by
  exact ⟨⟨by decide, fun _ => rfl, by decide⟩, rfl⟩

theorem test_witness_MemoryInvariant :
    let s : State := { continuing with engine := .off, inputs := [.blockTurn] }
    s.MemoryInv ∧ ∃ t, step s = .next t := by
  exact ⟨by
    unfold State.MemoryInv
    decide, step_answers _⟩

theorem test_witness_FramingInvariant :
    parsingUnit.FramingInv ∧ ∃ t, step parsingUnit = .next t := by
  exact ⟨⟨by decide, ⟨by decide, by decide, by decide⟩, fun _ => by decide,
    ⟨by decide, by decide, by decide, by decide, by decide, by decide, by decide⟩⟩, step_answers _⟩

theorem test_witness_ControlInvariant :
    parsingUnit.ControlInv ∧ ∃ t, step parsingUnit = .next t := by
  exact ⟨⟨by decide, fun _ => rfl, by decide⟩, step_answers _⟩

end Sys2Proof.Tests
end

section
/-!
PROOFS. The bit reader (41_bit_reader.md). `Reader.Holds` says what BR_POS, BR_NHB and BR_HELD hold in terms of one bit
position; refilling and shifting out keep it, whatever the number of refill bytes (R210, R211). The reads of a list of
widths consume consecutive bit strings, so that their values are the parts of one (R206).
-/

namespace Sys2Proof.Machine

open Shapes (readAll)

/-! ### The held bits -/

theorem heldBits_toNat (b : Bank 8) (q : Nat) {n : Nat} (h : n ≤ 64) :
    (heldBits b q n).toNat = stream b q n * 2 ^ (64 - n) := by
  refine (BitVec.toNat_ofNat _ 64).trans (Nat.mod_eq_of_lt ?_)
  calc stream b q n * 2 ^ (64 - n) < 2 ^ n * 2 ^ (64 - n) :=
        Nat.mul_lt_mul_of_pos_right (stream_lt b q n) (by positivity)
    _ = 2 ^ 64 := by rw [← Nat.pow_add, Nat.add_sub_cancel' h]

/-- The top bits of the held bits are the first bits of the stream. -/
theorem topBits_heldBits (b : Bank 8) (q : Nat) {m n : Nat} (h : m ≤ n) (hn : n ≤ 64) :
    topBits (heldBits b q n) m = stream b q m := by
  obtain ⟨d, rfl⟩ := Nat.exists_eq_add_of_le h
  unfold topBits
  rw [heldBits_toNat b q hn, stream_add, show 64 - m = d + (64 - (m + d)) by omega, Nat.pow_add,
    Nat.mul_div_mul_right _ _ (by positivity), Nat.mul_comm, Nat.mul_add_div (by positivity),
    Nat.div_eq_of_lt (stream_lt b (q + m) d), Nat.add_zero]

/-- Below the held bits the register is 0. -/
theorem heldBits_mod (b : Bank 8) (q : Nat) {n : Nat} (h : n ≤ 64) :
    (heldBits b q n).toNat % 2 ^ (64 - n) = 0 := by
  rw [heldBits_toNat b q h, Nat.mul_mod_left]

/-- Shifting the first held bits out leaves the held bits after them. -/
theorem heldBits_shiftLeft (b : Bank 8) (q : Nat) {m n : Nat} (h : m ≤ n) (hn : n ≤ 64) :
    heldBits b q n <<< m = heldBits b (q + m) (n - m) := by
  obtain ⟨d, rfl⟩ := Nat.exists_eq_add_of_le h
  apply BitVec.eq_of_toNat_eq
  have hd := heldBits_toNat b (q + m) (n := d) (by omega)
  have hlt := (heldBits b (q + m) d).isLt
  have hsplit : stream b q (m + d) * 2 ^ (64 - (m + d)) * 2 ^ m =
      stream b (q + m) d * 2 ^ (64 - d) + 2 ^ 64 * stream b q m := by
    rw [stream_add, show 64 - d = (64 - (m + d)) + m by omega,
      show (2 : Nat) ^ 64 = 2 ^ d * (2 ^ (64 - (m + d)) * 2 ^ m) by
        rw [← Nat.pow_add, ← Nat.pow_add]; congr 1; omega, Nat.pow_add]
    ring
  rw [BitVec.toNat_shiftLeft, Nat.shiftLeft_eq, heldBits_toNat b q hn, hsplit, Nat.add_mul_mod_self_left, ← hd,
    Nat.add_sub_cancel_left, Nat.mod_eq_of_lt hlt]

/-- A register whose top bits are the next of the stream, zeros below, is their held bits (10_state.md R58). -/
theorem eq_heldBits {held : BitVec 64} {b : Bank 8} {q n : Nat} (hn : n ≤ 64) (htop : topBits held n = stream b q n)
    (hzero : held.toNat % 2 ^ (64 - n) = 0) : held = heldBits b q n := by
  apply BitVec.eq_of_toNat_eq
  unfold topBits at htop
  rw [heldBits_toNat b q hn, ← htop, Nat.div_mul_cancel (Nat.dvd_of_mod_eq_zero hzero)]

/-! ### The implementation registers at a bit position -/

/-- BR_POS, BR_NHB and BR_HELD hold the bits from position `q` on (10_state.md R58), whatever BR_BITPOS says: it lags
behind within a read (41_bit_reader.md R210). -/
structure Reader.Holds (r : Reader) (b : Bank 8) (q : Nat) : Prop where
  nhb_le : r.nhb.toNat ≤ 64
  position : q + r.nhb.toNat = 8 * r.pos.toNat
  held : r.held = heldBits b q r.nhb.toNat

theorem State.ReaderInv.holds {s : State} (h : s.ReaderInv) : s.reader.Holds s.mem.rbsp s.bitPos :=
  ⟨h.nhb_le, h.position, eq_heldBits h.nhb_le h.held h.zeros⟩

/-- Registers that hold the bits at BR_BITPOS satisfy R58. -/
theorem Reader.Holds.readerInv {s : State} {r : Reader} (h : r.Holds s.mem.rbsp r.bitPos.toNat)
    (hcap : r.rbspLen.toNat ≤ s.params.rbspCap) (hpos : r.pos.toNat ≤ r.rbspLen.toNat) :
    State.ReaderInv { s with reader := r } where
  len_le := hcap
  bitPos_le := by
    have := h.position
    change r.bitPos.toNat ≤ 8 * r.rbspLen.toNat
    omega
  pos_le := hpos
  nhb_le := h.nhb_le
  position := h.position
  held := by
    change topBits r.held _ = _
    rw [h.held]
    exact topBits_heldBits _ _ (Nat.le_refl _) h.nhb_le
  zeros := by
    change r.held.toNat % _ = 0
    rw [h.held]
    exact heldBits_mod _ _ h.nhb_le

theorem Reader.Holds.topBits_held {r : Reader} {b : Bank 8} {q n : Nat} (h : r.Holds b q) (hn : n ≤ r.nhb.toNat) :
    topBits r.held n = stream b q n := by
  rw [h.held, topBits_heldBits b q hn h.nhb_le]

@[simp] theorem Reader.refill_rbspLen (r : Reader) (b : Bank 8) (k : Nat) : (r.refill b k).rbspLen = r.rbspLen := rfl

theorem Reader.refill_nhb_toNat (r : Reader) (b : Bank 8) {k : Nat} (hk : k ≤ 8) :
    (r.refill b k).nhb.toNat = 8 * k :=
  (BitVec.toNat_ofNat _ 32).trans (Nat.mod_eq_of_lt (by omega))

theorem Reader.refill_pos_toNat {r : Reader} (b : Bank 8) {k : Nat} (h : r.pos.toNat + k < 2 ^ 32) :
    (r.refill b k).pos.toNat = r.pos.toNat + k :=
  (BitVec.toNat_ofNat _ 32).trans (Nat.mod_eq_of_lt h)

/-- A refill of any number of bytes holds the bits from BR_POS on (41_bit_reader.md R210). -/
theorem Reader.refill_holds {r : Reader} (b : Bank 8) {k : Nat} (hk : k ≤ 8) (h : r.pos.toNat + k < 2 ^ 32) :
    (r.refill b k).Holds b (8 * r.pos.toNat) where
  nhb_le := by rw [r.refill_nhb_toNat b hk]; omega
  position := by rw [r.refill_nhb_toNat b hk, refill_pos_toNat b h]; omega
  held := by rw [r.refill_nhb_toNat b hk]; rfl

@[simp] theorem Reader.shiftOut_syncPos_rbspLen (r : Reader) (n : Nat) :
    (r.shiftOut n).syncPos.rbspLen = r.rbspLen := rfl
@[simp] theorem Reader.shiftOut_syncPos_pos (r : Reader) (n : Nat) : (r.shiftOut n).syncPos.pos = r.pos := rfl

theorem Reader.shiftOut_syncPos_nhb_toNat (r : Reader) (n : Nat) :
    (r.shiftOut n).syncPos.nhb.toNat = r.nhb.toNat - n :=
  (BitVec.toNat_ofNat _ 32).trans (Nat.mod_eq_of_lt (Nat.lt_of_le_of_lt (Nat.sub_le _ _) r.nhb.isLt))

/-- After `n` held bits are shifted out, BR_BITPOS is the position of the next one. -/
theorem Reader.Holds.shiftOut_syncPos_bitPos {r : Reader} {b : Bank 8} {q n : Nat} (h : r.Holds b q)
    (hn : n ≤ r.nhb.toNat) (hpos : 8 * r.pos.toNat < 2 ^ 32) : (r.shiftOut n).syncPos.bitPos.toNat = q + n := by
  have hnhb : (r.shiftOut n).nhb.toNat = r.nhb.toNat - n := r.shiftOut_syncPos_nhb_toNat n
  have := h.position
  calc (word (8 * r.pos.toNat - (r.shiftOut n).nhb.toNat)).toNat
      = 8 * r.pos.toNat - (r.nhb.toNat - n) := by
        rw [hnhb, BitVec.toNat_ofNat, Nat.mod_eq_of_lt (by omega)]
    _ = q + n := by omega

theorem Reader.Holds.shiftOut_syncPos {r : Reader} {b : Bank 8} {q n : Nat} (h : r.Holds b q) (hn : n ≤ r.nhb.toNat) :
    (r.shiftOut n).syncPos.Holds b (q + n) where
  nhb_le := by
    have := h.nhb_le
    rw [r.shiftOut_syncPos_nhb_toNat]
    omega
  position := by
    have := h.position
    rw [r.shiftOut_syncPos_nhb_toNat, r.shiftOut_syncPos_pos]
    omega
  held := by
    rw [r.shiftOut_syncPos_nhb_toNat, ← heldBits_shiftLeft b q hn h.nhb_le, ← h.held]
    rfl

/-! ### The reference implementation of read (R210) -/

theorem Reader.readImpl_of_le {r : Reader} {n : Nat} (b : Bank 8) (k : Nat) (h : n ≤ r.nhb.toNat) :
    r.readImpl b k n = (topBits r.held n, (r.shiftOut n).syncPos) := if_pos h

theorem Reader.readImpl_of_lt {r : Reader} {n : Nat} (b : Bank 8) (k : Nat) (h : r.nhb.toNat < n) :
    r.readImpl b k n =
      (topBits r.held r.nhb.toNat * 2 ^ (n - r.nhb.toNat) +
          topBits (r.refill b k).held (n - r.nhb.toNat),
        ((r.refill b k).shiftOut (n - r.nhb.toNat)).syncPos) := if_neg (Nat.not_le.mpr h)

/-- What `read_impl(n)` does on registers that hold the bits from `q` on, with any refill that R210 allows: it returns
the next `n` bits, and its registers hold those after them, within the RBSP. -/
theorem Reader.Holds.readImpl {r : Reader} {b : Bank 8} {q k n : Nat} (h : r.Holds b q)
    (hlen : 8 * r.rbspLen.toNat < 2 ^ 32) (hpos : r.pos.toNat ≤ r.rbspLen.toNat) (hneed : n - r.nhb.toNat ≤ 8 * k)
    (hk : k ≤ 8) (hfit : r.pos.toNat + k ≤ r.rbspLen.toNat) :
    (r.readImpl b k n).1 = stream b q n ∧ (r.readImpl b k n).2.Holds b (q + n) ∧
      (r.readImpl b k n).2.bitPos.toNat = q + n ∧ (r.readImpl b k n).2.rbspLen = r.rbspLen ∧
      (r.readImpl b k n).2.pos.toNat ≤ r.rbspLen.toNat := by
  rcases Nat.lt_or_ge r.nhb.toNat n with hlt | hle
  · have hq := h.position
    obtain ⟨rest, rfl⟩ := Nat.exists_eq_add_of_le hlt.le
    rw [readImpl_of_lt b k hlt, Nat.add_sub_cancel_left, ← Nat.add_assoc]
    rw [Nat.add_sub_cancel_left] at hneed
    have hrefill : (r.refill b k).Holds b (q + r.nhb.toNat) := hq ▸ refill_holds b hk (by omega)
    have hrest : rest ≤ (r.refill b k).nhb.toNat := by rw [r.refill_nhb_toNat b hk]; exact hneed
    have hpos' : (r.refill b k).pos.toNat = r.pos.toNat + k := refill_pos_toNat b (by omega)
    refine ⟨?_, hrefill.shiftOut_syncPos hrest, hrefill.shiftOut_syncPos_bitPos hrest (by omega), by simp, ?_⟩
    · rw [h.topBits_held (Nat.le_refl _), hrefill.topBits_held hrest, stream_add]
    · rw [shiftOut_syncPos_pos, hpos']
      exact hfit
  · rw [readImpl_of_le b k hle]
    exact ⟨h.topBits_held hle, h.shiftOut_syncPos hle, h.shiftOut_syncPos_bitPos hle (by omega), by simp, hpos⟩

/-- Legal parameters keep the bit positions of the RBSP below 2^32 (00_scope.md R12, 10_state.md R56). -/
theorem State.ReaderInv.streamLen_lt {s : State} (h : s.ReaderInv) (hp : s.params.valid) : s.streamLen < 2 ^ 32 := by
  obtain ⟨⟨-, hau⟩, -⟩ := hp
  have : s.reader.rbspLen.toNat ≤ s.params.auCap := h.len_le
  unfold State.streamLen
  omega

/-- Settles O18: `read_impl` moves registers that hold the bits at BR_BITPOS to registers that hold those after the
read, on either path. -/
theorem pathEquivalence : Obligations.PathEquivalence := by
  intro s n k hp hinv _ _ hneed hk hfit
  obtain ⟨hval, hholds, hbit, hlen, hpos⟩ :=
    hinv.holds.readImpl (hinv.streamLen_lt hp) hinv.pos_le hneed hk hfit
  refine ⟨hval, Reader.Holds.readerInv ?_ ?_ ?_, hbit⟩
  · rw [hbit]; exact hholds
  · rw [hlen]; exact hinv.len_le
  · rw [hlen]; exact hpos

/-! ### Reads in a row (R206) -/

theorem readAll_cons_ok {s t u : State} {n y : Nat} {ns : List Nat} {x : Word} (h : s.read n = .ok x t)
    (h' : readAll t ns = some (y, u)) : readAll s (n :: ns) = some (x.toNat * 2 ^ ns.sum + y, u) := by
  simp [readAll, h, h']

/-- Reads of widths that fit the bits left return the next bits of the stream as one number and consume them. -/
theorem readAll_ok (ns : List Nat) {s : State} (hb : s.readerBounds) (hw : ∀ n ∈ ns, n ≤ 32)
    (hsum : ns.sum ≤ s.bitsLeft) :
    ∃ t, readAll s ns = some (stream s.mem.rbsp s.bitPos ns.sum, t) ∧ Consumed s t ns.sum := by
  induction ns generalizing s with
  | nil => exact ⟨s, rfl, Consumed.refl s⟩
  | cons n ns ih =>
    rw [List.sum_cons] at hsum ⊢
    obtain ⟨hn, hns⟩ := List.forall_mem_cons.mp hw
    obtain ⟨t, hread, ht⟩ := State.read_ok hb hn (by omega)
    obtain ⟨u, hrest, hu⟩ := ih (ht.bounds hb (by omega)) hns (by rw [ht.bitsLeft]; omega)
    have hmem : t.mem.rbsp = s.mem.rbsp := congrArg Memory.rbsp ht.mem
    refine ⟨u, ?_, ht.trans hu⟩
    rw [readAll_cons_ok hread hrest, word_stream_toNat _ _ hn, hmem, ht.2.2, stream_add]

/-- Settles O17: the reads of `readAll_ok` from position 0, of widths that use up the RBSP. -/
theorem bitExactness : Obligations.BitExactness := by
  intro s ns hstart hlen hw hsum
  have hb : s.readerBounds := ⟨by omega, hlen⟩
  obtain ⟨t, hread, ht⟩ := readAll_ok ns hb hw (by unfold State.bitsLeft; omega)
  obtain ⟨-, -, hpos⟩ := ht
  rw [hsum, hstart] at hread
  exact ⟨t, hread, by rw [hpos, hstart, hsum, Nat.zero_add]⟩

end Sys2Proof.Machine
end

section
/-!
PROOFS. The RBSP converter (42_rbsp_converter.md). The loop of `convert` undoes `escape`: it drops each inserted 0x03 and
copies every other byte, with the same run of zero bytes on both sides, so that after the emulation-prevented form of `p`
it has given `p` and stands at the run `zeroRun` (R259). The post-pass then has nothing to strip where `p` does not end
in 0 (R256).
-/

namespace Sys2Proof.Machine

/-! ### One byte of the emulation-prevented form -/

theorem escape_insert {b : Byte} (hb : b.toNat ≤ 3) (rest : List Byte) :
    escape 2 (b :: rest) = 3#8 :: b :: escape (if b = 0#8 then 1 else 0) rest := if_pos ⟨rfl, hb⟩

theorem escape_copy {z : Nat} {b : Byte} (h : ¬ (z = 2 ∧ b.toNat ≤ 3)) (rest : List Byte) :
    escape z (b :: rest) = b :: escape (if b = 0#8 then z + 1 else 0) rest := if_neg h

theorem zeroRun_insert (b : Byte) (rest : List Byte) :
    zeroRun 2 (b :: rest) = zeroRun (if b = 0#8 then 1 else 0) rest := rfl

theorem zeroRun_copy {z : Nat} {b : Byte} (h : ¬ (z = 2 ∧ b.toNat ≤ 3)) (rest : List Byte) :
    zeroRun z (b :: rest) = zeroRun (if b = 0#8 then z + 1 else 0) rest := by
  by_cases hb : b = 0#8
  · subst hb
    have hz : z ≠ 2 := fun hz => h ⟨hz, by decide⟩
    simp [zeroRun, hz]
  · simp [zeroRun, hb]

/-! ### One byte of the loop -/

/-- A 0x03 after `00 00` is dropped (42_rbsp_converter.md R252). -/
theorem unescape_drop (i : Nat) (rest : List Byte) :
    unescape 2 i false (3#8 :: rest) = unescape 0 (i + 1) true rest := rfl

/-- The byte after a dropped one is copied and begins a new run of zero bytes (42_rbsp_converter.md R253). -/
theorem unescape_afterDrop {b : Byte} (hb : b.toNat ≤ 3) (z i : Nat) (rest : List Byte) :
    unescape z i true (b :: rest) = (unescape (if b = 0#8 then 1 else 0) (i + 1) false rest).map (b :: ·) :=
  if_neg (Nat.not_lt.mpr hb)

/-- A byte that `escape` leaves alone is copied (42_rbsp_converter.md R251). -/
theorem unescape_copy {z : Nat} {b : Byte} (hz : z ≤ 2) (h : ¬ (z = 2 ∧ b.toNat ≤ 3)) (i : Nat) (rest : List Byte) :
    unescape z i false (b :: rest) = (unescape (if b = 0#8 then z + 1 else 0) (i + 1) false rest).map (b :: ·) := by
  have hsmall : ¬ (2 ≤ z ∧ b.toNat < 3) := by omega
  have hdrop : ¬ (z = 2 ∧ b.toNat = 3) := by omega
  simp [unescape, hsmall, hdrop]

/-- Bytes copied one after the other. -/
theorem map_append_map_cons (b : Byte) (p : List Byte) (e : Except Raise (List Byte)) :
    (e.map (p ++ ·)).map (b :: ·) = e.map (b :: p ++ ·) := by
  cases e <;> rfl

/-! ### The emulation-prevented form -/

/-- A copied byte keeps the run of zero bytes of `escape` at most 2: only a 0x00 lengthens it, and one after `00 00` is
not copied but follows an insertion. -/
theorem copiedRun_le_two {z : Nat} {b : Byte} (hz : z ≤ 2) (h : ¬ (z = 2 ∧ b.toNat ≤ 3)) :
    (if b = 0#8 then z + 1 else 0) ≤ 2 := by
  split
  next hb =>
    have : z ≠ 2 := fun hz => h ⟨hz, by rw [hb]; decide⟩
    omega
  next => omega

/-- The loop gives back the bytes of an emulation-prevented form and goes on with what follows it, from the run of zero
bytes at its end (42_rbsp_converter.md R259). -/
theorem unescape_escape_append (p tail : List Byte) {z : Nat} (hz : z ≤ 2) (i : Nat) :
    unescape z i false (escape z p ++ tail) =
      (unescape (zeroRun z p) (i + (escape z p).length) false tail).map (p ++ ·) := by
  induction p generalizing z i with
  | nil => exact (congrFun Except.map_id _).symm
  | cons b rest ih =>
    by_cases h : z = 2 ∧ b.toNat ≤ 3
    · obtain ⟨rfl, hb⟩ := h
      have hrun : (if b = 0#8 then 1 else 0) ≤ 2 := by split <;> omega
      have hoffset : ∀ n, i + 1 + 1 + n = i + (n + 1 + 1) := by omega
      rw [escape_insert hb, zeroRun_insert, List.cons_append, List.cons_append, unescape_drop, unescape_afterDrop hb,
        ih hrun, map_append_map_cons, List.length_cons, List.length_cons, hoffset]
    · have hoffset : ∀ n, i + 1 + n = i + (n + 1) := by omega
      rw [escape_copy h, zeroRun_copy h, List.cons_append, unescape_copy hz h, ih (copiedRun_le_two hz h),
        map_append_map_cons, List.length_cons, hoffset]

theorem unescape_escape (p : List Byte) : unescape 0 0 false (escape 0 p) = .ok p := by
  have h := unescape_escape_append p [] (Nat.zero_le 2) 0
  rw [List.append_nil] at h
  exact h.trans (congrArg Except.ok (List.append_nil p))

/-- The post-pass changes nothing where the last byte is not 0 (42_rbsp_converter.md R256). -/
theorem postPass_eq_ok (vcl : Bool) {out : List Byte} (h : out.getLast? ≠ some 0#8) : postPass vcl out = .ok out := by
  cases vcl with
  | true => exact congrArg Except.ok (dropTrailingZeros_eq_self h)
  | false => exact if_neg h

/-- Settles O23: the loop gives the bytes back, by induction on them, and the post-pass keeps them. -/
theorem emulationRoundTrip : Obligations.EmulationRoundTrip := by
  intro p vcl hlast
  unfold convert
  rw [unescape_escape]
  exact postPass_eq_ok vcl hlast

end Sys2Proof.Machine
end

section
/-!
PROOFS. The start-code scanner (43_scanner_framer.md). No start code begins within a clean payload, whatever follows it:
a code's bytes before its last are 0, so that one which reaches past the payload would need the payload's last byte to be
0. So the codes that `startCodes` finds in a join are those that were joined, and the units they frame are the payloads
(R289).
-/

namespace Sys2Proof.Machine

open Host (Outcome)

/-! ### The length check (R281) -/

/-- Settles O28: each of the commands begins with the length check, and E_AU_TOO_LONG is of class C. -/
theorem auTooLong : Obligations.AuTooLong := by
  intro s hlen i hi
  have hcheck : s.auTooLong = true := State.auTooLong_true hlen
  have hexec : exec i s = .next (s.endWith s.auTooLongRaise noPc) := by
    simp only [List.mem_cons, List.not_mem_nil, or_false] at hi
    rcases hi with rfl | rfl | rfl | rfl | rfl <;> exact congrArg Outcome.next (if_pos hcheck)
  exact ⟨_, hexec, s.endWith_failsIdle noPc ((Code.setsErr_eq _).mpr (.inl Code.cls_eAuTooLong))⟩

/-! ### Clean payloads -/

theorem cleanPayload.tail {b : Byte} {p : List Byte} (h : cleanPayload (b :: p)) : cleanPayload p := by
  obtain ⟨hpattern, hlast⟩ := h
  refine ⟨fun x hx hin => hpattern x hx (hin.trans (List.suffix_cons b p).isInfix), ?_⟩
  cases p with
  | nil => exact nofun
  | cons c p => rwa [List.getLast?_cons_cons] at hlast

/-- A clean payload does not begin with `00 00` and a byte of a start code, whatever follows it. -/
theorem cleanPayload.append_ne {b x : Byte} {p : List Byte} (h : cleanPayload (b :: p)) (hx : x ∈ [0#8, 1#8, 2#8])
    (tail r : List Byte) : b :: p ++ tail ≠ 0#8 :: 0#8 :: x :: r := by
  obtain ⟨hpattern, hlast⟩ := h
  intro heq
  match p with
  | [] =>
    obtain ⟨rfl, -⟩ := List.cons.inj heq
    exact hlast rfl
  | [c] =>
    simp only [List.cons_append, List.cons.injEq] at heq
    obtain ⟨-, rfl, -⟩ := heq
    exact hlast rfl
  | c :: d :: p =>
    simp only [List.cons_append, List.cons.injEq] at heq
    obtain ⟨rfl, rfl, rfl, -⟩ := heq
    exact hpattern d hx ⟨[], p, rfl⟩

theorem cleanPayload.isCode4_append {b : Byte} {p : List Byte} (h : cleanPayload (b :: p)) (tail : List Byte) :
    isCode4 (b :: p ++ tail) = false := by
  rw [Bool.eq_false_iff, Ne, isCode4_iff]
  exact fun ⟨r, heq⟩ => h.append_ne (by decide) tail _ heq

theorem cleanPayload.isCode3_append {b : Byte} {p : List Byte} (h : cleanPayload (b :: p)) (tail : List Byte) :
    isCode3 (b :: p ++ tail) = false := by
  rw [Bool.eq_false_iff, Ne, isCode3_iff]
  exact fun ⟨r, heq⟩ => h.append_ne (by decide) tail r heq

/-! ### The start codes of a join -/

/-- The scan passes over a clean payload without a match. -/
theorem startCodes_cleanPayload_append {p : List Byte} (h : cleanPayload p) (tail : List Byte) (o : Nat) :
    startCodes o 0 (p ++ tail) = startCodes (o + p.length) 0 tail := by
  induction p generalizing o with
  | nil => rfl
  | cons b p ih =>
    have h4 := h.isCode4_append tail
    have h3 := h.isCode3_append tail
    rw [List.cons_append] at h4 h3 ⊢
    rw [startCodes_cons, h4, h3, if_neg Bool.false_ne_true, if_neg Bool.false_ne_true, ih h.tail, List.length_cons]
    congr 1
    omega

/-- A start code is found, with its own length: `00 00 01` does not begin a 4-byte code. -/
theorem startCodes_startCode_append (four : Bool) (bytes : List Byte) (o : Nat) :
    startCodes o 0 (startCode four ++ bytes) =
      (o, (startCode four).length) :: startCodes (o + (startCode four).length) 0 bytes := by
  cases four with
  | true => rfl
  | false =>
    have h4 : isCode4 (0#8 :: 0#8 :: 1#8 :: bytes) = false := by
      rw [Bool.eq_false_iff, Ne, isCode4_iff]
      exact nofun
    have h3 : isCode3 (0#8 :: 0#8 :: 1#8 :: bytes) = true := (isCode3_iff _).mpr ⟨bytes, rfl⟩
    exact (startCodes_cons o _ _).trans ((if_neg (Bool.eq_false_iff.mp h4)).trans (if_pos h3))

theorem startCodes_joinUnits_cons {four : Bool} {p : List Byte} (h : cleanPayload p) (rest : List (Bool × List Byte))
    (o : Nat) :
    startCodes o 0 (joinUnits ((four, p) :: rest)) =
      (o, (startCode four).length) ::
        startCodes (o + (startCode four).length + p.length) 0 (joinUnits rest) := by
  rw [joinUnits, List.append_assoc, startCodes_startCode_append, startCodes_cleanPayload_append h]

/-! ### The units of a join (R289) -/

theorem unitsFrom_cons (o : Nat) (four : Bool) (p : List Byte) (rest : List (Bool × List Byte)) :
    unitsFrom o ((four, p) :: rest) =
      ⟨o + (startCode four).length, o + (startCode four).length + p.length, (startCode four).length⟩ ::
        unitsFrom (o + (startCode four).length + p.length) rest := rfl

@[simp] theorem unitsFrom_length (o : Nat) (ps : List (Bool × List Byte)) : (unitsFrom o ps).length = ps.length := by
  induction ps generalizing o with
  | nil => rfl
  | cons q rest ih => exact congrArg Nat.succ (ih _)

/-- A final unit that does not end in 0 is not trimmed. -/
theorem trimmedEnd_of_getLast? {bytes p : List Byte} {start : Nat} (hdrop : bytes.drop start = p)
    (hlast : p.getLast? ≠ some 0#8) : trimmedEnd bytes start = start + p.length := by
  rw [trimmedEnd, hdrop, dropTrailingZeros_eq_self hlast]

/-- The codes found in a join that stands at offset `o` of the bytes and ends them frame its payloads. -/
theorem frameUnits_startCodes_joinUnits {bytes : List Byte} {ps : List (Bool × List Byte)}
    (hclean : ∀ p ∈ ps, cleanPayload p.2) {o : Nat} (hdrop : bytes.drop o = joinUnits ps) :
    frameUnits bytes (startCodes o 0 (joinUnits ps)) = unitsFrom o ps := by
  induction ps generalizing o with
  | nil => rfl
  | cons q rest ih =>
    obtain ⟨four, p⟩ := q
    obtain ⟨hp, hrest⟩ := List.forall_mem_cons.mp hclean
    have hpayload : bytes.drop (o + (startCode four).length) = p ++ joinUnits rest := by
      rw [← List.drop_drop, hdrop, joinUnits, List.append_assoc, List.drop_left]
    have hnext : bytes.drop (o + (startCode four).length + p.length) = joinUnits rest := by
      rw [← List.drop_drop, hpayload, List.drop_left]
    have htail := ih hrest hnext
    rw [startCodes_joinUnits_cons hp, unitsFrom_cons]
    cases rest with
    | nil =>
      have hend := trimmedEnd_of_getLast? (hpayload.trans (List.append_nil p)) hp.2
      exact congrArg (fun stop => [NalUnit.mk _ stop _]) hend
    | cons r rest =>
      obtain ⟨hr, -⟩ := List.forall_mem_cons.mp hrest
      rw [startCodes_joinUnits_cons hr] at htail ⊢
      exact congrArg (List.cons _) htail

theorem nalUnits_joinUnits {ps : List (Bool × List Byte)} (hclean : ∀ p ∈ ps, cleanPayload p.2) :
    nalUnits (joinUnits ps) = unitsFrom 0 ps := frameUnits_startCodes_joinUnits hclean rfl

/-- SC_LEN of an entry (10_state.md R73). -/
theorem entryWord2_scLen (n : Nat) : (entryWord2 n).extractLsb' 0 4 = BitVec.ofNat 4 n :=
  BitVec.extractLsb'_append_eq_right

/-- Settles O30: the units of the join are its payloads, and SCAN_AU writes the table of the units. -/
theorem startCodeSplitting : Obligations.StartCodeSplitting := by
  intro s ps hclean hcap hlen hjoin
  have hunits : nalUnits s.auBytes = unitsFrom 0 ps := by
    unfold State.auBytes
    rw [hjoin, nalUnits_joinUnits hclean]
  have hcount := unitsFrom_length 0 ps
  rcases execScanAu_cases s with ⟨hlong, -⟩ | ⟨-, hfull, -⟩ | ⟨-, -, t, hscanned, hexec⟩
  · omega
  · rw [hunits] at hfull
    omega
  · rw [hunits] at hscanned
    refine ⟨_, hexec, ?_, hcount, fun k hk => ?_⟩
    · exact (congrArg State.nalCount hscanned.eq).trans (congrArg word hcount)
    · obtain ⟨hstart, hstop, hword2, -⟩ := hscanned.word k hk
      exact ⟨hstart, hstop, (congrArg (BitVec.extractLsb' 0 4) hword2).trans (entryWord2_scLen _)⟩

end Sys2Proof.Machine
end

section
/-!
PROOFS. The Exp-Golomb round trip (45_vlc.md R363). The bits of `v + 1` say where the code's 1 lies: with
`l = log2 (v + 1)`, bit `l` of `v + 1` is 1 and the bits above it, the first `l` of the `2·l + 1` read, are 0.
-/

namespace Sys2Proof.Machine

/-- `2·l + 1` bits at BR_BITPOS that spell a number of `l + 1` bits are a code of `l` leading zeros. -/
theorem CodeAt.of_stream_bounds {s : State} {l : Nat} (hl : l < 32) (hfit : 2 * l + 1 ≤ s.bitsLeft)
    (hlow : 2 ^ l ≤ stream s.mem.rbsp s.bitPos (2 * l + 1))
    (hhigh : stream s.mem.rbsp s.bitPos (2 * l + 1) < 2 ^ (l + 1)) : CodeAt s l := by
  have hbit : ∀ j ≤ l, streamBit s.mem.rbsp (s.bitPos + j) =
      (stream s.mem.rbsp s.bitPos (2 * l + 1)).testBit (2 * l - j) := by
    intro j hj
    rw [stream_testBit _ _ (by omega), show 2 * l + 1 - 1 - (2 * l - j) = j by omega]
  refine ⟨hl, hfit, fun j hj => ?_, ?_⟩
  · rw [hbit j hj.le]
    exact Nat.testBit_lt_two_pow (hhigh.trans_le (Nat.pow_le_pow_right (by decide) (by omega)))
  · rw [hbit l (Nat.le_refl l), show 2 * l - l = l by omega]
    exact Nat.testBit_of_two_pow_le_and_two_pow_add_one_gt hlow hhigh

/-- The code of a number, as R363 writes it, is a code of the machine. -/
theorem CodeAt.of_stream_eq {s : State} {v : Nat} (hv : v < 2 ^ 32 - 1) (hfit : 2 * Nat.log 2 (v + 1) + 1 ≤ s.bitsLeft)
    (hcode : stream s.mem.rbsp s.bitPos (2 * Nat.log 2 (v + 1) + 1) = v + 1) : CodeAt s (Nat.log 2 (v + 1)) := by
  refine CodeAt.of_stream_bounds (Nat.log_lt_of_lt_pow (Nat.succ_ne_zero v) (by omega)) hfit ?_ ?_
  · rw [hcode]
    exact Nat.pow_log_le_self 2 (Nat.succ_ne_zero v)
  · rw [hcode]
    exact Nat.lt_pow_succ_log_self (by decide) (v + 1)

/-- Settles O19: the bits are a code, and the number `ue()` returns for it is one less than the number they spell. -/
theorem expGolombRoundTrip : Obligations.ExpGolombRoundTrip := by
  intro s v hv hfit hcode hb
  obtain ⟨t, hue, ht⟩ := State.ue_ok hb (CodeAt.of_stream_eq hv hfit hcode)
  have hnumber : codeNumber s (Nat.log 2 (v + 1)) = v := Nat.sub_eq_of_eq_add hcode
  rw [hnumber] at hue
  exact ⟨t, hue, ht⟩

end Sys2Proof.Machine
end

section
/-!
PROOFS. The arithmetic and logic µops (46_sps_engine.md R420-R443). Each of them ends with one write to a variable. The
write reaches every read of V even when no next µop exists: F_UOP_PC is of class F, and a parse that ends so starts no
other, which would clear V. What is left of each µop is an equation of words.
-/

namespace Sys2Proof.Machine

open Shapes (setsV binaryUop unaryUop bit)

/-! ### One write to a variable -/

theorem State.abortUnits_v (s : State) (j n : Nat) : (s.abortUnits j n).v = s.v := by
  induction n generalizing s j with
  | zero => rfl
  | succ n ih => exact ih _ _

/-- A class F outcome ends a parse with V kept, inside DECODE_AU too (43_scanner_framer.md R298). -/
theorem State.endParse_v_of_fatal (s : State) {r : Raise} (h : r.code.cls = .fatal) : (s.endParse r).v = s.v := by
  have hend : (s.endWith r s.seqPc).v = s.v := by rw [s.endWith_frame]
  cases he : s.engine with
  | off => unfold State.endParse; rw [he]; exact hend
  | parseSps => rw [State.endParse_parseSps he]; exact hend
  | decodeUnit =>
    rw [State.endParse_decodeUnit he]
    obtain ⟨u, hu, ⟨-, hhalt⟩ | ⟨hnot, -⟩⟩ := s.endUnitParse_cases r
    · rw [hhalt]
      refine (u.abortUnits_v _ _).trans ?_
      rw [hu]
      rfl
    · exact absurd h hnot

theorem State.goto_v (s : State) (n : Int) : (s.goto n).v = s.v := by
  rcases s.goto_cases n with ⟨-, -, h⟩ | ⟨-, h⟩
  · rw [h]
  · rw [h]
    exact s.endParse_v_of_fatal Code.cls_fUopPc

/-- The end of a µop that writes one variable, whether or not the next µop exists (10_state.md R60). -/
theorem State.writeBack_setsV (s : State) (d : BitVec 8) (x : Word) : setsV s (s.writeBack d x) d x := fun i =>
  (State.getV_congr ((s.setV d x).goto_v _) i).trans (s.getV_setV d x i)

/-- What a µop that writes `x` to V[d] does, when the next µop exists and when it does not. -/
theorem exec_writeBack {i : Instr} {s : State} {d : BitVec 8} {x : Word} (h : exec i s = .next (s.writeBack d x)) :
    (∃ t, exec i s = .next t ∧ setsV s t d x) ∧ (s.nextFits → ∃ t, exec i s = .next t ∧ WritesV s t d x) :=
  ⟨⟨_, h, s.writeBack_setsV d x⟩, fun hfits => ⟨_, h, State.writeBack_ok d x hfits⟩⟩

/-- A format DAB µop that the opcode map lists and that writes `g V[A] V[B]`, which is `f V[A] V[B]`. For a given opcode the
rows of the opcode map and of the dispatch hold by `rfl`, their default proof. -/
theorem binaryUop_of_writeBack {op : BitVec 8} {i : BitVec 8 → BitVec 8 → BitVec 8 → Instr} {f g : Word → Word → Word}
    (hvalue : ∀ x y, g x y = f x y)
    (hdecode : ∀ d a b imm, decodeOp op d a b imm = .ok (i d a b) := by intros; rfl)
    (hexec : ∀ (s : State) d a b, exec (i d a b) s = .next (s.writeBack d (g (s.getV a) (s.getV b))) := by
      intros; rfl) :
    binaryUop op i f := by
  intro s d a b imm
  have h := hexec s d a b
  rw [hvalue] at h
  exact ⟨(decodeUop_uopWord op d a b imm).trans (hdecode d a b imm), exec_writeBack h⟩

/-- A format DA µop that the opcode map lists and that writes `g V[A]`, which is `f V[A]`, likewise. -/
theorem unaryUop_of_writeBack {op : BitVec 8} {i : BitVec 8 → BitVec 8 → Instr} {f g : Word → Word}
    (hvalue : ∀ x, g x = f x)
    (hdecode : ∀ d a b imm, decodeOp op d a b imm = .ok (i d a) := by intros; rfl)
    (hexec : ∀ (s : State) d a, exec (i d a) s = .next (s.writeBack d (g (s.getV a))) := by intros; rfl) :
    unaryUop op i f := by
  intro s d a b imm
  have h := hexec s d a
  rw [hvalue] at h
  exact ⟨(decodeUop_uopWord op d a b imm).trans (hdecode d a b imm), exec_writeBack h⟩

/-! ### The values of the logic µops -/

theorem word_toNat (x : Word) : word x.toNat = x := (BitVec.ofNat_toNat 32 x).trans (BitVec.setWidth_eq x)

/-- SHL as arithmetic (R429). -/
theorem shl_value (x y : Word) :
    (if 32 ≤ y.toNat then 0#32 else x <<< y.toNat) = if 32 ≤ y.toNat then 0#32 else word (x.toNat * 2 ^ y.toNat) := by
  congr 1
  apply BitVec.eq_of_toNat_eq
  rw [BitVec.toNat_shiftLeft, Nat.shiftLeft_eq, BitVec.toNat_ofNat]

/-- SHR as arithmetic (R430). -/
theorem shr_value (x y : Word) :
    (if 32 ≤ y.toNat then 0#32 else x >>> y.toNat) = if 32 ≤ y.toNat then 0#32 else word (x.toNat / 2 ^ y.toNat) := by
  congr 1
  apply BitVec.eq_of_toNat_eq
  rw [BitVec.toNat_ushiftRight, Nat.shiftRight_eq_div_pow, BitVec.toNat_ofNat,
    Nat.mod_eq_of_lt ((Nat.div_le_self _ _).trans_lt x.isLt)]

/-- MAXU compares unsigned (R434). -/
theorem maxu_value (x y : Word) : (if y.toNat ≤ x.toNat then x else y) = word (max x.toNat y.toNat) := by
  by_cases h : y.toNat ≤ x.toNat
  · rw [if_pos h, max_eq_left h, word_toNat]
  · rw [if_neg h, max_eq_right (Nat.le_of_not_le h), word_toNat]

/-- MINU compares unsigned (R435). -/
theorem minu_value (x y : Word) : (if x.toNat ≤ y.toNat then x else y) = word (min x.toNat y.toNat) := by
  by_cases h : x.toNat ≤ y.toNat
  · rw [if_pos h, min_eq_left h, word_toNat]
  · rw [if_neg h, min_eq_right (Nat.le_of_not_le h), word_toNat]

/-- The search of CLOG2 finds the least exponent, which is at most 32 for a word (R436). -/
theorem ceilLog2_eq_clog {n : Nat} (h : n < 2 ^ 32) : ceilLog2 n = Nat.clog 2 n := by
  unfold ceilLog2
  by_cases hone : n ≤ 1
  · rw [if_pos hone, Nat.clog_of_right_le_one hone]
  · have hle : ∀ k, n ≤ 2 ^ k ↔ Nat.clog 2 n ≤ k := fun k => (Nat.clog_le_iff_le_pow (by decide)).symm
    have hfind : ((List.range 33).find? fun k => decide (n ≤ 2 ^ k)) = some (Nat.clog 2 n) := by
      refine List.find?_range_eq_some.mpr ⟨?_, ?_, fun k hk => ?_⟩
      · exact decide_eq_true ((hle _).mpr (Nat.le_refl _))
      · exact List.mem_range.mpr (Nat.lt_succ_of_le ((hle 32).mp h.le))
      · rw [decide_eq_false (fun hn => Nat.not_le.mpr hk ((hle k).mp hn))]
        rfl
    rw [if_neg hone, hfind, Option.getD_some]

/-- Settles O43: each µop writes its value, for every amount, operand and SEQ_PC. -/
theorem logicUops : Obligations.LogicUops :=
  ⟨binaryUop_of_writeBack shl_value,
    binaryUop_of_writeBack shr_value,
    binaryUop_of_writeBack (fun _ _ => rfl),
    binaryUop_of_writeBack (fun _ _ => rfl),
    binaryUop_of_writeBack (fun _ _ => rfl),
    binaryUop_of_writeBack maxu_value,
    binaryUop_of_writeBack minu_value,
    unaryUop_of_writeBack (fun x => congrArg word (ceilLog2_eq_clog x.isLt))⟩

/-! ### The values of the arithmetic µops -/

theorem sub_value (x y : Word) : x - y = BitVec.ofInt 32 ((x.toNat : Int) - y.toNat) := by
  apply BitVec.eq_of_toInt_eq
  rw [BitVec.toInt_sub, BitVec.toInt_ofInt, BitVec.toInt_eq_toNat_bmod, BitVec.toInt_eq_toNat_bmod,
    Int.bmod_sub_bmod, Int.sub_bmod_bmod]

theorem mul_value (x y : Word) : x * y = word (x.toNat * y.toNat) := by
  apply BitVec.eq_of_toNat_eq
  rw [BitVec.toNat_mul, BitVec.toNat_ofNat]

/-- Settles O41: addition, subtraction and multiplication of words are those of numbers, reduced to 32 bits. -/
theorem arithmeticUops : Obligations.ArithmeticUops := by
  refine ⟨fun s d a b imm => ?_,
    unaryUop_of_writeBack (fun _ => rfl),
    binaryUop_of_writeBack BitVec.add_def,
    binaryUop_of_writeBack sub_value,
    binaryUop_of_writeBack mul_value⟩
  have hldi : exec (.ldi d imm) s = .next (s.writeBack d imm) := rfl
  have haddi : exec (.addi d a imm) s = .next (s.writeBack d (s.getV a + imm)) := rfl
  rw [BitVec.add_def] at haddi
  obtain ⟨hldiSets, hldiWrites⟩ := exec_writeBack hldi
  obtain ⟨haddiSets, haddiWrites⟩ := exec_writeBack haddi
  exact ⟨decodeUop_uopWord .., decodeUop_uopWord .., hldiSets, haddiSets,
    fun hfits => ⟨hldiWrites hfits, haddiWrites hfits⟩⟩

/-! ### The values of the comparison µops -/

theorem flagWord_decide (p : Prop) [Decidable p] : flagWord (decide p) = bit p := by
  by_cases h : p <;> simp [flagWord, bit, h]

/-- Settles O44: the µop's truth value, as a variable holds it, is 1 or 0; `s32` is the signed reading. -/
theorem compareUops : Obligations.CompareUops :=
  ⟨binaryUop_of_writeBack (fun _ _ => flagWord_decide _),
    binaryUop_of_writeBack (fun _ _ => flagWord_decide _),
    binaryUop_of_writeBack (fun _ _ => flagWord_decide _),
    binaryUop_of_writeBack (fun _ _ => flagWord_decide _),
    binaryUop_of_writeBack (fun _ _ => flagWord_decide _),
    binaryUop_of_writeBack (fun _ _ => flagWord_decide _),
    unaryUop_of_writeBack (fun _ => flagWord_decide _)⟩

end Sys2Proof.Machine
end

section
/-!
PROOFS. Encodings (30_encoding.md). A word is decoded by its fields, so that each instruction's row of the opcode map is
read off; a word is illegal by its OPC, its RSV and its form, or by its OP (R151-R153, R162, R163).
-/

namespace Sys2Proof

open Shapes (commandOpcs uopOps)

/-! ### The word of an instruction -/

theorem decode_encode_of_command {i : Instr} {opc : BitVec 8} {n : BitVec 6} (hword : encode i = .command (cmdWord opc n))
    (hrow : decodeOpc opc n = .ok i) : decode (encode i) = .ok i := by
  rw [hword]
  exact (decodeCmd_cmdWord opc n).trans hrow

theorem decode_encode_of_uop {i : Instr} {op d a b : BitVec 8} {imm : Word} (hword : encode i = .uop (uopWord op d a b imm))
    (hrow : decodeOp op d a b imm = .ok i) : decode (encode i) = .ok i := by
  rw [hword]
  exact (decodeUop_uopWord op d a b imm).trans hrow

/-- The bit count of a form N command fits CMD[5:0] (30_encoding.md R152). -/
theorem bitCount_toNat {n : Nat} (h : n < 64) : (BitVec.ofNat 6 n).toNat = n :=
  (BitVec.toNat_ofNat n 6).trans (Nat.mod_eq_of_lt h)

/-- Settles O1: each instruction's row of its opcode map, on the fields that its word holds. -/
theorem decodeEncode : Obligations.DecodeEncode := by
  intro i hwf
  cases i
  case brRead n | brPeek n | readCode n | readCodeR n =>
    have hn : (BitVec.ofNat 6 n).toNat = n := bitCount_toNat (of_decide_eq_true hwf)
    exact decode_encode_of_command rfl (congrArg Except.ok (congrArg _ hn))
  case convertRange vcl => cases vcl <;> exact decode_encode_of_command rfl rfl
  case rduvr d a b w =>
    exact decode_encode_of_uop rfl (congrArg (fun x => Except.ok (Instr.rduvr d a b x)) (immVar_setWidth w))
  case nop | reset | continueAu | abortAu | scanAu | peekAuType | decodeAu | loadNal | parseNalHeader | brBitsLeft |
      brBitsToAlign | readFlag | readUvlc | readSvlc | readUvlcR | readSvlcR | moreRbspData | rbspTrailingBits | parseSps =>
    exact decode_encode_of_command rfl rfl
  all_goals exact decode_encode_of_uop rfl rfl

/-- Settles O2: the fields of each word and their row, by evaluation. -/
theorem decodeWords : Obligations.DecodeWords := by
  unfold Obligations.DecodeWords
  decide

/-! ### Illegal words -/

theorem formZ_error_iff (n : BitVec 6) (i : Instr) : (∃ e, formZ n i = .error e) ↔ n ≠ 0#6 := by
  unfold formZ
  by_cases h : n = 0#6 <;> simp [h]

/-- Form V leaves CMD[0] free (30_encoding.md R152). -/
theorem formV_error_iff (n : BitVec 6) (i : Bool → Instr) : (∃ e, formV n i = .error e) ↔ n.extractLsb' 1 5 ≠ 0#5 := by
  have hfree : n.extractLsb' 1 5 = 0#5 ↔ n = 0#6 ∨ n = 1#6 := by
    revert n
    decide
  unfold formV
  by_cases h0 : n = 0#6
  · simp [h0]
  · by_cases h1 : n = 1#6
    · simp [h1]
    · simp [h0, h1, hfree]

/-- The rows of the command opcode map that hold no instruction for a value of N (30_encoding.md R151, R152). -/
theorem decodeOpc_error_iff (opc : BitVec 8) (n : BitVec 6) :
    (∃ e, decodeOpc opc n = .error e) ↔ opc.toNat ∉ commandOpcs ∨ (opc.toNat = 0x21 ∧ n.extractLsb' 1 5 ≠ 0#5) ∨
      (opc.toNat ∉ [0x21, 0x30, 0x31, 0x39, 0x3C] ∧ n ≠ 0#6) := by
  unfold decodeOpc
  split
  case h_25 =>
    have hunlisted : opc.toNat ∉ commandOpcs := by
      simp only [commandOpcs, List.mem_cons, List.not_mem_nil, or_false, not_or]
      tauto
    exact ⟨fun _ => .inl hunlisted, fun _ => ⟨_, rfl⟩⟩
  all_goals rename_i hopc; rw [hopc]; simp [commandOpcs, formZ_error_iff, formV_error_iff]

theorem decodeCmd_error_iff (w : Word) :
    (∃ e, decodeCmd w = .error e) ↔ cmdRsv w ≠ 0#18 ∨ ∃ e, decodeOpc (cmdOpc w) (cmdN w) = .error e := by
  unfold decodeCmd
  by_cases h : cmdRsv w = 0#18 <;> simp [h]

/-- Every row of the µop opcode map holds an instruction, whatever the other fields (30_encoding.md R162, R163). -/
theorem decodeOp_error_iff (op d a b : BitVec 8) (imm : Word) :
    (∃ e, decodeOp op d a b imm = .error e) ↔ op.toNat ∉ uopOps := by
  unfold decodeOp
  split
  case h_47 =>
    have hunlisted : op.toNat ∉ uopOps := by
      simp only [uopOps, List.mem_cons, List.not_mem_nil, or_false, not_or]
      tauto
    exact ⟨fun _ => hunlisted, fun _ => ⟨_, rfl⟩⟩
  all_goals rename_i hop; rw [hop]; simp [uopOps]

/-- Settles O3: a command word by its RSV and its row, a µop word by its OP. -/
theorem illegalWords : Obligations.IllegalWords := by
  refine ⟨fun w => ?_, fun w => decodeOp_error_iff _ _ _ _ _⟩
  have hv : (cmdN w).extractLsb' 1 5 = w.extractLsb' 1 5 := by
    unfold cmdN
    ext i hi
    simp [BitVec.getElem_extractLsb']
  rw [decodeCmd_error_iff, decodeOpc_error_iff, hv]
  exact or_left_comm

end Sys2Proof
end

section
/-!
PROOFS. What each ending of a command and of a parse keeps: the host's part of the state and the canonical form of the
memories (`Keeps`), and the framing invariant, whose cursor part is needed only inside DECODE_AU and at a pause, so that
everything else keeps `State.Sound`.
-/

namespace Sys2Proof.Machine

open Host (Outcome)

/-! ### What belongs to the host -/

/-- The parameters, the registers and memories that only the host writes, and the events still to come (10_state.md R36,
R46, R50, R51, R70, R74). -/
structure HostPart where
  params : Config.Params
  ops    : Operands
  timing : Timing
  irqEn  : BitVec 3
  cmd    : Word
  inputs : List HostEvent
  au     : Bank 8
  ustore : Bank 32

def State.hostPart (s : State) : HostPart :=
  ⟨s.params, s.ops, s.timing, s.irqEn, s.cmd, s.inputs, s.mem.au, s.mem.ustore⟩

/-- The block has left the host's part alone, and every memory canonical. -/
structure Keeps (s t : State) : Prop where
  host   : t.hostPart = s.hostPart
  mem_wf : s.mem.wf = true → t.mem.wf = true

theorem Keeps.refl (s : State) : Keeps s s := ⟨rfl, id⟩

theorem Keeps.trans {s t u : State} (h : Keeps s t) (h' : Keeps t u) : Keeps s u :=
  ⟨h'.host.trans h.host, fun w => h'.mem_wf (h.mem_wf w)⟩

theorem Keeps.params {s t : State} (h : Keeps s t) : t.params = s.params := congrArg HostPart.params h.host

/-! ### END -/

theorem State.finishParse_decodeUnit {s : State} (h : s.engine = .decodeUnit) :
    s.finishParse = { s.dispose s.curNal.toNat .oSpsOk 0#32 with spsValid := true, result := s.curNal }.pause := by
  unfold State.finishParse
  rw [h]
  rfl

theorem State.finishParse_of_ne {s : State} (h : s.engine ≠ .decodeUnit) :
    s.finishParse = { s with spsValid := true, result := s.stepCount }.complete := by
  unfold State.finishParse
  split
  · exact absurd ‹_› h
  · rfl
  · rfl

/-! ### What each ending keeps -/

theorem Keeps.endWith (s : State) (r : Raise) (pc : Word) : Keeps s (s.endWith r pc) := by
  rw [s.endWith_frame]
  exact ⟨rfl, id⟩

theorem Keeps.completeResult (s : State) (x : Word) : Keeps s { s with result := x }.complete := ⟨rfl, id⟩

theorem Keeps.mapWord2 (s : State) (k : Nat) (f : Word → Word) : Keeps s (s.mapWord2 k f) :=
  ⟨rfl, fun w => Memory.wf_setNaltWord w k 2 _⟩

theorem Keeps.dispose (s : State) (k : Nat) (c : Code) (info : Word) : Keeps s (s.dispose k c info) :=
  ⟨rfl, fun w => Memory.wf_setNaltWord (Memory.wf_setNaltWord w k 2 _) k 3 info⟩

theorem Keeps.abortUnits (s : State) (j n : Nat) : Keeps s (s.abortUnits j n) := by
  induction n generalizing s j with
  | zero => exact .refl s
  | succ n ih => exact (Keeps.mapWord2 s j _).trans (ih _ _)

theorem Keeps.abortUnitsInfo (s : State) (j n : Nat) : Keeps s (s.abortUnitsInfo j n) := by
  induction n generalizing s j with
  | zero => exact .refl s
  | succ n ih => exact (Keeps.dispose s j _ _).trans (ih _ _)

theorem Keeps.haltUnits (s : State) : Keeps s s.haltUnits :=
  (Keeps.abortUnits s _ _).trans ⟨rfl, id⟩

theorem Keeps.startSps (s : State) (c : Engine) : Keeps s (s.startSps c) := ⟨rfl, Memory.wf_clearRecord⟩

theorem Keeps.unitDone {s t : State} (h : UnitDone s t) : Keeps s t where
  host := by rw [h.eq]; rfl
  mem_wf := by
    intro w
    obtain ⟨hau, hrbsp, hnalt, hustore, hrecord, hrecordWr⟩ := (Memory.wf_iff _).mp w
    have hrbsp' := h.rbsp_wf hrbsp
    have hnalt' := h.nalt_wf hnalt
    rw [h.eq]
    exact (Memory.wf_iff _).mpr ⟨hau, hrbsp', hnalt', hustore, hrecord, hrecordWr⟩

theorem Keeps.resume (s : State) : Keeps s s.resume := by
  have hturn : ∀ (_ : Nat) (u t : State), Keeps s u → UnitDone u t → Keeps s t :=
    fun _ _ _ h hd => h.trans (.unitDone hd)
  rcases State.resumeLoop_induct (P := fun _ u => Keeps s u) (n := s.unitsLeft) hturn (.refl s) with ⟨u, hu, h⟩ | ⟨_, u, t, hu, hd, _, h⟩
  · unfold State.resume
    rw [h]
    exact hu.trans (.completeResult u _)
  · unfold State.resume
    rw [h]
    exact (hu.trans (.unitDone hd)).trans (.startSps t _)

theorem Keeps.endUnitParse (s : State) (r : Raise) : Keeps s (s.endUnitParse r) := by
  obtain ⟨u, hu, hend⟩ := s.endUnitParse_cases r
  have hs : Keeps s u := by
    rw [hu]
    exact (Keeps.dispose s _ _ _).trans ⟨rfl, id⟩
  rcases hend with ⟨-, h⟩ | ⟨-, h⟩ <;> rw [h]
  · exact hs.trans (.haltUnits u)
  · exact hs.trans (.resume u)

theorem Keeps.endParse (s : State) (r : Raise) : Keeps s (s.endParse r) := by
  unfold State.endParse
  split
  · exact .endUnitParse s r
  · exact .endWith s r _
  · exact .endWith s r _

theorem Keeps.goto (s : State) (n : Int) : Keeps s (s.goto n) := by
  rcases s.goto_cases n with ⟨-, -, h⟩ | ⟨-, h⟩ <;> rw [h]
  · exact ⟨rfl, id⟩
  · exact .endParse s _

theorem Keeps.finishParse (s : State) : Keeps s s.finishParse := by
  by_cases he : s.engine = .decodeUnit
  · rw [State.finishParse_decodeUnit he]
    exact (Keeps.dispose s _ _ _).trans ⟨rfl, id⟩
  · rw [State.finishParse_of_ne he]
    exact ⟨rfl, id⟩

theorem Keeps.uopFrame {s u : State} (h : UopFrame s u) : Keeps s u where
  host := by rw [h.eq]; rfl
  mem_wf := by
    intro w
    obtain ⟨hau, hrbsp, hnalt, hustore, hrecord, hrecordWr⟩ := (Memory.wf_iff _).mp w
    have hrecord' := h.record_wf hrecord
    have hrecordWr' := h.recordWr_wf hrecordWr
    rw [h.eq]
    exact (Memory.wf_iff _).mpr ⟨hau, hrbsp, hnalt, hustore, hrecord', hrecordWr'⟩

theorem Keeps.uopEnds {s t : State} (h : UopEnds s t) : Keeps s t := by
  obtain ⟨u, hu, ⟨n, rfl⟩ | ⟨r, rfl⟩ | rfl⟩ := h
  · exact (Keeps.uopFrame hu).trans (.goto u n)
  · exact (Keeps.uopFrame hu).trans (.endParse u r)
  · exact (Keeps.uopFrame hu).trans (.finishParse u)

/-! ### The framing invariant without the cursor -/

/-- Legal parameters, a sound NAL table and a sound bit reader: the framing invariant but for the cursor, which matters
only while an SPS of DECODE_AU is parsed or the block is paused. -/
structure State.Sound (s : State) : Prop where
  params : s.params.valid
  table  : s.TableInv
  reader : s.ReaderInv

theorem State.FramingInv.sound {s : State} (h : s.FramingInv) : s.Sound := ⟨h.params, h.table, h.reader⟩

/-- The table rests on NAL_COUNT, the parameters, and START and END of each entry. -/
theorem State.TableInv.congr {s t : State} (h : s.TableInv) (hp : t.params = s.params) (hc : t.nalCount = s.nalCount)
    (hw : ∀ k i, i < 2 → t.mem.naltWord k i = s.mem.naltWord k i) : t.TableInv := by
  have hstart : ∀ k, t.unitStart k = s.unitStart k := fun k => hw k 0 (by decide)
  have hend : ∀ k, t.unitEnd k = s.unitEnd k := fun k => hw k 1 (by decide)
  refine ⟨?_, fun k hk => ?_, fun k hk => ?_⟩
  · rw [hc, hp]; exact h.count_le
  · rw [hc] at hk
    rw [hstart, hend]
    exact h.start_le k hk
  · rw [hc] at hk
    rw [hend, hp]
    exact h.end_le k hk

theorem State.Sound.congr {s t : State} (h : s.Sound) (hp : t.params = s.params) (hc : t.nalCount = s.nalCount)
    (hr : t.reader = s.reader) (hm : t.mem.rbsp = s.mem.rbsp)
    (hw : ∀ k i, i < 2 → t.mem.naltWord k i = s.mem.naltWord k i) : t.Sound :=
  ⟨by rw [hp]; exact h.params, h.table.congr hp hc hw, h.reader.congr hr hm hp⟩

/-- Away from a parse inside DECODE_AU and from a pause, the cursor is free. -/
theorem State.Sound.framingInv {s : State} (h : s.Sound) (he : s.engine ≠ .decodeUnit) (hb : s.block ≠ .paused) :
    s.FramingInv :=
  ⟨h.params, h.table, fun hcase => (hcase.elim he hb).elim, h.reader⟩

/-! ### Words of the table that the dispositions leave alone -/

theorem State.mapWord2_naltWord_of_ne (s : State) (k : Nat) (f : Word → Word) {j i : Nat} (hi : i < 2) :
    (s.mapWord2 k f).mem.naltWord j i = s.mem.naltWord j i :=
  Memory.naltWord_setNaltWord_of_ne (by omega) _

theorem State.dispose_naltWord_range (s : State) (k : Nat) (c : Code) (info : Word) {j i : Nat} (hi : i < 2) :
    (s.dispose k c info).mem.naltWord j i = s.mem.naltWord j i :=
  s.dispose_naltWord_of_ne c info (by omega) (by omega)

theorem State.Sound.mapWord2 {s : State} (h : s.Sound) (k : Nat) (f : Word → Word) : (s.mapWord2 k f).Sound :=
  h.congr rfl rfl rfl rfl fun _ _ hi => s.mapWord2_naltWord_of_ne k f hi

theorem State.Sound.dispose {s : State} (h : s.Sound) (k : Nat) (c : Code) (info : Word) : (s.dispose k c info).Sound :=
  h.congr rfl rfl rfl rfl fun _ _ hi => s.dispose_naltWord_range k c info hi

theorem State.Sound.abortUnits {s : State} (h : s.Sound) (j n : Nat) : (s.abortUnits j n).Sound := by
  induction n generalizing s j with
  | zero => exact h
  | succ n ih => exact ih (h.mapWord2 j _) _

theorem State.Sound.abortUnitsInfo {s : State} (h : s.Sound) (j n : Nat) : (s.abortUnitsInfo j n).Sound := by
  induction n generalizing s j with
  | zero => exact h
  | succ n ih => exact ih (h.dispose j _ _) _

/-- A unit done leaves the reader sound when the unit lies in AU, as the table says. -/
theorem State.Sound.unitDone {s t : State} (h : s.Sound) (hd : UnitDone s t)
    (hlt : s.decNext.toNat < s.nalCount.toNat) : t.Sound where
  params := by rw [hd.eq]; exact h.params
  table := h.table.congr (by rw [hd.eq]) (by rw [hd.eq]) fun j i hi => hd.word j i (by omega) (by omega)
  reader := hd.reader h.params (h.table.end_le _ hlt)

/-! ### The framing invariant at each ending -/

theorem State.Sound.complete {s : State} (h : s.Sound) : s.complete.FramingInv :=
  State.Sound.framingInv (h.congr rfl rfl rfl rfl fun _ _ _ => rfl) nofun nofun

theorem State.Sound.halt {s : State} (h : s.Sound) : s.halt.FramingInv :=
  State.Sound.framingInv (h.congr rfl rfl rfl rfl fun _ _ _ => rfl) nofun nofun

theorem State.Sound.endWith {s : State} (h : s.Sound) (r : Raise) (pc : Word) : (s.endWith r pc).FramingInv := by
  have hrecord : (s.recordOutcome r pc).Sound := h.congr rfl rfl rfl rfl fun _ _ _ => rfl
  unfold State.endWith
  rcases (s.recordOutcome r pc).endByClass_cases r.code with ⟨-, he⟩ | ⟨-, he⟩ <;> rw [he]
  · exact hrecord.halt
  · exact hrecord.complete

theorem State.Sound.haltUnits {s : State} (h : s.Sound) : s.haltUnits.FramingInv := (h.abortUnits _ _).halt

theorem State.Sound.startSps {s : State} (h : s.Sound) (c : Engine) : (s.startSps c).Sound :=
  h.congr rfl rfl rfl rfl fun _ _ _ => rfl

/-- The unit loop: each unit it processes is of the table, and the one whose parse it starts is CUR_NAL
(43_scanner_framer.md R296). -/
theorem State.Sound.resume {s : State} (h : s.Sound) : s.resume.FramingInv := by
  have hturn : ∀ n (u t : State), (u.Sound ∧ n + 1 = u.unitsLeft) → UnitDone u t → t.Sound ∧ n = t.unitsLeft := by
    rintro n u t ⟨hu, hn⟩ hd
    unfold State.unitsLeft at hn ⊢
    have hlt : u.decNext.toNat < u.nalCount.toNat := by omega
    have hcount : t.nalCount = u.nalCount := by rw [hd.eq]
    refine ⟨hu.unitDone hd hlt, ?_⟩
    rw [hcount, hd.decNext hlt]
    omega
  unfold State.resume
  rcases State.resumeLoop_induct (P := fun n u => u.Sound ∧ n = u.unitsLeft) hturn ⟨h, rfl⟩ with
    ⟨u, ⟨hu, -⟩, he⟩ | ⟨n, u, t, ⟨hu, hn⟩, hd, -, he⟩ <;> rw [he]
  · exact State.Sound.complete (hu.congr rfl rfl rfl rfl fun _ _ _ => rfl)
  · unfold State.unitsLeft at hn
    have hlt : u.decNext.toNat < u.nalCount.toNat := by omega
    have ht := (hu.unitDone hd hlt).startSps .decodeUnit
    have hcur : t.curNal = u.decNext := by rw [hd.eq]
    have hcount : t.nalCount = u.nalCount := by rw [hd.eq]
    refine ⟨ht.params, ht.table, fun _ => ?_, ht.reader⟩
    rw [State.startSps_decNext, State.startSps_curNal, State.startSps_nalCount, hcur, hcount, hd.decNext hlt]
    omega

theorem State.Sound.endParse {s : State} (h : s.Sound) (r : Raise) : (s.endParse r).FramingInv := by
  unfold State.endParse
  split
  · obtain ⟨u, hu, hend⟩ := s.endUnitParse_cases r
    have hsound : u.Sound := by
      rw [hu]
      exact (h.dispose _ _ _).congr rfl rfl rfl rfl fun _ _ _ => rfl
    rcases hend with ⟨-, he⟩ | ⟨-, he⟩ <;> rw [he]
    · exact hsound.haltUnits
    · exact hsound.resume
  · exact h.endWith r _
  · exact h.endWith r _

theorem State.FramingInv.goto {s : State} (h : s.FramingInv) (n : Int) : (s.goto n).FramingInv := by
  rcases s.goto_cases n with ⟨-, -, he⟩ | ⟨-, he⟩ <;> rw [he]
  · obtain ⟨hp, ht, hr⟩ : State.Sound { s with seqPc := BitVec.ofInt 32 n } :=
      h.sound.congr rfl rfl rfl rfl fun _ _ _ => rfl
    exact ⟨hp, ht, h.cursor, hr⟩
  · exact h.sound.endParse _

/-- END inside DECODE_AU pauses with the cursor of the parse. -/
theorem State.FramingInv.finishParse {s : State} (h : s.FramingInv) : s.finishParse.FramingInv := by
  by_cases he : s.engine = .decodeUnit
  · rw [State.finishParse_decodeUnit he]
    have hpause : State.Sound { s.dispose s.curNal.toNat .oSpsOk 0#32 with spsValid := true, result := s.curNal }.pause :=
      (h.sound.dispose s.curNal.toNat .oSpsOk 0#32).congr rfl rfl rfl rfl fun _ _ _ => rfl
    exact ⟨hpause.params, hpause.table, fun _ => h.cursor (.inl he), hpause.reader⟩
  · rw [State.finishParse_of_ne he]
    exact State.Sound.complete (h.sound.congr rfl rfl rfl rfl fun _ _ _ => rfl)

/-- The effects of a µop before it ends keep the framing invariant. -/
theorem State.FramingInv.uopFrame {s u : State} (h : s.FramingInv) (hu : UopFrame s u) : u.FramingInv where
  params := by rw [hu.eq]; exact h.params
  table := by
    rw [hu.eq]
    exact h.table.congr rfl rfl fun _ _ _ => rfl
  cursor := by
    rw [hu.eq]
    exact h.cursor
  reader := hu.inv h.params h.reader

theorem State.FramingInv.uopEnds {s t : State} (h : s.FramingInv) (ht : UopEnds s t) : t.FramingInv := by
  obtain ⟨u, hu, ⟨n, rfl⟩ | ⟨r, rfl⟩ | rfl⟩ := ht
  · exact (h.uopFrame hu).goto n
  · exact (h.uopFrame hu).sound.endParse r
  · exact (h.uopFrame hu).finishParse

/-! ### A scanned table -/

/-- START and END of a unit found fit their registers. -/
theorem nalUnits_words_le {bytes : List Byte} (hlen : bytes.length < 2 ^ 32) {k : Nat} (h : k < (nalUnits bytes).length) :
    (word (nalUnits bytes)[k].start).toNat ≤ (word (nalUnits bytes)[k].stop).toNat ∧
      (word (nalUnits bytes)[k].stop).toNat ≤ bytes.length := by
  obtain ⟨hstart, hstop, -⟩ := nalUnits_bounds h
  rw [BitVec.toNat_ofNat, BitVec.toNat_ofNat, Nat.mod_eq_of_lt (by omega), Nat.mod_eq_of_lt (by omega)]
  exact ⟨hstart, hstop⟩

/-- A table whose entries are of units found in the access unit is sound (43_scanner_framer.md R281, R284). -/
theorem State.tableInv_of_nalUnits {s t : State} {n : Nat} (hau : s.latch.auLen.toNat ≤ s.params.auCap)
    (hp : t.params = s.params) (hcount : t.nalCount = word n) (hcap : n ≤ s.params.naltCap)
    (hn : n ≤ (nalUnits s.auBytes).length)
    (hword : ∀ k (h : k < (nalUnits s.auBytes).length), k < n →
      t.mem.naltWord k 0 = word (nalUnits s.auBytes)[k].start ∧ t.mem.naltWord k 1 = word (nalUnits s.auBytes)[k].stop) :
    t.TableInv := by
  have hle : t.nalCount.toNat ≤ n := by
    rw [hcount, BitVec.toNat_ofNat]
    exact Nat.mod_le _ _
  have hentry : ∀ k < t.nalCount.toNat,
      (t.unitStart k).toNat ≤ (t.unitEnd k).toNat ∧ (t.unitEnd k).toNat ≤ s.latch.auLen.toNat := by
    intro k hk
    have hbytes := s.auBytes_length
    have hlt := s.latch.auLen.isLt
    obtain ⟨h0, h1⟩ := hword k (by omega) (by omega)
    unfold State.unitStart State.unitEnd
    rw [h0, h1, ← hbytes]
    exact nalUnits_words_le (by omega) _
  refine ⟨?_, fun k hk => (hentry k hk).1, fun k hk => ?_⟩
  · rw [hp]; exact hle.trans hcap
  · rw [hp]; exact (hentry k hk).2.trans hau

theorem State.Sound.scanned {s t : State} (h : s.Sound) (hau : s.latch.auLen.toNat ≤ s.params.auCap)
    (hcap : (nalUnits s.auBytes).length ≤ s.params.naltCap) (ht : Scanned (nalUnits s.auBytes) s t) : t.Sound where
  params := by rw [ht.eq]; exact h.params
  table := by
    refine State.tableInv_of_nalUnits hau (by rw [ht.eq]) (by rw [ht.eq]) hcap (Nat.le_refl _) fun k hk _ => ?_
    obtain ⟨h0, h1, -⟩ := ht.word k hk
    exact ⟨h0, h1⟩
  reader := by
    rw [ht.eq]
    exact h.reader.congr rfl rfl rfl

theorem State.Sound.cutOff {s t : State} (h : s.Sound) (hau : s.latch.auLen.toNat ≤ s.params.auCap)
    (hfull : s.params.naltCap < (nalUnits s.auBytes).length) (ht : CutOff (nalUnits s.auBytes) s t) : t.Sound where
  params := by rw [ht.eq]; exact h.params
  table := by
    refine State.tableInv_of_nalUnits hau (by rw [ht.eq]) (by rw [ht.eq]) (Nat.le_refl _) hfull.le fun k hk hkn => ?_
    obtain ⟨h0, h1, -⟩ := ht.word k hk hkn
    exact ⟨h0, h1⟩
  reader := by
    rw [ht.eq]
    exact h.reader.congr rfl rfl rfl

end Sys2Proof.Machine
end

section
/-!
PROOFS. Everything a command can do, and a host write. A command but RESET changes the state by its own effects
(`CommandFrame`) and then completes, ends with an outcome, resumes the unit loop or starts a parse (`CommandEnds`); the
rules over the machine rest on these four endings.
-/

namespace Sys2Proof.Machine

open Host (Outcome)

/-! ### Everything a command can do -/

/-- What a command but RESET changes before it ends: never the host's part, STATE, the engine or STEP_COUNT. -/
structure CommandFrame (s u : State) : Prop where
  keeps     : Keeps s u
  block     : u.block = s.block
  engine    : u.engine = s.engine
  stepCount : u.stepCount = s.stepCount
  sound     : s.Sound → u.Sound

/-- How a command but RESET ends, from the state its own effects leave (47_control.md R501; 43_scanner_framer.md R296;
46_sps_engine.md R401). -/
def CommandEnds (s t : State) : Prop :=
  ∃ u, CommandFrame s u ∧
    (t = u.complete ∨ (∃ r, t = u.endWith r noPc) ∨ t = u.resume ∨ t = u.startSps .parseSps)

theorem CommandFrame.refl (s : State) : CommandFrame s s := ⟨.refl s, rfl, rfl, rfl, id⟩

theorem CommandFrame.trans {s t u : State} (h : CommandFrame s t) (h' : CommandFrame t u) : CommandFrame s u :=
  ⟨h.keeps.trans h'.keeps, h'.block.trans h.block, h'.engine.trans h.engine, h'.stepCount.trans h.stepCount,
    fun hs => h'.sound (h.sound hs)⟩

theorem CommandFrame.result (s : State) (x : Word) : CommandFrame s { s with result := x } :=
  ⟨⟨rfl, id⟩, rfl, rfl, rfl, fun h => h.congr rfl rfl rfl rfl fun _ _ _ => rfl⟩

theorem CommandFrame.moved {s u : State} (h : Moved s u) : CommandFrame s u where
  keeps := .uopFrame (.moved h)
  block := by rw [h.eq]
  engine := by rw [h.eq]
  stepCount := by rw [h.eq]
  sound hs := by
    have hr := h.inv hs.params hs.reader
    refine ⟨?_, ?_, hr⟩ <;> rw [h.eq]
    · exact hs.params
    · exact hs.table.congr rfl rfl fun _ _ _ => rfl

theorem CommandEnds.complete {s u : State} (h : CommandFrame s u) (x : Word) :
    CommandEnds s { u with result := x }.complete :=
  ⟨_, h.trans (.result u x), .inl rfl⟩

theorem CommandEnds.endWith {s u : State} (h : CommandFrame s u) (r : Raise) : CommandEnds s (u.endWith r noPc) :=
  ⟨u, h, .inr (.inl ⟨r, rfl⟩)⟩

theorem CommandEnds.resume {s u : State} (h : CommandFrame s u) : CommandEnds s u.resume := ⟨u, h, .inr (.inr (.inl rfl))⟩

theorem CommandEnds.readerCommand {s t : State} (h : ReaderCommand s t) : CommandEnds s t := by
  obtain ⟨u, hu, ⟨x, rfl⟩ | ⟨r, rfl⟩⟩ := h
  · exact .complete (.moved hu) x
  · exact .endWith (.moved hu) r

theorem Memory.wf_replace_nalt {m : Memory} {b : Bank 32} (h : m.wf = true) (hb : b.wf = true) :
    ({ m with nalt := b } : Memory).wf = true := by
  obtain ⟨hau, hrbsp, -, hrest⟩ := (Memory.wf_iff _).mp h
  exact (Memory.wf_iff _).mpr ⟨hau, hrbsp, hb, hrest⟩

theorem Memory.wf_replace_rbsp {m : Memory} {b : Bank 8} (h : m.wf = true) (hb : b.wf = true) :
    ({ m with rbsp := b } : Memory).wf = true := by
  obtain ⟨hau, -, hrest⟩ := (Memory.wf_iff _).mp h
  exact (Memory.wf_iff _).mpr ⟨hau, hb, hrest⟩

theorem CommandFrame.scanned {s t : State} (hau : s.latch.auLen.toNat ≤ s.params.auCap)
    (hcap : (nalUnits s.auBytes).length ≤ s.params.naltCap) (h : Scanned (nalUnits s.auBytes) s t) : CommandFrame s t where
  keeps := by
    have hwf := h.wf
    rw [h.eq]
    exact ⟨rfl, fun w => Memory.wf_replace_nalt w hwf⟩
  block := by rw [h.eq]
  engine := by rw [h.eq]
  stepCount := by rw [h.eq]
  sound hs := hs.scanned hau hcap h

theorem CommandFrame.cutOff {s t : State} (hau : s.latch.auLen.toNat ≤ s.params.auCap)
    (hfull : s.params.naltCap < (nalUnits s.auBytes).length) (h : CutOff (nalUnits s.auBytes) s t) :
    CommandFrame s t where
  keeps := by
    have hwf := h.wf
    rw [h.eq]
    exact ⟨rfl, fun w => Memory.wf_replace_nalt w hwf⟩
  block := by rw [h.eq]
  engine := by rw [h.eq]
  stepCount := by rw [h.eq]
  sound hs := hs.cutOff hau hfull h

theorem CommandFrame.emptyRbsp (s : State) (h : Nuh) : CommandFrame s (s.emptyRbsp h) :=
  ⟨⟨rfl, fun w => Memory.wf_replace_rbsp w (Bank.wf_unspecified _)⟩, rfl, rfl, rfl,
    fun hs => ⟨hs.params, hs.table.congr rfl rfl fun _ _ _ => rfl, s.emptyRbsp_inv h⟩⟩

/-- RBSP takes a conversion of bytes that fit it. -/
theorem CommandFrame.storeRbsp {s : State} {out : List Byte} (vcl : Bool)
    (hlen : s.Sound → out.length ≤ s.params.rbspCap) : CommandFrame s (s.storeRbsp out vcl) :=
  ⟨⟨rfl, fun w => Memory.wf_replace_rbsp w (Bank.wf_ofList _ _)⟩, rfl, rfl, rfl,
    fun hs => ⟨hs.params, hs.table.congr rfl rfl fun _ _ _ => rfl, State.storeRbsp_inv vcl (hlen hs)⟩⟩

theorem CommandEnds.convertBytes {s u : State} {src : List Byte} {vcl : Bool} (h : CommandFrame s u)
    (hlen : u.Sound → src.length ≤ u.params.rbspCap) : CommandEnds s (State.finishResult (u.convertBytes src vcl)) := by
  rcases u.finishResult_convertBytes src vcl with ⟨out, w, hout, rfl, he⟩ | ⟨r, w, -, rfl, he⟩ <;> rw [he]
  · exact .complete (h.trans (.storeRbsp vcl fun hu => (convert_length hout).trans (hlen hu))) _
  · exact .endWith (h.trans (.emptyRbsp u _)) r

theorem CommandFrame.storeHeader (s : State) (w : Word) : CommandFrame s (s.storeHeader w) := by
  rw [s.storeHeader_frame]
  exact ⟨⟨rfl, id⟩, rfl, rfl, rfl, fun h => h.congr rfl rfl rfl rfl fun _ _ _ => rfl⟩

theorem State.abortUnitsInfo_frame (s : State) (j n : Nat) :
    s.abortUnitsInfo j n = { s with mem := (s.abortUnitsInfo j n).mem } := by
  induction n generalizing s j with
  | zero => rfl
  | succ n ih => exact ih (s.dispose j .oAborted 0#32) (j + 1)

/-! ### The commands one by one -/

theorem execScanAu_ends (s : State) : ∃ t, execScanAu s = .next t ∧ CommandEnds s t := by
  rcases execScanAu_cases s with ⟨-, he⟩ | ⟨hau, hfull, t, ht, he⟩ | ⟨hau, hcap, t, ht, he⟩
  · exact ⟨_, he, .endWith (.refl s) _⟩
  · exact ⟨_, he, .endWith (.cutOff hau hfull ht) _⟩
  · exact ⟨_, he, .complete (.scanned hau hcap ht) _⟩

theorem execPeekAuType_ends (s : State) : ∃ t, execPeekAuType s = .next t ∧ CommandEnds s t := by
  refine ⟨_, rfl, ?_⟩
  split
  · exact .endWith (.refl s) _
  · exact .complete (.refl s) _

theorem execDecodeAu_ends (s : State) : ∃ t, execDecodeAu s = .next t ∧ CommandEnds s t := by
  have hvalid : CommandFrame s { s with spsValid := false } :=
    ⟨⟨rfl, id⟩, rfl, rfl, rfl, fun h => h.congr rfl rfl rfl rfl fun _ _ _ => rfl⟩
  rcases execDecodeAu_cases s with ⟨-, he⟩ | ⟨hau, hfull, t, ht, he⟩ | ⟨hau, hcap, t, u, ht, hu, he⟩
  · exact ⟨_, he, .endWith (.refl s) _⟩
  · exact ⟨_, he, .endWith (hvalid.trans (.cutOff hau hfull ht)) _⟩
  · have hnext : CommandFrame t u := by
      rw [hu]
      exact ⟨⟨rfl, id⟩, rfl, rfl, rfl, fun h => h.congr rfl rfl rfl rfl fun _ _ _ => rfl⟩
    exact ⟨_, he, .resume ((hvalid.trans (.scanned hau hcap ht)).trans hnext)⟩

theorem execLoadNal_ends (s : State) : ∃ t, execLoadNal s = .next t ∧ CommandEnds s t := by
  rcases execLoadNal_cases s with ⟨-, he⟩ | ⟨hlt, u, hu, hload⟩
  · exact ⟨_, he, .endWith (.refl s) _⟩
  · have hcur : CommandFrame s u := by
      rw [hu]
      exact ⟨⟨rfl, id⟩, rfl, rfl, rfl, fun h => h.congr rfl rfl rfl rfl fun _ _ _ => rfl⟩
    have hcount : u.nalCount = s.nalCount := by rw [hu]
    rcases hload with ⟨-, he⟩ | ⟨-, he⟩
    · exact ⟨_, he, .endWith (hcur.trans (.emptyRbsp u _)) _⟩
    · refine ⟨_, he, .convertBytes hcur fun hs => ?_⟩
      have hend := hs.table.end_le s.latch.arg0.toNat (by rw [hcount]; exact hlt)
      rw [State.unitBytes_length]
      exact (Nat.sub_le _ _).trans hend

theorem execConvertRange_ends (vcl : Bool) (s : State) : ∃ t, execConvertRange vcl s = .next t ∧ CommandEnds s t := by
  rcases execConvertRange_cases vcl s with ⟨-, he⟩ | ⟨-, -, he⟩ | ⟨hau, hrange, he⟩
  · exact ⟨_, he, .endWith (.refl s) _⟩
  · exact ⟨_, he, .endWith (.refl s) _⟩
  · refine ⟨_, he, .convertBytes (.refl s) fun _ => ?_⟩
    rw [Bank.length_slice]
    show _ ≤ s.params.auCap
    omega

theorem execParseNalHeader_ends (s : State) : ∃ t, execParseNalHeader s = .next t ∧ CommandEnds s t := by
  rcases execParseNalHeader_cases s with ⟨-, he⟩ | ⟨hbits, u, hu, hend⟩
  · exact ⟨_, he, .endWith (.refl s) _⟩
  · have hframe : CommandFrame s u := by
      rw [hu]
      exact (CommandFrame.moved (.moveReader hbits)).trans (.storeHeader _ _)
    rcases hend with ⟨-, he⟩ | ⟨r, -, he⟩
    · exact ⟨_, he, .complete hframe _⟩
    · refine ⟨_, he, ?_⟩
      split
      · exact .endWith (hframe.trans (.result u _)) r
      · exact .endWith hframe r

theorem execAbortAu_ends (s : State) : ∃ t, execAbortAu s = .next t ∧ CommandEnds s t := by
  refine ⟨_, rfl, { s.abortUnitsInfo s.decNext.toNat s.unitsLeft with decNext := s.nalCount },
    ⟨(Keeps.abortUnitsInfo s _ _).trans ⟨rfl, id⟩, ?_, ?_, ?_, fun h => ?_⟩, .inl rfl⟩
  · rw [s.abortUnitsInfo_frame]
  · rw [s.abortUnitsInfo_frame]
  · rw [s.abortUnitsInfo_frame]
  · exact (h.abortUnitsInfo _ _).congr rfl rfl rfl rfl fun _ _ _ => rfl

/-- Everything a command but RESET can do. -/
theorem exec_command {i : Instr} (h : isUop i = false) (hi : i ≠ .reset) (s : State) :
    ∃ t, exec i s = .next t ∧ CommandEnds s t := by
  rcases command_cases h with hr | hmem
  · obtain ⟨t, he, ht⟩ := exec_readerCommand hr s
    exact ⟨t, he, .readerCommand ht⟩
  · simp only [List.mem_cons, List.not_mem_nil, or_false] at hmem
    obtain rfl | rfl | rfl | rfl | rfl | rfl | rfl | rfl | rfl | rfl | rfl | rfl := hmem
    · exact ⟨_, rfl, s, .refl s, .inl rfl⟩
    · exact absurd rfl hi
    · exact ⟨_, rfl, .resume (.refl s)⟩
    · exact execAbortAu_ends s
    · exact execScanAu_ends s
    · exact execPeekAuType_ends s
    · exact execDecodeAu_ends s
    · exact execLoadNal_ends s
    · exact execConvertRange_ends false s
    · exact execConvertRange_ends true s
    · exact execParseNalHeader_ends s
    · exact ⟨_, rfl, s, .refl s, .inr (.inr (.inr rfl))⟩

theorem Keeps.commandEnds {s t : State} (h : CommandEnds s t) : Keeps s t := by
  obtain ⟨u, hu, rfl | ⟨r, rfl⟩ | rfl | rfl⟩ := h
  · exact hu.keeps.trans ⟨rfl, id⟩
  · exact hu.keeps.trans (.endWith u r noPc)
  · exact hu.keeps.trans (.resume u)
  · exact hu.keeps.trans (.startSps u _)

/-- Every instruction but RESET leaves the host's part alone and the memories canonical. -/
theorem exec_keeps {i : Instr} {s t : State} (hi : i ≠ .reset) (h : exec i s = .next t) : Keeps s t := by
  cases hu : isUop i with
  | true =>
    obtain ⟨u, he, hends⟩ := exec_uop hu s
    cases he.symm.trans h
    exact .uopEnds hends
  | false =>
    obtain ⟨u, he, hends⟩ := exec_command hu hi s
    cases he.symm.trans h
    exact .commandEnds hends

/-- Settles O53: `Keeps` for every instruction but RESET, which keeps the memories and the events as they are. -/
theorem blockLeavesInputs : Obligations.BlockLeavesInputs := by
  intro i s t h
  by_cases hi : i = .reset
  · subst hi
    cases h
    exact ⟨rfl, rfl, rfl, fun hne => absurd rfl hne⟩
  · have hhost := (exec_keeps hi h).host
    exact ⟨congrArg HostPart.au hhost, congrArg HostPart.ustore hhost, congrArg HostPart.inputs hhost, fun _ =>
      ⟨congrArg HostPart.timing hhost, congrArg HostPart.ops hhost, congrArg HostPart.irqEn hhost,
        congrArg HostPart.cmd hhost⟩⟩

/-! ### The block's own steps -/

theorem Keeps.engineStep {s t : State} (h : EngineStep s t) : Keeps s t := by
  cases h with
  | budget => exact .endParse s _
  | entry => exact .endParse s _
  | illegal => exact Keeps.trans (t := { s with stepCount := s.stepCount + 1#32 }) ⟨rfl, id⟩ (.endParse _ _)
  | run _ _ _ _ _ ht => exact Keeps.trans (t := { s with stepCount := s.stepCount + 1#32 }) ⟨rfl, id⟩ (.uopEnds ht)

/-- The block's step changes nothing, ends an illegal word, runs RESET, or runs another command. -/
theorem commandStep_cases {s t : State} (h : CommandStep s t) :
    t = s ∨ (s.block = .busy ∧ t = s.commandReset) ∨ (s.block = .busy ∧ CommandEnds s t) := by
  cases h with
  | idle => exact .inl rfl
  | illegal hb => exact .inr (.inr ⟨hb, .endWith (.refl s) _⟩)
  | run hb i hd t ht =>
    by_cases hi : i = .reset
    · subst hi
      cases ht
      exact .inr (.inl ⟨hb, rfl⟩)
    · obtain ⟨u, he, hends⟩ := exec_command (isUop_of_decodeCmd hd) hi s
      cases he.symm.trans ht
      exact .inr (.inr ⟨hb, hends⟩)

/-! ### The host's accesses -/

theorem Bank.wf_writeBytes {b : Bank 8} (h : b.wf = true) (a : Nat) (w : Word) (width : Width) :
    (b.writeBytes a w width).wf = true := by
  cases width with
  | byte => exact Bank.write_wf h _ _
  | word => exact Bank.write_wf (Bank.write_wf (Bank.write_wf (Bank.write_wf h _ _) _ _) _ _) _ _

/-- A CMD write keeps the block's registers and every memory; it can set STATE to BUSY. -/
theorem State.writeCmd_frame (s : State) (w : Word) :
    ∃ u : State, s.writeCmd w = u ∧ u = { s with
      warn := u.warn, cmd := u.cmd, block := u.block, done := u.done, latch := u.latch, error := u.error,
      errFlag := u.errFlag } ∧ (u.block = s.block ∨ u.block = .busy) := by
  refine ⟨_, rfl, ?_⟩
  rcases s.writeCmd_cases w with ⟨-, h⟩ | ⟨-, -, h⟩ | ⟨-, -, h⟩ <;> rw [h]
  · exact ⟨rfl, .inl rfl⟩
  · exact ⟨rfl, .inr rfl⟩
  · rw [s.accept_eq]
    exact ⟨rfl, .inr rfl⟩

end Sys2Proof.Machine
end

section
/-!
PROOFS. Rules over the whole machine: the parameters, the three invariants, and the end of every parse. A turn of the
engine's loop counts a step, comes to rest, or starts the parse of a later unit (`Turn`), which keeps the budget and
leaves fewer turns (46_sps_engine.md R401, R402; 43_scanner_framer.md R296; 70_reset_and_hazards.md R719).
-/

namespace Sys2Proof.Machine

open Host (Outcome)

/-- A host write keeps every memory canonical. -/
theorem State.hostWrite_mem_wf {s : State} (h : s.mem.wf = true) (addr : Word) (width : Width) (w : Word) :
    (s.hostWrite addr width w).mem.wf = true := by
  obtain ⟨hau, hrbsp, hnalt, hustore, hrest⟩ := (Memory.wf_iff _).mp h
  unfold State.hostWrite
  split
  case h_1 r _ =>
    cases r
    case cmd =>
      obtain ⟨u, hu, hframe, -⟩ := s.writeCmd_frame w
      show (s.writeCmd w).mem.wf = true
      rw [hu, hframe]
      exact h
    all_goals exact h
  case h_3 i _ =>
    split
    · exact h
    · exact (Memory.wf_iff _).mpr ⟨hau, hrbsp, hnalt, Bank.write_wf hustore _ _, hrest⟩
  case h_4 a _ =>
    split
    · exact h
    · exact (Memory.wf_iff _).mpr ⟨Bank.wf_writeBytes hau _ _ _, hrbsp, hnalt, hustore, hrest⟩
  all_goals exact h

theorem State.hostWrite_params (s : State) (addr : Word) (width : Width) (w : Word) :
    (s.hostWrite addr width w).params = s.params := by
  rcases s.hostWrite_frame addr width w with ⟨h, -⟩ | h
  · obtain ⟨u, hu, hframe, -⟩ := s.writeCmd_frame w
    rw [h, hu, hframe]
  · rw [h]

/-! ### The parameters and the memories -/

/-- Settles O52: `Keeps` for the block's steps; both resets, and the host's accesses, leave the parameters alone. -/
theorem parametersFixed : Obligations.ParametersFixed := by
  intro s t hstep
  have command : ∀ u : State, CommandStep u t → t.params = u.params := by
    intro u h
    rcases commandStep_cases h with rfl | ⟨-, rfl⟩ | ⟨-, h⟩
    · rfl
    · rfl
    · exact (Keeps.commandEnds h).params
  cases step_cases hstep with
  | engine _ _ h => exact (Keeps.engineStep h).params
  | settle _ _ _ h => exact command s h
  | turn _ rest _ _ h => exact command { s with inputs := rest } h
  | read _ a w rest _ => rw [(State.hostRead_frame { s with inputs := rest } a w).1]
  | write _ a w d rest _ => exact State.hostWrite_params { s with inputs := rest } a w d
  | powerOn => rfl

/-- Settles O57: `Keeps` for the block's steps, and one write at most for a host access. -/
theorem memoryInvariant : Obligations.MemoryInvariant := by
  intro s t hinv hstep
  unfold State.MemoryInv at hinv ⊢
  have command : ∀ u : State, u.mem.wf = true → CommandStep u t → t.mem.wf = true := by
    intro u hu h
    rcases commandStep_cases h with rfl | ⟨-, rfl⟩ | ⟨-, h⟩
    · exact hu
    · exact hu
    · exact (Keeps.commandEnds h).mem_wf hu
  cases step_cases hstep with
  | engine _ _ h => exact (Keeps.engineStep h).mem_wf hinv
  | settle _ _ _ h => exact command s hinv h
  | turn _ rest _ _ h => exact command { s with inputs := rest } hinv h
  | read _ a w rest _ =>
    rw [(State.hostRead_frame { s with inputs := rest } a w).1]
    exact hinv
  | write _ a w d rest _ => exact State.hostWrite_mem_wf (s := { s with inputs := rest }) hinv a w d
  | powerOn => exact Memory.wf_unspecified _

/-! ### The framing invariant -/

theorem State.FramingInv.congr {s t : State} (h : s.FramingInv) (ht : t.Sound) (hcount : t.nalCount = s.nalCount)
    (hcur : t.curNal = s.curNal) (hnext : t.decNext = s.decNext) (hengine : t.engine = s.engine)
    (hblock : t.block = s.block) : t.FramingInv := by
  refine ⟨ht.params, ht.table, fun hcase => ?_, ht.reader⟩
  rw [hengine, hblock] at hcase
  rw [hnext, hcur, hcount]
  exact h.cursor hcase

theorem State.FramingInv.inputs {s : State} (h : s.FramingInv) (rest : List HostEvent) :
    State.FramingInv { s with inputs := rest } :=
  h.congr (h.sound.congr rfl rfl rfl rfl fun _ _ _ => rfl) rfl rfl rfl rfl rfl

theorem State.FramingInv.stepCount {s : State} (h : s.FramingInv) (n : Word) :
    State.FramingInv { s with stepCount := n } :=
  h.congr (h.sound.congr rfl rfl rfl rfl fun _ _ _ => rfl) rfl rfl rfl rfl rfl

/-- Both resets leave an empty table and a reader at the start. -/
theorem State.framingInv_of_reset {s : State} (hp : s.params.valid) (hcount : s.nalCount = 0#32)
    (hr : s.reader = ⟨0#32, 0#32, 0#32, 0#32, 0#64⟩) (he : s.engine = .off) (hb : s.block = .idle) : s.FramingInv := by
  have hnone : ∀ k, ¬ k < s.nalCount.toNat := by
    rw [hcount]
    exact Nat.not_lt_zero
  have htable : s.TableInv :=
    ⟨by rw [hcount]; exact Nat.zero_le _, fun k hk => absurd hk (hnone k), fun k hk => absurd hk (hnone k)⟩
  refine State.Sound.framingInv ⟨hp, htable, State.reader_start_inv (Nat.zero_le _) hr⟩ ?_ ?_
  · rw [he]; exact nofun
  · rw [hb]; exact nofun

theorem State.FramingInv.engineStep {s t : State} (h : s.FramingInv) (ht : EngineStep s t) : t.FramingInv := by
  cases ht with
  | budget => exact h.sound.endParse _
  | entry => exact h.sound.endParse _
  | illegal => exact (h.stepCount _).sound.endParse _
  | run _ _ _ _ _ hends => exact (h.stepCount _).uopEnds hends

theorem State.FramingInv.commandStep {s t : State} (h : s.FramingInv) (ht : CommandStep s t) : t.FramingInv := by
  rcases commandStep_cases ht with rfl | ⟨-, rfl⟩ | ⟨hb, u, hu, hends⟩
  · exact h
  · exact State.framingInv_of_reset h.params rfl rfl rfl rfl
  · have hsound := hu.sound h.sound
    rcases hends with rfl | ⟨r, rfl⟩ | rfl | rfl
    · exact hsound.complete
    · exact hsound.endWith r noPc
    · exact hsound.resume
    · refine (hsound.startSps .parseSps).framingInv nofun ?_
      rw [State.startSps_block, hu.block, hb]
      exact nofun

theorem State.FramingInv.hostRead {s : State} (h : s.FramingInv) (addr : Word) (width : Width) :
    (s.hostRead addr width).FramingInv := by
  rw [(s.hostRead_frame addr width).1]
  exact h.congr (h.sound.congr rfl rfl rfl rfl fun _ _ _ => rfl) rfl rfl rfl rfl rfl

theorem State.FramingInv.hostWrite {s : State} (h : s.FramingInv) (he : s.engine = .off) (addr : Word) (width : Width)
    (w : Word) : (s.hostWrite addr width w).FramingInv := by
  rcases s.hostWrite_frame addr width w with ⟨hcmd, -⟩ | hframe
  · obtain ⟨u, hu, hframe, hblock⟩ := s.writeCmd_frame w
    have hsound : u.Sound := by
      rw [hframe]
      exact h.sound.congr rfl rfl rfl rfl fun _ _ _ => rfl
    have hengine : u.engine = s.engine := by rw [hframe]
    rw [hcmd, hu]
    rcases hblock with hsame | hbusy
    · exact h.congr hsound (by rw [hframe]) (by rw [hframe]) (by rw [hframe]) hengine hsame
    · exact hsound.framingInv (by rw [hengine, he]; exact nofun) (by rw [hbusy]; exact nofun)
  · rw [hframe]
    exact h.congr (h.sound.congr rfl rfl rfl rfl fun _ _ _ => rfl) rfl rfl rfl rfl rfl

/-- Settles O58: each kind of step keeps the framing invariant. -/
theorem framingInvariant : Obligations.FramingInvariant := by
  intro s t h hstep
  cases step_cases hstep with
  | engine _ _ ht => exact h.engineStep ht
  | settle _ _ _ ht => exact h.commandStep ht
  | turn _ rest _ _ ht => exact (h.inputs rest).commandStep ht
  | read _ a w rest _ => exact (h.inputs rest).hostRead a w
  | write he a w d rest _ => exact (h.inputs rest).hostWrite he a w d
  | powerOn => exact State.framingInv_of_reset h.params rfl rfl rfl rfl

/-! ### The end of a parse, or the start of the next -/

theorem State.abortUnits_frame (s : State) (j n : Nat) :
    s.abortUnits j n = { s with mem := (s.abortUnits j n).mem } := by
  induction n generalizing s j with
  | zero => rfl
  | succ n ih => exact ih (s.mapWord2 j (setDisp · .oAborted)) (j + 1)

/-- No parse runs, and the block is not BUSY. -/
structure Rests (s t : State) : Prop where
  engine    : t.engine = .off
  block     : t.block ≠ .busy
  stepCount : t.stepCount = s.stepCount

/-- The parse of a unit not yet processed has begun (43_scanner_framer.md R296). -/
structure NextParse (s t : State) : Prop where
  engine    : t.engine = .decodeUnit
  block     : t.block = s.block
  stepCount : t.stepCount = 0#32
  nalCount  : t.nalCount = s.nalCount
  later     : s.decNext.toNat < t.decNext.toNat
  within    : t.decNext.toNat ≤ t.nalCount.toNat

theorem Rests.endWith (s : State) (r : Raise) (pc : Word) : Rests s (s.endWith r pc) where
  engine := by rw [s.endWith_frame]
  block := by
    rcases (s.recordOutcome r pc).endByClass_block r.code with h | h
    · exact fun hb => nomatch h.symm.trans hb
    · exact fun hb => nomatch h.symm.trans hb
  stepCount := by rw [s.endWith_frame]

theorem Rests.haltUnits (s : State) : Rests s s.haltUnits := by
  unfold State.haltUnits
  rw [s.abortUnits_frame]
  exact ⟨rfl, nofun, rfl⟩

theorem Rests.finishParse (s : State) : Rests s s.finishParse := by
  by_cases he : s.engine = .decodeUnit
  · rw [State.finishParse_decodeUnit he]
    exact ⟨rfl, nofun, rfl⟩
  · rw [State.finishParse_of_ne he]
    exact ⟨rfl, nofun, rfl⟩

/-- What the unit loop has moved before its next unit: DEC_NEXT, with `n` units left. -/
structure LoopAt (s : State) (n : Nat) (u : State) : Prop where
  block     : u.block = s.block
  stepCount : u.stepCount = s.stepCount
  nalCount  : u.nalCount = s.nalCount
  later     : s.decNext.toNat ≤ u.decNext.toNat
  left      : n = u.unitsLeft

theorem LoopAt.turn {s u t : State} {n : Nat} (h : LoopAt s (n + 1) u) (hd : UnitDone u t) : LoopAt s n t := by
  have hleft := h.left
  unfold State.unitsLeft at hleft
  have hlt : u.decNext.toNat < u.nalCount.toNat := by omega
  have hnext := hd.decNext hlt
  have hcount : t.nalCount = u.nalCount := by rw [hd.eq]
  refine ⟨?_, ?_, hcount.trans h.nalCount, ?_, ?_⟩
  · rw [hd.eq]; exact h.block
  · rw [hd.eq]; exact h.stepCount
  · have := h.later
    omega
  · unfold State.unitsLeft
    rw [hcount, hnext]
    omega

/-- The unit loop ends the command, or starts the parse of a later unit (43_scanner_framer.md R296, R299). -/
theorem State.resume_rests_or_nextParse (s : State) : Rests s s.resume ∨ NextParse s s.resume := by
  unfold State.resume
  rcases State.resumeLoop_induct (P := LoopAt s) (fun _ _ _ h hd => h.turn hd) ⟨rfl, rfl, rfl, Nat.le_refl _, rfl⟩ with
    ⟨u, hu, he⟩ | ⟨n, u, t, hu, hd, -, he⟩ <;> rw [he]
  · exact .inl ⟨rfl, nofun, hu.stepCount⟩
  · have ht := hu.turn hd
    have hleft := hu.left
    have hlater := hu.later
    have hcount : t.nalCount = u.nalCount := by rw [hd.eq]
    unfold State.unitsLeft at hleft
    have hnext := hd.decNext (by omega)
    refine .inr ⟨rfl, ht.block, rfl, ht.nalCount, ?_, ?_⟩
    · rw [State.startSps_decNext]
      omega
    · rw [State.startSps_decNext, State.startSps_nalCount, hcount]
      omega

theorem State.endParse_rests_or_nextParse (s : State) (r : Raise) :
    Rests s (s.endParse r) ∨ (s.engine = .decodeUnit ∧ NextParse s (s.endParse r)) := by
  unfold State.endParse
  split
  case h_1 he =>
    obtain ⟨u, hu, ⟨-, h⟩ | ⟨-, h⟩⟩ := s.endUnitParse_cases r
    · obtain ⟨hengine, hblock, hsteps⟩ := Rests.haltUnits u
      rw [h]
      exact .inl ⟨hengine, hblock, hsteps.trans (by rw [hu]; rfl)⟩
    · rw [h]
      rcases u.resume_rests_or_nextParse with ⟨hengine, hblock, hsteps⟩ | ⟨hengine, hblock, hsteps, hcount, hlater, hwithin⟩
      · exact .inl ⟨hengine, hblock, hsteps.trans (by rw [hu]; rfl)⟩
      · refine .inr ⟨he, hengine, hblock.trans (by rw [hu]; rfl), hsteps, hcount.trans (by rw [hu]; rfl), ?_, hwithin⟩
        rw [show s.decNext = u.decNext by rw [hu]; rfl]
        exact hlater
  all_goals exact .inl (.endWith s r _)

/-! ### One turn of the engine's loop -/

/-- What one turn of the engine's loop does within the step budget: it goes on with one step more counted, it comes to rest,
or, inside DECODE_AU, it starts the parse of a later unit. -/
inductive Turn (s t : State) : Prop where
  | goesOn (engine : t.engine = s.engine) (block : t.block = s.block) (nalCount : t.nalCount = s.nalCount)
      (decNext : t.decNext = s.decNext) (below : s.stepCount.toNat < s.params.maxSteps)
      (stepCount : t.stepCount.toNat = s.stepCount.toNat + 1)
  | rests (engine : t.engine = .off) (block : t.block ≠ .busy) (budget : t.stepCount.toNat ≤ s.params.maxSteps)
  | nextParse (engine : s.engine = .decodeUnit) (next : NextParse s t)

theorem EngineStep.turn {s t : State} (hinv : s.ControlInv) (h : EngineStep s t) : Turn s t := by
  have hmax := hinv.params.2.2.2.2.2
  have hbudget := hinv.budget
  have ended : ∀ {u : State} {r : Raise}, u.engine = s.engine → u.block = s.block → u.nalCount = s.nalCount →
      u.decNext = s.decNext → u.stepCount.toNat ≤ s.params.maxSteps → Turn s (u.endParse r) := by
    intro u r he hb hc hn hle
    rcases u.endParse_rests_or_nextParse r with ⟨hengine, hblock, hsteps⟩ | ⟨hengine, next⟩
    · exact .rests hengine hblock (by rw [hsteps]; exact hle)
    · exact .nextParse (he.symm.trans hengine) ⟨next.engine, next.block.trans hb, next.stepCount, next.nalCount.trans hc,
        by rw [← hn]; exact next.later, next.within⟩
  have counted : s.stepCount.toNat ≠ s.params.maxSteps → (s.stepCount + 1#32).toNat = s.stepCount.toNat + 1 := by
    intro hne
    rw [BitVec.toNat_add, BitVec.toNat_ofNat]
    omega
  cases h with
  | budget => exact ended rfl rfl rfl rfl hbudget
  | entry => exact ended rfl rfl rfl rfl hbudget
  | illegal hne =>
    have hcount := counted hne
    exact ended rfl rfl rfl rfl (by show (s.stepCount + 1#32).toNat ≤ _; omega)
  | run hne _ _ _ _ hends =>
    have hcount := counted hne
    obtain ⟨u, hu, hend⟩ := hends
    have hengine : u.engine = s.engine := by rw [hu.eq]
    have hblock : u.block = s.block := by rw [hu.eq]
    have hnal : u.nalCount = s.nalCount := by rw [hu.eq]
    have hnext : u.decNext = s.decNext := by rw [hu.eq]
    have hsteps : u.stepCount.toNat = s.stepCount.toNat + 1 := by rw [← hcount, hu.eq]
    rcases hend with ⟨n, rfl⟩ | ⟨r, rfl⟩ | rfl
    · rcases u.goto_cases n with ⟨-, -, he⟩ | ⟨-, he⟩ <;> rw [he]
      · exact .goesOn hengine hblock hnal hnext (by omega) hsteps
      · exact ended hengine hblock hnal hnext (by omega)
    · exact ended hengine hblock hnal hnext (by omega)
    · obtain ⟨he, hb, hs⟩ := Rests.finishParse u
      exact .rests he hb (by rw [hs]; omega)

/-! ### The control invariant -/

theorem State.ControlInv.engineStep {s t : State} (h : s.ControlInv) (he : s.engine ≠ .off) (ht : EngineStep s t) :
    t.ControlInv := by
  have hparams := (Keeps.engineStep ht).params
  have hbusy := h.busy he
  have hp : t.params.valid := by rw [hparams]; exact h.params
  cases ht.turn h with
  | goesOn _ hblock _ _ hbelow hsteps => exact ⟨hp, fun _ => hblock.trans hbusy, by rw [hsteps, hparams]; exact hbelow⟩
  | rests hengine _ hle => exact ⟨hp, fun hne => absurd hengine hne, by rw [hparams]; exact hle⟩
  | nextParse _ next =>
    refine ⟨hp, fun _ => next.block.trans hbusy, ?_⟩
    rw [next.stepCount]
    exact Nat.zero_le _

/-- Without a parse only the budget is left of the control invariant. -/
theorem State.ControlInv.of_off {s t : State} (h : s.ControlInv) (hp : t.params = s.params) (he : t.engine = .off)
    (hs : t.stepCount = s.stepCount ∨ t.stepCount = 0#32) : t.ControlInv := by
  refine ⟨by rw [hp]; exact h.params, fun hne => absurd he hne, ?_⟩
  rcases hs with hs | hs <;> rw [hs]
  · rw [hp]; exact h.budget
  · exact Nat.zero_le _

theorem State.ControlInv.commandStep {s t : State} (h : s.ControlInv) (he : s.engine = .off) (ht : CommandStep s t) :
    t.ControlInv := by
  rcases commandStep_cases ht with rfl | ⟨-, rfl⟩ | ⟨hb, hcommand⟩
  · exact h
  · exact h.of_off rfl rfl (.inr rfl)
  · have hparams := (Keeps.commandEnds hcommand).params
    have hp : t.params.valid := by rw [hparams]; exact h.params
    obtain ⟨u, hu, hends⟩ := hcommand
    rcases hends with rfl | ⟨r, rfl⟩ | rfl | rfl
    · exact h.of_off hparams rfl (.inl hu.stepCount)
    · have hrests := Rests.endWith u r noPc
      exact h.of_off hparams hrests.engine (.inl (hrests.stepCount.trans hu.stepCount))
    · rcases u.resume_rests_or_nextParse with hrests | next
      · exact h.of_off hparams hrests.engine (.inl (hrests.stepCount.trans hu.stepCount))
      · refine ⟨hp, fun _ => next.block.trans (hu.block.trans hb), ?_⟩
        rw [next.stepCount]
        exact Nat.zero_le _
    · exact ⟨hp, fun _ => hu.block.trans hb, Nat.zero_le _⟩

/-- Settles O59: a turn of the engine's loop by `Turn`; every other step leaves the engine off or starts a parse. -/
theorem controlInvariant : Obligations.ControlInvariant := by
  intro s t h hstep
  cases step_cases hstep with
  | engine he _ ht => exact h.engineStep he ht
  | settle he _ _ ht => exact h.commandStep he ht
  | turn he rest _ _ ht =>
    have hrest : State.ControlInv { s with inputs := rest } := ⟨h.params, h.busy, h.budget⟩
    exact hrest.commandStep he ht
  | read he a w rest _ =>
    rw [(State.hostRead_frame { s with inputs := rest } a w).1]
    exact h.of_off rfl he (.inl rfl)
  | write he a w d rest _ =>
    rcases State.hostWrite_frame { s with inputs := rest } a w d with ⟨hcmd, -⟩ | hframe
    · obtain ⟨u, hu, hframe, -⟩ := State.writeCmd_frame { s with inputs := rest } d
      rw [hcmd, hu, hframe]
      exact h.of_off rfl he (.inl rfl)
    · rw [hframe]
      exact h.of_off rfl he (.inl rfl)
  | powerOn => exact h.of_off rfl rfl (.inr rfl)

/-- Settles O60: memories canonical, no unit, the reader at the start, no parse, and the default parameters legal. -/
theorem invariantsAtReset : Obligations.InvariantsAtReset := by
  have hparams : State.reset.params.valid := by decide
  exact ⟨Memory.wf_unspecified 0, State.framingInv_of_reset hparams rfl rfl rfl rfl,
    ⟨hparams, fun hne => absurd rfl hne, Nat.zero_le _⟩⟩

/-! ### Every parse ends -/

theorem core_run_succ {s t u : State} {n : Nat} (h : step s = .next t) (hrun : Sys2Proof.core.run n t = .next u) :
    Sys2Proof.core.run (n + 1) s = .next u := by
  have hcore : Sys2Proof.core.step s = .next t := h
  simp only [Host.Core.run, hcore]
  exact hrun

/-- The turns of the engine's loop that are left: those of the parse in progress within its budget, and those of the parses
of the units left. -/
def State.turnsLeft (s : State) : Nat :=
  (if s.engine = .decodeUnit then s.unitsLeft * (s.params.maxSteps + 1) else 0) +
    (s.params.maxSteps - s.stepCount.toNat)

/-- Each turn of a parse comes to rest or leaves fewer turns. -/
theorem Turn.turnsLeft_lt {s t : State} (h : Turn s t) (hp : t.params = s.params) (he : s.engine ≠ .off) :
    (t.engine = .off ∧ t.block ≠ .busy) ∨ (t.engine ≠ .off ∧ t.turnsLeft < s.turnsLeft) := by
  unfold State.turnsLeft State.unitsLeft
  cases h with
  | goesOn engine block nalCount decNext below stepCount =>
    refine .inr ⟨by rw [engine]; exact he, ?_⟩
    rw [engine, nalCount, decNext, stepCount, hp]
    omega
  | rests engine block => exact .inl ⟨engine, block⟩
  | nextParse engine next =>
    refine .inr ⟨by rw [next.engine]; exact nofun, ?_⟩
    have hlater := next.later
    have hwithin := next.within
    rw [next.nalCount] at hwithin
    rw [if_pos next.engine, if_pos engine, next.stepCount, next.nalCount, hp]
    have hunits : (s.nalCount.toNat - t.decNext.toNat + 1) * (s.params.maxSteps + 1) ≤
        (s.nalCount.toNat - s.decNext.toNat) * (s.params.maxSteps + 1) := Nat.mul_le_mul_right _ (by omega)
    rw [Nat.add_mul, Nat.one_mul] at hunits
    show _ + (s.params.maxSteps - 0) < _
    omega

/-- A parse comes to rest within the turns it has left and one more. -/
theorem State.ControlInv.run_rests {s : State} (h : s.ControlInv) (he : s.engine ≠ .off) :
    ∃ n t, n ≤ s.turnsLeft + 1 ∧ Sys2Proof.core.run n s = .next t ∧ State.engine t = .off ∧ State.block t ≠ .busy := by
  induction hm : s.turnsLeft using Nat.strong_induction_on generalizing s with
  | _ m ih =>
    obtain ⟨t, hstep, hto⟩ := step_next s
    cases hto with
    | engine _ _ ht =>
      rcases (ht.turn h).turnsLeft_lt (Keeps.engineStep ht).params he with ⟨hengine, hblock⟩ | ⟨hengine, hlt⟩
      · exact ⟨1, t, by omega, core_run_succ hstep rfl, hengine, hblock⟩
      · obtain ⟨n, u, hn, hrun, hu⟩ := ih t.turnsLeft (by omega) (h.engineStep he ht) hengine rfl
        exact ⟨n + 1, u, by omega, core_run_succ hstep hrun, hu⟩
    | settle hoff => exact absurd hoff he
    | turn hoff => exact absurd hoff he
    | read hoff => exact absurd hoff he
    | write hoff => exact absurd hoff he
    | powerOn hoff => exact absurd hoff he

/-- Settles O55: outside DECODE_AU the turns left are those of the budget. -/
theorem parseTerminates : Obligations.ParseTerminates := by
  intro s h he
  obtain ⟨n, t, hn, hrun⟩ := h.run_rests (by rw [he]; exact nofun)
  unfold State.turnsLeft at hn
  rw [if_neg (by rw [he]; exact nofun), Nat.zero_add] at hn
  exact ⟨n, t, hn, hrun⟩

/-- Settles O56: the turns left of the parse in progress, and those of one parse for each unit left. -/
theorem decodeTerminates : Obligations.DecodeTerminates := by
  intro s h he
  obtain ⟨n, t, hn, hrun⟩ := h.run_rests (by rw [he]; exact nofun)
  refine ⟨n, t, ?_, hrun⟩
  unfold State.turnsLeft State.unitsLeft at hn
  rw [if_pos he] at hn
  rw [Nat.add_mul, Nat.one_mul]
  omega

/-! ### One forward pass -/

/-- The reader of `t` has moved forward from that of `s`, over the same RBSP. -/
def ReadsOn (s t : State) : Prop :=
  s.bitPos ≤ t.bitPos ∧ t.bitPos ≤ t.streamLen ∧ t.mem.rbsp = s.mem.rbsp ∧ t.reader.rbspLen = s.reader.rbspLen

theorem ReadsOn.refl {s : State} (hb : s.readerBounds) : ReadsOn s s := ⟨Nat.le_refl _, hb.1, rfl, rfl⟩

theorem ReadsOn.congr {s t u : State} (h : ReadsOn s t) (hr : u.reader = t.reader) (hm : u.mem.rbsp = t.mem.rbsp) :
    ReadsOn s u := by
  unfold ReadsOn State.bitPos State.streamLen at *
  rw [hr, hm]
  exact h

theorem UopFrame.readsOn {s u : State} (h : UopFrame s u) (hb : s.readerBounds) : ReadsOn s u := by
  obtain ⟨hle, hend⟩ := h.forward hb
  have hlen := h.len
  refine ⟨hle, ?_, by rw [h.eq], hlen⟩
  unfold State.streamLen at hend ⊢
  rw [hlen]
  exact hend

theorem ReadsOn.endParse {s u : State} (h : ReadsOn s u) (he : u.engine = .parseSps) (r : Raise) :
    ReadsOn s (u.endParse r) := by
  rw [State.endParse_parseSps he, u.endWith_frame]
  exact h.congr rfl rfl

/-- However a µop of a PARSE_SPS ends, the reader and the RBSP stay where its effects left them. -/
theorem UopEnds.readsOn {s t : State} (h : UopEnds s t) (he : s.engine = .parseSps) (hb : s.readerBounds) :
    ReadsOn s t := by
  obtain ⟨u, hu, hend⟩ := h
  have hengine : u.engine = .parseSps := by rw [hu.eq]; exact he
  have hon := hu.readsOn hb
  rcases hend with ⟨n, rfl⟩ | ⟨r, rfl⟩ | rfl
  · rcases u.goto_cases n with ⟨-, -, h⟩ | ⟨-, h⟩ <;> rw [h]
    · exact hon.congr rfl rfl
    · exact hon.endParse hengine _
  · exact hon.endParse hengine r
  · rw [State.finishParse_of_ne (by rw [hengine]; exact nofun)]
    exact hon.congr rfl rfl

/-- Settles O54: the loop's own outcomes leave the reader alone, and a µop reads on. -/
theorem forwardPass : Obligations.ForwardPass := by
  intro s t he hb hstep
  have hcounted : ReadsOn s { s with stepCount := s.stepCount + 1#32 } := (ReadsOn.refl hb).congr rfl rfl
  cases step_cases hstep with
  | engine _ _ ht =>
    cases ht with
    | budget => exact (ReadsOn.refl hb).endParse he _
    | entry => exact (ReadsOn.refl hb).endParse he _
    | illegal => exact hcounted.endParse he _
    | run _ _ _ _ _ hends => exact hends.readsOn he hb
  | settle hoff => exact absurd (he.symm.trans hoff) nofun
  | turn hoff => exact absurd (he.symm.trans hoff) nofun
  | read hoff => exact absurd (he.symm.trans hoff) nofun
  | write hoff => exact absurd (he.symm.trans hoff) nofun
  | powerOn hoff => exact absurd (he.symm.trans hoff) nofun

end Sys2Proof.Machine
end

section
/-!
PROOFS. The commands of the bit reader and the VLC decoder (41_bit_reader.md R215-R222, 45_vlc.md R370-R383). Each of them
is one function of the bit reader whose value goes to RESULT and whose outcome ends the command: what the function
returns and consumes is stated once, and the commands follow.
-/

namespace Sys2Proof.Machine

open Host (Outcome)

/-! ### A command that is one function of the bit reader -/

/-- A value found after `n` bits becomes RESULT. -/
theorem Consumed.readsResult {s t : State} {n : Nat} (h : Consumed s t n) (x : Word) :
    ReadsResult s { t with result := x }.complete n x := by
  obtain ⟨heq, hlen, hpos⟩ := h
  refine ⟨?_, hlen, hpos⟩
  show { t with result := x }.complete = { s with
    result := x, block := .idle, done := true, irqPend := s.irqPend ||| 0b001#3, engine := .off, reader := t.reader,
    free := t.free }
  rw [heq]
  rfl

theorem Code.setsErr_of_recoverable {c : Code} (h : c.cls = .recoverable) : c.setsErr = true :=
  (Code.setsErr_eq c).mpr (.inr h)

/-- A command whose function returns a value. -/
theorem exec_readsResult {i : Instr} {s t : State} {e : Eff Word} {n : Nat} {x : Word}
    (hexec : exec i s = .next (State.finishResult e)) (he : e = .ok x t) (h : Consumed s t n) :
    ∃ t, exec i s = .next t ∧ ReadsResult s t n x := by
  rw [he] at hexec
  exact ⟨_, hexec, h.readsResult x⟩

/-- A command whose function raises an outcome of class R. -/
theorem exec_failsIdle {i : Instr} {s t : State} {e : Eff Word} {r : Raise}
    (hexec : exec i s = .next (State.finishResult e)) (he : e = .raise r t) (hr : r.code.cls = .recoverable) :
    ∃ u, exec i s = .next u ∧ FailsIdle t u r 0xFFFFFFFF#32 := by
  rw [he] at hexec
  exact ⟨_, hexec, t.endWith_failsIdle noPc (Code.setsErr_of_recoverable hr)⟩

/-! ### What the functions return -/

/-- `peek(n)` returns the next bits, with zeros for those past the end (41_bit_reader.md R203). -/
theorem State.peek_ok (s : State) {n : Nat} (h : n ≤ 32) :
    s.peek n = .ok (word (if n ≤ s.bitsLeft then stream s.mem.rbsp s.bitPos n
      else stream s.mem.rbsp s.bitPos s.bitsLeft * 2 ^ (n - s.bitsLeft))) s := by
  unfold State.peek
  rw [if_neg (by omega)]
  by_cases hle : n ≤ s.bitsLeft
  · simp [hle]
  · simp [hle, Nat.min_eq_right (Nat.le_of_not_le hle)]

theorem State.flag_ok {s : State} (hb : s.readerBounds) (h : 1 ≤ s.bitsLeft) :
    ∃ t, s.flag = .ok (word (stream s.mem.rbsp s.bitPos 1)) t ∧ Consumed s t 1 :=
  State.read_ok hb (by decide) h

/-- `se()` returns the signed number of the code at BR_BITPOS and consumes it (45_vlc.md R365). -/
theorem State.se_ok {s : State} {l : Nat} (hb : s.readerBounds) (h : CodeAt s l) :
    ∃ t, s.se = .ok (BitVec.ofInt 32 (signedNumber (codeNumber s l))) t ∧ Consumed s t (2 * l + 1) := by
  obtain ⟨t, hue, ht⟩ := State.ue_ok hb h
  refine ⟨t, ?_, ht⟩
  unfold State.se
  rw [hue, Eff.bind_ok, seMap_word h.codeNumber_lt]

theorem State.se_raise {s : State} {r : Raise} (h : s.ue = .raise r s) : s.se = .raise r s := by
  unfold State.se
  rw [h, Eff.bind_raise]

theorem CodeAt.word_codeNumber_toNat {s : State} {l : Nat} (h : CodeAt s l) :
    (word (codeNumber s l)).toNat = codeNumber s l :=
  (BitVec.toNat_ofNat _ 32).trans (Nat.mod_eq_of_lt (by have := h.codeNumber_lt; omega))

/-- A range check after a read: the value inside the bounds, E_RANGE outside them with the element consumed (45_vlc.md
R366, R367). -/
theorem checkU_of_toNat {lo hi v : Word} {x : Nat} (hv : v.toNat = x) (s : State) :
    (lo.toNat ≤ x ∧ x ≤ hi.toNat → checkU lo hi v s = .ok v s) ∧
      (¬ (lo.toNat ≤ x ∧ x ≤ hi.toNat) → checkU lo hi v s = .raise (rangeRaise v lo hi) s) := by
  subst hv
  exact ⟨fun h => if_pos h, fun h => if_neg h⟩

theorem checkS_of_toInt {lo hi v : Word} {x : Int} (hv : v.toInt = x) (s : State) :
    (lo.toInt ≤ x ∧ x ≤ hi.toInt → checkS lo hi v s = .ok v s) ∧
      (¬ (lo.toInt ≤ x ∧ x ≤ hi.toInt) → checkS lo hi v s = .raise (rangeRaise v lo hi) s) := by
  subst hv
  exact ⟨fun h => if_pos h, fun h => if_neg h⟩

theorem Eff.bind_of_ok {α β : Type} {e : Eff α} {a : α} {s : State} (h : e = .ok a s) (f : α → State → Eff β) :
    e.bind f = f a s := by
  rw [h, Eff.bind_ok]

/-- The first trailing bit is 0: E_TRAIL_STOP with that bit consumed (45_vlc.md R381). -/
theorem State.trailingBits_stop {s : State} (hb : s.readerBounds) (hlt : s.bitPos < s.streamLen)
    (h : streamBit s.mem.rbsp s.bitPos = false) :
    ∃ t, s.trailingBits = .raise { code := .eTrailStop, min := word s.bitPos } t ∧ Consumed s t 1 := by
  obtain ⟨t, hread, ht⟩ := State.read_one hb hlt
  refine ⟨t, ?_, ht⟩
  unfold State.trailingBits
  rw [hread, Eff.bind_ok, h, if_pos (by decide), ht.2.2]
  rfl

/-- A later trailing bit is 1: E_TRAIL_ALIGN with the bits up to it consumed (45_vlc.md R381). -/
theorem State.trailingBits_align {s : State} {j : Nat} (hb : s.readerBounds) (hlt : s.bitPos < s.streamLen) (h1 : 1 ≤ j)
    (hj : j < 8 - s.bitPos % 8) (hstop : streamBit s.mem.rbsp s.bitPos = true)
    (hz : ∀ i, 1 ≤ i → i < j → streamBit s.mem.rbsp (s.bitPos + i) = false)
    (hone : streamBit s.mem.rbsp (s.bitPos + j) = true) :
    ∃ t, s.trailingBits = .raise { code := .eTrailAlign, value := 1#32, min := word (s.bitPos + j) } t ∧
      Consumed s t (j + 1) := by
  obtain ⟨k, rfl⟩ : ∃ k, j = 1 + k := ⟨j - 1, by omega⟩
  obtain ⟨t, hread, ht⟩ := State.read_one hb hlt
  obtain ⟨hle, halign⟩ := ht.align_le hlt
  have hb' := ht.bounds hb (by unfold State.bitsLeft; omega)
  have hbit : ∀ i, streamBit t.mem.rbsp (t.bitPos + i) = streamBit s.mem.rbsp (s.bitPos + (1 + i)) := by
    intro i
    rw [ht.mem, ht.2.2, Nat.add_assoc]
  obtain ⟨u, hpad, hu⟩ := trailPadding_align (s := t) (n := t.bitsToAlign) (c := 1) (j := k) hb' hle (by omega)
    (fun i hi => by rw [hbit]; exact hz _ (by omega) (by omega)) (by rw [hbit]; exact hone)
  refine ⟨u, ?_, by rw [Nat.add_assoc]; exact ht.trans hu⟩
  unfold State.trailingBits
  rw [hread, Eff.bind_ok, hstop, if_neg (by decide), hpad, Eff.bind_raise, ht.2.2, Nat.add_assoc]

/-- No bit is left for the stop bit (45_vlc.md R381). -/
theorem State.trailingBits_underflow {s : State} (h : s.bitPos = s.streamLen) :
    s.trailingBits = .raise { code := .eBrUnderflow, value := 1#32 } s := by
  have hleft : s.bitsLeft = 0 := by
    unfold State.bitsLeft
    omega
  unfold State.trailingBits
  rw [State.read_underflow (by decide) (by omega), Eff.bind_raise, hleft]

/-! ### The commands -/

/-- Settles O14: the value of each command's function, which leaves the state alone. -/
theorem reportCommands : Obligations.ReportCommands := by
  refine ⟨fun s => ⟨_, rfl, rfl⟩, fun s n hn => ?_, fun s => ⟨⟨_, rfl, rfl⟩, ⟨_, rfl, rfl⟩, fun h => ?_, fun h => ?_⟩⟩
  · have hexec : exec (.brPeek n) s = .next (State.finishResult (s.peek n)) := rfl
    rw [s.peek_ok hn] at hexec
    exact ⟨_, hexec, s.completes_result _⟩
  · have hmore : s.moreRbspData = true := s.moreRbspData_iff.mpr h
    have hexec : exec .moreRbspData s = .next (State.finishResult (.ok (flagWord s.moreRbspData) s)) := rfl
    rw [hmore] at hexec
    exact ⟨_, hexec, s.completes_result _⟩
  · have hmore : s.moreRbspData = false := Bool.eq_false_iff.mpr fun hm => h (s.moreRbspData_iff.mp hm)
    have hexec : exec .moreRbspData s = .next (State.finishResult (.ok (flagWord s.moreRbspData) s)) := rfl
    rw [hmore] at hexec
    exact ⟨_, hexec, s.completes_result _⟩

/-- Settles O15: each command's function returns the bits or the number of the code, and consumes them. -/
theorem readCommands : Obligations.ReadCommands := by
  refine ⟨fun s hb => ⟨fun n hn hleft => ?_, fun hleft => ?_⟩, fun s l hb hcode => ⟨?_, ?_⟩⟩
  · obtain ⟨t, hread, ht⟩ := State.read_ok hb hn hleft
    exact ⟨exec_readsResult rfl hread ht, exec_readsResult rfl hread ht⟩
  · obtain ⟨t, hflag, ht⟩ := State.flag_ok hb hleft
    exact exec_readsResult rfl hflag ht
  · obtain ⟨t, hue, ht⟩ := State.ue_ok hb hcode
    exact exec_readsResult rfl hue ht
  · obtain ⟨t, hse, ht⟩ := State.se_ok hb hcode
    exact exec_readsResult rfl hse ht

/-- The commands that read `n` bits end with the outcome of `read(n)`. -/
theorem exec_read_raise {s : State} {n : Nat} {r : Raise} (h : s.read n = .raise r s) :
    ∀ i ∈ [Instr.brRead n, .readCode n, .readCodeR n], exec i s = .next (State.finishResult (.raise r s)) := by
  intro i hi
  simp only [List.mem_cons, List.not_mem_nil, or_false] at hi
  obtain rfl | rfl | rfl := hi
  · exact congrArg (fun e => Outcome.next (State.finishResult e)) h
  · exact congrArg (fun e => Outcome.next (State.finishResult e)) h
  · exact congrArg (fun e => Outcome.next (State.finishResult (e.bind (checkU s.latch.arg0 s.latch.arg1)))) h

/-- The commands that read an Exp-Golomb code end with the outcome of `ue()`. -/
theorem exec_ue_raise {s : State} {r : Raise} (h : s.ue = .raise r s) :
    ∀ i ∈ [Instr.readUvlc, .readSvlc, .readUvlcR, .readSvlcR],
      exec i s = .next (State.finishResult (.raise r s)) := by
  intro i hi
  simp only [List.mem_cons, List.not_mem_nil, or_false] at hi
  obtain rfl | rfl | rfl | rfl := hi
  · exact congrArg (fun e => Outcome.next (State.finishResult e)) h
  · exact congrArg (fun e => Outcome.next (State.finishResult e)) (State.se_raise h)
  · exact congrArg (fun e => Outcome.next (State.finishResult (e.bind (checkU s.latch.arg0 s.latch.arg1)))) h
  · exact congrArg (fun e => Outcome.next (State.finishResult (e.bind (checkS s.latch.arg0 s.latch.arg1))))
      (State.se_raise h)

/-- Settles O16: each function's checks come before it consumes a bit. -/
theorem readOutcomes : Obligations.ReadOutcomes := by
  refine ⟨fun s n => ⟨fun hn i hi => ?_, fun hn hleft i hi => ?_⟩, fun s hleft => ?_, fun s i hi =>
    ⟨fun hleft hz => ?_, fun hleft hz => ?_, fun l hl hleft hshort hz hone => ?_⟩⟩
  · have hexec : exec i s = .next (s.endWith { code := .fBrWidth, value := word n } noPc) := by
      by_cases hpeek : i = .brPeek n
      · subst hpeek
        exact congrArg (fun e => Outcome.next (State.finishResult e)) (if_pos hn)
      · exact exec_read_raise (State.read_width hn) i (by simp_all)
    exact ⟨_, hexec, s.endWith_failsHalted noPc Code.cls_fBrWidth⟩
  · exact exec_failsIdle (exec_read_raise (State.read_underflow hn hleft) i hi) rfl Code.cls_eBrUnderflow
  · have hflag : s.flag = .raise { code := .eBrUnderflow, value := 1#32, max := word s.bitsLeft } s :=
      State.read_underflow (by decide) (by unfold State.bitsLeft; omega)
    rw [show s.bitsLeft = 0 from hleft] at hflag
    exact exec_failsIdle rfl hflag Code.cls_eBrUnderflow
  · exact exec_failsIdle (exec_ue_raise (State.ue_overflow hleft hz) i hi) rfl Code.cls_eEgOverflow
  · exact exec_failsIdle (exec_ue_raise (State.ue_noOne hleft hz) i hi) rfl Code.cls_eBrUnderflow
  · exact exec_failsIdle (exec_ue_raise (State.ue_short hl hleft hshort hz hone) i hi) rfl Code.cls_eBrUnderflow

/-- Settles O20: the value read, and the range check on it. -/
theorem rangeCheckedCommands : Obligations.RangeCheckedCommands := by
  intro s hb
  refine ⟨fun n hn hleft x hx => ?_, fun l hcode x hx => ?_, fun l hcode x hx => ?_⟩
  · subst hx
    obtain ⟨t, hread, ht⟩ := State.read_ok hb hn hleft
    obtain ⟨hin, hout⟩ := checkU_of_toNat (lo := s.latch.arg0) (hi := s.latch.arg1) (word_stream_toNat _ _ hn) t
    have he := Eff.bind_of_ok hread (checkU s.latch.arg0 s.latch.arg1)
    refine ⟨fun h => exec_readsResult rfl (he.trans (hin h)) ht, fun h => ?_⟩
    obtain ⟨u, hexec, hu⟩ := exec_failsIdle (i := .readCodeR n) rfl (he.trans (hout h)) Code.cls_eRange
    exact ⟨u, t, hexec, ht, hu⟩
  · subst hx
    obtain ⟨t, hue, ht⟩ := State.ue_ok hb hcode
    obtain ⟨hin, hout⟩ := checkU_of_toNat (lo := s.latch.arg0) (hi := s.latch.arg1) hcode.word_codeNumber_toNat t
    have he := Eff.bind_of_ok hue (checkU s.latch.arg0 s.latch.arg1)
    refine ⟨fun h => exec_readsResult rfl (he.trans (hin h)) ht, fun h => ?_⟩
    obtain ⟨u, hexec, hu⟩ := exec_failsIdle (i := .readUvlcR) rfl (he.trans (hout h)) Code.cls_eRange
    exact ⟨u, t, hexec, ht, hu⟩
  · subst hx
    obtain ⟨t, hse, ht⟩ := State.se_ok hb hcode
    obtain ⟨hin, hout⟩ := checkS_of_toInt (lo := s.latch.arg0) (hi := s.latch.arg1)
      (toInt_signedNumber hcode.codeNumber_lt) t
    have he := Eff.bind_of_ok hse (checkS s.latch.arg0 s.latch.arg1)
    refine ⟨fun h => exec_readsResult rfl (he.trans (hin h)) ht, fun h => ?_⟩
    obtain ⟨u, hexec, hu⟩ := exec_failsIdle (i := .readSvlcR) rfl (he.trans (hout h)) Code.cls_eRange
    exact ⟨u, t, hexec, ht, hu⟩

/-- RBSP_TRAILING_BITS returns the bits left after the padding, or has its outcome (45_vlc.md R382). -/
theorem exec_trailingBits_raise {s t : State} {r : Raise} (h : s.trailingBits = .raise r t) :
    exec .rbspTrailingBits s = .next (State.finishResult (.raise r t)) :=
  congrArg (fun e : Eff Nat => Outcome.next (State.finishResult (e.bind fun _ t => .ok (word t.bitsLeft) t))) h

/-- Settles O21: the padding, and its three outcomes. -/
theorem trailingBitsCommand : Obligations.TrailingBitsCommand := by
  intro s hb
  refine ⟨fun m hm => ?_, fun hend => ?_, fun hlt hstop => ?_, fun j hlt h1 hj hstop hz hone => ?_⟩
  · obtain ⟨t, htrail, ht⟩ := State.trailingBits_ok hb hm
    have hleft : t.bitsLeft = s.streamLen - (s.bitPos + m) := by
      unfold State.bitsLeft
      rw [ht.streamLen, ht.2.2]
    have he := Eff.bind_of_ok htrail fun _ t => .ok (word t.bitsLeft) t
    rw [hleft] at he
    exact exec_readsResult rfl he ht
  · exact exec_failsIdle (exec_trailingBits_raise (State.trailingBits_underflow hend)) rfl Code.cls_eBrUnderflow
  · obtain ⟨t, htrail, ht⟩ := State.trailingBits_stop hb hlt hstop
    obtain ⟨u, hexec, hu⟩ := exec_failsIdle (exec_trailingBits_raise htrail) rfl Code.cls_eTrailStop
    exact ⟨u, t, hexec, ht, hu⟩
  · obtain ⟨t, htrail, ht⟩ := State.trailingBits_align hb hlt h1 hj hstop hz hone
    obtain ⟨u, hexec, hu⟩ := exec_failsIdle (exec_trailingBits_raise htrail) rfl Code.cls_eTrailAlign
    exact ⟨u, t, hexec, ht, hu⟩

end Sys2Proof.Machine
end

section
/-!
PROOFS. The RBSP converter (42_rbsp_converter.md): the first two bytes are always copied, every byte string is an
emulation-prevented form or fails to go on as one, and what the post-pass strips (R251-R258).
-/

namespace Sys2Proof.Machine

open Host (Outcome)

/-! ### The first two bytes (R258) -/

/-- While fewer than two zero bytes have been copied, the next byte is copied. -/
theorem unescape_cons_ok {z i : Nat} {b : Byte} {rest o : List Byte} (hz : z < 2)
    (h : unescape z i false (b :: rest) = .ok o) :
    ∃ o', o = b :: o' ∧ unescape (if b = 0#8 then z + 1 else 0) (i + 1) false rest = .ok o' := by
  rw [unescape_copy (by omega) (by omega)] at h
  cases hu : unescape (if b = 0#8 then z + 1 else 0) (i + 1) false rest with
  | error r => rw [hu] at h; cases h
  | ok o' => rw [hu] at h; cases h; exact ⟨o', rfl, rfl⟩

/-- The loop never changes a unit's header. -/
theorem unescape_header {src o : List Byte} (h : unescape 0 0 false src = .ok o) : o.take 2 = src.take 2 := by
  match src with
  | [] => cases h; rfl
  | [b] =>
    obtain ⟨o₁, rfl, h₁⟩ := unescape_cons_ok (by decide) h
    cases h₁
    rfl
  | b :: c :: rest =>
    obtain ⟨o₁, rfl, h₁⟩ := unescape_cons_ok (by decide) h
    obtain ⟨o₂, rfl, -⟩ := unescape_cons_ok (by split <;> decide) h₁
    rfl

/-- Settles O24: the output is the start of what the loop gives, which is no longer and begins with the same bytes. -/
theorem convertedLength : Obligations.ConvertedLength := by
  intro src out vcl h
  obtain ⟨o, ho, hout⟩ := convert_ok h
  have hheader := unescape_header ho
  have hbyte : ∀ k < 2, k < out.length → out[k]? = src[k]? := by
    intro k hk hlt
    calc out[k]? = o[k]? :=
          (List.getElem?_eq_getElem hlt).trans (List.prefix_iff_getElem?.mp hout k hlt).symm
      _ = (o.take 2)[k]? := (List.getElem?_take_of_lt hk).symm
      _ = (src.take 2)[k]? := by rw [hheader]
      _ = src[k]? := List.getElem?_take_of_lt hk
  exact ⟨convert_length h, hbyte 0 (by decide), hbyte 1 (by decide)⟩

/-! ### The three forms of a byte string (R251-R255) -/

/-- A byte string is the emulation-prevented form of `p` after a run of `z` zero bytes, or goes on from one that ends in
`00 00` with a last 03, with a byte below 3, or with 03 and a byte above 3. -/
def ConversionForm (z : Nat) (p src : List Byte) : Prop :=
  src = escape z p ∨ (zeroRun z p = 2 ∧
    (src = escape z p ++ [3#8] ∨ ∃ (b : Byte) (rest : List Byte),
      (b.toNat < 3 ∧ src = escape z p ++ b :: rest) ∨ (3 < b.toNat ∧ src = escape z p ++ 3#8 :: b :: rest)))

/-- The same bytes before both sides. -/
theorem ConversionForm.cons {z z' : Nat} {p p' pre src : List Byte} (h : ConversionForm z' p' src)
    (hescape : escape z p = pre ++ escape z' p') (hrun : zeroRun z p = zeroRun z' p') :
    ConversionForm z p (pre ++ src) := by
  unfold ConversionForm at *
  rw [hescape, hrun]
  obtain rfl | ⟨hz, rfl | ⟨b, rest, ⟨hb, rfl⟩ | ⟨hb, rfl⟩⟩⟩ := h
  · exact .inl rfl
  · exact .inr ⟨hz, .inl (List.append_assoc _ _ _).symm⟩
  · exact .inr ⟨hz, .inr ⟨b, rest, .inl ⟨hb, (List.append_assoc _ _ _).symm⟩⟩⟩
  · exact .inr ⟨hz, .inr ⟨b, rest, .inr ⟨hb, (List.append_assoc _ _ _).symm⟩⟩⟩

/-- Every byte string has one of the forms, by the bytes at its start. -/
theorem exists_conversionForm (src : List Byte) {z : Nat} (hz : z ≤ 2) : ∃ p, ConversionForm z p src := by
  match src with
  | [] => exact ⟨[], .inl rfl⟩
  | b :: rest =>
    by_cases hcopy : z = 2 ∧ b.toNat ≤ 3
    · obtain ⟨rfl, hb⟩ := hcopy
      rcases Nat.lt_or_eq_of_le hb with hlt | heq
      · exact ⟨[], .inr ⟨rfl, .inr ⟨b, rest, .inl ⟨hlt, rfl⟩⟩⟩⟩
      · obtain rfl : b = 3#8 := BitVec.eq_of_toNat_eq heq
        match rest with
        | [] => exact ⟨[], .inr ⟨rfl, .inl rfl⟩⟩
        | c :: rest =>
          by_cases hc : c.toNat ≤ 3
          · obtain ⟨p, hp⟩ := exists_conversionForm rest (z := if c = 0#8 then 1 else 0) (by split <;> decide)
            exact ⟨c :: p, hp.cons (pre := [3#8, c]) (escape_insert hc p) (zeroRun_insert c p)⟩
          · exact ⟨[], .inr ⟨rfl, .inr ⟨c, rest, .inr ⟨by omega, rfl⟩⟩⟩⟩
    · obtain ⟨p, hp⟩ := exists_conversionForm rest (copiedRun_le_two hz hcopy)
      exact ⟨b :: p, hp.cons (pre := [b]) (escape_copy hcopy p) (zeroRun_copy hcopy p)⟩
termination_by src.length

/-! ### The outcomes of the loop (R254, R255) -/

theorem setWidth_byte (b : Byte) : b.setWidth 32 = 0#24 ++ b := by
  rw [BitVec.setWidth_eq_append (by decide)]
  rfl

theorem unescape_small (i : Nat) {b : Byte} (rest : List Byte) (h : b.toNat < 3) :
    unescape 2 i false (b :: rest) = .error { code := .eEpbSmall, value := 0#24 ++ b, min := word i } := by
  simp [unescape, h, setWidth_byte]

theorem unescape_large (z i : Nat) {b : Byte} (rest : List Byte) (h : 3 < b.toNat) :
    unescape z i true (b :: rest) = .error { code := .eEpbLarge, value := 0#24 ++ b, min := word i } := by
  rw [← setWidth_byte]
  exact if_pos h

/-- The loop ends with the outcome of what follows an emulation-prevented form. -/
theorem convert_escape_append_error {p tail : List Byte} {r : Raise} (vcl : Bool)
    (h : unescape (zeroRun 0 p) (escape 0 p).length false tail = .error r) :
    convert (escape 0 p ++ tail) vcl = .error r := by
  unfold convert
  rw [unescape_escape_append p tail (Nat.zero_le 2), Nat.zero_add, h]
  rfl

/-- The bytes of the first form, perhaps with a last 03, give back `p`. -/
theorem unescape_of_escape {src p : List Byte} (h : src = escape 0 p ∨ (zeroRun 0 p = 2 ∧ src = escape 0 p ++ [3#8])) :
    unescape 0 0 false src = .ok p := by
  obtain rfl | ⟨hrun, rfl⟩ := h
  · exact unescape_escape p
  · rw [unescape_escape_append p _ (Nat.zero_le 2), hrun, unescape_drop]
    exact congrArg Except.ok (List.append_nil p)

/-! ### The post-pass (R256) -/

theorem dropTrailingZeros_append_replicate {q : List Byte} (hq : q.getLast? ≠ some 0#8) (n : Nat) :
    dropTrailingZeros (q ++ List.replicate n 0#8) = q := by
  have hzeros : (List.replicate n 0#8 ++ q.reverse).dropWhile (· = 0#8) = q.reverse.dropWhile (· = 0#8) :=
    List.dropWhile_append_of_pos fun b hb => decide_eq_true (List.eq_of_mem_replicate hb)
  unfold dropTrailingZeros
  rw [List.reverse_append, List.reverse_replicate, hzeros]
  exact dropTrailingZeros_eq_self hq

theorem convert_of_unescape {src p : List Byte} (vcl : Bool) (h : unescape 0 0 false src = .ok p) :
    convert src vcl = postPass vcl p := by
  unfold convert
  rw [h]
  rfl

/-- Settles O25: the forms by the bytes at the start, the loop's outcomes after an emulation-prevented form, and the
post-pass on what it gives back. -/
theorem conversionOutcomes : Obligations.ConversionOutcomes := by
  refine ⟨fun src => exists_conversionForm src (Nat.zero_le 2), fun p rest b vcl hrun => ⟨fun hb => ?_, fun hb => ?_⟩,
    fun src p hsrc => ?_⟩
  · refine convert_escape_append_error vcl ?_
    rw [hrun]
    exact unescape_small _ rest hb
  · refine convert_escape_append_error vcl ?_
    rw [hrun, unescape_drop]
    exact unescape_large _ _ rest hb
  · have hp := unescape_of_escape hsrc
    refine ⟨fun q n hpq hq => ?_, fun hlast => ?_, fun hlast => ?_⟩
    · rw [convert_of_unescape true hp, hpq]
      exact congrArg Except.ok (dropTrailingZeros_append_replicate hq n)
    · rw [convert_of_unescape false hp]
      exact postPass_eq_ok false hlast
    · rw [convert_of_unescape false hp]
      exact if_pos hlast

/-! ### CONVERT_RANGE -/

theorem convert_error_mem {src : List Byte} {vcl : Bool} {r : Raise} (h : convert src vcl = .error r) :
    r.code ∈ [Code.eEpbSmall, .eEpbLarge, .eTrailingZero] := by
  simpa using convert_error h

theorem convert_error_class {src : List Byte} {vcl : Bool} {r : Raise} (h : convert src vcl = .error r) :
    r.code.cls = .recoverable := by
  rcases convert_error h with h | h | h <;> rw [h]
  · exact Code.cls_eEpbSmall
  · exact Code.cls_eEpbLarge
  · exact Code.cls_eTrailingZero

theorem State.convertBytes_ok {s : State} {src out : List Byte} {vcl : Bool} (h : convert src vcl = .ok out) :
    s.convertBytes src vcl = .ok (word out.length) (s.storeRbsp out vcl) := by
  unfold State.convertBytes
  rw [h]

theorem State.convertBytes_error {s : State} {src : List Byte} {vcl : Bool} {r : Raise} (h : convert src vcl = .error r) :
    s.convertBytes src vcl = .raise r (s.emptyRbsp (.converted vcl)) := by
  unfold State.convertBytes
  rw [h]

theorem Code.setsErr_of_rejected {c : Code} (h : c.cls = .rejected) : c.setsErr = true :=
  (Code.setsErr_eq c).mpr (.inl h)

/-- A range of the access unit that CONVERT_RANGE takes (42_rbsp_converter.md R260). -/
theorem exec_convertRange {s : State} (vcl : Bool) (hau : s.latch.auLen.toNat ≤ s.params.auCap)
    (hrange : s.latch.arg0.toNat + s.latch.arg1.toNat ≤ s.latch.auLen.toNat) :
    exec (.convertRange vcl) s = .next (State.finishResult
      (s.convertBytes (s.mem.au.slice s.latch.arg0.toNat s.latch.arg1.toNat) vcl)) := by
  rcases execConvertRange_cases vcl s with ⟨hlt, -⟩ | ⟨-, hlt, -⟩ | ⟨-, -, he⟩
  · omega
  · omega
  · exact he

/-- Settles O22: the range, and the conversion of its bytes. -/
theorem convertRangeCommand : Obligations.ConvertRangeCommand := by
  refine ⟨fun s vcl out hau hrange hout => ?_, fun s vcl hau => ⟨fun hrange => ?_, fun r hrange hr => ⟨convert_error_mem hr, ?_⟩⟩⟩
  · have hexec := exec_convertRange vcl hau hrange
    rw [State.convertBytes_ok hout] at hexec
    exact ⟨_, hexec, rfl, fun i hi => s.storeRbsp_read out vcl hi⟩
  · rcases execConvertRange_cases vcl s with ⟨hlt, -⟩ | ⟨-, -, he⟩ | ⟨-, hle, -⟩
    · omega
    · exact ⟨_, he, s.endWith_failsIdle noPc (Code.setsErr_of_rejected Code.cls_eRangeArgs)⟩
    · omega
  · have hexec := exec_convertRange vcl hau hrange
    rw [State.convertBytes_error hr] at hexec
    exact ⟨_, _, hexec, State.endWith_failsIdle _ noPc (Code.setsErr_of_recoverable (convert_error_class hr)), rfl⟩

end Sys2Proof.Machine
end

section
/-!
PROOFS. The start-code scanner (43_scanner_framer.md R280-R290). The codes it finds are all there are: a `00 00 01` that
a match covers is the end of that match, and a code of length 3 has no zero byte before it, since the byte there ends a
match or begins no code. The table and the type of the first unit follow from the units.
-/

namespace Sys2Proof.Machine

open Host (Outcome)

/-! ### Every start code is found (R283, R287) -/

theorem take_three_eq_startCode_iff (l : List Byte) :
    l.take 3 = startCode false ↔ ∃ rest, l = 0#8 :: 0#8 :: 1#8 :: rest := by
  constructor
  · intro h
    exact ⟨l.drop 3, by rw [← List.take_append_drop 3 l, h]; rfl⟩
  · rintro ⟨rest, rfl⟩
    rfl

/-- Where the codes of a list that begins with a match lie: the match, then those behind it. -/
theorem startCodes_of_isCode4 (p : Nat) (rest : List Byte) :
    startCodes p 0 (0#8 :: 0#8 :: 0#8 :: 1#8 :: rest) = (p, 4) :: startCodes (p + 4) 0 rest :=
  startCodes_startCode_append true rest p

theorem startCodes_of_isCode3 (p : Nat) (rest : List Byte) :
    startCodes p 0 (0#8 :: 0#8 :: 1#8 :: rest) = (p, 3) :: startCodes (p + 3) 0 rest :=
  startCodes_startCode_append false rest p

/-- Every `00 00 01` ends a code that the scan finds. -/
theorem exists_startCode_of_take {bytes : List Byte} (p q : Nat) (h : (bytes.drop q).take 3 = startCode false) :
    ∃ c ∈ startCodes p 0 bytes, c.1 + c.2 = p + q + 3 := by
  obtain ⟨tail, htail⟩ := (take_three_eq_startCode_iff _).mp h
  match bytes with
  | [] => simp at htail
  | b :: rest =>
    by_cases h4 : isCode4 (b :: rest) = true
    · obtain ⟨r, hr⟩ := (isCode4_iff _).mp h4
      rw [hr] at h htail ⊢
      rw [startCodes_of_isCode4]
      match q with
      | 0 | 2 | 3 => simp at htail
      | 1 => exact ⟨_, List.mem_cons_self, by omega⟩
      | q + 4 =>
        obtain ⟨c, hc, hsum⟩ := exists_startCode_of_take (bytes := r) (p + 4) q h
        exact ⟨c, List.mem_cons_of_mem _ hc, by omega⟩
    · by_cases h3 : isCode3 (b :: rest) = true
      · obtain ⟨r, hr⟩ := (isCode3_iff _).mp h3
        rw [hr] at h htail ⊢
        rw [startCodes_of_isCode3]
        match q with
        | 0 => exact ⟨_, List.mem_cons_self, by omega⟩
        | 1 | 2 => simp at htail
        | q + 3 =>
          obtain ⟨c, hc, hsum⟩ := exists_startCode_of_take (bytes := r) (p + 3) q h
          exact ⟨c, List.mem_cons_of_mem _ hc, by omega⟩
      · rw [startCodes_cons, if_neg h4, if_neg h3]
        match q with
        | 0 => exact absurd ((isCode3_iff _).mpr ⟨tail, htail⟩) h3
        | q + 1 =>
          obtain ⟨c, hc, hsum⟩ := exists_startCode_of_take (bytes := rest) (p + 1) q h
          exact ⟨c, hc, by omega⟩
termination_by bytes.length
decreasing_by
  all_goals simp_wf
  · have := congrArg List.length hr
    simp only [List.length_cons] at this
    omega
  · have := congrArg List.length hr
    simp only [List.length_cons] at this
    omega

/-- No zero byte comes before a code of length 3, unless the scan begins with it: the byte there ends a match, or it is a
byte at which no code begins. -/
theorem startCodes_before {bytes : List Byte} {p : Nat} {c : Nat × Nat} (h : c ∈ startCodes p 0 bytes) (h3 : c.2 = 3) :
    c.1 = p ∨ bytes[c.1 - p - 1]? ≠ some 0#8 := by
  match bytes with
  | [] => cases h
  | b :: rest =>
    by_cases hb4 : isCode4 (b :: rest) = true
    · obtain ⟨r, hr⟩ := (isCode4_iff _).mp hb4
      rw [hr] at h ⊢
      rw [startCodes_of_isCode4] at h
      rcases List.mem_cons.mp h with rfl | h
      · cases h3
      · obtain ⟨hle, -⟩ := startCodes_mem h
        rcases startCodes_before h h3 with heq | hne
        · exact .inr (by rw [heq, show p + 4 - p - 1 = 3 by omega]; simp)
        · by_cases heq : c.1 = p + 4
          · exact .inr (by rw [heq, show p + 4 - p - 1 = 3 by omega]; simp)
          · exact .inr (by rw [show c.1 - p - 1 = c.1 - (p + 4) - 1 + 4 by omega]; exact hne)
    · by_cases hb3 : isCode3 (b :: rest) = true
      · obtain ⟨r, hr⟩ := (isCode3_iff _).mp hb3
        rw [hr] at h ⊢
        rw [startCodes_of_isCode3] at h
        rcases List.mem_cons.mp h with rfl | h
        · exact .inl rfl
        · obtain ⟨hle, -⟩ := startCodes_mem h
          by_cases heq : c.1 = p + 3
          · exact .inr (by rw [heq, show p + 3 - p - 1 = 2 by omega]; simp)
          · have hne := (startCodes_before h h3).resolve_left heq
            exact .inr (by rw [show c.1 - p - 1 = c.1 - (p + 3) - 1 + 3 by omega]; exact hne)
      · rw [startCodes_cons, if_neg hb4, if_neg hb3] at h
        obtain ⟨hle, -, -, hcode⟩ := startCodes_mem h
        by_cases heq : c.1 = p + 1
        · refine .inr ?_
          rw [heq, show p + 1 - p - 1 = 0 by omega]
          rw [heq, h3, Nat.sub_self] at hcode
          obtain ⟨tail, htail⟩ := (take_three_eq_startCode_iff _).mp hcode
          intro hzero
          obtain rfl : b = 0#8 := Option.some.inj hzero
          exact hb4 ((isCode4_iff _).mpr ⟨tail, congrArg _ htail⟩)
        · have hne := (startCodes_before h h3).resolve_left heq
          exact .inr (by rw [show c.1 - p - 1 = c.1 - (p + 1) - 1 + 1 by omega]; exact hne)
termination_by bytes.length
decreasing_by
  all_goals simp_wf
  · have := congrArg List.length hr
    simp only [List.length_cons] at this
    omega
  · have := congrArg List.length hr
    simp only [List.length_cons] at this
    omega

/-! ### The last unit (R288) -/

/-- The zero bytes that the trim drops. -/
theorem dropTrailingZeros_spec (l : List Byte) :
    (∀ b ∈ l.drop (dropTrailingZeros l).length, b = 0#8) ∧ (dropTrailingZeros l).getLast? ≠ some 0#8 := by
  have hsplit : l = dropTrailingZeros l ++ (l.reverse.takeWhile (· = 0#8)).reverse := by
    unfold dropTrailingZeros
    rw [← List.reverse_append, List.takeWhile_append_dropWhile, List.reverse_reverse]
  constructor
  · intro b hb
    rw [show l.drop (dropTrailingZeros l).length = (l.reverse.takeWhile (· = 0#8)).reverse by
      conv_lhs => rw [hsplit]
      exact List.drop_left' (by rw [← hsplit]), List.mem_reverse] at hb
    have hzero := List.mem_takeWhile_imp (p := fun x : Byte => decide (x = 0#8)) hb
    exact of_decide_eq_true hzero
  · unfold dropTrailingZeros
    rw [List.getLast?_reverse]
    intro h
    have hhead := List.head?_dropWhile_not (p := fun x : Byte => decide (x = 0#8)) l.reverse
    rw [h] at hhead
    simp at hhead

/-! ### The units, by their codes -/

/-- The unit of the code at an index: it ends where the next code begins, the last one where the trim says. -/
theorem nalUnits_getElem {bytes : List Byte} {k : Nat} (h : k < (nalUnits bytes).length)
    (hc : k < (startCodes 0 0 bytes).length) :
    (nalUnits bytes)[k] = ⟨(startCodes 0 0 bytes)[k].1 + (startCodes 0 0 bytes)[k].2,
      if hn : k + 1 < (startCodes 0 0 bytes).length then (startCodes 0 0 bytes)[k + 1].1
      else trimmedEnd bytes ((startCodes 0 0 bytes)[k].1 + (startCodes 0 0 bytes)[k].2),
      (startCodes 0 0 bytes)[k].2⟩ :=
  frameUnits_getElem bytes _ k h hc

theorem nalUnits_length (bytes : List Byte) : (nalUnits bytes).length = (startCodes 0 0 bytes).length :=
  frameUnits_length bytes _

/-- Each unit is that of a code found. -/
theorem exists_startCode_of_unit {bytes : List Byte} {u : NalUnit} (h : u ∈ nalUnits bytes) :
    ∃ c ∈ startCodes 0 0 bytes, u.start = c.1 + c.2 ∧ u.scLen = c.2 := by
  obtain ⟨k, hk, rfl⟩ := List.getElem_of_mem h
  have hc : k < (startCodes 0 0 bytes).length := nalUnits_length bytes ▸ hk
  refine ⟨_, List.getElem_mem hc, ?_, ?_⟩ <;> rw [nalUnits_getElem hk hc]

/-- Each code found frames a unit. -/
theorem exists_unit_of_startCode {bytes : List Byte} {c : Nat × Nat} (h : c ∈ startCodes 0 0 bytes) :
    ∃ u ∈ nalUnits bytes, u.start = c.1 + c.2 := by
  obtain ⟨k, hc, rfl⟩ := List.getElem_of_mem h
  have hk : k < (nalUnits bytes).length := (nalUnits_length bytes).symm ▸ hc
  exact ⟨_, List.getElem_mem hk, by rw [nalUnits_getElem hk hc]⟩

/-- A code of length 4 begins with a zero byte. -/
theorem CodeIn.getElem?_of_four {bytes : List Byte} {q : Nat} (h : CodeIn bytes q 4) : bytes[q]? = some 0#8 := by
  obtain ⟨-, -, hcode⟩ := h
  have := congrArg (·[0]?) hcode
  simpa [startCode] using this

/-- The length of a code found says whether a zero byte comes before its `00 00 01`. -/
theorem startCodes_length_four_iff {bytes : List Byte} {c : Nat × Nat} (h : c ∈ startCodes 0 0 bytes) :
    c.2 = 4 ↔ 4 ≤ c.1 + c.2 ∧ bytes[c.1 + c.2 - 4]? = some 0#8 := by
  have hcode := (startCodes_mem h).2
  rw [Nat.sub_zero] at hcode
  constructor
  · intro h4
    rw [h4] at hcode ⊢
    exact ⟨by omega, by rw [Nat.add_sub_cancel]; exact hcode.getElem?_of_four⟩
  · rintro ⟨hle, hzero⟩
    by_contra hne
    have h3 : c.2 = 3 := hcode.1.resolve_right hne
    rcases startCodes_before h h3 with heq | hbefore
    · omega
    · rw [show c.1 + c.2 - 4 = c.1 - 0 - 1 by omega] at hzero
      exact hbefore hzero

/-- The last unit ends where the trim says. -/
theorem nalUnits_getLast?_stop {bytes : List Byte} {u : NalUnit} (h : (nalUnits bytes).getLast? = some u) :
    u.stop = trimmedEnd bytes u.start := by
  rw [List.getLast?_eq_getElem?] at h
  obtain ⟨hk, rfl⟩ := List.getElem?_eq_some_iff.mp h
  have hlen := nalUnits_length bytes
  have hc : (nalUnits bytes).length - 1 < (startCodes 0 0 bytes).length := hlen ▸ hk
  rw [nalUnits_getElem hk hc, dif_neg (by omega)]

/-- The byte before the end of a trimmed unit that is not empty is not 0. -/
theorem getElem?_trimmedEnd {bytes : List Byte} {start : Nat} (h : start < trimmedEnd bytes start) :
    bytes[trimmedEnd bytes start - 1]? ≠ some 0#8 := by
  obtain ⟨-, hlast⟩ := dropTrailingZeros_spec (bytes.drop start)
  have hpre := dropTrailingZeros_prefix (bytes.drop start)
  unfold trimmedEnd at h ⊢
  have hlt : (dropTrailingZeros (bytes.drop start)).length - 1 < (dropTrailingZeros (bytes.drop start)).length := by
    omega
  rw [List.getLast?_eq_getElem?, List.getElem?_eq_getElem hlt, ← List.prefix_iff_getElem?.mp hpre _ hlt,
    List.getElem?_drop] at hlast
  rw [Nat.add_sub_assoc (by omega)]
  exact hlast

/-- Settles O31: the codes found and the units they frame, one clause after the other. -/
theorem tableOrder : Obligations.TableOrder := by
  intro bytes
  refine ⟨fun u hu => ?_, fun k hk => ?_, fun p hp => ?_, fun u hu => ?_, fun u hu => ?_⟩
  · obtain ⟨k, hk, rfl⟩ := List.getElem_of_mem hu
    obtain ⟨hstart, hstop, hle, hlen, -, hcode⟩ := nalUnits_bounds hk
    exact ⟨hstart, hstop, hlen, hle, hcode⟩
  · have hc : k + 1 < (startCodes 0 0 bytes).length := nalUnits_length bytes ▸ hk
    rw [nalUnits_getElem (by omega) (by omega), nalUnits_getElem hk hc, dif_pos hc]
  · obtain ⟨c, hc, hsum⟩ := exists_startCode_of_take 0 p hp
    obtain ⟨u, hu, hstart⟩ := exists_unit_of_startCode hc
    exact ⟨u, hu, by omega⟩
  · obtain ⟨c, hc, hstart, hlen⟩ := exists_startCode_of_unit hu
    rw [hstart, hlen]
    exact startCodes_length_four_iff hc
  · have hstop := nalUnits_getLast?_stop hu
    rw [hstop]
    refine ⟨?_, getElem?_trimmedEnd⟩
    rw [trimmedEnd, ← List.drop_drop]
    exact (dropTrailingZeros_spec (bytes.drop u.start)).1

/-! ### The table that SCAN_AU and DECODE_AU write (R282-R286) -/

/-- Word 2 of an entry the scan writes. -/
theorem entryWord2_of_scLen {n : Nat} (h : n = 3 ∨ n = 4) : entryWord2 n = 0x42000000#32 ||| word n := by
  rcases h with rfl | rfl <;> decide

theorem nalUnits_scLen {bytes : List Byte} {k : Nat} (h : k < (nalUnits bytes).length) :
    (nalUnits bytes)[k].scLen = 3 ∨ (nalUnits bytes)[k].scLen = 4 :=
  (nalUnits_bounds h).2.2.2.1

/-- Settles O26: the one case of SCAN_AU that the lengths leave, with what `scan()` writes. -/
theorem scanCommand : Obligations.ScanCommand := by
  intro s us hlen hus hfit
  subst hus
  rcases execScanAu_cases s with ⟨hlong, -⟩ | ⟨-, hfull, -⟩ | ⟨-, -, t, hscanned, hexec⟩
  · omega
  · exact absurd hfull (Nat.not_lt.mpr hfit)
  · refine ⟨_, hexec, ?_, fun k hk => ?_⟩
    · have heq := congrArg (fun v : State => { v with result := word (nalUnits s.auBytes).length }.complete) hscanned.eq
      exact heq.trans (by rw [hscanned.warn]; rfl)
    · obtain ⟨hstart, hstop, hword2, hinfo⟩ := hscanned.word k hk
      exact ⟨hstart, hstop, hword2.trans (entryWord2_of_scLen (nalUnits_scLen hk)), hinfo⟩

/-- The end with E_NALT_FULL of a table that was cut off. -/
theorem cutOff_failsIdle {bytes : List Byte} {s t : State} (h : CutOff (nalUnits bytes) s t) :
    FailsIdle t (t.endWith { code := .eNaltFull, value := word s.params.naltCap } noPc)
        { code := .eNaltFull, value := word s.params.naltCap } 0xFFFFFFFF#32 ∧
      ∀ k (hk : k < (nalUnits bytes).length), k < s.params.naltCap →
        t.mem.naltWord k 0 = word (nalUnits bytes)[k].start ∧ t.mem.naltWord k 1 = word (nalUnits bytes)[k].stop ∧
        t.mem.naltWord k 2 = 0x42000000#32 ||| word (nalUnits bytes)[k].scLen ∧ t.mem.naltWord k 3 = 0#32 := by
  refine ⟨t.endWith_failsIdle noPc (Code.setsErr_of_rejected Code.cls_eNaltFull), fun k hk hcap => ?_⟩
  obtain ⟨hstart, hstop, hword2, hinfo⟩ := h.word k hk hcap
  exact ⟨hstart, hstop, hword2.trans (entryWord2_of_scLen (nalUnits_scLen hk)), hinfo⟩

/-- An end in IDLE leaves the memories. -/
theorem FailsIdle.mem {s t : State} {r : Raise} {pc : Word} (h : FailsIdle s t r pc) : t.mem = s.mem := by
  unfold FailsIdle at h
  rw [h]

/-- Settles O27: both commands end at the table that `scan()` cut off. -/
theorem tableFull : Obligations.TableFull := by
  intro s us hlen hus hfull i hi
  subst hus
  have hcases : i = .scanAu ∨ i = .decodeAu := by simpa using hi
  rcases hcases with rfl | rfl
  · rcases execScanAu_cases s with ⟨hlong, -⟩ | ⟨-, -, t, hcut, hexec⟩ | ⟨-, hfit, -⟩
    · omega
    · obtain ⟨hfails, hwords⟩ := cutOff_failsIdle hcut
      exact ⟨_, t, hexec, hfails, hcut.eq, fun k hk hcap => hfails.mem ▸ hwords k hk hcap⟩
    · exact absurd hfull (Nat.not_lt.mpr hfit)
  · rcases execDecodeAu_cases s with ⟨hlong, -⟩ | ⟨-, -, t, hcut, hexec⟩ | ⟨-, hfit, -⟩
    · omega
    · obtain ⟨hfails, hwords⟩ := cutOff_failsIdle hcut
      exact ⟨_, t, hexec, hfails, hcut.eq, fun k hk hcap => hfails.mem ▸ hwords k hk hcap⟩
    · exact absurd hfull (Nat.not_lt.mpr hfit)

/-! ### The type of the first unit (R290) -/

theorem execPeekAuType_of_le {s : State} (h : s.latch.auLen.toNat ≤ s.params.auCap) :
    ∃ t, exec .peekAuType s = .next t ∧ Completes s t (peekType s.auBytes) := by
  refine ⟨_, ?_, s.completes_result (peekType s.auBytes)⟩
  show execPeekAuType s = _
  unfold execPeekAuType
  rw [State.auTooLong_false h, if_neg Bool.false_ne_true]
  rfl

/-- `type`, bits 7:3 of a header byte. -/
theorem word_div_eight (b : Byte) : word (b.toNat / 8) = (b >>> 3).setWidth 32 := by
  refine BitVec.eq_of_toNat_eq ?_
  have := b.isLt
  rw [show (word (b.toNat / 8)).toNat = b.toNat / 8 from (BitVec.toNat_ofNat _ _).trans (Nat.mod_eq_of_lt (by omega))]
  simp only [BitVec.toNat_setWidth, BitVec.toNat_ushiftRight, Nat.shiftRight_eq_div_pow]
  omega

/-- Settles O29: `peekType` on the units' three cases. -/
theorem peekTypeCommand : Obligations.PeekTypeCommand := by
  intro s us hlen hus
  have hus : nalUnits s.auBytes = us := hus.symm
  obtain ⟨t, hexec, hends⟩ := execPeekAuType_of_le hlen
  unfold peekType at hends
  rw [hus] at hends
  refine ⟨?_, ?_, ?_⟩
  · rintro rfl
    exact ⟨t, hexec, hends⟩
  · rintro u rest rfl hshort
    simp only [show u.stop - u.start < 2 by omega, if_true] at hends
    exact ⟨t, hexec, hends⟩
  · rintro u rest rfl hlong
    simp only [show ¬ u.stop - u.start < 2 by omega, if_false] at hends
    have hstop : u.stop ≤ s.auBytes.length := by
      have hk : 0 < (nalUnits s.auBytes).length := by rw [hus]; exact Nat.succ_pos _
      have := (nalUnits_bounds hk).2.1
      simpa only [hus, List.getElem_cons_zero] using this
    have hlength : s.auBytes.length = s.latch.auLen.toNat := s.auBytes_length
    have hbyte : s.auBytes.getD (u.start + 1) 0#8 = s.mem.au.read (u.start + 1) := by
      unfold State.auBytes
      rw [List.getD_eq_getElem?_getD, Bank.slice_getElem? _ _ _ _ (by omega), Nat.zero_add, Option.getD_some]
    rw [hbyte, word_div_eight] at hends
    exact ⟨t, hexec, hends⟩

end Sys2Proof.Machine
end

section
/-!
PROOFS. The framer and the header as commands (43_scanner_framer.md R292-R302, 44_nal_header.md R330-R339): loading a
unit, the unit loop of DECODE_AU and CONTINUE, ABORT, and the header's fields and outcomes; and the start of a parse
(46_sps_engine.md R401).
-/

namespace Sys2Proof.Machine

open Host (Outcome)

/-! ### LOAD_NAL (R292-R294) -/

/-- LOAD_NAL of a unit that is long enough to have a header. -/
theorem exec_loadNal {s : State} (hk : s.latch.arg0.toNat < s.nalCount.toNat)
    (hlong : (s.unitStart s.latch.arg0.toNat).toNat + 2 ≤ (s.unitEnd s.latch.arg0.toNat).toNat) :
    exec .loadNal s = .next (State.finishResult ({ s with curNal := s.latch.arg0 }.convertBytes
      (s.unitBytes s.latch.arg0.toNat) (s.unitVcl s.latch.arg0.toNat))) := by
  rcases execLoadNal_cases s with ⟨hle, -⟩ | ⟨-, u, rfl, ⟨hshort, -⟩ | ⟨-, hexec⟩⟩
  · omega
  · have : (s.unitEnd s.latch.arg0.toNat).toNat < (s.unitStart s.latch.arg0.toNat).toNat + 2 := of_decide_eq_true hshort
    omega
  · exact hexec

/-- Settles O32: the entry's range, and the conversion of its bytes. -/
theorem loadNalCommand : Obligations.LoadNalCommand := by
  refine ⟨?_, ?_⟩
  · rintro s k n0 n1 vcl rfl hk rfl rfl hlong rfl
    have hexec := exec_loadNal hk hlong
    refine ⟨fun out hout => ?_, fun r hr => ⟨convert_error_mem hr, ?_⟩⟩
    · replace hout : convert (s.unitBytes s.latch.arg0.toNat) (s.unitVcl s.latch.arg0.toNat) = .ok out := hout
      rw [State.convertBytes_ok hout] at hexec
      exact ⟨_, hexec, rfl, fun i hi => State.storeRbsp_read _ out (s.unitVcl s.latch.arg0.toNat) hi⟩
    · replace hr : convert (s.unitBytes s.latch.arg0.toNat) (s.unitVcl s.latch.arg0.toNat) = .error r := hr
      rw [State.convertBytes_error hr] at hexec
      exact ⟨_, _, hexec, State.endWith_failsIdle _ noPc (Code.setsErr_of_recoverable (convert_error_class hr)), rfl⟩
  · rintro s k rfl
    refine ⟨fun hle => ?_, fun hk hshort => ?_⟩
    · rcases execLoadNal_cases s with ⟨-, hexec⟩ | ⟨hlt, -⟩
      · exact ⟨_, hexec, s.endWith_failsIdle noPc (Code.setsErr_of_rejected Code.cls_eNalIndex)⟩
      · omega
    · rcases execLoadNal_cases s with ⟨hle, -⟩ | ⟨-, u, rfl, ⟨-, hexec⟩ | ⟨hlong, -⟩⟩
      · omega
      · exact ⟨_, _, hexec,
          State.endWith_failsIdle _ noPc (Code.setsErr_of_recoverable Code.cls_eNalTooShort), rfl⟩
      · exact absurd hshort (of_decide_eq_false hlong)

/-! ### The unit loop (R295-R302) -/

/-- Settles O33: the scan, then the loop from the new table. -/
theorem decodeAuCommand : Obligations.DecodeAuCommand := by
  intro s us hlen hus hfit
  subst hus
  rcases execDecodeAu_cases s with ⟨hlong, -⟩ | ⟨-, hfull, -⟩ | ⟨-, -, t, u, hscanned, rfl, hexec⟩
  · omega
  · exact absurd hfull (Nat.not_lt.mpr hfit)
  · refine ⟨_, _, hexec, State.resume_loopEnds hscanned.wf, ?_, fun k hk => ?_⟩
    · exact (congrArg (fun v : State => { v with decNext := 0#32 }) hscanned.eq).trans (by rw [hscanned.warn])
    · obtain ⟨hstart, hstop, hword2, hinfo⟩ := hscanned.word k hk
      exact ⟨hstart, hstop, hword2.trans (entryWord2_of_scLen (nalUnits_scLen hk)), hinfo⟩

/-- Settles O34: CONTINUE is the loop; with no unit left it completes. -/
theorem continueCommand : Obligations.ContinueCommand := by
  intro s hwf
  refine ⟨⟨_, rfl, State.resume_loopEnds hwf⟩, fun hnone => ⟨_, rfl, ?_⟩⟩
  have hleft : s.unitsLeft = 0 := Nat.sub_eq_zero_of_le hnone
  unfold State.resume
  rw [hleft]
  exact s.completes_result s.nalCount

/-- Settles O35: what the abort of the units left does to the table. -/
theorem abortCommand : Obligations.AbortCommand := by
  intro s hwf
  obtain ⟨heq, -, haborted, hother⟩ := State.abortUnitsInfo_spec hwf s.decNext.toNat s.unitsLeft
  have hleft : s.unitsLeft = s.nalCount.toNat - s.decNext.toNat := rfl
  refine ⟨_, rfl, ?_, fun k hge hlt => ?_, fun k i hi hk => hother k i hi (by omega)⟩
  · exact congrArg (fun v : State => { v with decNext := s.nalCount }.complete) heq
  · obtain ⟨hword2, hinfo⟩ := haborted k hge (by omega)
    refine ⟨?_, hinfo, ?_, hother k 0 (by decide) (by omega), hother k 1 (by decide) (by omega)⟩
    · exact (congrArg (BitVec.extractLsb' 24 8) hword2).trans (disp_setDisp _ _)
    · exact (congrArg (BitVec.extractLsb' 0 24) hword2).trans (low_setDisp _ _)

/-! ### The header (R330-R339) -/

/-- A field of `n` bits read as one number is its bits in the stream. -/
theorem extractLsb'_word_stream (b : Bank 8) (k : Nat) {n a m : Nat} (hm : a + m ≤ n) (hn : n ≤ 32) :
    (word (stream b k n)).extractLsb' a m = BitVec.ofNat m (stream b (k + (n - a - m)) m) := by
  refine BitVec.eq_of_getLsbD_eq fun i hi => ?_
  unfold word
  rw [BitVec.getLsbD_extractLsb', BitVec.getLsbD_ofNat, BitVec.getLsbD_ofNat,
    stream_testBit _ _ (show a + i < n by omega), stream_testBit _ _ hi,
    show k + (n - 1 - (a + i)) = k + (n - a - m) + (m - 1 - i) by omega]
  simp [hi, show a + i < 32 by omega]

/-- The 16 header bits, as one number, give the fields in their order. -/
theorem headerFields_stream (s : State) (vcl : BitVec 1) :
    headerFields (word (stream s.mem.rbsp s.bitPos 16)) vcl = Shapes.headerAt s vcl := by
  unfold headerFields Shapes.headerAt
  simp only [extractLsb'_word_stream, Nat.reduceAdd, Nat.reduceSub, Nat.reduceLeDiff, Nat.add_zero]

/-- The header's outcome with its value. -/
def headerRaise (h : Nuh) (c : Code) : Raise :=
  { code := c, value := if c = .sLayerId then h.layerId.setWidth 32 else h.pack }

/-- The checks of a header, by its outcome. -/
theorem headerCheck_eq (h : Nuh) : headerCheck h = (headerOutcome h).map (headerRaise h) := by
  have htid : h.tidPlus1 = 0#3 ↔ h.tidPlus1.toNat = 0 := BitVec.toNat_inj.symm
  unfold headerCheck headerOutcome
  by_cases hlayer : 55 < h.layerId.toNat
  · rw [if_pos hlayer, if_pos hlayer]
    rfl
  · rw [if_neg hlayer, if_neg hlayer]
    by_cases hzero : h.tidPlus1 = 0#3
    · rw [if_pos hzero, if_pos (htid.mp hzero)]
      rfl
    · have hpos : h.tidPlus1.toNat ≠ 0 := fun hc => hzero (htid.mpr hc)
      rw [if_neg hzero, if_neg hpos]
      by_cases hirap : 7 ≤ h.typ.toNat ∧ h.typ.toNat ≤ 11 ∧ h.tidPlus1.toNat ≠ 1
      · rw [if_pos hirap, if_pos ⟨⟨hirap.1, hirap.2.1⟩, by omega⟩]
        rfl
      · rw [if_neg hirap, if_neg (by omega)]
        by_cases hstsa : h.typ.toNat = 1 ∧ h.layerId.toNat = 0 ∧ h.tidPlus1.toNat = 1
        · rw [if_pos hstsa, if_pos (by omega)]
          rfl
        · rw [if_neg hstsa, if_neg (by omega)]
          rfl

/-- The header of the next 16 bits stored: what changes. -/
theorem State.storeHeader_moveReader {s : State} (hread : s.readerBounds) (hleft : 16 ≤ s.streamLen - s.bitPos) {h : Nuh}
    (hh : h = Shapes.headerAt s s.nuh.vcl) {u : State}
    (hu : u = (s.moveReader (s.bitPos + 16)).storeHeader (word (stream s.mem.rbsp s.bitPos 16))) :
    u.nuh = h ∧ u = { s with nuh := h, warn := headerWarn s.warn h, reader := u.reader, free := u.free } ∧
      u.reader.rbspLen = s.reader.rbspLen ∧ u.bitPos = s.bitPos + 16 := by
  have hframe := State.storeHeader_frame (s.moveReader (s.bitPos + 16)) (word (stream s.mem.rbsp s.bitPos 16))
  have hwarn := State.storeHeader_warn (s.moveReader (s.bitPos + 16)) (word (stream s.mem.rbsp s.bitPos 16))
  rw [State.moveReader_nuh, headerFields_stream, ← hh] at hframe hwarn
  rw [hwarn, ← hu] at hframe
  have hpos : (s.moveReader (s.bitPos + 16)).bitPos = s.bitPos + 16 := s.bitPos_moveReader (by have := hread.2; omega)
  rw [hframe]
  exact ⟨rfl, rfl, rfl, hpos⟩

@[simp] theorem headerRaise_code (h : Nuh) (c : Code) : (headerRaise h c).code = c := rfl

/-- S_LAYER_ID is recorded without ERR. -/
theorem State.endWith_sLayerId (u : State) (h : Nuh) : u.endWith (headerRaise h .sLayerId) noPc = { u with
    error := ⟨.sLayerId, 0xFFFFFFFF#32, h.layerId.setWidth 32, 0#32, 0#32, 0#32⟩,
    block := .idle, done := true, irqPend := u.irqPend ||| 0b001#3, engine := .off } := by
  have hset : Code.setsErr .sLayerId = false := by decide
  simp [State.endWith, State.endByClass, State.recordOutcome, State.complete, hset, headerRaise, IrqBit.mask, noPc]

/-- The other outcomes of a header fail. -/
theorem State.endWith_headerRaise (u : State) {h : Nuh} {c : Code} (hne : c ≠ .sLayerId)
    (hc : headerOutcome h = some c) : FailsIdle u (u.endWith (headerRaise h c) noPc) { code := c, value := h.pack } noPc := by
  have hcheck : headerCheck h = some (headerRaise h c) := by rw [headerCheck_eq, hc, Option.map_some]
  have hraise : headerRaise h c = { code := c, value := h.pack } := by rw [headerRaise, if_neg hne]
  rw [hraise] at hcheck ⊢
  exact u.endWith_failsIdle noPc (Code.setsErr_of_recoverable ((headerCheck_class hcheck).resolve_left hne))

/-- Settles O36: the underflow, and the stored header with each of its outcomes. -/
theorem headerCommand : Obligations.HeaderCommand := by
  refine ⟨fun s hshort => ?_, fun s h hread hleft hh => ?_⟩
  · rcases execParseNalHeader_cases s with ⟨-, hexec⟩ | ⟨hge, -⟩
    · exact ⟨_, hexec, s.endWith_failsIdle noPc (Code.setsErr_of_recoverable Code.cls_eBrUnderflow)⟩
    · exact absurd hshort (Nat.not_lt.mpr hge)
  · rcases execParseNalHeader_cases s with ⟨hlt, -⟩ | ⟨-, u, hu, hends⟩
    · exact absurd hleft (Nat.not_le.mpr hlt)
    obtain ⟨hnuh, hframe, hlen, hpos⟩ := State.storeHeader_moveReader hread hleft hh hu
    subst hnuh
    rw [headerCheck_eq] at hends
    cases hout : headerOutcome u.nuh with
    | none =>
      rw [hout] at hends
      obtain ⟨-, hexec⟩ | ⟨r, hr, -⟩ := hends
      · exact ⟨_, u, hexec, hframe, hlen, hpos, u.completes_result u.nuh.pack⟩
      · cases hr
    | some c =>
      rw [hout] at hends
      obtain ⟨hr, -⟩ | ⟨r, hr, hexec⟩ := hends
      · cases hr
      obtain rfl : headerRaise u.nuh c = r := Option.some.inj hr
      have hirq : s.irqPend = u.irqPend := (congrArg State.irqPend hframe).symm
      refine ⟨_, u, hexec, hframe, hlen, hpos, ?_⟩
      rw [hirq]
      split
      next heq => cases heq
      next heq =>
        obtain rfl : c = .sLayerId := Option.some.inj heq
        rw [headerRaise_code, if_pos rfl]
        exact State.endWith_sLayerId _ u.nuh
      next c' hne heq =>
        obtain rfl : c = c' := Option.some.inj heq
        rw [headerRaise_code, if_neg hne]
        exact u.endWith_headerRaise hne hout

/-! ### PARSE_SPS (46_sps_engine.md R401) -/

/-- Settles O37. -/
theorem parseSpsCommand : Obligations.ParseSpsCommand := fun s =>
  ⟨_, rfl, rfl, fun i => s.getV_startSps .parseSps i, fun a => Bank.read_cleared a, fun a => Bank.read_cleared a⟩

end Sys2Proof.Machine
end

section
/-!
PROOFS. The µops of the SPS engine (46_sps_engine.md R410-R470): the reads with and without bounds, their outcomes, the
division, the branches, the record, the checks, the queries and END. What a function of the bit reader returns is the
commands' (45_vlc.md); here it goes to V[D], or its outcome ends the parse.
-/

namespace Sys2Proof.Machine

open Host (Outcome)

open Shapes (divideUop)

/-! ### A µop that writes what a function of the bit reader returns -/

/-- A µop whose function returns a value. -/
theorem exec_readsV {i : Instr} {s t : State} {e : Eff Word} {d : BitVec 8} {n : Nat} {x : Word}
    (hexec : exec i s = .next (State.readBack d e)) (he : e = .ok x t) (hfits : s.nextFits) (h : Consumed s t n) :
    ∃ t, exec i s = .next t ∧ ReadsV s t d n x := by
  rw [he] at hexec
  exact ⟨_, hexec, State.readBack_ok d x hfits h⟩

/-- A µop whose function raises an outcome. -/
theorem exec_parseEnds {i : Instr} {s t : State} {e : Eff Word} {d : BitVec 8} {r : Raise}
    (hexec : exec i s = .next (State.readBack d e)) (he : e = .raise r t) (hpars : t.parsing)
    (hr : r.code.cls = .recoverable ∨ r.code.cls = .fatal) : ∃ u, exec i s = .next u ∧ ParseEnds t u r := by
  rw [he] at hexec
  exact ⟨_, hexec, State.endParse_parseEnds hpars hr⟩

theorem Consumed.parsing {s t : State} {n : Nat} (h : Consumed s t n) (hp : s.parsing) : t.parsing := by
  unfold State.parsing
  rw [h.1]
  exact hp

/-- Settles O38: the bits, or the number of the code, go to V[D]. -/
theorem readUops : Obligations.ReadUops := by
  refine ⟨fun s d a imm hb hfits => ⟨fun hleft => ?_, fun hn hleft => ?_, fun n hw hn hleft => ?_⟩,
    fun s d l hb hfits hcode => ⟨?_, ?_⟩⟩
  · obtain ⟨t, hread, ht⟩ := State.flag_ok hb hleft
    exact exec_readsV rfl hread hfits ht
  · obtain ⟨t, hread, ht⟩ := State.read_ok hb hn hleft
    exact exec_readsV rfl hread hfits ht
  · subst hw
    obtain ⟨t, hread, ht⟩ := State.read_ok hb hn hleft
    exact exec_readsV rfl hread hfits ht
  · obtain ⟨t, hue, ht⟩ := State.ue_ok hb hcode
    exact exec_readsV rfl hue hfits ht
  · obtain ⟨t, hse, ht⟩ := State.se_ok hb hcode
    exact exec_readsV rfl hse hfits ht

/-- Settles O39: the value read passes its range check. -/
theorem checkedReadUops : Obligations.CheckedReadUops := by
  intro s d a b w imm hb hfits
  refine ⟨fun n x hn hleft hx hlo hhi => ?_, fun l hcode => ⟨fun hlo hhi => ?_, fun hlo hhi => ?_⟩⟩
  · subst hx
    obtain ⟨t, hread, ht⟩ := State.read_ok hb hn hleft
    obtain ⟨hin, -⟩ := checkU_of_toNat (lo := s.getV a) (hi := s.getV b) (word_stream_toNat _ _ hn) t
    have he := (Eff.bind_of_ok hread (checkU (s.getV a) (s.getV b))).trans (hin ⟨hlo, hhi⟩)
    refine ⟨?_, ?_⟩ <;> rintro rfl
    · exact exec_readsV (i := .rdur d a b imm) rfl he hfits ht
    · exact exec_readsV (i := .rduvr d a b w) rfl he hfits ht
  · obtain ⟨t, hue, ht⟩ := State.ue_ok hb hcode
    obtain ⟨hin, -⟩ := checkU_of_toNat (lo := s.getV a) (hi := s.getV b) hcode.word_codeNumber_toNat t
    have he := (Eff.bind_of_ok hue (checkU (s.getV a) (s.getV b))).trans (hin ⟨hlo, hhi⟩)
    exact exec_readsV rfl he hfits ht
  · obtain ⟨t, hse, ht⟩ := State.se_ok hb hcode
    obtain ⟨hin, -⟩ := checkS_of_toInt (lo := s.getV a) (hi := s.getV b) (toInt_signedNumber hcode.codeNumber_lt) t
    have he := (Eff.bind_of_ok hse (checkS (s.getV a) (s.getV b))).trans (hin ⟨hlo, hhi⟩)
    exact exec_readsV rfl he hfits ht

/-! ### The outcomes of the reads -/

/-- The µops that read a number of bits end with the outcome of `read(n)`. -/
theorem exec_readUop_raise {s : State} {d a b w : BitVec 8} {imm : Word} {p : Instr × Word} {r : Raise}
    (hp : p ∈ [(Instr.rdf d, 1#32), (.rdu d imm, imm), (.rduv d w, s.getV w), (.rdur d a b imm, imm),
      (.rduvr d a b w, s.getV w)]) (h : s.read p.2.toNat = .raise r s) : exec p.1 s = .next (s.endParse r) := by
  simp only [List.mem_cons, List.not_mem_nil, or_false] at hp
  obtain rfl | rfl | rfl | rfl | rfl := hp
  · exact congrArg (fun e => Outcome.next (State.readBack d e)) h
  · exact congrArg (fun e => Outcome.next (State.readBack d e)) h
  · exact congrArg (fun e => Outcome.next (State.readBack d e)) h
  · exact congrArg (fun e => Outcome.next (State.readBack d (e.bind (checkU (s.getV a) (s.getV b))))) h
  · exact congrArg (fun e => Outcome.next (State.readBack d (e.bind (checkU (s.getV a) (s.getV b))))) h

/-- The µops that read an Exp-Golomb code end with the outcome of `ue()`. -/
theorem exec_codeUop_raise {s : State} {d a b : BitVec 8} {r : Raise} (h : s.ue = .raise r s) :
    ∀ i ∈ [Instr.rdue d, .rdse d, .rduer d a b, .rdser d a b], exec i s = .next (s.endParse r) := by
  intro i hi
  simp only [List.mem_cons, List.not_mem_nil, or_false] at hi
  obtain rfl | rfl | rfl | rfl := hi
  · exact congrArg (fun e => Outcome.next (State.readBack d e)) h
  · exact congrArg (fun e => Outcome.next (State.readBack d e)) (State.se_raise h)
  · exact congrArg (fun e => Outcome.next (State.readBack d (e.bind (checkU (s.getV a) (s.getV b))))) h
  · exact congrArg (fun e => Outcome.next (State.readBack d (e.bind (checkS (s.getV a) (s.getV b)))))
      (State.se_raise h)

/-- TRAIL as the end of `rbsp_trailing_bits()`. -/
theorem exec_trail_raise {s t : State} {r : Raise} (h : s.trailingBits = .raise r t) :
    exec .trail s = .next (t.endParse r) := by
  show execTrail s = _
  unfold execTrail
  rw [h]

theorem exec_trail_ok {s t : State} {m : Nat} (h : s.trailingBits = .ok m t) : exec .trail s = .next t.advance := by
  show execTrail s = _
  unfold execTrail
  rw [h]

/-- Settles O40: each function's outcome ends the parse at the µop, from the state the bits consumed leave. -/
theorem readUopOutcomes : Obligations.ReadUopOutcomes := by
  refine ⟨fun s d a b w imm hp r hr => ⟨fun hn => ?_, fun hn hleft => ?_⟩, fun s d a b hp i hi =>
    ⟨fun hleft hz => ?_, fun hleft hz => ?_, fun l hl hleft hshort hz hone => ?_⟩, fun s d a b w imm hb hp =>
    ⟨fun n x hn hleft hx hrange i hi => ?_, fun l x hcode hx hrange => ?_, fun l x hcode hx hrange => ?_⟩, fun s hb hp =>
    ⟨fun hend => ?_, fun hlt hstop => ?_, fun j hlt h1 hj hstop hz hone => ?_⟩⟩
  · have hexec := exec_readUop_raise hr (State.read_width hn)
    rw [word_toNat] at hexec
    exact ⟨_, hexec, State.endParse_parseEnds hp (.inr Code.cls_fBrWidth)⟩
  · have hexec := exec_readUop_raise hr (State.read_underflow hn hleft)
    rw [word_toNat] at hexec
    exact ⟨_, hexec, State.endParse_parseEnds hp (.inl Code.cls_eBrUnderflow)⟩
  · exact ⟨_, exec_codeUop_raise (State.ue_overflow hleft hz) i hi,
      State.endParse_parseEnds hp (.inl Code.cls_eEgOverflow)⟩
  · exact ⟨_, exec_codeUop_raise (State.ue_noOne hleft hz) i hi,
      State.endParse_parseEnds hp (.inl Code.cls_eBrUnderflow)⟩
  · exact ⟨_, exec_codeUop_raise (State.ue_short hl hleft hshort hz hone) i hi,
      State.endParse_parseEnds hp (.inl Code.cls_eBrUnderflow)⟩
  · subst hx
    obtain ⟨t, hread, ht⟩ := State.read_ok hb hn hleft
    obtain ⟨-, hout⟩ := checkU_of_toNat (lo := s.getV a) (hi := s.getV b) (word_stream_toNat _ _ hn) t
    have he := (Eff.bind_of_ok hread (checkU (s.getV a) (s.getV b))).trans (hout hrange)
    have hexec : exec i s = .next (State.readBack d ((s.code n).bind (checkU (s.getV a) (s.getV b)))) := by
      obtain ⟨rfl, rfl⟩ | ⟨rfl, rfl⟩ := hi <;> rfl
    obtain ⟨u, hexec, hu⟩ := exec_parseEnds hexec he (ht.parsing hp) (.inl Code.cls_eRange)
    exact ⟨u, t, hexec, ht, hu⟩
  · subst hx
    obtain ⟨t, hue, ht⟩ := State.ue_ok hb hcode
    obtain ⟨-, hout⟩ := checkU_of_toNat (lo := s.getV a) (hi := s.getV b) hcode.word_codeNumber_toNat t
    have he := (Eff.bind_of_ok hue (checkU (s.getV a) (s.getV b))).trans (hout hrange)
    obtain ⟨u, hexec, hu⟩ := exec_parseEnds (i := .rduer d a b) rfl he (ht.parsing hp) (.inl Code.cls_eRange)
    exact ⟨u, t, hexec, ht, hu⟩
  · subst hx
    obtain ⟨t, hse, ht⟩ := State.se_ok hb hcode
    obtain ⟨-, hout⟩ := checkS_of_toInt (lo := s.getV a) (hi := s.getV b) (toInt_signedNumber hcode.codeNumber_lt) t
    have he := (Eff.bind_of_ok hse (checkS (s.getV a) (s.getV b))).trans (hout hrange)
    obtain ⟨u, hexec, hu⟩ := exec_parseEnds (i := .rdser d a b) rfl he (ht.parsing hp) (.inl Code.cls_eRange)
    exact ⟨u, t, hexec, ht, hu⟩
  · exact ⟨_, exec_trail_raise (State.trailingBits_underflow hend),
      State.endParse_parseEnds hp (.inl Code.cls_eBrUnderflow)⟩
  · obtain ⟨t, htrail, ht⟩ := State.trailingBits_stop hb hlt hstop
    exact ⟨_, t, exec_trail_raise htrail, ht, State.endParse_parseEnds (ht.parsing hp) (.inl Code.cls_eTrailStop)⟩
  · obtain ⟨t, htrail, ht⟩ := State.trailingBits_align hb hlt h1 hj hstop hz hone
    exact ⟨_, t, exec_trail_raise htrail, ht, State.endParse_parseEnds (ht.parsing hp) (.inl Code.cls_eTrailAlign)⟩

/-! ### The queries (R465-R468) -/

/-- A µop that writes `x` where the next µop exists. -/
theorem exec_writesV {i : Instr} {s : State} {d : BitVec 8} {x y : Word} (h : exec i s = .next (s.writeBack d x))
    (hfits : s.nextFits) (hxy : x = y) : ∃ t, exec i s = .next t ∧ WritesV s t d y :=
  hxy ▸ (exec_writeBack h).2 hfits

/-- Settles O49: what the reader's queries return, and TRAIL. -/
theorem queryUops : Obligations.QueryUops := by
  refine ⟨fun s d hfits => ⟨fun hmore => ?_, fun hmore => ?_, ?_, ?_⟩, fun s m hb hfits hm => ?_⟩
  · exact exec_writesV (i := .mrd d) rfl hfits (congrArg flagWord (s.moreRbspData_iff.mpr hmore))
  · have hfalse : s.moreRbspData = false := Bool.eq_false_iff.mpr fun h => hmore (s.moreRbspData_iff.mp h)
    exact exec_writesV (i := .mrd d) rfl hfits (congrArg flagWord hfalse)
  · exact exec_writesV (i := .bta d) rfl hfits rfl
  · exact exec_writesV (i := .bleft d) rfl hfits rfl
  · obtain ⟨t, htrail, ht⟩ := State.trailingBits_ok hb hm
    have hpc : t.seqPc = s.seqPc := by rw [ht.1]
    have hfits' : t.nextFits := by
      unfold State.nextFits
      rw [hpc, ht.params]
      exact hfits
    refine ⟨_, t, exec_trail_ok htrail, ht, ?_⟩
    rw [State.advance_ok hfits', hpc]

/-! ### Division (R426-R428) -/

/-- A format DAB µop that the opcode map lists and that divides, with `g` for `f` where the divisor is not 0. -/
theorem divideUop_of_divideBack {op : BitVec 8} {i : BitVec 8 → BitVec 8 → BitVec 8 → Instr} {f g : Nat → Nat → Nat}
    (hvalue : ∀ x y, y ≠ 0 → g x y = f x y)
    (hdecode : ∀ d a b imm, decodeOp op d a b imm = .ok (i d a b) := by intros; rfl)
    (hexec : ∀ (s : State) d a b, exec (i d a b) s = .next (s.divideBack d a b g) := by intros; rfl) :
    divideUop op i f := by
  intro s d a b imm
  refine ⟨(decodeUop_uopWord op d a b imm).trans (hdecode d a b imm), fun hne hfits => ?_, fun hzero hp => ?_⟩
  · have hpos : (s.getV b).toNat ≠ 0 := fun h => hne (BitVec.eq_of_toNat_eq h)
    have h := hexec s d a b
    unfold State.divideBack at h
    rw [if_neg hne] at h
    exact exec_writesV h hfits (congrArg word (hvalue _ _ hpos))
  · have h := hexec s d a b
    unfold State.divideBack at h
    rw [if_pos hzero] at h
    exact ⟨_, h, State.endParse_parseEnds hp (.inr Code.cls_fUopDiv0)⟩

/-- The ceiling is the quotient, one more with a remainder. -/
theorem div_add_remainder_eq_ceil (x y : Nat) (hy : y ≠ 0) :
    x / y + (if x % y = 0 then 0 else 1) = (x + (y - 1)) / y := by
  have hx := Nat.div_add_mod x y
  have hlt := Nat.mod_lt x (Nat.pos_of_ne_zero hy)
  refine (Nat.div_eq_of_lt_le ?_ ?_).symm
  all_goals
    split <;> simp only [Nat.mul_comm _ y, Nat.mul_add, Nat.mul_one, Nat.mul_zero] <;> omega

/-- Settles O42: the quotient, the remainder and the ceiling. -/
theorem divisionUops : Obligations.DivisionUops :=
  ⟨divideUop_of_divideBack (fun _ _ _ => rfl), divideUop_of_divideBack (fun _ _ _ => rfl),
    divideUop_of_divideBack div_add_remainder_eq_ceil⟩

/-! ### Branches (R445-R448) -/

/-- A branch to a µop that exists. -/
theorem State.goto_of_eq {s : State} {m : Int} {n : Nat} (hm : m = n) (h : n < s.params.ustoreCap) :
    s.goto m = { s with seqPc := word n } := by
  rw [hm, State.goto_nat h]

/-- Settles O45: the target of each branch, and LOOP's counter. -/
theorem branchUops : Obligations.BranchUops := by
  intro s a b imm n hn
  refine ⟨fun h => ?_, fun h => ?_, fun h => ?_, fun h => ?_⟩
  · refine congrArg Outcome.next (State.goto_of_eq ?_ hn)
    rw [h]
    unfold State.forwardTarget State.nextTarget
    split <;> push_cast <;> rfl
  · refine congrArg Outcome.next (State.goto_of_eq ?_ hn)
    rw [h]
    unfold State.forwardTarget State.nextTarget
    split <;> push_cast <;> rfl
  · refine congrArg Outcome.next (State.goto_of_eq ?_ hn)
    rw [h]
    unfold State.forwardTarget
    push_cast
    rfl
  · have hgoto := State.goto_of_eq (s := s.setV a (s.getV a + 1#32)) (m := n) rfl hn
    rw [h] at hgoto
    exact ⟨_, congrArg Outcome.next hgoto, rfl, fun i => s.getV_setV a _ i⟩

/-! ### The record (R450, R451) -/

/-- Settles O47: the word at the address, its bit, and the outcome from REC_CAP on. -/
theorem recordUops : Obligations.RecordUops := by
  refine ⟨fun s a b d imm addr haddr hlt hfits => ⟨fun hrec hwr => ?_, ?_⟩, fun s a b d imm hp hge i hi => ?_⟩
  · have haddr : s.recordAddr b imm = addr := haddr.symm
    have hexec : exec (.str a b imm) s =
        .next { s with mem := s.mem.setRecord addr (s.getV a), seqPc := s.seqPc + 1#32 } := by
      refine (congrArg Outcome.next (if_neg (by rw [haddr]; omega))).trans ?_
      rw [haddr]
      exact congrArg Outcome.next (State.advance_ok (s := { s with mem := s.mem.setRecord addr (s.getV a) }) hfits)
    refine ⟨_, hexec, rfl, fun j => ?_, fun j => ?_⟩
    · split
      next h => rw [h]; exact Bank.read_write_self hrec _ _
      next h => exact Bank.read_write_of_ne h _ _
    · split
      next h => rw [h]; exact Bank.read_write_self hwr _ _
      next h => exact Bank.read_write_of_ne h _ _
  · have haddr : s.recordAddr b imm = addr := haddr.symm
    have hexec : exec (.ldr d b imm) s = .next (s.writeBack d (s.mem.record.read addr)) := by
      show execLdr d b imm s = _
      unfold execLdr
      simp only
      rw [haddr, if_neg (by omega)]
    exact exec_writesV hexec hfits rfl
  · have hexec : exec i s = .next (s.endParse (recordRaise (s.recordAddr b imm))) := by
      simp only [List.mem_cons, List.not_mem_nil, or_false] at hi
      obtain rfl | rfl := hi
      · exact congrArg Outcome.next (if_pos hge)
      · exact congrArg Outcome.next (if_pos hge)
    exact ⟨_, hexec, State.endParse_parseEnds hp (.inr Code.cls_fRecRange)⟩

/-! ### The checks (R460, R461) -/

theorem exec_chk_zero {s : State} {a : BitVec 8} (imm : Word) (h : s.getV a = 0#32) :
    exec (.chk a imm) s = .next (s.endParse { code := .eSpsCheck, tag := imm }) :=
  congrArg Outcome.next (if_pos h)

/-- Settles O48: both ways of CHK and CHKW. -/
theorem checkUops : Obligations.CheckUops := by
  intro s a imm
  refine ⟨fun hfits hne i hi => ?_, fun hp hzero => ?_, fun hfits hzero => ?_⟩
  · have hexec : exec i s = .next s.advance := by
      simp only [List.mem_cons, List.not_mem_nil, or_false] at hi
      obtain rfl | rfl := hi
      · exact congrArg Outcome.next (if_neg hne)
      · exact congrArg Outcome.next (if_neg hne)
    rw [hexec, State.advance_ok hfits]
  · exact ⟨_, exec_chk_zero imm hzero, State.endParse_parseEnds hp (.inl Code.cls_eSpsCheck)⟩
  · refine (congrArg Outcome.next (if_pos hzero)).trans ?_
    exact congrArg Outcome.next (State.advance_ok (s := { s.warnBit .spsCheck with warnTag := imm }) hfits)

/-! ### END, and an outcome inside DECODE_AU (R470; 43_scanner_framer.md R296-R300) -/

/-- Settles O50: END of a PARSE_SPS, and of a unit's parse. -/
theorem endUop : Obligations.EndUop := by
  refine ⟨fun s hengine => ?_, fun s c hengine hwf hc => ?_⟩
  · have hne : s.engine ≠ .decodeUnit := by
      rw [hengine]
      exact nofun
    refine ⟨_, congrArg Outcome.next (State.finishParse_of_ne hne), rfl⟩
  · subst hc
    obtain ⟨hword2, hinfo, -⟩ := State.dispose_naltWord hwf s.curNal.toNat .oSpsOk 0#32
    exact ⟨_, congrArg Outcome.next (State.finishParse_decodeUnit hengine), rfl, hword2, hinfo,
      fun k i hi hk => s.dispose_naltWord_of_ne .oSpsOk 0#32 hi (by omega)⟩

/-- An outcome of a parse inside DECODE_AU is one of its unit. -/
theorem ParseEnds.unitFails {s t : State} {r : Raise} (h : ParseEnds s t r) (hengine : s.engine = .decodeUnit) :
    UnitFails s t r := by
  unfold ParseEnds at h
  rw [hengine] at h
  exact h

theorem parsing_of_decodeUnit {s : State} (hengine : s.engine = .decodeUnit) (hwf : s.mem.nalt.wf = true) : s.parsing :=
  ⟨by rw [hengine]; exact nofun, hwf⟩

/-- A fatal outcome of a unit's parse: the record and the entry, then every unit left aborted. -/
theorem UnitFails.of_fatal {s t : State} {r : Raise} (h : UnitFails s t r) (hr : r.code.cls = .fatal) :
    ∃ w : State, w = { s with
        error := ⟨r.code, s.seqPc, r.value, r.min, r.max, r.tag⟩, engine := .off,
        mem := { s.mem with nalt := w.mem.nalt } } ∧
      w.mem.naltWord s.curNal.toNat 2 = r.code.val ++ (s.mem.naltWord s.curNal.toNat 2).extractLsb' 0 24 ∧
      w.mem.naltWord s.curNal.toNat 3 = s.seqPc ∧
      (∀ k i, i < 4 → k ≠ s.curNal.toNat ∨ i < 2 → w.mem.naltWord k i = s.mem.naltWord k i) ∧ UnitsAborted w t := by
  obtain ⟨w, hw, hword2, hinfo, hother, hrest⟩ := h
  rw [if_pos hr] at hrest
  rw [hr, show (Cls.fatal == Cls.recoverable) = false from rfl, Bool.or_false] at hw
  exact ⟨w, hw, hword2, hinfo, hother, hrest⟩

/-- A class R outcome of a unit's parse: the record with ERR and the entry, then the loop. -/
theorem UnitFails.of_recoverable {s t : State} {r : Raise} (h : UnitFails s t r) (hr : r.code.cls = .recoverable) :
    ∃ w : State, w = { s with
        error := ⟨r.code, s.seqPc, r.value, r.min, r.max, r.tag⟩, errFlag := true, engine := .off,
        mem := { s.mem with nalt := w.mem.nalt } } ∧
      w.mem.naltWord s.curNal.toNat 2 = r.code.val ++ (s.mem.naltWord s.curNal.toNat 2).extractLsb' 0 24 ∧
      w.mem.naltWord s.curNal.toNat 3 = s.seqPc ∧
      (∀ k i, i < 4 → k ≠ s.curNal.toNat ∨ i < 2 → w.mem.naltWord k i = s.mem.naltWord k i) ∧ LoopEnds w t := by
  obtain ⟨w, hw, hword2, hinfo, hother, hrest⟩ := h
  rw [if_neg (by rw [hr]; exact nofun)] at hrest
  rw [hr, show (Cls.recoverable == Cls.recoverable) = true from rfl, Bool.or_true] at hw
  exact ⟨w, hw, hword2, hinfo, hother, hrest⟩

/-- Settles O51: the unit's entry, then the abort of the units left or the loop. -/
theorem unitOutcomes : Obligations.UnitOutcomes := by
  refine ⟨fun s d a b c hengine hwf hcur hc hzero => ?_, fun s a imm c hengine hwf hc hzero => ?_⟩
  · subst hc
    have hexec : exec (.divu d a b) s = .next (s.endParse { code := .fUopDiv0, value := s.getV a }) :=
      congrArg Outcome.next (if_pos hzero)
    have hends := State.endParse_parseEnds (parsing_of_decodeUnit hengine hwf)
      (r := { code := .fUopDiv0, value := s.getV a }) (.inr Code.cls_fUopDiv0)
    obtain ⟨w, hw, hword2, hinfo, hother, ht, hwords⟩ := (hends.unitFails hengine).of_fatal Code.cls_fUopDiv0
    obtain ⟨hnext, -⟩ := hcur (.inl hengine)
    have hdec : w.decNext = s.decNext := by rw [hw]
    have hcount : w.nalCount = s.nalCount := by rw [hw]
    rw [hdec, hcount] at hwords
    have habove : ∀ k, s.curNal.toNat < k → k < s.nalCount.toNat →
        State.disposition (s.endParse { code := .fUopDiv0, value := s.getV a }) k = 0x43#8 := by
      intro k hk hlt
      have := hwords k 2 (by decide)
      rw [if_pos ⟨rfl, by omega, hlt⟩] at this
      exact (congrArg (BitVec.extractLsb' 24 8) this).trans (disp_setDisp _ .oAborted)
    have hbelow : ∀ k ≤ s.curNal.toNat, ∀ i < 4,
        (s.endParse { code := .fUopDiv0, value := s.getV a }).mem.naltWord k i = w.mem.naltWord k i := by
      intro k hk i hi
      exact (hwords k i hi).trans (if_neg (by omega))
    refine ⟨_, hexec, ?_, ?_, (hbelow _ (Nat.le_refl _) 3 (by decide)).trans hinfo, habove,
      fun k hk => ⟨?_, ?_⟩⟩
    · rw [hw] at ht
      exact ht
    · have := (hbelow _ (Nat.le_refl _) 2 (by decide)).trans hword2
      exact (congrArg (BitVec.extractLsb' 24 8) this).trans (disp_setDisp _ .fUopDiv0)
    · exact (hbelow k hk.le 2 (by decide)).trans (hother k 2 (by decide) (by omega))
    · exact (hbelow k hk.le 3 (by decide)).trans (hother k 3 (by decide) (by omega))
  · subst hc
    have hends := State.endParse_parseEnds (parsing_of_decodeUnit hengine hwf)
      (r := { code := .eSpsCheck, tag := imm }) (.inl Code.cls_eSpsCheck)
    obtain ⟨w, hw, hword2, hinfo, hother, hloop⟩ := (hends.unitFails hengine).of_recoverable Code.cls_eSpsCheck
    exact ⟨_, w, exec_chk_zero imm hzero, hloop, hw, hword2, hinfo, hother⟩

end Sys2Proof.Machine
end

section
/-!
PROOFS. A next_pc outside USTORE (46_sps_engine.md R403, R404). A sequential µop does its effects, which depend neither on
the size of USTORE nor on who called the engine, and then goes on at SEQ_PC + 1 or ends the parse; so what it does where
the next µop exists says what it does where it does not.
-/

namespace Sys2Proof.Machine

open Host (Outcome)

open Shapes (sequential roomy)

/-! ### The size of USTORE and the caller of the engine -/

/-- The state with another USTORE_CAP and another caller of the engine. -/
def State.reseat (s : State) (cap : Nat) (caller : Engine) : State :=
  { s with params := { s.params with ustoreCap := cap }, engine := caller }

theorem roomy_eq_reseat (s : State) : roomy s = s.reseat (s.seqPc.toNat + 2) .parseSps := rfl

/-- A function of the bit reader from a changed state. -/
def Eff.mapState {α : Type} (f : State → State) : Eff α → Eff α
  | .ok a s => .ok a (f s)
  | .raise r s => .raise r (f s)

theorem Eff.mapState_bind {α β : Type} {g : State → State} {f : α → State → Eff β}
    (hf : ∀ a s, f a (g s) = (f a s).mapState g) (e : Eff α) : (e.mapState g).bind f = (e.bind f).mapState g := by
  cases e with
  | ok a s => exact hf a s
  | raise r s => rfl

section Reader

variable (cap : Nat) (caller : Engine)

theorem State.read_reseat (s : State) (n : Nat) :
    (s.reseat cap caller).read n = (s.read n).mapState (·.reseat cap caller) := by
  unfold State.read
  simp only [apply_ite (Eff.mapState (·.reseat cap caller))]
  rfl

theorem State.ue_reseat (s : State) : (s.reseat cap caller).ue = s.ue.mapState (·.reseat cap caller) := by
  unfold State.ue
  simp only [apply_ite (Eff.mapState (·.reseat cap caller))]
  rfl

theorem State.se_reseat (s : State) : (s.reseat cap caller).se = s.se.mapState (·.reseat cap caller) := by
  unfold State.se
  rw [State.ue_reseat]
  exact Eff.mapState_bind (fun _ _ => rfl) _

theorem checkU_reseat (lo hi v : Word) (s : State) :
    checkU lo hi v (s.reseat cap caller) = (checkU lo hi v s).mapState (·.reseat cap caller) := by
  unfold checkU
  simp only [apply_ite (Eff.mapState (·.reseat cap caller))]
  rfl

theorem checkS_reseat (lo hi v : Word) (s : State) :
    checkS lo hi v (s.reseat cap caller) = (checkS lo hi v s).mapState (·.reseat cap caller) := by
  unfold checkS
  simp only [apply_ite (Eff.mapState (·.reseat cap caller))]
  rfl

theorem trailPadding_reseat (n c : Nat) (s : State) :
    trailPadding n c (s.reseat cap caller) = (trailPadding n c s).mapState (·.reseat cap caller) := by
  induction n generalizing c s with
  | zero => rfl
  | succ n ih =>
    unfold trailPadding
    rw [State.read_reseat]
    refine Eff.mapState_bind (fun b t => ?_) _
    by_cases hb : b ≠ 0#32
    · rw [if_pos hb, if_pos hb]
      rfl
    · rw [if_neg hb, if_neg hb]
      exact ih (c + 1) t

theorem State.trailingBits_reseat (s : State) :
    (s.reseat cap caller).trailingBits = s.trailingBits.mapState (·.reseat cap caller) := by
  unfold State.trailingBits
  rw [State.read_reseat]
  refine Eff.mapState_bind (fun b t => ?_) _
  by_cases hb : b ≠ 1#32
  · rw [if_pos hb, if_pos hb]
    rfl
  · rw [if_neg hb, if_neg hb, show (t.reseat cap caller).bitsToAlign = t.bitsToAlign from rfl, trailPadding_reseat]
    refine Eff.mapState_bind (fun k u => ?_) _
    simp only [apply_ite (Eff.mapState (·.reseat cap caller))]
    rfl

end Reader

/-! ### A sequential µop -/

/-- A µop that does its effects and then goes on at SEQ_PC + 1 or ends the parse: both its effects and its way to end are
those it has with another USTORE_CAP and another caller. -/
def SequentialRun (f : State → State) : Prop :=
  ∀ (s : State) (cap : Nat) (caller : Engine), ∃ u, UopFrame s u ∧
    ((f s = u.advance ∧ f (s.reseat cap caller) = (u.reseat cap caller).advance) ∨
      ∃ r, f s = u.endParse r ∧ f (s.reseat cap caller) = (u.reseat cap caller).endParse r)

theorem SequentialRun.writeBack (d : BitVec 8) {g : State → Word}
    (hg : ∀ s cap caller, g (s.reseat cap caller) = g s := by intros; rfl) :
    SequentialRun fun s => s.writeBack d (g s) := fun s cap caller =>
  ⟨s.setV d (g s), .setV s d _, .inl ⟨rfl, by simp only [hg]; rfl⟩⟩

theorem SequentialRun.advance : SequentialRun State.advance := fun s _ _ => ⟨s, .refl s, .inl ⟨rfl, rfl⟩⟩

theorem SequentialRun.endParse {g : State → Raise}
    (hg : ∀ s cap caller, g (s.reseat cap caller) = g s := by intros; rfl) :
    SequentialRun fun s => s.endParse (g s) := fun s cap caller =>
  ⟨s, .refl s, .inr ⟨g s, rfl, by simp only [hg]⟩⟩

theorem SequentialRun.ite {p : State → Prop} [∀ s, Decidable (p s)] {f g : State → State} (hf : SequentialRun f)
    (hg : SequentialRun g) (hp : ∀ s cap caller, p (s.reseat cap caller) ↔ p s := by intros; rfl) :
    SequentialRun fun s => if p s then f s else g s := by
  intro s cap caller
  by_cases h : p s
  · simp only [if_pos h, if_pos ((hp s cap caller).mpr h)]
    exact hf s cap caller
  · simp only [if_neg h, if_neg (mt (hp s cap caller).mp h)]
    exact hg s cap caller

theorem SequentialRun.readBack (d : BitVec 8) {e : State → Eff Word} (hmoves : ∀ s, MovesEff s (e s))
    (he : ∀ s cap caller, e (s.reseat cap caller) = (e s).mapState (·.reseat cap caller)) :
    SequentialRun fun s => State.readBack d (e s) := by
  intro s cap caller
  have hs := hmoves s
  simp only [he]
  cases hres : e s with
  | ok x t =>
    rw [hres] at hs
    exact ⟨t.setV d x, .movedSetV hs d x, .inl ⟨rfl, rfl⟩⟩
  | raise r t =>
    rw [hres] at hs
    exact ⟨t, .moved hs, .inr ⟨r, rfl, rfl⟩⟩

theorem SequentialRun.divideBack (d a b : BitVec 8) (f : Nat → Nat → Nat) :
    SequentialRun fun s => s.divideBack d a b f :=
  .ite .endParse (.writeBack d)

theorem SequentialRun.trail : SequentialRun fun s => match s.trailingBits with
    | .ok _ t => t.advance
    | .raise r t => t.endParse r := by
  intro s cap caller
  have hs := s.trailingBits_moves
  simp only [State.trailingBits_reseat]
  cases hres : s.trailingBits with
  | ok x t =>
    rw [hres] at hs
    exact ⟨t, .moved hs, .inl ⟨rfl, rfl⟩⟩
  | raise r t =>
    rw [hres] at hs
    exact ⟨t, .moved hs, .inr ⟨r, rfl, rfl⟩⟩

theorem SequentialRun.store (a b : BitVec 8) (imm : Word) :
    SequentialRun fun s => { s with mem := s.mem.setRecord (s.recordAddr b imm) (s.getV a) }.advance := fun s _ _ =>
  ⟨{ s with mem := s.mem.setRecord (s.recordAddr b imm) (s.getV a) },
    ⟨rfl, fun w => Bank.write_wf w _ _, fun w => Bank.write_wf w _ _, rfl, fun h => ⟨Nat.le_refl _, h.1⟩,
      fun _ h => h.congr rfl rfl rfl⟩, .inl ⟨rfl, rfl⟩⟩

theorem SequentialRun.warn (imm : Word) :
    SequentialRun fun s => { s.warnBit .spsCheck with warnTag := imm }.advance := fun s _ _ =>
  ⟨{ s.warnBit .spsCheck with warnTag := imm },
    ⟨rfl, id, id, rfl, fun h => ⟨Nat.le_refl _, h.1⟩, fun _ h => h.congr rfl rfl rfl⟩, .inl ⟨rfl, rfl⟩⟩

/-- The µops that are not sequential. -/
theorem not_sequential_of_op {i : Instr} {op d a b : BitVec 8} {imm : Word} (hi : encode i = .uop (uopWord op d a b imm))
    (hop : op.toNat ∈ [0x30, 0x31, 0x32, 0x33, 0x7F]) : ¬ sequential i := by
  unfold sequential
  rw [hi]
  intro h
  exact h (by rw [show (uopWord op d a b imm).extractLsb' 56 8 = op from uopOp_uopWord op d a b imm]; exact hop)

/-- A read with a range check. -/
theorem checked_reseat {e : State → Eff Word} {f : State → Word → State → Eff Word}
    (he : ∀ s cap caller, e (s.reseat cap caller) = (e s).mapState (·.reseat cap caller))
    (hs : ∀ s cap caller, f (s.reseat cap caller) = f s := by intros; rfl)
    (hf : ∀ s x t cap caller, f s x (t.reseat cap caller) = (f s x t).mapState (·.reseat cap caller))
    (s : State) (cap : Nat) (caller : Engine) :
    (e (s.reseat cap caller)).bind (f (s.reseat cap caller)) = ((e s).bind (f s)).mapState (·.reseat cap caller) := by
  rw [he, hs]
  exact Eff.mapState_bind (fun x t => hf s x t cap caller) _

/-- The µops that give SEQ_PC + 1 as next_pc. -/
theorem exec_sequential {i : Instr} (h : sequential i) : ∃ f, (∀ s, exec i s = .next (f s)) ∧ SequentialRun f := by
  cases i
  case rdf d => exact ⟨_, fun _ => rfl, .readBack d (·.read_moves 1) fun s c e => s.read_reseat c e 1⟩
  case rdu d imm => exact ⟨_, fun _ => rfl, .readBack d (·.read_moves _) fun s c e => s.read_reseat c e _⟩
  case rduv d a => exact ⟨_, fun _ => rfl, .readBack d (·.read_moves _) fun s c e => s.read_reseat c e (s.getV a).toNat⟩
  case rdue d => exact ⟨_, fun _ => rfl, .readBack d (·.ue_moves) fun s c e => s.ue_reseat c e⟩
  case rdse d => exact ⟨_, fun _ => rfl, .readBack d (·.se_moves) fun s c e => s.se_reseat c e⟩
  case rdur d a b imm =>
    exact ⟨_, fun _ => rfl, .readBack d (fun s => (s.read_moves _).bind (checkU_moves _ _))
      (checked_reseat (e := (·.read imm.toNat)) (f := fun s => checkU (s.getV a) (s.getV b))
        (fun s c e => s.read_reseat c e _)
        (hf := fun _ _ t c e => checkU_reseat c e _ _ _ t))⟩
  case rduvr d a b w =>
    exact ⟨_, fun _ => rfl, .readBack d (fun s => (s.read_moves _).bind (checkU_moves _ _))
      (checked_reseat (e := fun s => s.read (s.getV w).toNat) (f := fun s => checkU (s.getV a) (s.getV b))
        (fun s c e => s.read_reseat c e (s.getV w).toNat)
        (hf := fun _ _ t c e => checkU_reseat c e _ _ _ t))⟩
  case rduer d a b =>
    exact ⟨_, fun _ => rfl, .readBack d (fun s => s.ue_moves.bind (checkU_moves _ _))
      (checked_reseat (f := fun s => checkU (s.getV a) (s.getV b)) (fun s c e => s.ue_reseat c e)
        (hf := fun _ _ t c e => checkU_reseat c e _ _ _ t))⟩
  case rdser d a b =>
    exact ⟨_, fun _ => rfl, .readBack d (fun s => s.se_moves.bind (checkS_moves _ _))
      (checked_reseat (f := fun s => checkS (s.getV a) (s.getV b)) (fun s c e => s.se_reseat c e)
        (hf := fun _ _ t c e => checkS_reseat c e _ _ _ t))⟩
  case ldi | mov | add | sub | addi | mul | shl | shr | and | or | xor | maxu | minu | clog2 | seteq | setne | setltu |
      setleu | setlt | setle | lnot | mrd | bta | bleft => exact ⟨_, fun _ => rfl, .writeBack _⟩
  case divu | remu | cdivu => exact ⟨_, fun _ => rfl, .divideBack _ _ _ _⟩
  case str a b imm => exact ⟨_, fun _ => rfl, .ite .endParse (.store a b imm)⟩
  case ldr d b imm => exact ⟨_, fun _ => rfl, .ite .endParse (.writeBack d)⟩
  case chk a imm => exact ⟨_, fun _ => rfl, .ite .endParse .advance⟩
  case chkw a imm => exact ⟨_, fun _ => rfl, .ite (.warn imm) .advance⟩
  case trail => exact ⟨_, fun _ => rfl, .trail⟩
  case bz | bnz | jmp | loop | endSps => exact absurd h (not_sequential_of_op rfl (by decide))
  all_goals exact h.elim

/-! ### A next_pc outside USTORE -/

/-- What a µop's own effects leave alone. -/
theorem UopFrame.kept {s u : State} (h : UopFrame s u) :
    u.params = s.params ∧ u.engine = s.engine ∧ u.seqPc = s.seqPc ∧ u.mem.nalt = s.mem.nalt := by
  rw [h.eq]
  exact ⟨rfl, rfl, rfl, rfl⟩

/-- An outcome ends a PARSE_SPS: the engine is off. -/
theorem State.endParse_engine_of_parseSps {s : State} (h : s.engine = .parseSps) (r : Raise) :
    (s.endParse r).engine = .off := by
  rw [State.endParse_parseSps h, s.endWith_frame]

/-- A next_pc outside USTORE ends the parse in progress. -/
theorem State.goto_parseEnds {s : State} {m : Int} (hp : s.parsing) (hm : m < 0 ∨ (s.params.ustoreCap : Int) ≤ m) :
    ParseEnds s (s.goto m) { code := .fUopPc, value := BitVec.ofInt 32 m } := by
  rcases s.goto_cases m with ⟨h0, hlt, -⟩ | ⟨-, h⟩
  · omega
  · rw [h]
    exact State.endParse_parseEnds hp (.inr Code.cls_fUopPc)

theorem State.goto_parseEnds_nat {s : State} {m : Int} {n : Nat} (hp : s.parsing) (hm : m = n)
    (hn : s.params.ustoreCap ≤ n) : ParseEnds s (s.goto m) { code := .fUopPc, value := word n } := by
  have h := State.goto_parseEnds (m := m) hp (.inr (by omega))
  rw [hm, BitVec.ofInt_natCast] at h
  rw [hm]
  exact h

/-- A µop that gives SEQ_PC + 1 ends the parse where the next µop does not exist. -/
theorem State.advance_parseEnds {s : State} (hp : s.parsing) (hout : s.params.ustoreCap ≤ s.seqPc.toNat + 1) :
    ParseEnds s s.advance { code := .fUopPc, value := s.seqPc + 1#32 } := by
  have h := State.goto_parseEnds_nat (m := s.nextTarget) hp rfl hout
  rw [word, BitVec.ofNat_add, BitVec.ofNat_toNat, BitVec.setWidth_eq] at h
  exact h

/-- Settles O46: the branches, LOOP and MOV from their targets, and every sequential µop from its run in a roomy USTORE. -/
theorem nextPcOutOfRange : Obligations.NextPcOutOfRange := by
  refine ⟨fun s a imm n hp hn i hi => ?_, fun s a b imm n hp hn hout => ?_, fun s d a hp hout => ?_,
    fun s w i hp hout hseq hexec hrun => ?_⟩
  · obtain ⟨rfl, rfl⟩ | ⟨rfl, rfl⟩ | ⟨rfl, rfl⟩ := hi
    · exact ⟨_, rfl, State.goto_parseEnds_nat hp (by unfold State.forwardTarget; push_cast; rfl) hn⟩
    · refine ⟨_, rfl, State.goto_parseEnds_nat hp ?_ hn⟩
      unfold State.forwardTarget State.nextTarget
      split <;> push_cast <;> rfl
    · refine ⟨_, rfl, State.goto_parseEnds_nat hp ?_ hn⟩
      unfold State.forwardTarget State.nextTarget
      split <;> push_cast <;> rfl
  · subst hn
    exact ⟨_, s.setV a (s.getV a + 1#32), rfl, rfl, fun i => s.getV_setV a _ i, State.goto_parseEnds hp hout⟩
  · exact ⟨_, s.setV d (s.getV a), rfl, rfl, fun i => s.getV_setV d _ i, State.advance_parseEnds hp hout⟩
  · rw [roomy_eq_reseat] at hexec
    obtain ⟨f, hf, hrunf⟩ := exec_sequential hseq
    obtain ⟨u, hu, ⟨hadv, hroomy⟩ | ⟨r, -, hroomy⟩⟩ := hrunf s (s.seqPc.toNat + 2) .parseSps
    · have hw : w = (u.reseat (s.seqPc.toNat + 2) .parseSps).advance :=
        (Outcome.next.inj ((hf _).symm.trans hexec)).symm.trans hroomy
      obtain ⟨hparams, hengine, hpc, hnalt⟩ := hu.kept
      have hback : { w with params := s.params, engine := s.engine, seqPc := s.seqPc } = u := by
        rw [hw, State.advance_ok (Nat.lt_succ_of_le (by rw [← hpc]; exact Nat.le_refl _)), ← hparams, ← hengine, ← hpc]
        rfl
      rw [hback, hf s, hadv, ← hpc]
      refine ⟨_, rfl, State.advance_parseEnds ⟨hengine ▸ hp.1, hnalt ▸ hp.2⟩ ?_⟩
      rw [hparams, hpc]
      exact hout
    · have hw : w = (u.reseat (s.seqPc.toNat + 2) .parseSps).endParse r :=
        (Outcome.next.inj ((hf _).symm.trans hexec)).symm.trans hroomy
      rw [hw, State.endParse_engine_of_parseSps rfl] at hrun
      cases hrun

end Sys2Proof.Machine
end

section
/-!
PROOFS. Reset and the step (70_reset_and_hazards.md R700-R713, 47_control.md R500-R504, 46_sps_engine.md R401-R406): the
reset values, what a step runs and how it ends before an instruction, the CMD write, and what leaves HALTED; and the tables
of the outcome codes.
-/

namespace Sys2Proof.Machine

open Host (Outcome)

open Shapes (resetRegisters isLegal)

/-! ### Reset values (R702) -/

theorem statusWord_eq_zero {s : State} (hblock : s.block = .idle) (hdone : s.done = false) (herr : s.errFlag = false)
    (hsps : s.spsValid = false) (hwarn : s.warn = 0#6) : statusWord s = 0#32 := by
  unfold statusWord
  rw [hblock, hdone, herr, hsps, hwarn]
  decide

/-- The reset values do not depend on the memories, V or the model's environment. -/
theorem resetRegisters_resetWith (p : Config.Params) (mem : Memory) (v : Vector Word 256) (inputs : List HostEvent)
    (readData : Word) (free : Nat) : resetRegisters { State.resetWith p with
      mem := mem, v := v, inputs := inputs, readData := readData, free := free } :=
  ⟨rfl, rfl, show (0#3 &&& 0#3 != 0#3) = false by decide, fun r => by
    cases r
    case status => exact statusWord_eq_zero rfl rfl rfl rfl rfl
    case nuh => exact show Nuh.zero.pack = 0#32 by decide
    case brHeldHi => exact show (0#64).extractLsb' 32 32 = 0#32 by decide
    all_goals rfl⟩

theorem resetRegisters_commandReset (s : State) : resetRegisters s.commandReset :=
  resetRegisters_resetWith s.params s.mem s.v s.inputs s.readData s.free

/-! ### What a step runs -/

theorem step_settled {s t : State} (h : s.fetch = .settled t) : step s = .next t := by
  unfold step
  rw [h]

theorem step_run {s t : State} {i : Instr} (h : s.fetch = .run i t) : step s = exec i t := by
  unfold step
  rw [h]

/-- An event that comes next, with no parse in progress, is taken. -/
theorem fetch_of_event {s : State} {e : HostEvent} {rest : List HostEvent} (hengine : s.engine = .off)
    (hinputs : s.inputs = e :: rest) {f : Fetched} (h : State.takeEvent { s with inputs := rest } e = f) : s.fetch = f :=
  (State.fetch_event hengine hinputs).trans h

theorem State.fetchCmd_run {s : State} {i : Instr} (hbusy : s.block = .busy) (h : decodeCmd s.cmd = .ok i) :
    s.fetchCmd = .run i s := by
  unfold State.fetchCmd
  rw [if_pos hbusy, h]

theorem State.fetchCmd_illegal {s : State} {e : Reject} (hbusy : s.block = .busy) (h : decodeCmd s.cmd = .error e) :
    s.fetchCmd = .settled (s.endWith { code := .eCmdIllegal, value := s.cmd } noPc) := by
  unfold State.fetchCmd
  rw [if_pos hbusy, h]
  rfl

theorem State.fetchCmd_idle {s : State} (h : s.block ≠ .busy) : s.fetchCmd = .settled s := by
  unfold State.fetchCmd
  rw [if_neg h]

theorem State.fetchUop_budget {s : State} (h : s.stepCount.toNat = s.params.maxSteps) :
    s.fetchUop = .settled (s.endParse { code := .eSpsBudget, value := s.stepCount }) := by
  unfold State.fetchUop
  rw [if_pos h]
  rfl

theorem State.fetchUop_entry {s : State} (h : s.stepCount.toNat ≠ s.params.maxSteps)
    (hpc : s.params.ustoreCap ≤ s.seqPc.toNat) :
    s.fetchUop = .settled (s.endParse { code := .fUopPc, value := s.seqPc }) := by
  unfold State.fetchUop
  rw [if_neg h, if_pos hpc]
  rfl

theorem State.fetchUop_run {s : State} {i : Instr} (h : s.stepCount.toNat ≠ s.params.maxSteps)
    (hpc : s.seqPc.toNat < s.params.ustoreCap) (hd : decodeUop (s.mem.uop s.seqPc.toNat) = .ok i) :
    s.fetchUop = .run i { s with stepCount := s.stepCount + 1#32 } := by
  unfold State.fetchUop
  simp only
  rw [if_neg h, if_neg (by omega), hd]

theorem State.fetchUop_illegal {s : State} {e : Reject} (h : s.stepCount.toNat ≠ s.params.maxSteps)
    (hpc : s.seqPc.toNat < s.params.ustoreCap) (hd : decodeUop (s.mem.uop s.seqPc.toNat) = .error e) :
    s.fetchUop = .settled (State.endParse { s with stepCount := s.stepCount + 1#32 }
      (illegalUopRaise (s.mem.uop s.seqPc.toNat))) := by
  unfold State.fetchUop
  simp only
  rw [if_neg h, if_neg (by omega), hd]

/-- The two halves of a µop word (20_memory.md R107). -/
theorem Memory.uop_halves (m : Memory) (j : Nat) :
    (m.uop j).extractLsb' 0 32 = m.ustore.read (2 * j) ∧ (m.uop j).extractLsb' 32 32 = m.ustore.read (2 * j + 1) := by
  unfold Memory.uop
  exact ⟨(extractLsb'_append_low _ _ (Nat.le_refl _)).trans (extractLsb'_whole _),
    (extractLsb'_append_high _ _ 0 32).trans (extractLsb'_whole _)⟩

/-- Settles O4: the reset values after each reset, and what RESET keeps. -/
theorem resetValues : Obligations.ResetValues := by
  refine ⟨⟨fun p => resetRegisters_resetWith p _ _ _ _ _, fun s rest hengine hinputs => ?_, fun s => ?_⟩, fun s => ?_⟩
  · exact ⟨_, step_settled (fetch_of_event hengine hinputs rfl),
      resetRegisters_resetWith s.params (.unspecified s.free) _ rest s.readData (s.free + 6), rfl⟩
  · exact ⟨_, rfl, resetRegisters_commandReset s, rfl⟩
  · exact ⟨_, rfl, rfl, rfl⟩

/-- Settles O5: the command or µop that is fetched, or the event that comes next. -/
theorem stepRunsInstruction : Obligations.StepRunsInstruction := by
  refine ⟨fun s i hengine hbusy hd => ⟨fun hinputs => ?_, fun rest hinputs => ?_⟩, fun s i hengine hsteps hpc hd => ?_,
    fun s rest hengine => ⟨fun addr width hinputs => ?_, fun addr width w hinputs => ?_, fun hinputs => ?_,
      fun hidle hinputs => ?_, fun hidle hinputs => ?_⟩⟩
  · exact step_run ((State.fetch_settle hengine hinputs).trans (State.fetchCmd_run hbusy hd))
  · exact step_run (fetch_of_event hengine hinputs (State.fetchCmd_run (s := { s with inputs := rest }) hbusy hd))
  · exact step_run ((State.fetch_engine hengine).trans (State.fetchUop_run hsteps hpc hd))
  · exact step_settled (fetch_of_event hengine hinputs rfl)
  · exact step_settled (fetch_of_event hengine hinputs rfl)
  · exact step_settled (fetch_of_event hengine hinputs rfl)
  · exact step_settled (fetch_of_event hengine hinputs (State.fetchCmd_idle (s := { s with inputs := rest }) hidle))
  · exact step_settled ((State.fetch_settle hengine hinputs).trans (State.fetchCmd_idle hidle))

/-- Settles O6: the checks of the engine's loop in their order, and the illegal command word. -/
theorem stepOutcomes : Obligations.StepOutcomes := by
  refine ⟨fun s hp => ⟨fun hsteps => ?_, fun hsteps hpc => ?_, fun hsteps hpc e hd => ?_⟩,
    fun s e hengine hbusy hd => ⟨fun hinputs => ?_, fun rest hinputs => ?_⟩⟩
  · exact ⟨_, step_settled ((State.fetch_engine hp.1).trans (State.fetchUop_budget hsteps)),
      State.endParse_parseEnds hp (.inl Code.cls_eSpsBudget)⟩
  · exact ⟨_, step_settled ((State.fetch_engine hp.1).trans (State.fetchUop_entry hsteps hpc)),
      State.endParse_parseEnds hp (.inr Code.cls_fUopPc)⟩
  · have hfetch := (State.fetch_engine hp.1).trans (State.fetchUop_illegal hsteps hpc hd)
    obtain ⟨hlow, hhigh⟩ := s.mem.uop_halves s.seqPc.toNat
    unfold illegalUopRaise at hfetch
    rw [hlow, hhigh] at hfetch
    exact ⟨_, step_settled hfetch,
      State.endParse_parseEnds (s := { s with stepCount := s.stepCount + 1#32 }) hp (.inr Code.cls_fUopIllegal)⟩
  · exact ⟨_, step_settled ((State.fetch_settle hengine hinputs).trans (State.fetchCmd_illegal hbusy hd)),
      s.endWith_failsIdle noPc (Code.setsErr_of_rejected Code.cls_eCmdIllegal)⟩
  · exact ⟨_, step_settled (fetch_of_event hengine hinputs (State.fetchCmd_illegal (s := { s with inputs := rest }) hbusy hd)),
      State.endWith_failsIdle _ noPc (Code.setsErr_of_rejected Code.cls_eCmdIllegal)⟩

/-! ### The CMD write (10_state.md R55) -/

/-- Which CMD writes are ignored, by STATE. -/
theorem State.ignoresCmd_iff (s : State) (w : Word) : s.ignoresCmd w = true ↔
    s.block = .busy ∨ (s.block = .paused ∧ ¬ isLegal w .continueAu ∧ ¬ isLegal w .abortAu ∧ ¬ isLegal w .reset) ∨
      (s.block = .halted ∧ ¬ isLegal w .reset) ∨ (s.block = .idle ∧ (isLegal w .continueAu ∨ isLegal w .abortAu)) := by
  unfold State.ignoresCmd isLegal
  split <;> simp_all

theorem formZ_ok {n : BitVec 6} {i j : Instr} (h : formZ n i = .ok j) : n = 0#6 ∧ i = j := by
  unfold formZ at h
  split at h
  next hn => exact ⟨hn, Except.ok.inj h⟩
  next => cases h

theorem formV_ok {n : BitVec 6} {i : Bool → Instr} {j : Instr} (h : formV n i = .ok j) : ∃ vcl, i vcl = j := by
  unfold formV at h
  split at h
  next => exact ⟨false, Except.ok.inj h⟩
  next =>
    split at h
    next => exact ⟨true, Except.ok.inj h⟩
    next => cases h

/-- RESET has one row of the opcode map, of form Z. -/
theorem decodeOpc_eq_reset {opc : BitVec 8} {n : BitVec 6} (h : decodeOpc opc n = .ok .reset) :
    opc = 0x01#8 ∧ n = 0#6 := by
  unfold decodeOpc at h
  split at h
  case h_2 hopc => exact ⟨BitVec.eq_of_toNat_eq hopc, (formZ_ok h).1⟩
  case h_9 => exact absurd (formV_ok h).choose_spec nofun
  case h_11 | h_12 | h_16 | h_19 | h_25 => cases h
  all_goals exact absurd (formZ_ok h).2 nofun

theorem isLegal_unique {w : Word} {i j : Instr} (hi : isLegal w i) (hj : isLegal w j) : i = j :=
  Except.ok.inj (hi.symm.trans hj)

/-- The one legal RESET word (30_encoding.md R151, R152). -/
theorem eq_of_isLegal_reset {w : Word} (h : isLegal w .reset) : w = 0x01000000#32 := by
  unfold isLegal decodeCmd at h
  split at h
  next hrsv =>
    obtain ⟨hop, hn⟩ := decodeOpc_eq_reset h
    rw [← cmdWord_fields hrsv, hop, hn]
    rfl
  next => cases h

/-- A write to CMD. -/
theorem State.hostWrite_cmd (s : State) (w : Word) : s.hostWrite 0x008#32 .word w = s.writeCmd w :=
  State.hostWrite_reg (i := 2) (r := .cmd) rfl w

/-- Settles O7: the writes that are ignored, the acceptance, and the RESET word with its step. -/
theorem commandWrites : Obligations.CommandWrites := by
  refine ⟨fun s w hignored => ?_, fun s w hreset haccepted => ?_, fun s w hbusy hreset =>
    ⟨eq_of_isLegal_reset hreset, _, ?_, rfl, fun hengine hinputs => ?_⟩⟩
  · rw [s.hostWrite_cmd w]
    rcases s.writeCmd_cases w with ⟨-, h⟩ | ⟨hnot, -⟩ | ⟨hnot, -⟩
    · exact h
    · rw [(s.ignoresCmd_iff w).mpr hignored] at hnot
      cases hnot
    · rw [(s.ignoresCmd_iff w).mpr hignored] at hnot
      cases hnot
  · rw [s.hostWrite_cmd w]
    rcases s.writeCmd_cases w with ⟨hyes, -⟩ | ⟨-, hd, -⟩ | ⟨-, -, h⟩
    · have hignored := (s.ignoresCmd_iff w).mp hyes
      rcases haccepted with ⟨hidle, hc, ha⟩ | ⟨hpaused, hlegal⟩
      · rcases hignored with hb | ⟨hb, -⟩ | ⟨hb, -⟩ | ⟨-, h | h⟩
        · cases hidle.symm.trans hb
        · cases hidle.symm.trans hb
        · cases hidle.symm.trans hb
        · exact absurd h hc
        · exact absurd h ha
      · rcases hignored with hb | ⟨-, hc, ha, -⟩ | ⟨hb, -⟩ | ⟨hb, -⟩
        · cases hpaused.symm.trans hb
        · exact absurd hlegal (not_or.mpr ⟨hc, ha⟩)
        · cases hpaused.symm.trans hb
        · cases hpaused.symm.trans hb
    · exact absurd hd hreset
    · rw [h, s.accept_eq]
      by_cases hopc : w.extractLsb' 24 8 = 0x02#8
      · rw [if_pos hopc, decide_eq_true (show cmdOpc w = 0x02#8 from hopc)]
        rfl
      · rw [if_neg hopc, decide_eq_false (show ¬ cmdOpc w = 0x02#8 from hopc)]
        rfl
  · rw [s.hostWrite_cmd w]
    rcases s.writeCmd_cases w with ⟨hyes, -⟩ | ⟨-, -, h⟩ | ⟨-, hd, -⟩
    · rcases (s.ignoresCmd_iff w).mp hyes with hb | ⟨-, -, -, hnot⟩ | ⟨-, hnot⟩ | ⟨-, hc | ha⟩
      · exact absurd hb hbusy
      · exact absurd hreset hnot
      · exact absurd hreset hnot
      · cases isLegal_unique hreset hc
      · cases isLegal_unique hreset ha
    · exact h
    · exact absurd hreset hd
  · exact ⟨_, step_run ((State.fetch_settle (s := { s with cmd := w, block := .busy }) hengine hinputs).trans (State.fetchCmd_run
      (s := { s with cmd := w, block := .busy }) rfl hreset)),
      resetRegisters_commandReset _, rfl, rfl⟩

/-! ### Leaving HALTED (60_exceptions.md R621) -/

theorem byteTarget_ne_reg (used a : Nat) (width : Width) {t : Nat → Target} (ht : ∀ a r, t a ≠ .reg r) (r : Reg) :
    byteTarget used a width t ≠ .reg r := by
  unfold byteTarget
  split <;> split
  · exact ht a r
  · exact nofun
  · exact ht a r
  · exact nofun

theorem wordTarget_ne_reg (used i : Nat) {t : Nat → Target} (ht : ∀ a r, t a ≠ .reg r) (r : Reg) :
    wordTarget used i t ≠ .reg r := by
  unfold wordTarget
  split
  · exact ht i r
  · exact nofun

/-- Below the byte windows, a register is reached at its offset. -/
theorem atIndex_of_wordWindows {p : Config.Params} {a : Nat} {r : Reg} (h : wordWindows p a = .reg r) :
    Reg.atIndex (a / 4) = some r := by
  unfold wordWindows at h
  split at h
  · split at h
    next r' hr => exact hr.trans (congrArg some (Target.reg.inj h))
    next => cases h
  · split at h
    · exact absurd h (wordTarget_ne_reg _ _ (t := .nalt) (fun _ _ => nofun) r)
    · split at h
      · exact absurd h (wordTarget_ne_reg _ _ (t := .ustore) (fun _ _ => nofun) r)
      · split at h
        · exact absurd h (wordTarget_ne_reg _ _ (t := .record) (fun _ _ => nofun) r)
        · split at h
          · exact absurd h (wordTarget_ne_reg _ _ (t := .recordWr) (fun _ _ => nofun) r)
          · cases h

/-- A register is reached by a 32-bit access at its offset and no other (10_state.md R32). -/
theorem atIndex_of_target {p : Config.Params} {addr : Word} {width : Width} {r : Reg}
    (h : target p addr width = .reg r) : width = .word ∧ addr.toNat % 4 = 0 ∧ Reg.atIndex (addr.toNat / 4) = some r := by
  unfold target at h
  simp only at h
  split at h
  · exact absurd h (byteTarget_ne_reg _ _ _ (t := .rbsp) (fun _ _ => nofun) r)
  · split at h
    · exact absurd h (byteTarget_ne_reg _ _ _ (t := .au) (fun _ _ => nofun) r)
    · split at h
      next hword => exact ⟨hword.1, hword.2, atIndex_of_wordWindows h⟩
      next => cases h

/-- CMD is the register at offset 8. -/
theorem eq_of_target_cmd {p : Config.Params} {addr : Word} {width : Width} (h : target p addr width = .reg .cmd) :
    addr = 0x008#32 ∧ width = .word := by
  obtain ⟨hword, halign, hindex⟩ := atIndex_of_target h
  have htwo : addr.toNat / 4 = 2 := by
    have hall : ∀ i < 40, Reg.atIndex i = some .cmd → i = 2 := by decide
    by_cases hi : addr.toNat / 4 < 40
    · exact hall _ hi hindex
    · rw [Reg.atIndex, List.getElem?_eq_none (by simp; omega)] at hindex
      cases hindex
  exact ⟨BitVec.eq_of_toNat_eq (show addr.toNat = 8 by omega), hword⟩

/-- Settles O13: of everything a step can do in HALTED, only the power-on and an accepted RESET word change STATE. -/
theorem leavingHalted : Obligations.LeavingHalted := by
  intro s t hhalted hengine hstep hleft
  have hidle : s.block ≠ .busy := by
    rw [hhalted]
    exact nofun
  cases step_cases hstep with
  | engine h => exact absurd hengine h
  | settle _ _ _ ht =>
    rcases commandStep_cases ht with rfl | ⟨hbusy, -⟩ | ⟨hbusy, -⟩
    · exact absurd hhalted hleft
    · exact absurd hbusy hidle
    · exact absurd hbusy hidle
  | turn _ rest _ _ ht =>
    rcases commandStep_cases ht with rfl | ⟨hbusy, -⟩ | ⟨hbusy, -⟩
    · exact absurd hhalted hleft
    · exact absurd hbusy hidle
    · exact absurd hbusy hidle
  | read _ a w rest hinputs =>
    rw [(State.hostRead_frame _ a w).1] at hleft
    exact absurd hhalted hleft
  | write _ a width d rest hinputs =>
    rcases State.hostWrite_frame { s with inputs := rest } a width d with ⟨hcmd, htarget⟩ | hframe
    · obtain ⟨rfl, rfl⟩ := eq_of_target_cmd htarget
      rw [hcmd] at hleft ⊢
      rcases State.writeCmd_cases { s with inputs := rest } d with ⟨-, h⟩ | ⟨-, hd, h⟩ | ⟨hnot, hd, -⟩
      · rw [h] at hleft
        exact absurd hhalted hleft
      · exact ⟨rest, .inr ⟨d, hinputs, hd, by rw [h], by rw [h]⟩⟩
      · have hyes := (State.ignoresCmd_iff { s with inputs := rest } d).mpr (.inr (.inr (.inl ⟨hhalted, hd⟩)))
        rw [hyes] at hnot
        cases hnot
    · rw [hframe] at hleft
      exact absurd hhalted hleft
  | powerOn _ rest hinputs => exact ⟨rest, .inl ⟨hinputs, rfl⟩⟩

/-! ### The code tables (60_exceptions.md R601, R602; 44_nal_header.md R340) -/

/-- Settles O12: the tables, by evaluation of each code and each type. -/
theorem codeTables : Obligations.CodeTables := by
  refine ⟨⟨by decide, by decide, by decide, fun c => ?_⟩, by decide⟩
  cases c <;> decide

end Sys2Proof.Machine
end

section
/-!
PROOFS. The host interface (20_memory.md R104-R118, 10_state.md R32-R64): the registers at their offsets and their fields,
the accesses that are ignored with W_BUS, and the windows of the memories.
-/

namespace Sys2Proof.Machine

open Shapes (steadyRegisters resultRegisters readOnlyOffsets)

/-! ### The registers at their offsets (10_state.md R32) -/

/-- The registers that a host reads in every state, by word index; STATUS apart. -/
def steadyIndices : List (Nat × Reg) :=
  [(0, .id), (1, .version), (2, .cmd), (4, .arg0), (5, .arg1), (13, .warn), (15, .irqEn), (16, .irqPend), (17, .auLen),
    (27, .spsEntry), (30, .auCtsLo), (31, .auCtsHi), (32, .auDtsLo), (33, .auDtsHi), (34, .auRap), (35, .capAu),
    (36, .capNalt), (37, .capUstore), (38, .capRec), (39, .capSteps)]

/-- The registers that a host reads while not BUSY, by word index; NUH apart. -/
def resultIndices : List (Nat × Reg) :=
  [(6, .result), (7, .errCode), (8, .errPc), (9, .errValue), (10, .errMin), (11, .errMax), (12, .errTag), (14, .warnTag),
    (18, .nalCount), (19, .curNal), (20, .rbspLen), (21, .brBitpos), (22, .brPos), (23, .brNhb), (24, .brHeldLo),
    (25, .brHeldHi), (28, .seqPc), (29, .stepCount)]

theorem steadyRegisters_eq (s : State) :
    steadyRegisters s = steadyIndices.map fun p => (BitVec.ofNat 32 (4 * p.1), p.2.value s) := rfl

theorem resultRegisters_eq (s : State) :
    resultRegisters s = resultIndices.map fun p => (BitVec.ofNat 32 (4 * p.1), p.2.value s) := rfl

theorem atIndex_of_mem_steady : ∀ p ∈ steadyIndices, Reg.atIndex p.1 = some p.2 ∧ p.2.stable = true := by decide

theorem atIndex_of_mem_result : ∀ p ∈ resultIndices, Reg.atIndex p.1 = some p.2 := by decide

/-- A reserved offset reads 0 (10_state.md R52). -/
theorem State.hostRead_reserved (s : State) {a : Nat} (h : 0x0A0 ≤ a) (h' : a < 0x1000) (h4 : a % 4 = 0) :
    s.hostRead (BitVec.ofNat 32 a) .word = { s with readData := 0#32 } := by
  unfold State.hostRead
  rw [target_reserved h h' h4]
  rfl

/-- A reserved offset takes no data (10_state.md R52). -/
theorem State.hostWrite_reserved (s : State) {a : Nat} (h : 0x0A0 ≤ a) (h' : a < 0x1000) (h4 : a % 4 = 0) (w : Word) :
    s.hostWrite (BitVec.ofNat 32 a) .word w = s := by
  unfold State.hostWrite
  rw [target_reserved h h' h4]

/-! ### The fields of STATUS and NUH (10_state.md R35, R48) -/

/-- The fields of a word of STATUS's layout. -/
theorem status_fields (z : BitVec 25) (warn sps halted err done : Bool) (b : BitVec 2) :
    let x := z ++ BitVec.ofBool warn ++ BitVec.ofBool sps ++ BitVec.ofBool halted ++ BitVec.ofBool err ++
      BitVec.ofBool done ++ b
    x.extractLsb' 0 2 = b ∧ x.getLsbD 2 = done ∧ x.getLsbD 3 = err ∧ x.getLsbD 4 = halted ∧ x.getLsbD 5 = sps ∧
      x.getLsbD 6 = warn ∧ x.extractLsb' 7 25 = z := by
  simp (disch := omega) only [BitVec.extractLsb'_append_eq_of_le, BitVec.extractLsb'_append_eq_of_add_le,
    BitVec.extractLsb'_eq_self, Nat.reduceSub, true_and, and_true, BitVec.getLsbD_append]
  simp

/-- The fields of a word of NUH's layout. -/
theorem nuh_fields (z : BitVec 12) (vcl : BitVec 1) (tid tidPlus1 : BitVec 3) (typ : BitVec 5) (layerId : BitVec 6)
    (rzb fzb : BitVec 1) :
    let x := z ++ vcl ++ tid ++ tidPlus1 ++ typ ++ layerId ++ rzb ++ fzb
    x.extractLsb' 0 1 = fzb ∧ x.extractLsb' 1 1 = rzb ∧ x.extractLsb' 2 6 = layerId ∧ x.extractLsb' 8 5 = typ ∧
      x.extractLsb' 13 3 = tidPlus1 ∧ x.extractLsb' 16 3 = tid ∧ x.extractLsb' 19 1 = vcl ∧
      x.extractLsb' 20 12 = z := by
  simp (disch := omega) only [BitVec.extractLsb'_append_eq_of_le, BitVec.extractLsb'_append_eq_of_add_le,
    BitVec.extractLsb'_eq_self, Nat.reduceSub, and_true]

/-- Settles O10: each register by its index, the fields of STATUS and NUH, and the frame of every read. -/
theorem hostReads : Obligations.HostReads := by
  refine ⟨fun s addr width => ?_, fun s => ⟨fun r hr => ?_, fun hidle r hr => ?_⟩, fun s => ?_, fun s hidle => ?_,
    fun s a hge hlt h4 => s.hostRead_reserved hge hlt h4⟩
  · obtain ⟨hframe, hwarn⟩ := s.hostRead_frame addr width
    exact ⟨_, rfl, hframe, hwarn⟩
  · rw [steadyRegisters_eq] at hr
    obtain ⟨p, hp, rfl⟩ := List.mem_map.mp hr
    obtain ⟨hindex, hstable⟩ := atIndex_of_mem_steady p hp
    exact State.hostRead_reg hindex (.inr hstable)
  · rw [resultRegisters_eq] at hr
    obtain ⟨p, hp, rfl⟩ := List.mem_map.mp hr
    exact State.hostRead_reg (atIndex_of_mem_result p hp) (.inl hidle)
  · refine ⟨_, State.hostRead_reg (i := 3) (r := .status) rfl (.inr rfl), rfl, ?_⟩
    obtain ⟨hblock, hdone, herr, hhalted, hsps, hwarn, hzero⟩ := status_fields 0#25 (s.warn ≠ 0#6) s.spsValid
      (s.block = .halted) s.errFlag s.done s.block.val
    refine ⟨hblock.trans (by cases s.block <;> rfl), hdone, herr, ?_, hsps, ?_, hzero⟩
    · exact (congrArg (· = true) hhalted).to_iff.trans decide_eq_true_iff
    · exact (congrArg (· = true) hwarn).to_iff.trans decide_eq_true_iff
  · exact ⟨_, State.hostRead_reg (i := 26) (r := .nuh) rfl (.inl hidle), rfl,
      nuh_fields 0#12 s.nuh.vcl s.nuh.tid s.nuh.tidPlus1 s.nuh.typ s.nuh.layerId s.nuh.rzb s.nuh.fzb⟩

/-! ### Register writes (10_state.md R36-R54) -/

/-- The read-only registers, by word index. -/
def readOnlyIndices : List (Nat × Reg) :=
  [(0, .id), (1, .version), (3, .status), (6, .result), (7, .errCode), (8, .errPc), (9, .errValue), (10, .errMin),
    (11, .errMax), (12, .errTag), (14, .warnTag), (18, .nalCount), (19, .curNal), (20, .rbspLen), (21, .brBitpos),
    (22, .brPos), (23, .brNhb), (24, .brHeldLo), (25, .brHeldHi), (26, .nuh), (28, .seqPc), (29, .stepCount),
    (35, .capAu), (36, .capNalt), (37, .capUstore), (38, .capRec), (39, .capSteps)]

theorem readOnlyOffsets_eq : readOnlyOffsets = readOnlyIndices.map fun p => 4 * p.1 := rfl

theorem atIndex_of_mem_readOnly : ∀ p ∈ readOnlyIndices, Reg.atIndex p.1 = some p.2 := by decide

/-- A read-only register takes no data. -/
theorem State.writeReg_readOnly (s : State) (w : Word) : ∀ p ∈ readOnlyIndices, s.writeReg p.2 w = s := by
  simp only [readOnlyIndices, List.forall_mem_cons, List.not_mem_nil, false_imp_iff, implies_true, and_true]
  exact ⟨rfl, rfl, rfl, rfl, rfl, rfl, rfl, rfl, rfl, rfl, rfl, rfl, rfl, rfl, rfl, rfl, rfl, rfl, rfl, rfl, rfl, rfl, rfl,
    rfl, rfl, rfl, rfl⟩

/-- A write of 1 clears a bit, a write of 0 leaves it (10_state.md R44, R46). -/
theorem getLsbD_clear {n : Nat} (x : BitVec n) (w : Word) {i : Nat} (hi : i < n) :
    (x &&& ~~~w.setWidth n).getLsbD i = (x.getLsbD i && !w.getLsbD i) := by
  simp [hi]

/-- The interrupt output (60_exceptions.md R631). -/
theorem State.irq_iff (s : State) :
    s.irq = true ↔ ∃ i, i < 3 ∧ s.irqPend.getLsbD i = true ∧ s.irqEn.getLsbD i = true := by
  unfold State.irq
  rw [bne_iff_ne]
  constructor
  · intro hne
    by_contra hnone
    refine hne (BitVec.eq_of_getLsbD_eq fun i hi => ?_)
    rw [BitVec.getLsbD_and, BitVec.getLsbD_zero, Bool.and_eq_false_imp]
    exact fun hpend => Bool.eq_false_iff.mpr fun hen => hnone ⟨i, hi, hpend, hen⟩
  · rintro ⟨i, -, hpend, hen⟩ hzero
    have := congrArg (·.getLsbD i) hzero
    simp [hpend, hen] at this

/-- Settles O11: each writable register, the read-only and reserved offsets, and the interrupt output. -/
theorem registerWrites : Obligations.RegisterWrites := by
  refine ⟨fun s w => ?_, fun s w => ⟨?_, ?_, ?_⟩, fun s a w ha => ?_, State.irq_iff⟩
  · have write {i : Nat} {r : Reg} (h : Reg.atIndex i = some r) := State.hostWrite_reg (s := s) h w
    refine ⟨write (i := 4) (r := .arg0) rfl, write (i := 5) (r := .arg1) rfl, write (i := 17) (r := .auLen) rfl,
      write (i := 27) (r := .spsEntry) rfl, write (i := 30) (r := .auCtsLo) rfl, write (i := 31) (r := .auCtsHi) rfl,
      write (i := 32) (r := .auDtsLo) rfl, write (i := 33) (r := .auDtsHi) rfl,
      (write (i := 34) (r := .auRap) rfl).trans ?_⟩
    show { s with timing := { s.timing with rap := w.setWidth 1 } } = _
    rw [BitVec.setWidth_eq_extractLsb' (by decide)]
  · exact ⟨_, State.hostWrite_reg (i := 13) (r := .warn) rfl w, rfl, fun i hi => getLsbD_clear _ w hi⟩
  · exact ⟨_, State.hostWrite_reg (i := 16) (r := .irqPend) rfl w, rfl, fun i hi => getLsbD_clear _ w hi⟩
  · refine ⟨_, State.hostWrite_reg (i := 15) (r := .irqEn) rfl w, rfl, fun i hi => ?_⟩
    show (w.setWidth 3).getLsbD i = w.getLsbD i
    simp [hi]
  · rcases ha with ha | ⟨hge, hlt, h4⟩
    · rw [readOnlyOffsets_eq] at ha
      obtain ⟨p, hp, rfl⟩ := List.mem_map.mp ha
      exact (State.hostWrite_reg (atIndex_of_mem_readOnly p hp) w).trans (s.writeReg_readOnly w p hp)
    · exact s.hostWrite_reserved hge hlt h4 w

/-! ### The windows, by their ranges (20_memory.md R104-R108) -/

section Windows

variable {p : Config.Params} {a : Nat}

theorem wordWindows_nalt (h : 0x1000 ≤ a) (h' : a < 0x10000) :
    wordWindows p a = wordTarget (4 * p.naltCap) ((a - 0x1000) / 4) .nalt := by
  unfold wordWindows
  rw [if_neg (by omega), if_pos h']

theorem wordWindows_ustore (h : 0x10000 ≤ a) (h' : a < 0x20000) :
    wordWindows p a = wordTarget (2 * p.ustoreCap) ((a - 0x10000) / 4) .ustore := by
  unfold wordWindows
  rw [if_neg (by omega), if_neg (by omega), if_pos h']

theorem wordWindows_record (h : 0x20000 ≤ a) (h' : a < 0x30000) :
    wordWindows p a = wordTarget p.recCap ((a - 0x20000) / 4) .record := by
  unfold wordWindows
  rw [if_neg (by omega), if_neg (by omega), if_neg (by omega), if_pos h']

theorem wordWindows_recordWr (h : 0x30000 ≤ a) (h' : a < 0x30800) :
    wordWindows p a = wordTarget (p.recCap / 32) ((a - 0x30000) / 4) .recordWr := by
  unfold wordWindows
  rw [if_neg (by omega), if_neg (by omega), if_neg (by omega), if_neg (by omega), if_pos h']

theorem wordWindows_above (h : 0x30800 ≤ a) : wordWindows p a = .refused := by
  unfold wordWindows
  rw [if_neg (by omega), if_neg (by omega), if_neg (by omega), if_neg (by omega), if_neg (by omega)]

end Windows

theorem wordTarget_refused {used i : Nat} (h : used ≤ i) (t : Nat → Target) : wordTarget used i t = .refused :=
  if_neg (Nat.not_lt.mpr h)

theorem wordTarget_cases (used i : Nat) (t : Nat → Target) :
    wordTarget used i t = .refused ∨ ∃ j, wordTarget used i t = t j := by
  unfold wordTarget
  split
  · exact .inr ⟨i, rfl⟩
  · exact .inl rfl

theorem byteTarget_refused {used a : Nat} {width : Width} (h : used ≤ a ∨ (width = .word ∧ a % 4 ≠ 0))
    (t : Nat → Target) : byteTarget used a width t = .refused := by
  cases width with
  | byte => exact if_neg (Nat.not_lt.mpr (h.resolve_right nofun))
  | word => exact if_neg fun ⟨h4, hle⟩ => by omega

theorem byteTarget_cases (used a : Nat) (width : Width) (t : Nat → Target) :
    byteTarget used a width t = .refused ∨ ∃ j, byteTarget used a width t = t j := by
  unfold byteTarget
  split <;> split
  · exact .inr ⟨a, rfl⟩
  · exact .inl rfl
  · exact .inr ⟨a, rfl⟩
  · exact .inl rfl

/-- An access below the byte windows is one to the 32-bit windows, or it is refused. -/
theorem target_below {p : Config.Params} {addr : Word} (h : addr.toNat < 0x01000000) (width : Width) :
    target p addr width = .refused ∨ target p addr width = wordWindows p addr.toNat := by
  cases width with
  | byte => exact .inl (target_narrow h (.inl rfl))
  | word =>
    by_cases h4 : addr.toNat % 4 = 0
    · exact .inr (target_word h h4)
    · exact .inl (target_narrow h (.inr h4))

theorem target_below_refused {p : Config.Params} {addr : Word} (h : addr.toNat < 0x01000000) (width : Width)
    (hw : wordWindows p addr.toNat = .refused) : target p addr width = .refused :=
  (target_below h width).elim id fun heq => heq.trans hw

theorem target_below_cases {p : Config.Params} {addr : Word} (h : addr.toNat < 0x01000000) (width : Width)
    {used i : Nat} {t : Nat → Target} (hw : wordWindows p addr.toNat = wordTarget used i t) :
    target p addr width = .refused ∨ ∃ j, target p addr width = t j := by
  rcases target_below h width with heq | heq
  · exact .inl heq
  · rw [heq, hw]
    exact wordTarget_cases used i t

/-! ### Ignored accesses (R112-R116) -/

theorem State.hostRead_refused {s : State} {addr : Word} {width : Width} (h : target s.params addr width = .refused) :
    s.hostRead addr width = { s with readData := 0#32, warn := s.warn ||| 0b100000#6 } := by
  unfold State.hostRead
  rw [h]
  rfl

theorem State.hostWrite_refused {s : State} {addr : Word} {width : Width} (h : target s.params addr width = .refused)
    (w : Word) : s.hostWrite addr width w = { s with warn := s.warn ||| 0b100000#6 } := by
  unfold State.hostWrite
  rw [h]
  rfl

/-- A write to a read-only window is ignored. -/
theorem State.hostWrite_readOnly {s : State} {addr : Word} {width : Width} {t : Nat → Target}
    (ht : t ∈ [Target.nalt, .record, .recordWr, .rbsp])
    (h : target s.params addr width = .refused ∨ ∃ j, target s.params addr width = t j) (w : Word) :
    s.hostWrite addr width w = { s with warn := s.warn ||| 0b100000#6 } := by
  rcases h with h | ⟨j, h⟩
  · exact State.hostWrite_refused h w
  · simp only [List.mem_cons, List.not_mem_nil, or_false] at ht
    unfold State.hostWrite
    rw [h]
    obtain rfl | rfl | rfl | rfl := ht <;> rfl

/-- A write to AU or USTORE is ignored while the block uses them (R115). -/
theorem State.hostWrite_frozen {s : State} {addr : Word} {width : Width} {t : Nat → Target} (hf : s.frozen = true)
    (ht : t ∈ [Target.au, .ustore])
    (h : target s.params addr width = .refused ∨ ∃ j, target s.params addr width = t j) (w : Word) :
    s.hostWrite addr width w = { s with warn := s.warn ||| 0b100000#6 } := by
  rcases h with h | ⟨j, h⟩
  · exact State.hostWrite_refused h w
  · simp only [List.mem_cons, List.not_mem_nil, or_false] at ht
    unfold State.hostWrite
    rw [h]
    obtain rfl | rfl := ht
    · exact if_pos hf
    · exact if_pos hf

theorem State.frozen_iff (s : State) : s.frozen = true ↔ s.block = .busy ∨ s.block = .paused := by
  unfold State.frozen
  rw [Bool.or_eq_true, beq_iff_eq, beq_iff_eq]

/-- The accesses that R112-R114 refuse, by address. -/
theorem target_refused {p : Config.Params} {addr : Word} {width : Width}
    (h : let a := addr.toNat
      ((a < 0x0A0 ∨ 0x1000 ≤ a) ∧ a < 0x01000000 ∧ (width = .byte ∨ a % 4 ≠ 0)) ∨
       (0x01000000 ≤ a ∧ a < 0x03000000 ∧ width = .word ∧ a % 4 ≠ 0) ∨
       (0x1000 + 16 * p.naltCap ≤ a ∧ a < 0x10000) ∨
       (0x10000 + 8 * p.ustoreCap ≤ a ∧ a < 0x20000) ∨
       (0x20000 + 4 * p.recCap ≤ a ∧ a < 0x30000) ∨
       (0x30000 + 4 * (p.recCap / 32) ≤ a ∧ a < 0x01000000) ∨
       (0x01000000 + p.auCap ≤ a ∧ a < 0x02000000) ∨
       (0x02000000 + p.rbspCap ≤ a)) : target p addr width = .refused := by
  rcases h with ⟨-, hlt, hnarrow⟩ | ⟨hge, hlt, hword, h4⟩ | ⟨hge, hlt⟩ | ⟨hge, hlt⟩ | ⟨hge, hlt⟩ | ⟨hge, hlt⟩ |
    ⟨hge, hlt⟩ | hge
  · exact target_narrow hlt hnarrow
  · by_cases hau : addr.toNat < 0x02000000
    · rw [target_au hge hau]
      exact byteTarget_refused (.inr ⟨hword, by omega⟩) _
    · rw [target_rbsp (by omega) hlt]
      exact byteTarget_refused (.inr ⟨hword, by omega⟩) _
  · refine target_below_refused (by omega) width ?_
    rw [wordWindows_nalt (by omega) hlt]
    exact wordTarget_refused (by omega) _
  · refine target_below_refused (by omega) width ?_
    rw [wordWindows_ustore (by omega) hlt]
    exact wordTarget_refused (by omega) _
  · refine target_below_refused (by omega) width ?_
    rw [wordWindows_record (by omega) hlt]
    exact wordTarget_refused (by omega) _
  · refine target_below_refused hlt width ?_
    by_cases hwr : addr.toNat < 0x30800
    · rw [wordWindows_recordWr (by omega) hwr]
      exact wordTarget_refused (by omega) _
    · exact wordWindows_above (by omega)
  · rw [target_au (by omega) hlt]
    exact byteTarget_refused (.inl (by omega)) _
  · by_cases hrbsp : addr.toNat < 0x03000000
    · rw [target_rbsp (by omega) hrbsp]
      exact byteTarget_refused (.inl (by omega)) _
    · exact target_above (by omega)

/-- Settles O8: the accesses that reach nothing, and the writes to what the host may not write. -/
theorem ignoredAccesses : Obligations.IgnoredAccesses := by
  refine ⟨fun s addr w width h _ => ?_, fun s addr w width _ h => ?_⟩
  · have href := target_refused h
    exact ⟨State.hostRead_refused href, State.hostWrite_refused href w⟩
  · rcases h with ⟨hblock, ⟨hge, hlt⟩ | ⟨hge, hlt⟩⟩ | ⟨hge, hlt⟩ | ⟨hge, hlt⟩ | ⟨hge, hlt⟩
    · exact State.hostWrite_frozen (t := .ustore) (s.frozen_iff.mpr hblock) (by simp)
        (target_below_cases (by omega) width (wordWindows_ustore hge hlt)) w
    · refine State.hostWrite_frozen (t := .au) (s.frozen_iff.mpr hblock) (by simp) ?_ w
      rw [target_au hge hlt]
      exact byteTarget_cases _ _ width .au
    · exact State.hostWrite_readOnly (t := .nalt) (by simp)
        (target_below_cases (by omega) width (wordWindows_nalt hge hlt)) w
    · by_cases hrec : addr.toNat < 0x30000
      · exact State.hostWrite_readOnly (t := .record) (by simp)
          (target_below_cases (by omega) width (wordWindows_record hge hrec)) w
      · exact State.hostWrite_readOnly (t := .recordWr) (by simp)
          (target_below_cases (by omega) width (wordWindows_recordWr (by omega) hlt)) w
    · refine State.hostWrite_readOnly (t := .rbsp) (by simp) ?_ w
      rw [target_rbsp hge hlt]
      exact byteTarget_cases _ _ width .rbsp

end Sys2Proof.Machine
end

section
/-!
PROOFS. The windows of the memories (20_memory.md R105-R108, R112, R117, R123): what a write to AU and USTORE changes, and
what a read of each window returns.
-/

namespace Sys2Proof.Machine

/-! ### Bytes and words -/

/-- A 32-bit write puts its bytes at four addresses, the low byte first (R112). -/
theorem Bank.read_writeBytes_word {b : Bank 8} (hb : b.wf = true) (a : Nat) (w : Word) (k : Nat) :
    (b.writeBytes a w .word).read k =
      if a ≤ k ∧ k < a + 4 then w.extractLsb' (8 * (k - a)) 8 else b.read k := by
  have h1 := Bank.write_wf hb a (w.extractLsb' 0 8)
  have h2 := Bank.write_wf h1 (a + 1) (w.extractLsb' 8 8)
  have h3 := Bank.write_wf h2 (a + 2) (w.extractLsb' 16 8)
  unfold Bank.writeBytes
  simp only
  by_cases hin : a ≤ k ∧ k < a + 4
  · rw [if_pos hin]
    obtain rfl | rfl | rfl | rfl : k = a ∨ k = a + 1 ∨ k = a + 2 ∨ k = a + 3 := by omega
    · rw [Bank.read_write_of_ne (by omega), Bank.read_write_of_ne (by omega), Bank.read_write_of_ne (by omega),
        Bank.read_write_self hb, Nat.sub_self]
    · rw [Bank.read_write_of_ne (by omega), Bank.read_write_of_ne (by omega), Bank.read_write_self h1,
        Nat.add_sub_cancel_left]
    · rw [Bank.read_write_of_ne (by omega), Bank.read_write_self h2, Nat.add_sub_cancel_left]
    · rw [Bank.read_write_self h3, Nat.add_sub_cancel_left]
  · rw [if_neg hin, Bank.read_write_of_ne (by omega), Bank.read_write_of_ne (by omega), Bank.read_write_of_ne (by omega),
      Bank.read_write_of_ne (by omega)]

theorem Bank.read_writeBytes_byte {b : Bank 8} (hb : b.wf = true) (a : Nat) (w : Word) (k : Nat) :
    (b.writeBytes a w .byte).read k = if k = a then w.extractLsb' 0 8 else b.read k := by
  unfold Bank.writeBytes
  by_cases h : k = a
  · rw [if_pos h, h]
    exact Bank.read_write_self hb a _
  · rw [if_neg h]
    exact Bank.read_write_of_ne h b _

/-- A byte is read zero-extended (log entry 22). -/
theorem Bank.readBytes_byte (b : Bank 8) (a : Nat) : b.readBytes a .byte = 0#24 ++ b.read a := by
  refine BitVec.eq_of_getLsbD_eq fun i hi => ?_
  show ((b.read a).setWidth 32).getLsbD i = _
  rw [BitVec.getLsbD_setWidth, BitVec.getLsbD_append]
  by_cases h : i < 8
  · simp [h, hi]
  · simp [h, BitVec.getLsbD_of_ge (b.read a) i (by omega)]

/-! ### Accesses by their target -/

section Access

variable {s : State} {addr : Word} {width : Width}

theorem State.hostWrite_au {a : Nat} (h : target s.params addr width = .au a) (hf : s.frozen = false) (w : Word) :
    s.hostWrite addr width w = { s with mem := { s.mem with au := s.mem.au.writeBytes a w width } } := by
  unfold State.hostWrite
  rw [h]
  exact if_neg (by rw [hf]; exact Bool.false_ne_true)

theorem State.hostWrite_ustore {i : Nat} (h : target s.params addr width = .ustore i) (hf : s.frozen = false) (w : Word) :
    s.hostWrite addr width w = { s with mem := { s.mem with ustore := s.mem.ustore.write i w } } := by
  unfold State.hostWrite
  rw [h]
  exact if_neg (by rw [hf]; exact Bool.false_ne_true)

theorem State.hostRead_au {a : Nat} (h : target s.params addr width = .au a) :
    s.hostRead addr width = { s with readData := s.mem.au.readBytes a width } := by
  unfold State.hostRead
  rw [h]
  rfl

theorem State.hostRead_ustore {i : Nat} (h : target s.params addr width = .ustore i) :
    s.hostRead addr width = { s with readData := s.mem.ustore.read i } := by
  unfold State.hostRead
  rw [h]
  rfl

/-- While not BUSY the block owns nothing that a host reads (R117). -/
theorem State.returnsOwned_idle (hidle : s.block ≠ .busy) (w : Word) :
    s.returnsOwned width w = { s with readData := w } :=
  if_neg hidle

theorem State.hostRead_rbsp {a : Nat} (h : target s.params addr width = .rbsp a) (hidle : s.block ≠ .busy) :
    s.hostRead addr width = { s with readData := s.mem.rbsp.readBytes a width } := by
  unfold State.hostRead
  rw [h]
  exact State.returnsOwned_idle hidle _

theorem State.hostRead_nalt {i : Nat} (h : target s.params addr width = .nalt i) (hidle : s.block ≠ .busy) :
    s.hostRead addr width = { s with readData := s.mem.nalt.read i } := by
  unfold State.hostRead
  rw [h]
  exact State.returnsOwned_idle hidle _

theorem State.hostRead_record {i : Nat} (h : target s.params addr width = .record i) (hidle : s.block ≠ .busy) :
    s.hostRead addr width = { s with readData := s.mem.record.read i } := by
  unfold State.hostRead
  rw [h]
  exact State.returnsOwned_idle hidle _

theorem State.hostRead_recordWr {m : Nat} (h : target s.params addr width = .recordWr m) (hidle : s.block ≠ .busy) :
    s.hostRead addr width = { s with readData := s.mem.recordWrWord m } := by
  unfold State.hostRead
  rw [h]
  exact State.returnsOwned_idle hidle _

end Access

/-- The host may write AU and USTORE in IDLE and HALTED (R115). -/
theorem State.frozen_false {s : State} (h : s.block = .idle ∨ s.block = .halted) : s.frozen = false := by
  refine Bool.eq_false_iff.mpr fun hf => ?_
  rcases (s.frozen_iff).mp hf with hb | hb <;> rcases h with h | h <;> cases hb.symm.trans h

/-- The halves of a µop, written low half first (R107). -/
theorem Memory.uop_write {m : Memory} (hwf : m.ustore.wf = true) (j : Nat) (lo hi : Word) (k : Nat) :
    Memory.uop { m with ustore := (m.ustore.write (2 * j) lo).write (2 * j + 1) hi } k =
      if k = j then hi ++ lo else m.uop k := by
  unfold Memory.uop
  by_cases h : k = j
  · subst h
    rw [if_pos rfl, Bank.read_write_self (Bank.write_wf hwf _ _), Bank.read_write_of_ne (by omega),
      Bank.read_write_self hwf]
  · rw [if_neg h, Bank.read_write_of_ne (by omega), Bank.read_write_of_ne (by omega), Bank.read_write_of_ne (by omega),
      Bank.read_write_of_ne (by omega)]

/-- The two addresses of a µop in the USTORE window. -/
theorem target_uop {p : Config.Params} (hp : p.valid) {j : Nat} (hj : j < p.ustoreCap) :
    target p (BitVec.ofNat 32 (0x10000 + 8 * j)) .word = .ustore (2 * j) ∧
      target p (BitVec.ofNat 32 (0x10000 + 8 * j + 4)) .word = .ustore (2 * j + 1) := by
  obtain ⟨-, hustore, -⟩ := target_windows hp
  constructor
  · rw [show 0x10000 + 8 * j = 0x10000 + 4 * (2 * j) by omega]
    exact hustore _ (by omega)
  · rw [show 0x10000 + 8 * j + 4 = 0x10000 + 4 * (2 * j + 1) by omega]
    exact hustore _ (by omega)

theorem eq_one_iff_getLsbD (x : BitVec 1) : x.getLsbD 0 = true ↔ x = 1#1 := by
  revert x
  decide

/-- Settles O9: each access by the element it reaches. -/
theorem windowAccesses : Obligations.WindowAccesses := by
  refine ⟨fun s a w hp hwf hblock => ⟨fun h4 hle => ?_, fun hlt => ?_⟩, fun s j lo hi hp hwf hblock hj => ?_,
    fun s hp => ⟨fun a ha => ?_, fun a h4 ha => ?_, fun j hj => ?_⟩, fun s hp hidle => ⟨fun a ha => ?_, fun a h4 ha => ?_,
      fun k i hk hi => ?_, fun i hi => ?_, fun m hm => ?_⟩⟩
  · obtain ⟨-, hword, -, -⟩ := target_bytes hp
    exact ⟨_, State.hostWrite_au (hword a h4 hle) (State.frozen_false hblock) w, rfl,
      Bank.read_writeBytes_word hwf a w⟩
  · obtain ⟨hbyte, -, -, -⟩ := target_bytes hp
    exact ⟨_, State.hostWrite_au (hbyte a hlt) (State.frozen_false hblock) w, rfl, Bank.read_writeBytes_byte hwf a w⟩
  · obtain ⟨hlow, hhigh⟩ := target_uop hp hj
    have hf := State.frozen_false hblock
    rw [State.hostWrite_ustore hlow hf lo]
    exact ⟨_, State.hostWrite_ustore (s := { s with mem := { s.mem with ustore := s.mem.ustore.write (2 * j) lo } })
      hhigh hf hi, rfl, Memory.uop_write hwf j lo hi⟩
  · obtain ⟨hbyte, -, -, -⟩ := target_bytes hp
    rw [State.hostRead_au (hbyte a ha), Bank.readBytes_byte]
  · obtain ⟨-, hword, -, -⟩ := target_bytes hp
    exact State.hostRead_au (hword a h4 ha)
  · obtain ⟨hlow, hhigh⟩ := target_uop hp hj
    obtain ⟨hlo, hhi⟩ := s.mem.uop_halves j
    rw [hlo, hhi]
    exact ⟨State.hostRead_ustore hlow, State.hostRead_ustore hhigh⟩
  · obtain ⟨-, -, hbyte, -⟩ := target_bytes hp
    rw [State.hostRead_rbsp (hbyte a ha) hidle, Bank.readBytes_byte]
  · obtain ⟨-, -, -, hword⟩ := target_bytes hp
    exact State.hostRead_rbsp (hword a h4 ha) hidle
  · obtain ⟨hnalt, -⟩ := target_windows hp
    rw [show 0x1000 + 16 * k + 4 * i = 0x1000 + 4 * (4 * k + i) by omega]
    exact State.hostRead_nalt (hnalt _ (by omega)) hidle
  · obtain ⟨-, -, hrecord, -⟩ := target_windows hp
    exact State.hostRead_record (hrecord i hi) hidle
  · obtain ⟨-, -, -, hrecordWr⟩ := target_windows hp
    refine ⟨_, State.hostRead_recordWr (hrecordWr m hm) hidle, rfl, fun b hb => ?_⟩
    rw [← eq_one_iff_getLsbD, ← s.mem.recordWrWord_getLsbD m b hb]

end Sys2Proof.Machine
end
